-- ==== Sys2Proof/Word.lean ====
section
/-! DEFINITION. The widths of HCC's values and the element types of its memories (00_scope.md R7, R10; 10_state.md R46, R47, R50). -/

namespace Sys2Proof

/-- A control register, a host address, a command word, a text word (R7, R22, R60, R90). -/
abbrev Word := BitVec 32

/-- A byte of BLOB or PK (R7). -/
abbrev Byte := BitVec 8

/-- A node id; 0 means "no node" (R7, R47). -/
abbrev NodeId := BitVec 24

/-- A symbol: a Unicode code point value (R7, R44). -/
abbrev Symbol := BitVec 21

/-- A bit string, first bit first (R10). -/
abbrev BitString := List Bool

/-- The node state of a node that is allocated, not in the queue and has no parent (R47). -/
abbrev stDetached : BitVec 2 := 1#2

/-- The node state of a node whose id is in HEAP (R47). -/
abbrev stQueued : BitVec 2 := 2#2

/-- The node state of a node that is the left or right child of another (R47). -/
abbrev stChild : BitVec 2 := 3#2

/-- SYM_MAX, the largest legal symbol value (R6). -/
abbrev symMax : Nat := 0x10FFFF

/-- HDR_LEN, the bytes of the container's fixed part (R6, R190). -/
abbrev hdrLen : Nat := 17

/-- An entry of the frequency table (R46). -/
structure FtEntry where
  sym : Symbol
  cnt : Word
  deriving DecidableEq, Repr

/-- An entry of the tree-node memory (R47). -/
structure Node where
  st : BitVec 2
  leaf : Bool
  sym : Symbol
  w : Word
  l : NodeId
  r : NodeId
  deriving DecidableEq, Repr

/-- An entry of the code table (R50). `code` holds the bits at positions below `len`; the positions at and after `len`
of the LEN_MAX-bit vector hold 0 and are not listed. -/
structure CtEntry where
  sym : Symbol
  len : BitVec 24
  code : BitString
  deriving DecidableEq, Repr

end Sys2Proof
end

