-- ==== Sys2Proof/Config.lean ====
section
/-! DEFINITION. What an implementation of HCC fixes: the four capacities and what is derived from them (00_scope.md R6); and the free values (10_state.md R54). -/

namespace Sys2Proof

/-- The four capacity parameters (R6). They are readable at CSR 0x18 to 0x1B (R42), so State holds them. -/
structure Config where
  kMax : Nat
  nMax : Nat
  pMax : Nat
  bMax : Nat
  deriving DecidableEq, Repr

namespace Config

/-- NODE_MAX, the largest node id (R6). -/
def nodeMax (c : Config) : Nat := 2 * c.kMax - 1

/-- LEN_MAX, the longest code in bits (R6). -/
def lenMax (c : Config) : Nat := max 1 (c.kMax - 1)

/-- STK_MAX, the entries of the traversal stack (R6). -/
def stkMax (c : Config) : Nat := c.kMax

/-- CT_STRIDE, the host-visible words of a code-table entry: 2 + ceil(LEN_MAX / 32) (R6). -/
def ctStride (c : Config) : Nat := 2 + (c.lenMax + 31) / 32

/-- The constraints of R6 on the parameters. -/
abbrev Legal (c : Config) : Prop :=
  (1 ≤ c.kMax ∧ c.kMax ≤ 2 ^ 23 ∧ c.ctStride * c.kMax ≤ 2 ^ 28) ∧ (1 ≤ c.nMax ∧ c.nMax ≤ 2 ^ 28) ∧
    (1 ≤ c.pMax ∧ c.pMax ≤ 2 ^ 28) ∧ (17 ≤ c.bMax ∧ c.bMax ≤ 2 ^ 28)

/-- The reference configuration (R6). -/
def reference : Config := { kMax := 256, nMax := 65536, pMax := 65536, bMax := 66832 }

/-- DESIGN CHOICE (log 2; safe): a free value of `w` bits, the one of draw number `n`. It has no body, so nothing can be
proved of it: a read of a memory element that nothing has written since reset returns one (R54). -/
opaque freeValue : (w : Nat) → Nat → BitVec w

end Config

end Sys2Proof
end

