-- ==== Sys2Proof/Syntax.lean ====
section
/-! DEFINITION. The 21 commands with their operands, one constructor per row of spec/opcode_table.json (30_encoding.md R94). -/

namespace Sys2Proof

/-- A command. Format N carries a node id (R92), format B a length and a field of bits (R93), format Z nothing (R91). -/
inductive Instr where
  | nop
  | clear
  | pqInsert (n : NodeId)
  | pqExtract
  | freq
  | leaves
  | combine
  | build
  | setRoot (n : NodeId)
  | codegen
  | encode
  | pkInit
  | pkPush (len : BitVec 5) (bits : BitVec 16)
  | pkFlush
  | upInit
  | upPop
  | decode
  | serialize
  | parse
  | compress
  | decompress
  deriving DecidableEq, Repr

end Sys2Proof
end

