-- ==== Sys2Proof/WellFormed.lean ====
section
/-! DEFINITION. Which instruction terms have an encoding (30_encoding.md R91 to R93). -/

namespace Sys2Proof

/-- The value conditions R93 puts on format B: `len` is 1 to 16 and no bit of `bits` stands at or above `len`. -/
def formatBOk (len : BitVec 5) (bits : BitVec 16) : Bool :=
  decide (1 ≤ len.toNat) && decide (len.toNat ≤ 16) && decide (bits.toNat >>> len.toNat = 0)

/-- A term is well formed when some command word stands for it: always in formats Z and N (R91, R92), by the conditions
of R93 in format B. -/
def Instr.wf : Instr → Bool
  | .nop => true
  | .clear => true
  | .pqInsert _ => true
  | .pqExtract => true
  | .freq => true
  | .leaves => true
  | .combine => true
  | .build => true
  | .setRoot _ => true
  | .codegen => true
  | .encode => true
  | .pkInit => true
  | .pkPush len bits => formatBOk len bits
  | .pkFlush => true
  | .upInit => true
  | .upPop => true
  | .decode => true
  | .serialize => true
  | .parse => true
  | .compress => true
  | .decompress => true

end Sys2Proof
end

