-- ==== Sys2Proof/Decode.lean ====
section
/-! DEFINITION. The decoder of command words, total, rejecting by name (30_encoding.md R95, R96), and the encoder (R91 to R94). -/

namespace Sys2Proof

/-- Why a word is an illegal command (R96). -/
inductive IllegalWord where
  /-- The opcode is in no row of R94. -/
  | unassignedOpcode
  /-- A must-be-zero field (bits 23:0 of format Z, 23:21 of format B) is not zero. -/
  | nonzeroField
  /-- `len` of format B is not in 1 to 16. -/
  | badLength
  /-- A bit of `bits` stands at or above `len`. -/
  | badBits
  deriving DecidableEq, Repr

/-- What `Decode` returns: a command with its operands, or `illegal` (R95). -/
inductive Decoded where
  | command (i : Instr)
  | illegal (why : IllegalWord)
  deriving DecidableEq, Repr

/-- Bits 31:24 (R90). -/
def opcodeField (w : Word) : BitVec 8 := w.extractLsb' 24 8

/-- Bits 23:0: the zero field of format Z, `n` of format N (R91, R92). -/
def lowField (w : Word) : BitVec 24 := w.extractLsb' 0 24

/-- Bits 23:21, the zero field of format B (R93). -/
def zeroFieldB (w : Word) : BitVec 3 := w.extractLsb' 21 3

/-- Bits 20:16, `len` of format B (R93). -/
def lenField (w : Word) : BitVec 5 := w.extractLsb' 16 5

/-- Bits 15:0, `bits` of format B (R93). -/
def bitsField (w : Word) : BitVec 16 := w.extractLsb' 0 16

/-- The rows of R94 in format Z: opcode and command. -/
def formatZ : List (BitVec 8 × Instr) :=
  [(0x00#8, .nop), (0x01#8, .clear), (0x11#8, .pqExtract), (0x20#8, .freq), (0x21#8, .leaves), (0x22#8, .combine),
   (0x23#8, .build), (0x30#8, .codegen), (0x31#8, .encode), (0x40#8, .pkInit), (0x42#8, .pkFlush), (0x48#8, .upInit),
   (0x49#8, .upPop), (0x4A#8, .decode), (0x50#8, .serialize), (0x51#8, .parse), (0x60#8, .compress),
   (0x61#8, .decompress)]

/-- The command of format Z with this opcode, if there is one. -/
def lookupZ (op : BitVec 8) : Option Instr := formatZ.lookup op

/-- Format B (R93, R95). -/
def decodeB (w : Word) : Decoded :=
  if zeroFieldB w ≠ 0#3 then .illegal .nonzeroField
  else if (lenField w).toNat < 1 ∨ 16 < (lenField w).toNat then .illegal .badLength
  else if (bitsField w).toNat >>> (lenField w).toNat ≠ 0 then .illegal .badBits
  else .command (.pkPush (lenField w) (bitsField w))

/-- `Decode(w)` (R95). -/
def decodeWord (w : Word) : Decoded :=
  match lookupZ (opcodeField w) with
  | some i => if lowField w ≠ 0#24 then .illegal .nonzeroField else .command i
  | none =>
    if opcodeField w = 0x10#8 then .command (.pqInsert (lowField w))
    else if opcodeField w = 0x24#8 then .command (.setRoot (lowField w))
    else if opcodeField w = 0x41#8 then decodeB w
    else .illegal .unassignedOpcode

/-- A word of format Z (R91). -/
def encodeZ (op : BitVec 8) : Word := op ++ 0#24

/-- A word of format N (R92). -/
def encodeN (op : BitVec 8) (n : NodeId) : Word := op ++ n

/-- A word of format B (R93). -/
def encodeB (op : BitVec 8) (len : BitVec 5) (bits : BitVec 16) : Word := op ++ 0#3 ++ len ++ bits

/-- The word of a well-formed command (R91 to R94). -/
def encodeInstr : Instr → Word
  | .nop => encodeZ 0x00#8
  | .clear => encodeZ 0x01#8
  | .pqInsert n => encodeN 0x10#8 n
  | .pqExtract => encodeZ 0x11#8
  | .freq => encodeZ 0x20#8
  | .leaves => encodeZ 0x21#8
  | .combine => encodeZ 0x22#8
  | .build => encodeZ 0x23#8
  | .setRoot n => encodeN 0x24#8 n
  | .codegen => encodeZ 0x30#8
  | .encode => encodeZ 0x31#8
  | .pkInit => encodeZ 0x40#8
  | .pkPush len bits => encodeB 0x41#8 len bits
  | .pkFlush => encodeZ 0x42#8
  | .upInit => encodeZ 0x48#8
  | .upPop => encodeZ 0x49#8
  | .decode => encodeZ 0x4A#8
  | .serialize => encodeZ 0x50#8
  | .parse => encodeZ 0x51#8
  | .compress => encodeZ 0x60#8
  | .decompress => encodeZ 0x61#8

/-- The instruction the decoder reads from the opcode table's bits: one word, the table's bit 0 the word's bit 0. -/
def decodeTableWord (nbits w : Nat) : Option Instr :=
  match decodeWord (BitVec.ofNat 32 (w % 2 ^ nbits)) with
  | .command i => some i
  | .illegal _ => none

end Sys2Proof
end

