-- ==== Sys2Proof/Machine/Memory.lean ====
section
/-! DEFINITION. A memory as plain data: the elements written since reset, by index, in one canonical form (10_state.md R43, R54). -/

namespace Sys2Proof.Machine

/-- A memory of elements of one type: the pairs (index, element) of what has been written since reset, indices strictly
rising. An index not listed has not been written (R54; log 2). A memory of bytes is a list of Host.Cell. -/
abbrev Memory (α : Type) := List (Nat × α)

/-- The canonical form: indices strictly rising. An unlisted index reads as a free value, so no listed element can equal
what an unlisted index reads as. -/
abbrev Memory.wf {α : Type} (m : Memory α) : Prop := m.Pairwise fun a b => a.1 < b.1

/-- Every listed index lies in `lo` to `hi - 1`: the memory has no other elements (R43). -/
abbrev Memory.within {α : Type} (lo hi : Nat) (m : Memory α) : Prop := ∀ c ∈ m, lo ≤ c.1 ∧ c.1 < hi

/-- The element at index `i`, if it has been written since reset. -/
def Memory.get? {α : Type} : Memory α → Nat → Option α
  | [], _ => none
  | (j, a) :: m, i => if j = i then some a else Memory.get? m i

/-- Write one element, keeping the canonical form. -/
def Memory.put {α : Type} : Memory α → Nat → α → Memory α
  | [], i, a => [(i, a)]
  | (j, b) :: m, i, a =>
    if i < j then (i, a) :: (j, b) :: m
    else if i = j then (i, a) :: m
    else (j, b) :: Memory.put m i a

/-- Write element `i` of a memory whose elements are `lo` to `hi - 1`. DESIGN CHOICE (log 4): an index the memory does not have
has no element to hold the value, and the write changes nothing; no run reaches such a write (R53, R55). -/
def Memory.store {α : Type} (lo hi : Nat) (m : Memory α) (i : Nat) (a : α) : Memory α :=
  if lo ≤ i ∧ i < hi then m.put i a else m

end Sys2Proof.Machine
end

