-- ==== Sys2Proof/Machine/State.lean ====
section
/-! DEFINITION. The state of HCC as plain data (10_state.md R22 to R51), the machine after reset (R54), and the two ways a step can stop. -/

namespace Sys2Proof.Machine

/-- What the outside world can do to HCC: the two transactions of the host port (20_memory.md R60) and the reset event
(70_reset_and_hazards.md R260). -/
inductive HostTx where
  | read (addr : Word)
  | write (addr v : Word)
  | reset
  deriving DecidableEq, Repr

/-- The answer to a transaction: `ok` of a write, `(ok, data)` of a read, or `bus_error` (20_memory.md R60). -/
inductive Reply where
  | done
  | data (v : Word)
  | busError
  deriving DecidableEq, Repr

/-- The ten fault codes (60_exceptions.md R231). -/
inductive FaultCode where
  | malformed
  | corruptTree
  | truncated
  | illegal
  | capacity
  | badSymbol
  | badNode
  | empty
  | noCode
  | seq
  deriving DecidableEq, Repr

/-- The ways the MODEL stops. HCC's own faults (FaultCode) are no stop: they are a next state with ERR written (R232). -/
inductive Fault where
  /-- Raised by CODEGEN, SERIALIZE and COMPRESS when the walk from ROOT visits more than NODE_MAX nodes, so that NODE holds no
  tree there: the rule's own loop would not end on a cycle (log 5). No run from reset reaches it (R53 items 3, 4). Safe. -/
  | walkNotTree
  deriving DecidableEq, Repr

/-- The ways the model gives no meaning. -/
inductive Refusal where
  /-- Raised by an arm of exec whose instruction has no meaning yet. No arm does. Safe. -/
  | notModelled (mnemonic : String)
  deriving DecidableEq, Repr

/-- The state of HCC. Every control register of R22 but CMD, which stores nothing (R23); the seven memories of R43; and three
fields of the model's own at the end. -/
structure State where
  /-- CFG_K_MAX, CFG_N_MAX, CFG_P_MAX, CFG_B_MAX (R42). -/
  cfg : Config
  /-- ERR.CODE (R24). -/
  err : BitVec 8
  /-- ERR_INFO (R25). -/
  errInfo : Word
  /-- ERR_CMD (R26). -/
  errCmd : Word
  /-- FLAGS.QE (R27). -/
  qe : Bool
  /-- FLAGS.BE (R27). -/
  be : Bool
  /-- RES (R28). -/
  res : Word
  /-- TEXT_LEN (R29). -/
  textLen : Word
  /-- BLOB_LEN (R30). -/
  blobLen : Word
  /-- FT_CNT (R31). -/
  ftCnt : Word
  /-- NODE_CNT (R32). -/
  nodeCnt : Word
  /-- PQ_CNT (R33). -/
  pqCnt : Word
  /-- ROOT (R34). -/
  root : NodeId
  /-- CT_CNT (R35). -/
  ctCnt : Word
  /-- PK_LEN (R36). -/
  pkLen : Word
  /-- PAD (R37). -/
  pad : BitVec 3
  /-- ORIG_LEN (R38). -/
  origLen : Word
  /-- STG.BITS (R39). -/
  stgBits : Byte
  /-- STG.CNT (R39). -/
  stgCnt : BitVec 3
  /-- UP_BYTE (R40). -/
  upByte : Word
  /-- UP_BIT (R41). -/
  upBit : BitVec 3
  /-- TEXT (R44). -/
  text : Memory Word
  /-- BLOB (R45). -/
  blob : Memory Byte
  /-- FT (R46). -/
  ft : Memory FtEntry
  /-- NODE, ids from 1 (R47). -/
  node : Memory Node
  /-- HEAP (R48). -/
  heap : Memory NodeId
  /-- CT (R50). -/
  ct : Memory CtEntry
  /-- PK (R51). -/
  pk : Memory Byte
  /-- The model's own: the transactions and reset events still to come, oldest first (log 3). -/
  inbox : List HostTx
  /-- The model's own: the port's answer to the last transaction, none before the first and after a reset (log 3). -/
  reply : Option Reply
  /-- The model's own: the number of the next free value (log 2). -/
  draws : Nat
  deriving DecidableEq, Repr

/-- HCC right after reset in configuration `c` (R54): every register 0 but the four constants, no element of a memory
written. -/
def State.resetIn (c : Config) : State :=
  { cfg := c, err := 0#8, errInfo := 0#32, errCmd := 0#32, qe := false, be := false, res := 0#32, textLen := 0#32,
    blobLen := 0#32, ftCnt := 0#32, nodeCnt := 0#32, pqCnt := 0#32, root := 0#24, ctCnt := 0#32, pkLen := 0#32, pad := 0#3,
    origLen := 0#32, stgBits := 0#8, stgCnt := 0#3, upByte := 0#32, upBit := 0#3, text := [], blob := [], ft := [],
    node := [], heap := [], ct := [], pk := [], inbox := [], reply := none, draws := 0 }

/-- HCC right after reset. DESIGN CHOICE (log 1; unsafe for a claim about this one state): in the reference
configuration of R6, since the spec leaves the four capacities open. -/
def State.reset : State := State.resetIn Config.reference

end Sys2Proof.Machine
end

