-- ==== Sys2Proof/Machine/Ops.lean ====
section
/-! DEFINITION. The primitives of the command rules (00_scope.md R11, R12), the accesses to the seven memories, the fault entry
(60_exceptions.md R232) and the ways back (R234). -/

namespace Sys2Proof.Machine

/-! ### The primitives of R11 -/

/-- Why a command's rule stops before its end: a `raise` of the rule (R11), or the model's own stop. -/
inductive Stop where
  | raise (code : FaultCode) (info : Nat)
  | stuck (reason : Fault)
  deriving DecidableEq, Repr

/-- A command rule, or a helper procedure that returns a value. Lines run in order, a write is visible to every later line,
and a stop keeps every write made before it (R12). -/
abbrev Cmd (α : Type) := EStateM Stop State α

/-- `csr.X`: a value read off the control registers and constants (R11). -/
def Cmd.csr {α : Type} (f : State → α) : Cmd α := fun s => .ok (f s) s

/-- `csr.X <- v` (R11). -/
def Cmd.update (f : State → State) : Cmd Unit := fun s => .ok () (f s)

/-- `raise E_X(info)` (R11). -/
def Cmd.raise {α : Type} (code : FaultCode) (info : Nat) : Cmd α := fun s => .error (.raise code info) s

/-- The model's own stop. -/
def Cmd.stuck {α : Type} (reason : Fault) : Cmd α := fun s => .error (.stuck reason) s

/-- `if c: raise E_X(info)`. -/
def Cmd.raiseIf (c : Prop) [Decidable c] (code : FaultCode) (info : Nat) : Cmd Unit :=
  if c then Cmd.raise code info else pure ()

/-- `for i in a .. a + n - 1`: the body at `a`, `a + 1`, ... in order, `n` times (R11). -/
def Cmd.forFrom (body : Nat → Cmd Unit) : (n : Nat) → (a : Nat) → Cmd Unit
  | 0, _ => pure ()
  | n + 1, a => do
    body a
    Cmd.forFrom body n (a + 1)

/-- The body once for each bit of a bit string, first bit first. -/
def Cmd.forBits (body : Bool → Cmd Unit) : BitString → Cmd Unit
  | [] => pure ()
  | b :: bs => do
    body b
    Cmd.forBits body bs

/-- The smallest `j` in `a .. a + n - 1` for which the test answers true, if there is one. -/
def Cmd.findFrom (test : Nat → Cmd Bool) : (n : Nat) → (a : Nat) → Cmd (Option Nat)
  | 0, _ => pure none
  | n + 1, a => do
    let hit ← test a
    if hit then pure (some a) else Cmd.findFrom test n (a + 1)

/-! ### Free values (10_state.md R54; log 2) -/

/-- An unwritten entry of FT. -/
def freeFt (n : Nat) : FtEntry :=
  let v := Config.freeValue 53 n
  { sym := v.extractLsb' 32 21, cnt := v.extractLsb' 0 32 }

/-- An unwritten entry of NODE. -/
def freeNode (n : Nat) : Node :=
  let v := Config.freeValue 104 n
  { st := v.extractLsb' 102 2, leaf := v.getLsbD 101, sym := v.extractLsb' 80 21, w := v.extractLsb' 48 32,
    l := v.extractLsb' 24 24, r := v.extractLsb' 0 24 }

/-- An unwritten entry of CT: LEN_MAX bits of code, of which `len` are looked at. -/
def freeCt (c : Config) (n : Nat) : CtEntry :=
  let v := Config.freeValue (45 + c.lenMax) n
  { sym := v.extractLsb' 0 21, len := v.extractLsb' 21 24, code := (List.range c.lenMax).map fun k => v.getLsbD (45 + k) }

/-- Read one element: the one written last, or a free value, a new one at each read (R54, R62; log 2). -/
def readElem {α : Type} (mem : State → Memory α) (free : State → α) (i : Nat) (s : State) : α × State :=
  match (mem s).get? i with
  | some a => (a, s)
  | none => (free s, { s with draws := s.draws + 1 })

/-! ### The seven memories (R43) -/

/-- TEXT[i]. -/
def textAt (i : Nat) : State → Word × State := readElem (·.text) (fun s => Config.freeValue 32 s.draws) i

/-- BLOB[i]. -/
def blobAt (i : Nat) : State → Byte × State := readElem (·.blob) (fun s => Config.freeValue 8 s.draws) i

/-- FT[j]. -/
def ftAt (j : Nat) : State → FtEntry × State := readElem (·.ft) (fun s => freeFt s.draws) j

/-- NODE[id]. -/
def nodeAt (id : Nat) : State → Node × State := readElem (·.node) (fun s => freeNode s.draws) id

/-- HEAP[i]. -/
def heapAt (i : Nat) : State → NodeId × State := readElem (·.heap) (fun s => Config.freeValue 24 s.draws) i

/-- CT[j]. -/
def ctAt (j : Nat) : State → CtEntry × State := readElem (·.ct) (fun s => freeCt s.cfg s.draws) j

/-- PK[i]. -/
def pkAt (i : Nat) : State → Byte × State := readElem (·.pk) (fun s => Config.freeValue 8 s.draws) i

/-- TEXT[i] inside a command. -/
def readText (i : Nat) : Cmd Word := fun s => .ok (textAt i s).1 (textAt i s).2

/-- BLOB[i] inside a command. -/
def readBlob (i : Nat) : Cmd Byte := fun s => .ok (blobAt i s).1 (blobAt i s).2

/-- FT[j] inside a command. -/
def readFt (j : Nat) : Cmd FtEntry := fun s => .ok (ftAt j s).1 (ftAt j s).2

/-- NODE[id] inside a command. -/
def readNode (id : NodeId) : Cmd Node := fun s => .ok (nodeAt id.toNat s).1 (nodeAt id.toNat s).2

/-- HEAP[i] inside a command. -/
def readHeap (i : Nat) : Cmd NodeId := fun s => .ok (heapAt i s).1 (heapAt i s).2

/-- CT[j] inside a command. -/
def readCt (j : Nat) : Cmd CtEntry := fun s => .ok (ctAt j s).1 (ctAt j s).2

/-- PK[i] inside a command. -/
def readPk (i : Nat) : Cmd Byte := fun s => .ok (pkAt i s).1 (pkAt i s).2

/-- TEXT[i] <- v. -/
def State.storeText (s : State) (i : Nat) (v : Word) : State := { s with text := s.text.store 0 s.cfg.nMax i v }

/-- BLOB[i] <- v. -/
def State.storeBlob (s : State) (i : Nat) (v : Byte) : State := { s with blob := s.blob.store 0 s.cfg.bMax i v }

/-- FT[j] <- e. -/
def State.storeFt (s : State) (j : Nat) (e : FtEntry) : State := { s with ft := s.ft.store 0 s.cfg.kMax j e }

/-- NODE[id] <- n; ids run from 1 to NODE_MAX. -/
def State.storeNode (s : State) (id : NodeId) (n : Node) : State :=
  { s with node := s.node.store 1 (s.cfg.nodeMax + 1) id.toNat n }

/-- HEAP[i] <- id. -/
def State.storeHeap (s : State) (i : Nat) (id : NodeId) : State := { s with heap := s.heap.store 0 s.cfg.kMax i id }

/-- CT[j] <- e. -/
def State.storeCt (s : State) (j : Nat) (e : CtEntry) : State := { s with ct := s.ct.store 0 s.cfg.kMax j e }

/-- PK[i] <- v. -/
def State.storePk (s : State) (i : Nat) (v : Byte) : State := { s with pk := s.pk.store 0 s.cfg.pMax i v }

/-- TEXT[i] <- v inside a command. -/
def writeText (i : Nat) (v : Word) : Cmd Unit := Cmd.update (·.storeText i v)

/-- BLOB[i] <- v inside a command. -/
def writeBlob (i : Nat) (v : Byte) : Cmd Unit := Cmd.update (·.storeBlob i v)

/-- FT[j] <- e inside a command. -/
def writeFt (j : Nat) (e : FtEntry) : Cmd Unit := Cmd.update (·.storeFt j e)

/-- NODE[id] <- n inside a command. -/
def writeNode (id : NodeId) (n : Node) : Cmd Unit := Cmd.update (·.storeNode id n)

/-- HEAP[i] <- id inside a command. -/
def writeHeap (i : Nat) (id : NodeId) : Cmd Unit := Cmd.update (·.storeHeap i id)

/-- CT[j] <- e inside a command. -/
def writeCt (j : Nat) (e : CtEntry) : Cmd Unit := Cmd.update (·.storeCt j e)

/-- PK[i] <- v inside a command. -/
def writePk (i : Nat) (v : Byte) : Cmd Unit := Cmd.update (·.storePk i v)

/-- NODE[id].st <- v. -/
def setNodeSt (id : NodeId) (v : BitVec 2) : Cmd Unit := do
  let n ← readNode id
  writeNode id { n with st := v }

/-- NODE[id].l <- v. -/
def setNodeLeft (id v : NodeId) : Cmd Unit := do
  let n ← readNode id
  writeNode id { n with l := v }

/-- NODE[id].r <- v. -/
def setNodeRight (id v : NodeId) : Cmd Unit := do
  let n ← readNode id
  writeNode id { n with r := v }

/-! ### WorkClear, faults, recovery -/

/-- What WorkClear leaves (10_state.md R49). -/
def State.workCleared (s : State) : State :=
  { s with qe := false, be := false, res := 0#32, ftCnt := 0#32, nodeCnt := 0#32, pqCnt := 0#32, root := 0#24,
           ctCnt := 0#32, pkLen := 0#32, pad := 0#3, origLen := 0#32, stgBits := 0#8, stgCnt := 0#3, upByte := 0#32,
           upBit := 0#3 }

/-- `WorkClear()` (R49). -/
def workClear : Cmd Unit := Cmd.update State.workCleared

/-- The number of a fault code (60_exceptions.md R231). -/
def FaultCode.number : FaultCode → BitVec 8
  | .malformed => 1#8
  | .corruptTree => 2#8
  | .truncated => 3#8
  | .illegal => 4#8
  | .capacity => 5#8
  | .badSymbol => 6#8
  | .badNode => 7#8
  | .empty => 8#8
  | .noCode => 9#8
  | .seq => 10#8

/-- `Fault(code, info, w)`: taking the fault (R232). -/
def takeFault (code : FaultCode) (info : Nat) (w : Word) (s : State) : State :=
  { s with err := code.number, errInfo := BitVec.ofNat 32 info, errCmd := w }

/-- What CLEAR leaves: the return from a fault (R234; 45_codec_engine.md R211). -/
def State.cleared (s : State) : State :=
  { s.workCleared with err := 0#8, errInfo := 0#32, errCmd := 0#32, textLen := 0#32, blobLen := 0#32 }

/-- What the reset event leaves (70_reset_and_hazards.md R260): the state after reset in the same configuration. The host's
further transactions stay ahead, and the free values go on (log 2, log 6). -/
def State.afterReset (s : State) : State :=
  { State.resetIn s.cfg with inbox := s.inbox, draws := s.draws }

/-- Run the rule of the command whose word is `w`: a raise inside it ends in `Fault(code, info, w)` (30_encoding.md R97). -/
def runCommand (w : Word) (c : Cmd Unit) (s : State) : Host.Outcome State Fault Refusal :=
  match c s with
  | .ok _ t => .next t
  | .error (.raise code info) t => .next (takeFault code info w t)
  | .error (.stuck reason) _ => .fault reason

end Sys2Proof.Machine
end

