-- ==== Sys2Proof/Machine/Operands.lean ====
section
/-! DEFINITION. The operand forms of the commands (30_encoding.md R92, R93) and the bits of a symbol, a byte and a 32-bit field (R10, R73, R190, R191). -/

namespace Sys2Proof.Machine

/-- Format N: does `n` name an allocated node (40_priority_queue.md R112; 41_tree_builder.md R135)? -/
def allocated (n : NodeId) (s : State) : Prop := n ≠ 0#24 ∧ n.toNat ≤ s.nodeCnt.toNat

/-- Format B: the operand bit string `[bits[len-1], ..., bits[0]]` (30_encoding.md R93). -/
def operandBits (len : BitVec 5) (bits : BitVec 16) : BitString :=
  (List.range len.toNat).map fun k => bits.getLsbD (len.toNat - 1 - k)

/-- The bits of a code-table entry's code, `code[0]` to `code[len-1]`; a position the entry does not list holds 0 (10_state.md R50). -/
def entryBits (e : CtEntry) : BitString :=
  (List.range e.len.toNat).map fun k => e.code.getD k false

/-- `v[31:24]`, `v[23:16]`, `v[15:8]`, `v[7:0]`, most significant byte first (44_container.md R190). -/
def bytes32 (v : Word) : List Byte :=
  [v.extractLsb' 24 8, v.extractLsb' 16 8, v.extractLsb' 8 8, v.extractLsb' 0 8]

/-- `sym[20:16]`, `sym[15:8]`, `sym[7:0]` as bytes (44_container.md R191). -/
def symbolBytes (s : Symbol) : List Byte :=
  [(s.extractLsb' 16 5).setWidth 8, s.extractLsb' 8 8, s.extractLsb' 0 8]

/-- A big-endian field of four bytes (20_memory.md R73). -/
def join32 (a b c d : Byte) : Nat := a.toNat * 2 ^ 24 + b.toNat * 2 ^ 16 + c.toNat * 2 ^ 8 + d.toNat

/-- A big-endian field of three bytes (20_memory.md R73). -/
def join24 (a b c : Byte) : Nat := a.toNat * 2 ^ 16 + b.toNat * 2 ^ 8 + c.toNat

end Sys2Proof.Machine
end

