-- ==== Sys2Proof/Machine/Flags.lean ====
section
/-! DEFINITION. The two status flags of FLAGS: how each is computed, and the register as a word (10_state.md R27). -/

namespace Sys2Proof.Machine

/-- The FLAGS register: bit 0 QE, bit 1 BE, bits 31:2 zero (R27). -/
def State.flagsWord (s : State) : Word :=
  0#30 ++ BitVec.ofBool s.be ++ BitVec.ofBool s.qe

/-- PQ_EXTRACT's writes: QE and RES together (40_priority_queue.md R113). -/
def setQueueResult (empty : Bool) (res : Word) : Cmd Unit := Cmd.update fun s => { s with qe := empty, res := res }

/-- UP_POP's writes: BE and RES together (43_bit_packer.md R176). -/
def setBitResult (exhausted : Bool) (res : Word) : Cmd Unit := Cmd.update fun s => { s with be := exhausted, res := res }

end Sys2Proof.Machine
end

