-- ==== Sys2Proof/Machine/Packer.lean ====
section
/-! DEFINITION. The bit packer and unpacker: PK_INIT, PK_PUSH, PK_FLUSH, UP_INIT, UP_POP and their helpers (43_bit_packer.md). -/

namespace Sys2Proof.Machine

/-- `PkInit()` (R170). -/
def pkInit : Cmd Unit := Cmd.update fun s => { s with pkLen := 0#32, pad := 0#3, stgBits := 0#8, stgCnt := 0#3 }

/-- STG.BITS with one more bit: shift left, the new bit enters at bit 0 (R171). -/
def stageBit (bits : Byte) (b : Bool) : Byte := (bits <<< 1) ||| (BitVec.ofBool b).setWidth 8

/-- `PkPushBit(b)` (R171). The value 8 of CNT exists only inside the procedure: a push at CNT = 7 emits the byte. -/
def pkPushBit (b : Bool) : Cmd Unit := do
  let cnt ← Cmd.csr (·.stgCnt)
  let len ← Cmd.csr (·.pkLen.toNat)
  let most ← Cmd.csr (·.cfg.pMax)
  Cmd.raiseIf (cnt = 7#3 ∧ len = most) .capacity 7
  let bits ← Cmd.csr (·.stgBits)
  if cnt = 7#3 then do
    writePk len (stageBit bits b)
    Cmd.update fun s => { s with pkLen := s.pkLen + 1#32, stgBits := 0#8, stgCnt := 0#3 }
  else Cmd.update fun s => { s with stgBits := stageBit bits b, stgCnt := cnt + 1#3 }

/-- PK_PUSH len, bits (R172). -/
def pkPushRule (len : BitVec 5) (bits : BitVec 16) : Cmd Unit := do
  let pad ← Cmd.csr (·.pad)
  Cmd.raiseIf (pad ≠ 0#3) .seq pad.toNat
  Cmd.forBits pkPushBit (operandBits len bits)

/-- `PkFlush()` (R173). -/
def pkFlush : Cmd Unit := do
  let cnt ← Cmd.csr (·.stgCnt)
  if cnt ≠ 0#3 then do
    let len ← Cmd.csr (·.pkLen.toNat)
    let most ← Cmd.csr (·.cfg.pMax)
    Cmd.raiseIf (len = most) .capacity 7
    let bits ← Cmd.csr (·.stgBits)
    Cmd.update fun s => { s with pad := BitVec.ofNat 3 (8 - cnt.toNat) }
    writePk len (bits <<< (8 - cnt.toNat))
    Cmd.update fun s => { s with pkLen := s.pkLen + 1#32, stgBits := 0#8, stgCnt := 0#3 }
  else Cmd.update fun s => { s with pad := 0#3 }

/-- PK_FLUSH (R173). -/
def pkFlushRule : Cmd Unit := do
  let pad ← Cmd.csr (·.pad)
  Cmd.raiseIf (pad ≠ 0#3) .seq pad.toNat
  pkFlush

/-- `UpInit()` (R174). -/
def upInit : Cmd Unit := Cmd.update fun s => { s with upByte := 0#32, upBit := 0#3 }

/-- The unpacker's position, the index of the next bit (R41, R175). -/
def State.upPos (s : State) : Nat := 8 * s.upByte.toNat + s.upBit.toNat

/-- The length of the bit string PK holds (R37, R175). -/
def State.bitLen (s : State) : Nat := 8 * s.pkLen.toNat - s.pad.toNat

/-- The position after one more bit (R175). -/
def State.upNext (s : State) : State :=
  if s.upBit = 7#3 then { s with upBit := 0#3, upByte := s.upByte + 1#32 } else { s with upBit := s.upBit + 1#3 }

/-- `UpPop()` (R175): the next bit, or none when the bit string is exhausted. -/
def upPop : Cmd (Option Bool) := do
  let pos ← Cmd.csr State.upPos
  let len ← Cmd.csr State.bitLen
  if len ≤ pos then pure none
  else do
    let byte ← Cmd.csr (·.upByte.toNat)
    let bit ← Cmd.csr (·.upBit.toNat)
    let v ← readPk byte
    Cmd.update State.upNext
    pure (some (v.getLsbD (7 - bit)))

/-- UP_POP (R176). -/
def upPopRule : Cmd Unit := do
  let b ← upPop
  match b with
  | none => setBitResult true 0#32
  | some b => setBitResult false ((BitVec.ofBool b).setWidth 32)

/-- The meaning of PK_INIT (R170). -/
def execPkInit (s : State) : Host.Outcome State Fault Refusal := runCommand (encodeInstr .pkInit) pkInit s

/-- The meaning of PK_PUSH (R172). -/
def execPkPush (len : BitVec 5) (bits : BitVec 16) (s : State) : Host.Outcome State Fault Refusal :=
  runCommand (encodeInstr (.pkPush len bits)) (pkPushRule len bits) s

/-- The meaning of PK_FLUSH (R173). -/
def execPkFlush (s : State) : Host.Outcome State Fault Refusal := runCommand (encodeInstr .pkFlush) pkFlushRule s

/-- The meaning of UP_INIT (R174). -/
def execUpInit (s : State) : Host.Outcome State Fault Refusal := runCommand (encodeInstr .upInit) upInit s

/-- The meaning of UP_POP (R176). -/
def execUpPop (s : State) : Host.Outcome State Fault Refusal := runCommand (encodeInstr .upPop) upPopRule s

end Sys2Proof.Machine
end

