-- ==== Sys2Proof/Machine/Codes.lean ====
section
/-! DEFINITION. The tree-walk encoder: CODEGEN, ENCODE (42_code_table.md). -/

namespace Sys2Proof.Machine

/-- CT[csr.CT_CNT] <- e, and one more valid entry (R150). -/
def appendCt (e : CtEntry) : Cmd Unit := do
  let count ← Cmd.csr (·.ctCnt.toNat)
  writeCt count e
  Cmd.update fun s => { s with ctCnt := s.ctCnt + 1#32 }

/-- PATH after a node at depth `d` reached over an edge with bit `b` is popped: `if d > 0: PATH[d - 1] <- b`, positions
below `d - 1` as they were; positions at and above `d` are never read again before they are written (R150). -/
def pathTo (path : BitString) (d : Nat) (b : Bool) : BitString :=
  if 0 < d then path.take (d - 1) ++ [b] else path

/-- The walk of `CodeGen` over the stack STK of (node, depth, bit), top first (R150). The measure is the number of nodes a
walk over a tree can visit; a walk that outlasts it visits no tree (log 5). -/
def codeWalk : (fuel : Nat) → (stk : List (NodeId × Nat × Bool)) → (path : BitString) → Cmd Unit
  | _, [], _ => pure ()
  | 0, _ :: _, _ => Cmd.stuck .walkNotTree
  | fuel + 1, (n, d, b) :: stk, path => do
    let node ← readNode n
    if node.leaf then do
      appendCt { sym := node.sym, len := BitVec.ofNat 24 d, code := (pathTo path d b).take d }
      codeWalk fuel stk (pathTo path d b)
    else codeWalk fuel ((node.l, d + 1, false) :: (node.r, d + 1, true) :: stk) (pathTo path d b)

/-- `CodeGen()` (R150). -/
def codeGen : Cmd Unit := do
  let root ← Cmd.csr (·.root)
  Cmd.raiseIf (root = 0#24) .empty 0
  Cmd.update fun s => { s with ctCnt := 0#32 }
  let node ← readNode root
  if node.leaf then appendCt { sym := node.sym, len := 1#24, code := [false] }
  else do
    let most ← Cmd.csr (·.cfg.nodeMax)
    codeWalk most [(root, 0, false)] []

/-- One turn of `Encode`: push the code of the symbol at text index `i` (R151). -/
def encodeStep (i : Nat) : Cmd Unit := do
  let s ← readText i
  let count ← Cmd.csr (·.ctCnt.toNat)
  let found ← Cmd.findFrom (fun j => do
    let e ← readCt j
    pure (decide (e.sym.setWidth 32 = s))) count 0
  match found with
  | none => Cmd.raise .noCode i
  | some j => do
    let e ← readCt j
    Cmd.forBits pkPushBit (entryBits e)

/-- `Encode()` (R151). -/
def encodeText : Cmd Unit := do
  let len ← Cmd.csr (·.textLen.toNat)
  let most ← Cmd.csr (·.cfg.nMax)
  Cmd.raiseIf (most < len) .capacity 1
  pkInit
  Cmd.update fun s => { s with origLen := 0#32 }
  Cmd.forFrom encodeStep len 0
  pkFlush
  Cmd.update fun s => { s with origLen := s.textLen }

/-- The meaning of CODEGEN (R150). -/
def execCodegen (s : State) : Host.Outcome State Fault Refusal := runCommand (encodeInstr .codegen) codeGen s

/-- The meaning of ENCODE (R151). -/
def execEncode (s : State) : Host.Outcome State Fault Refusal := runCommand (encodeInstr .encode) encodeText s

end Sys2Proof.Machine
end

