-- ==== Sys2Proof/Machine/Queue.lean ====
section
/-! DEFINITION. The priority-queue arbiter: PQ_INSERT, PQ_EXTRACT and the helpers PqInsert, PqExtract (40_priority_queue.md). -/

namespace Sys2Proof.Machine

/-- `W(HEAP[i])`, the weight of the node at heap position `i` (00_scope.md R11). -/
def heapWeight (i : Nat) : Cmd Word := do
  let id ← readHeap i
  let n ← readNode id
  pure n.w

/-- `swap(HEAP[i], HEAP[j])`. -/
def swapHeap (i j : Nat) : Cmd Unit := do
  let a ← readHeap i
  let b ← readHeap j
  writeHeap i b
  writeHeap j a

/-- The sift-up loop of R110 from position `i`. The measure starts at the position itself, so it never runs out before the
loop ends (log 8). -/
def siftUp : (fuel : Nat) → (i : Nat) → Cmd Unit
  | 0, _ => pure ()
  | fuel + 1, i =>
    if i = 0 then pure ()
    else do
      let wi ← heapWeight i
      let wp ← heapWeight ((i - 1) / 2)
      if wi < wp then do
        swapHeap i ((i - 1) / 2)
        siftUp fuel ((i - 1) / 2)
      else pure ()

/-- `PqInsert(id)` (R110). -/
def pqInsert (id : NodeId) : Cmd Unit := do
  let n ← Cmd.csr (·.pqCnt.toNat)
  let k ← Cmd.csr (·.cfg.kMax)
  Cmd.raiseIf (n = k) .capacity 5
  writeHeap n id
  Cmd.update fun s => { s with pqCnt := s.pqCnt + 1#32 }
  setNodeSt id stQueued
  siftUp n n

/-- The position of the smaller of the weights at `s` and `c`, where `c` counts only below `n`; a tie stays at `s` (R111). -/
def smallerAt (n c s : Nat) : Cmd Nat :=
  if c < n then do
    let wc ← heapWeight c
    let ws ← heapWeight s
    pure (if wc < ws then c else s)
  else pure s

/-- The sift-down loop of R111 from position `i` in a heap of `n` elements. The measure starts at `n` and the position
rises, so it never runs out before the loop ends (log 8). -/
def siftDown (n : Nat) : (fuel : Nat) → (i : Nat) → Cmd Unit
  | 0, _ => pure ()
  | fuel + 1, i => do
    let s ← smallerAt n (2 * i + 1) i
    let s ← smallerAt n (2 * i + 2) s
    if s = i then pure ()
    else do
      swapHeap i s
      siftDown n fuel s

/-- The last element goes to the top and down to its place, when the queue of `n` elements is not empty (R111). -/
def refill (n : Nat) : Cmd Unit :=
  if 0 < n then do
    let last ← readHeap n
    writeHeap 0 last
    siftDown n n 0
  else pure ()

/-- `PqExtract()` (R111). -/
def pqExtract : Cmd NodeId := do
  let m ← readHeap 0
  Cmd.update fun s => { s with pqCnt := s.pqCnt - 1#32 }
  let n ← Cmd.csr (·.pqCnt.toNat)
  refill n
  setNodeSt m stDetached
  pure m

/-- PQ_INSERT n (R112). -/
def pqInsertRule (n : NodeId) : Cmd Unit := do
  let count ← Cmd.csr (·.nodeCnt.toNat)
  Cmd.raiseIf (n = 0#24 ∨ count < n.toNat) .badNode n.toNat
  let node ← readNode n
  Cmd.raiseIf (node.st ≠ stDetached) .badNode n.toNat
  let root ← Cmd.csr (·.root)
  Cmd.raiseIf (n = root) .badNode n.toNat
  pqInsert n

/-- PQ_EXTRACT (R113). -/
def pqExtractRule : Cmd Unit := do
  let count ← Cmd.csr (·.pqCnt)
  if count = 0#32 then setQueueResult true 0#32
  else do
    let m ← pqExtract
    setQueueResult false (m.setWidth 32)

/-- The meaning of PQ_INSERT (R112). -/
def execPqInsert (n : NodeId) (s : State) : Host.Outcome State Fault Refusal :=
  runCommand (encodeInstr (.pqInsert n)) (pqInsertRule n) s

/-- The meaning of PQ_EXTRACT (R113). -/
def execPqExtract (s : State) : Host.Outcome State Fault Refusal :=
  runCommand (encodeInstr .pqExtract) pqExtractRule s

end Sys2Proof.Machine
end

