-- ==== Sys2Proof/Machine/Builder.lean ====
section
/-! DEFINITION. The frequency counter and the tree builder: FREQ, LEAVES, COMBINE, BUILD, SET_ROOT and the helper NodeAlloc (41_tree_builder.md). -/

namespace Sys2Proof.Machine

/-- `NodeAlloc(leaf, sym, w, l, r)` (R130). -/
def nodeAlloc (leaf : Bool) (sym : Symbol) (w : Word) (l r : NodeId) : Cmd NodeId := do
  let count ← Cmd.csr (·.nodeCnt.toNat)
  let most ← Cmd.csr (·.cfg.nodeMax)
  Cmd.raiseIf (count = most) .capacity 4
  Cmd.update fun s => { s with nodeCnt := s.nodeCnt + 1#32 }
  let id ← Cmd.csr (·.nodeCnt.setWidth 24)
  writeNode id { st := stDetached, leaf := leaf, sym := sym, w := w, l := l, r := r }
  pure id

/-- One turn of the scan of `Freq`: count the symbol at text index `i` (R131). -/
def freqStep (i : Nat) : Cmd Unit := do
  let s ← readText i
  Cmd.raiseIf (symMax < s.toNat) .badSymbol i
  let count ← Cmd.csr (·.ftCnt.toNat)
  let found ← Cmd.findFrom (fun j => do
    let e ← readFt j
    pure (decide (e.sym.setWidth 32 = s))) count 0
  match found with
  | some j => do
    let e ← readFt j
    writeFt j { e with cnt := e.cnt + 1#32 }
  | none => do
    let k ← Cmd.csr (·.cfg.kMax)
    Cmd.raiseIf (count = k) .capacity 3
    writeFt count { sym := s.setWidth 21, cnt := 1#32 }
    Cmd.update fun s => { s with ftCnt := s.ftCnt + 1#32 }

/-- `Freq()` (R131). -/
def freq : Cmd Unit := do
  let len ← Cmd.csr (·.textLen.toNat)
  let most ← Cmd.csr (·.cfg.nMax)
  Cmd.raiseIf (most < len) .capacity 1
  Cmd.update fun s => { s with ftCnt := 0#32 }
  Cmd.forFrom freqStep len 0

/-- One turn of the loop of `Leaves`: the leaf of frequency-table entry `j` (R132). -/
def leafStep (j : Nat) : Cmd Unit := do
  let e ← readFt j
  let id ← nodeAlloc true e.sym e.cnt 0#24 0#24
  pqInsert id

/-- `Leaves()` (R132). -/
def leaves : Cmd Unit := do
  Cmd.update fun s => { s with nodeCnt := 0#32, pqCnt := 0#32, root := 0#24, ctCnt := 0#32 }
  let count ← Cmd.csr (·.ftCnt.toNat)
  Cmd.forFrom leafStep count 0

/-- `Combine()` (R133): the first node extracted is the left child, the second the right. -/
def combine : Cmd Unit := do
  let queued ← Cmd.csr (·.pqCnt.toNat)
  Cmd.raiseIf (queued < 2) .empty queued
  let count ← Cmd.csr (·.nodeCnt.toNat)
  let most ← Cmd.csr (·.cfg.nodeMax)
  Cmd.raiseIf (count = most) .capacity 4
  let a ← pqExtract
  let b ← pqExtract
  let na ← readNode a
  let nb ← readNode b
  let id ← nodeAlloc false 0#21 (na.w + nb.w) a b
  setNodeSt a stChild
  setNodeSt b stChild
  pqInsert id
  Cmd.update fun s => { s with res := id.setWidth 32 }

/-- The construction loop of `Build`: combine while more than one node is queued (R134). Each turn lowers PQ_CNT by one, so
a measure of PQ_CNT turns never runs out before the loop ends (log 8). -/
def combineAll : (fuel : Nat) → Cmd Unit
  | 0 => pure ()
  | fuel + 1 => do
    let queued ← Cmd.csr (·.pqCnt.toNat)
    if 1 < queued then do
      combine
      combineAll fuel
    else pure ()

/-- `Build()` (R134). -/
def build : Cmd Unit := do
  let count ← Cmd.csr (·.ftCnt.toNat)
  Cmd.raiseIf (count = 0) .empty 0
  leaves
  let queued ← Cmd.csr (·.pqCnt.toNat)
  combineAll queued
  let root ← pqExtract
  Cmd.update fun s => { s with root := root, ctCnt := 0#32, res := root.setWidth 32 }

/-- SET_ROOT n (R135). -/
def setRootRule (n : NodeId) : Cmd Unit := do
  let count ← Cmd.csr (·.nodeCnt.toNat)
  Cmd.raiseIf (n = 0#24 ∨ count < n.toNat) .badNode n.toNat
  let node ← readNode n
  Cmd.raiseIf (node.st ≠ stDetached) .badNode n.toNat
  Cmd.update fun s => { s with root := n, ctCnt := 0#32 }

/-- The meaning of FREQ (R131). -/
def execFreq (s : State) : Host.Outcome State Fault Refusal := runCommand (encodeInstr .freq) freq s

/-- The meaning of LEAVES (R132). -/
def execLeaves (s : State) : Host.Outcome State Fault Refusal := runCommand (encodeInstr .leaves) leaves s

/-- The meaning of COMBINE (R133). -/
def execCombine (s : State) : Host.Outcome State Fault Refusal := runCommand (encodeInstr .combine) combine s

/-- The meaning of BUILD (R134). -/
def execBuild (s : State) : Host.Outcome State Fault Refusal := runCommand (encodeInstr .build) build s

/-- The meaning of SET_ROOT (R135). -/
def execSetRoot (n : NodeId) (s : State) : Host.Outcome State Fault Refusal :=
  runCommand (encodeInstr (.setRoot n)) (setRootRule n) s

end Sys2Proof.Machine
end

