-- ==== Sys2Proof/Machine/Container.lean ====
section
/-! DEFINITION. The container serializer and parser: SERIALIZE, PARSE and their helpers (44_container.md). -/

namespace Sys2Proof.Machine

/-- The bytes of MAGIC, "HUF1" (R190). -/
def magic : List Byte := [0x48#8, 0x55#8, 0x46#8, 0x31#8]

/-- `Emit(p, v)` (R190). -/
def emit (p : Nat) (v : Byte) : Cmd Unit := do
  let most ← Cmd.csr (·.cfg.bMax)
  Cmd.raiseIf (most ≤ p) .capacity 2
  writeBlob p v

/-- `Emit(p, v0); Emit(p+1, v1); ...`. -/
def emitAll : (p : Nat) → List Byte → Cmd Unit
  | _, [] => pure ()
  | p, v :: vs => do
    emit p v
    emitAll (p + 1) vs

/-- `Put32(p, v)` (R190). -/
def put32 (p : Nat) (v : Word) : Cmd Unit := emitAll p (bytes32 v)

/-- The walk of `Serialize` over the stack STK of node ids, top first, from position `p`; answers the position after the tree
snapshot (R193). The measure as in CODEGEN's walk (log 5). -/
def snapshotWalk : (fuel : Nat) → (stk : List NodeId) → (p : Nat) → Cmd Nat
  | _, [], p => pure p
  | 0, _ :: _, _ => Cmd.stuck .walkNotTree
  | fuel + 1, n :: stk, p => do
    let node ← readNode n
    if node.leaf then do
      emitAll p (0x01#8 :: symbolBytes node.sym)
      snapshotWalk fuel stk (p + 4)
    else do
      emit p 0x00#8
      snapshotWalk fuel (node.l :: node.r :: stk) (p + 1)

/-- `for i in 0 .. PK_LEN - 1: Emit(p + i, PK[i])` (R193). -/
def emitPayload (p i : Nat) : Cmd Unit := do
  let v ← readPk i
  emit (p + i) v

/-- MAGIC, ORIG and PADB (R193). -/
def emitHeader : Cmd Unit := do
  emitAll 0 magic
  let orig ← Cmd.csr (·.origLen)
  put32 4 orig
  let pad ← Cmd.csr (·.pad)
  emit 8 (pad.setWidth 8)

/-- TREE, from position 17; answers the position after it (R193). -/
def emitTree : Cmd Nat := do
  let root ← Cmd.csr (·.root)
  let most ← Cmd.csr (·.cfg.nodeMax)
  if root ≠ 0#24 then snapshotWalk most [root] hdrLen else pure hdrLen

/-- TLEN and PLEN, when the tree ends before position `p` (R193). -/
def emitLengths (p : Nat) : Cmd Unit := do
  put32 9 (BitVec.ofNat 32 (p - hdrLen))
  let len ← Cmd.csr (·.pkLen)
  put32 13 len

/-- `Serialize()` (R193). -/
def serialize : Cmd Unit := do
  Cmd.update fun s => { s with blobLen := 0#32 }
  let staged ← Cmd.csr (·.stgCnt)
  Cmd.raiseIf (staged ≠ 0#3) .seq staged.toNat
  let root ← Cmd.csr (·.root)
  let len ← Cmd.csr (·.pkLen)
  let orig ← Cmd.csr (·.origLen)
  Cmd.raiseIf (root = 0#24 ∧ (len ≠ 0#32 ∨ orig ≠ 0#32)) .empty 0
  emitHeader
  let p ← emitTree
  emitLengths p
  Cmd.forFrom (emitPayload p) len.toNat 0
  Cmd.update fun s => { s with blobLen := BitVec.ofNat 32 (p + len.toNat) }

/-- `Get32(p)` (R190). -/
def get32 (p : Nat) : Cmd Nat := do
  let a ← readBlob p
  let b ← readBlob (p + 1)
  let c ← readBlob (p + 2)
  let d ← readBlob (p + 3)
  pure (join32 a b c d)

/-- What one record of a tree snapshot says (R191, R195). -/
inductive Record where
  | leaf (sym : Symbol)
  | internal
  deriving DecidableEq, Repr

/-- Read and check the record at `p` of a snapshot that ends before `last` (R195). -/
def readRecord (p last : Nat) : Cmd Record := do
  Cmd.raiseIf (last ≤ p) .corruptTree p
  let tag ← readBlob p
  if tag = 0x01#8 then do
    Cmd.raiseIf (last < p + 4) .corruptTree p
    let a ← readBlob (p + 1)
    let b ← readBlob (p + 2)
    let c ← readBlob (p + 3)
    Cmd.raiseIf (symMax < join24 a b c) .corruptTree (p + 1)
    pure (.leaf (BitVec.ofNat 21 (join24 a b c)))
  else if tag = 0x00#8 then pure .internal
  else Cmd.raise .corruptTree p

/-- The bytes a record takes (R191). -/
def Record.size : Record → Nat
  | .leaf _ => 4
  | .internal => 1

/-- The node of a record; the children of an internal node are filled in later (R195). -/
def allocRecord : Record → Cmd NodeId
  | .leaf sym => nodeAlloc true sym 0#32 0#24 0#24
  | .internal => nodeAlloc false 0#21 0#32 0#24 0#24

/-- Give node `n` to the open internal node on top of STK, top first, and answer the stack after it: the first record is
the root, a later one the left child if there is none yet, else the right child, which closes the node (R195). -/
def attach (n : NodeId) (stk : List NodeId) : Cmd (List NodeId) :=
  if n = 1#24 then do
    Cmd.update fun s => { s with root := 1#24 }
    pure stk
  else
    match stk with
    | [] => pure []
    | t :: rest => do
      let node ← readNode t
      if node.l = 0#24 then do
        setNodeLeft t n
        setNodeSt n stChild
        pure (t :: rest)
      else do
        setNodeRight t n
        setNodeSt n stChild
        pure rest

/-- Push an internal node on STK (R195). -/
def openNode (r : Record) (n : NodeId) (stk : List NodeId) : Cmd (List NodeId) :=
  match r with
  | .leaf _ => pure stk
  | .internal => do
    let most ← Cmd.csr (·.cfg.stkMax)
    Cmd.raiseIf (stk.length = most) .capacity 8
    pure (n :: stk)

/-- The loop of `ParseTree` from position `p` (R195); answers the position after the tree. Every record takes a byte, so a
measure of one more than the snapshot's bytes never runs out before the loop ends (log 8). -/
def parseRecords (last : Nat) : (fuel : Nat) → (p : Nat) → (stk : List NodeId) → Cmd Nat
  | 0, p, _ => Cmd.raise .corruptTree p
  | fuel + 1, p, stk => do
    let r ← readRecord p last
    let n ← allocRecord r
    let stk ← attach n stk
    let stk ← openNode r n stk
    match stk with
    | [] => pure (p + r.size)
    | _ :: _ => parseRecords last fuel (p + r.size) stk

/-- `ParseTree(p, end)` (R195). -/
def parseTree (p last : Nat) : Cmd Unit := do
  let q ← parseRecords last (last - p + 1) p []
  Cmd.raiseIf (q ≠ last) .corruptTree q

/-- One turn of the check of MAGIC (R194). -/
def checkMagic (k : Nat) : Cmd Unit := do
  let v ← readBlob k
  Cmd.raiseIf (some v ≠ magic[k]?) .malformed k

/-- `PK[i] <- BLOB[from + i]` (R194). -/
def copyPayload (base i : Nat) : Cmd Unit := do
  let v ← readBlob (base + i)
  writePk i v

/-- What PARSE zeroes at its start (R194). -/
def dropArtifact : Cmd Unit := do
  Cmd.update fun s => { s with nodeCnt := 0#32, pqCnt := 0#32, root := 0#24, ctCnt := 0#32 }
  pkInit
  Cmd.update fun s => { s with origLen := 0#32 }
  upInit

/-- The fixed fields of a container (R190): ORIG, PADB, TLEN, PLEN. -/
structure Header where
  orig : Nat
  padb : Byte
  tlen : Nat
  plen : Nat
  deriving DecidableEq, Repr

/-- Check the length and MAGIC, and read the fixed fields (R194). -/
def readHeader : Cmd Header := do
  let len ← Cmd.csr (·.blobLen.toNat)
  let most ← Cmd.csr (·.cfg.bMax)
  Cmd.raiseIf (most < len) .capacity 2
  Cmd.raiseIf (len < hdrLen) .malformed len
  Cmd.forFrom checkMagic 4 0
  let orig ← get32 4
  let padb ← readBlob 8
  let tlen ← get32 9
  let plen ← get32 13
  pure { orig := orig, padb := padb, tlen := tlen, plen := plen }

/-- The field checks of R194, in their order. -/
def checkHeader (h : Header) : Cmd Unit := do
  let len ← Cmd.csr (·.blobLen.toNat)
  Cmd.raiseIf (7 < h.padb.toNat) .malformed 8
  Cmd.raiseIf (len < hdrLen + h.tlen) .malformed 9
  Cmd.raiseIf (len < hdrLen + h.tlen + h.plen) .truncated 13
  Cmd.raiseIf (hdrLen + h.tlen + h.plen < len) .malformed (hdrLen + h.tlen + h.plen)
  Cmd.raiseIf (h.plen = 0 ∧ h.padb.toNat ≠ 0) .malformed 8
  Cmd.raiseIf (h.tlen = 0 ∧ (h.plen ≠ 0 ∨ h.orig ≠ 0)) .malformed 9
  let most ← Cmd.csr (·.cfg.pMax)
  Cmd.raiseIf (most < h.plen) .capacity 7

/-- `if tlen > 0: ParseTree(17, 17 + tlen)` (R194). -/
def parseSnapshot (tlen : Nat) : Cmd Unit :=
  if 0 < tlen then parseTree hdrLen (hdrLen + tlen) else pure ()

/-- `Parse()` (R194). -/
def parse : Cmd Unit := do
  dropArtifact
  let h ← readHeader
  checkHeader h
  parseSnapshot h.tlen
  Cmd.forFrom (copyPayload (hdrLen + h.tlen)) h.plen 0
  Cmd.update fun s =>
    { s with pkLen := BitVec.ofNat 32 h.plen, pad := h.padb.setWidth 3, origLen := BitVec.ofNat 32 h.orig }

/-- The meaning of SERIALIZE (R193). -/
def execSerialize (s : State) : Host.Outcome State Fault Refusal := runCommand (encodeInstr .serialize) serialize s

/-- The meaning of PARSE (R194). -/
def execParse (s : State) : Host.Outcome State Fault Refusal := runCommand (encodeInstr .parse) parse s

end Sys2Proof.Machine
end

