-- ==== Sys2Proof/Machine/Engine.lean ====
section
/-! DEFINITION. The codec engine: NOP, CLEAR, DECODE, COMPRESS, DECOMPRESS (45_codec_engine.md). -/

namespace Sys2Proof.Machine

/-- CLEAR (R211). -/
def clearRule : Cmd Unit := Cmd.update State.cleared

/-- TEXT[n] <- s, and one more symbol emitted (R214). -/
def emitSymbol (n : Nat) (sym : Symbol) : Cmd Nat := do
  let most ← Cmd.csr (·.cfg.nMax)
  Cmd.raiseIf (n = most) .capacity 1
  writeText n (sym.setWidth 32)
  pure (n + 1)

/-- What one bit does in `Decode` (R214): from the current node and the number of symbols emitted to the new ones. -/
def decodeBit (cur : NodeId) (n : Nat) (b : Bool) : Cmd (NodeId × Nat) := do
  let root ← Cmd.csr (·.root)
  Cmd.raiseIf (root = 0#24) .empty 0
  let top ← readNode root
  if top.leaf then do
    let pos ← Cmd.csr State.upPos
    Cmd.raiseIf (b = true) .corruptTree (pos - 1)
    let n ← emitSymbol n top.sym
    pure (cur, n)
  else do
    let here ← readNode cur
    let next := if b then here.r else here.l
    let node ← readNode next
    if node.leaf then do
      let n ← emitSymbol n node.sym
      pure (root, n)
    else pure (next, n)

/-- The loop of `Decode` (R214). Each turn takes a bit, so a measure of one more than the bits never runs out before the
loop ends (log 8). -/
def decodeLoop : (fuel : Nat) → (cur : NodeId) → (n : Nat) → Cmd (NodeId × Nat)
  | 0, cur, n => pure (cur, n)
  | fuel + 1, cur, n => do
    let b ← upPop
    match b with
    | none => pure (cur, n)
    | some b => do
      let next ← decodeBit cur n b
      decodeLoop fuel next.1 next.2

/-- `Decode()` (R214). -/
def decodeText : Cmd Unit := do
  Cmd.update fun s => { s with textLen := 0#32 }
  upInit
  let root ← Cmd.csr (·.root)
  let bits ← Cmd.csr State.bitLen
  let fin ← decodeLoop (bits + 1) root 0
  Cmd.raiseIf (fin.1 ≠ root) .corruptTree bits
  let orig ← Cmd.csr (·.origLen.toNat)
  Cmd.raiseIf (fin.2 < orig) .truncated fin.2
  Cmd.raiseIf (orig < fin.2) .malformed fin.2
  Cmd.update fun s => { s with textLen := BitVec.ofNat 32 fin.2 }

/-- COMPRESS (R212). -/
def compressRule : Cmd Unit := do
  workClear
  Cmd.update fun s => { s with blobLen := 0#32 }
  let len ← Cmd.csr (·.textLen.toNat)
  let most ← Cmd.csr (·.cfg.nMax)
  Cmd.raiseIf (most < len) .capacity 1
  if len = 0 then serialize
  else do
    freq
    build
    codeGen
    encodeText
    serialize

/-- DECOMPRESS (R213). -/
def decompressRule : Cmd Unit := do
  workClear
  Cmd.update fun s => { s with textLen := 0#32 }
  parse
  decodeText

/-- The meaning of NOP (R210). -/
def execNop (s : State) : Host.Outcome State Fault Refusal := runCommand (encodeInstr .nop) (pure ()) s

/-- The meaning of CLEAR (R211). -/
def execClear (s : State) : Host.Outcome State Fault Refusal := runCommand (encodeInstr .clear) clearRule s

/-- The meaning of DECODE (R214). -/
def execDecode (s : State) : Host.Outcome State Fault Refusal := runCommand (encodeInstr .decode) decodeText s

/-- The meaning of COMPRESS (R212). -/
def execCompress (s : State) : Host.Outcome State Fault Refusal := runCommand (encodeInstr .compress) compressRule s

/-- The meaning of DECOMPRESS (R213). -/
def execDecompress (s : State) : Host.Outcome State Fault Refusal :=
  runCommand (encodeInstr .decompress) decompressRule s

end Sys2Proof.Machine
end

