-- ==== Sys2Proof/Machine/Dispatch.lean ====
section
/-! DEFINITION. One arm per command: its meaning (30_encoding.md R94). The fault state and the decode check come before it, in Machine/Port.lean's issue (R97). -/

namespace Sys2Proof.Machine

def exec (i : Instr) (s : State) : Host.Outcome State Fault Refusal :=
  match i with
  | .nop => Sys2Proof.Machine.execNop s
  | .clear => Sys2Proof.Machine.execClear s
  | .pqInsert n => Sys2Proof.Machine.execPqInsert n s
  | .pqExtract => Sys2Proof.Machine.execPqExtract s
  | .freq => Sys2Proof.Machine.execFreq s
  | .leaves => Sys2Proof.Machine.execLeaves s
  | .combine => Sys2Proof.Machine.execCombine s
  | .build => Sys2Proof.Machine.execBuild s
  | .setRoot n => Sys2Proof.Machine.execSetRoot n s
  | .codegen => Sys2Proof.Machine.execCodegen s
  | .encode => Sys2Proof.Machine.execEncode s
  | .pkInit => Sys2Proof.Machine.execPkInit s
  | .pkPush len bits => Sys2Proof.Machine.execPkPush len bits s
  | .pkFlush => Sys2Proof.Machine.execPkFlush s
  | .upInit => Sys2Proof.Machine.execUpInit s
  | .upPop => Sys2Proof.Machine.execUpPop s
  | .decode => Sys2Proof.Machine.execDecode s
  | .serialize => Sys2Proof.Machine.execSerialize s
  | .parse => Sys2Proof.Machine.execParse s
  | .compress => Sys2Proof.Machine.execCompress s
  | .decompress => Sys2Proof.Machine.execDecompress s

end Sys2Proof.Machine
end

