-- ==== Sys2Proof/Machine/Port.lean ====
section
/-! DEFINITION. The host port: the spaces as the host sees them (20_memory.md R61 to R72), the issue of a command word (30_encoding.md R97), and taking the next transaction (R75). -/

namespace Sys2Proof.Machine

/-! ### Addresses and host views -/

/-- The space an address selects, bits 31:28 (R61). -/
def spaceOf (addr : Word) : Nat := (addr.extractLsb' 28 4).toNat

/-- The word offset of an address in its space, bits 27:0 (R61). -/
def offsetOf (addr : Word) : Nat := (addr.extractLsb' 0 28).toNat

/-- The address `{space, offset}` (R61). -/
def hostAddr (space : BitVec 4) (offset : BitVec 28) : Word := space ++ offset

/-- The address of CMD: CSR 0x00 in space 0 (10_state.md R23). -/
def cmdAddr : Word := 0#32

/-- STG as a word: BITS at 7:0, CNT at 10:8 (10_state.md R39). -/
def State.stgWord (s : State) : Word := 0#21 ++ s.stgCnt ++ s.stgBits

/-- The value the host reads at a CSR number; none where no register is (R64; 10_state.md R22). -/
def csrRead (n : Nat) (s : State) : Option Word :=
  match n with
  | 0x00 => some 0#32
  | 0x01 => some (s.err.setWidth 32)
  | 0x02 => some s.errInfo
  | 0x03 => some s.errCmd
  | 0x04 => some s.flagsWord
  | 0x05 => some s.res
  | 0x06 => some s.textLen
  | 0x07 => some s.blobLen
  | 0x08 => some s.ftCnt
  | 0x09 => some s.nodeCnt
  | 0x0A => some s.pqCnt
  | 0x0B => some (s.root.setWidth 32)
  | 0x0C => some s.ctCnt
  | 0x0D => some s.pkLen
  | 0x0E => some (s.pad.setWidth 32)
  | 0x0F => some s.origLen
  | 0x10 => some s.stgWord
  | 0x11 => some s.upByte
  | 0x12 => some (s.upBit.setWidth 32)
  | 0x18 => some (BitVec.ofNat 32 s.cfg.kMax)
  | 0x19 => some (BitVec.ofNat 32 s.cfg.nMax)
  | 0x1A => some (BitVec.ofNat 32 s.cfg.pMax)
  | 0x1B => some (BitVec.ofNat 32 s.cfg.bMax)
  | _ => none

/-- Word `k` of a frequency-table entry (R67). -/
def ftWord (e : FtEntry) (k : Nat) : Word := if k = 0 then e.sym.setWidth 32 else e.cnt

/-- Word `k` of a tree node (R68). -/
def nodeWord (n : Node) (k : Nat) : Word :=
  match k with
  | 0 => n.st ++ BitVec.ofBool n.leaf ++ 0#8 ++ n.sym
  | 1 => n.w
  | 2 => n.l.setWidth 32
  | _ => n.r.setWidth 32

/-- A word of a code-table entry's code: code bit `32q + j` is bit `31 - j` of the `q`-th of them (R70). -/
def codeWord (e : CtEntry) (q : Nat) : Word :=
  (List.range 32).foldl (fun v j =>
    (v <<< 1) ||| (BitVec.ofBool (decide (32 * q + j < e.len.toNat) && e.code.getD (32 * q + j) false)).setWidth 32) 0#32

/-- Word `k` of a code-table entry (R70). -/
def ctWord (e : CtEntry) (k : Nat) : Word :=
  match k with
  | 0 => e.sym.setWidth 32
  | 1 => e.len.setWidth 32
  | k + 2 => codeWord e k

/-- Make an answer of a read element. -/
def answer {α : Type} (view : α → Word) (x : α × State) : Reply × State := (.data (view x.1), x.2)

/-- `HostRead(addr)` (R62): the answer, and the state, which differs only in the count of free values. -/
def hostRead (addr : Word) (s : State) : Reply × State :=
  match spaceOf addr with
  | 0 =>
    match csrRead (offsetOf addr) s with
    | some v => (.data v, s)
    | none => (.busError, s)
  | 1 => if offsetOf addr < s.cfg.nMax then answer id (textAt (offsetOf addr) s) else (.busError, s)
  | 2 =>
    if offsetOf addr < s.cfg.bMax then answer (·.setWidth 32) (blobAt (offsetOf addr) s) else (.busError, s)
  | 3 =>
    if offsetOf addr < 2 * s.cfg.kMax then answer (ftWord · (offsetOf addr % 2)) (ftAt (offsetOf addr / 2) s)
    else (.busError, s)
  | 4 =>
    if 4 ≤ offsetOf addr ∧ offsetOf addr < 4 * s.cfg.nodeMax + 4 then
      answer (nodeWord · (offsetOf addr % 4)) (nodeAt (offsetOf addr / 4) s)
    else (.busError, s)
  | 5 => if offsetOf addr < s.cfg.kMax then answer (·.setWidth 32) (heapAt (offsetOf addr) s) else (.busError, s)
  | 6 =>
    if offsetOf addr < s.cfg.ctStride * s.cfg.kMax then
      answer (ctWord · (offsetOf addr % s.cfg.ctStride)) (ctAt (offsetOf addr / s.cfg.ctStride) s)
    else (.busError, s)
  | 7 => if offsetOf addr < s.cfg.pMax then answer (·.setWidth 32) (pkAt (offsetOf addr) s) else (.busError, s)
  | _ => (.busError, s)

/-! ### Issue and writes -/

/-- What `Issue` finds before it runs a rule: a word discarded in the fault state, an illegal word, or a command (30_encoding.md
R97; 60_exceptions.md R235). -/
inductive Issued where
  | discarded
  | illegal
  | run (i : Instr)
  deriving DecidableEq, Repr

/-- The first two steps of `Issue(w)`, in R97's order. -/
def issueCheck (w : Word) (s : State) : Issued :=
  if s.err ≠ 0#8 ∧ w ≠ encodeInstr .clear then .discarded
  else
    match decodeWord w with
    | .illegal _ => .illegal
    | .command i => .run i

/-- `Issue(w)` (R97). -/
def issue (w : Word) (s : State) : Host.Outcome State Fault Refusal :=
  match issueCheck w s with
  | .discarded => .next s
  | .illegal => .next (takeFault .illegal 0 w s)
  | .run i => exec i s

/-- `HostWrite(addr, v)` (R63). The reply is given before the command runs: it is `ok` however the command ends (R64), and no
command reads or writes it. -/
def hostWrite (addr v : Word) (s : State) : Host.Outcome State Fault Refusal :=
  match spaceOf addr with
  | 0 =>
    match offsetOf addr with
    | 0x00 => issue v { s with reply := some .done }
    | 0x06 => .next { s with textLen := v, reply := some .done }
    | 0x07 => .next { s with blobLen := v, reply := some .done }
    | _ => .next { s with reply := some .busError }
  | 1 =>
    if offsetOf addr < s.cfg.nMax then .next { s.storeText (offsetOf addr) v with reply := some .done }
    else .next { s with reply := some .busError }
  | 2 =>
    if offsetOf addr < s.cfg.bMax then .next { s.storeBlob (offsetOf addr) (v.extractLsb' 0 8) with reply := some .done }
    else .next { s with reply := some .busError }
  | _ => .next { s with reply := some .busError }

/-- Take one transaction or reset event, with the whole command a write to CMD starts, as one step (R75). -/
def accept (tx : HostTx) (s : State) : Host.Outcome State Fault Refusal :=
  match tx with
  | .read addr => .next { (hostRead addr s).2 with reply := some (hostRead addr s).1 }
  | .write addr v => hostWrite addr v s
  | .reset => .next s.afterReset

/-- Take the oldest transaction still to come; with none, HCC idles (10_state.md R54; log 3). -/
def acceptNext (s : State) : Host.Outcome State Fault Refusal :=
  match s.inbox with
  | [] => .next s
  | tx :: rest => accept tx { s with inbox := rest }

/-- The host writes this word to CMD next, before all else that is still to come (log 3). -/
def State.present (s : State) (w : Word) : State := { s with inbox := .write cmdAddr w :: s.inbox }

end Sys2Proof.Machine
end

