-- ==== Sys2Proof/Machine/Step.lean ====
section
/-! DEFINITION. One step: the next host transaction with the whole command it starts (20_memory.md R75). -/

namespace Sys2Proof.Machine

/-- One step of HCC. -/
def step (s : State) : Host.Outcome State Fault Refusal := acceptNext s

/-- The state in which the very next step issues the word whose low `nbits` bits are those of `w`: the host's next
transaction writes it to CMD (10_state.md R21, R23; log 3). -/
def State.withFetchWord (s : State) (nbits w : Nat) : State := s.present (BitVec.ofNat 32 (w % 2 ^ nbits))

end Sys2Proof.Machine
end

