-- ==== Sys2Proof/Safety.lean ====
section
/-! DEFINITION. What claims about HCC are stated in: elements in a memory, the bit string of the packer, prefix trees and their codes, the container, and the invariants of the state (10_state.md R53). Written from the rules' own words, not from the meanings. -/

namespace Sys2Proof.Machine

/-! ### Elements in a memory -/

/-- The elements at `base`, `base + 1`, ... have been written and are those of the list. -/
def Memory.holds {α : Type} (m : Memory α) (base : Nat) (l : List α) : Prop :=
  ∀ k, k < l.length → m.get? (base + k) = l[k]?

/-- The two memories agree on every element from `n` on. -/
def Memory.sameFrom {α : Type} (m m' : Memory α) (n : Nat) : Prop := ∀ i, n ≤ i → m'.get? i = m.get? i

/-- Every memory is in canonical form and lists only indices it has (10_state.md R43; 20_memory.md R61). -/
def State.memoryForm (s : State) : Prop :=
  (s.text.wf ∧ s.text.within 0 s.cfg.nMax) ∧ (s.blob.wf ∧ s.blob.within 0 s.cfg.bMax) ∧
    (s.ft.wf ∧ s.ft.within 0 s.cfg.kMax) ∧ (s.node.wf ∧ s.node.within 1 (s.cfg.nodeMax + 1)) ∧
    (s.heap.wf ∧ s.heap.within 0 s.cfg.kMax) ∧ (s.ct.wf ∧ s.ct.within 0 s.cfg.kMax) ∧
    (s.pk.wf ∧ s.pk.within 0 s.cfg.pMax)

/-! ### Text and frequencies (10_state.md R44, R46) -/

/-- TEXT[0..TEXT_LEN) has been written, fits, and is this list of legal symbols. -/
def State.holdsText (s : State) (txt : List Symbol) : Prop :=
  s.textLen.toNat = txt.length ∧ txt.length ≤ s.cfg.nMax ∧ s.text.holds 0 (txt.map (·.setWidth 32)) ∧
    ∀ x ∈ txt, x.toNat ≤ symMax

/-- The distinct symbols of a text in order of first occurrence (R46). -/
def firstSeen : List Symbol → List Symbol
  | [] => []
  | x :: xs => x :: (firstSeen xs).filter (· ≠ x)

/-- The frequency table of a text: its distinct symbols in order of first occurrence, each with its count (R46). -/
def freqTable (txt : List Symbol) : List FtEntry :=
  (firstSeen txt).map fun x => { sym := x, cnt := BitVec.ofNat 32 (txt.count x) }

/-- FT[0..FT_CNT) has been written and is this list. -/
def State.holdsTable (s : State) (l : List FtEntry) : Prop := s.ftCnt.toNat = l.length ∧ s.ft.holds 0 l

/-! ### Bit strings and bytes (00_scope.md R10; 43_bit_packer.md R177, R178) -/

/-- The eight bits of a byte, most significant first. -/
def byteBits (b : Byte) : BitString := (List.range 8).map fun k => b.getLsbD (7 - k)

/-- The number a bit string stands for, first bit most significant. -/
def bitsValue (bs : BitString) : Nat := bs.foldl (fun v b => 2 * v + b.toNat) 0

/-- The padding of a bit string of `n` bits: `(8 - n mod 8) mod 8` (R177). -/
def padCount (n : Nat) : Nat := (8 - n % 8) % 8

/-- The whole bytes of a bit string, eight bits to a byte, most significant bit first; bits after the last whole byte are
left out. -/
def packBytes (bs : BitString) : List Byte :=
  (List.range (bs.length / 8)).map fun q => BitVec.ofNat 8 (bitsValue ((bs.drop (8 * q)).take 8))

/-- A bit string with its padding of zero bits (R177). -/
def padded (bs : BitString) : BitString := bs ++ List.replicate (padCount bs.length) false

/-- Expand each byte to 8 bits, concatenate, drop the last `pad` bits (R178). -/
def unpackBits (bytes : List Byte) (pad : Nat) : BitString := (bytes.flatMap byteBits).take (8 * bytes.length - pad)

/-- The open bit string being packed is `bs`: its whole bytes are PK[0..PK_LEN), the rest is staged right-aligned (R177,
"Before the flush"). -/
def State.packs (s : State) (bs : BitString) : Prop :=
  s.pad = 0#3 ∧ s.pkLen.toNat = bs.length / 8 ∧ s.pk.holds 0 (packBytes bs) ∧ s.stgCnt.toNat = bs.length % 8 ∧
    s.stgBits.toNat = bitsValue (bs.drop (8 * (bs.length / 8)))

/-- PK[0..PK_LEN) has been written and is this list of bytes, with this many padding bits. -/
def State.holdsPacked (s : State) (bytes : List Byte) (pad : Nat) : Prop :=
  s.pkLen.toNat = bytes.length ∧ s.pk.holds 0 bytes ∧ s.pad.toNat = pad ∧ (pad ≠ 0 → bytes ≠ [])

/-! ### Prefix trees (10_state.md R47; 42_code_table.md R152; 44_container.md R191) -/

/-- A prefix tree: a leaf with its symbol, or an internal node with its two children. -/
inductive Tree where
  | leaf (sym : Symbol)
  | node (l r : Tree)
  deriving DecidableEq, Repr

/-- The symbols at the leaves, in pre-order, left before right. -/
def Tree.leaves : Tree → List Symbol
  | .leaf x => [x]
  | .node l r => l.leaves ++ r.leaves

/-- The number of nodes. -/
def Tree.size : Tree → Nat
  | .leaf _ => 1
  | .node l r => l.size + r.size + 1

/-- Each leaf's symbol with its path from the root, 0 for left and 1 for right, in pre-order (R152). -/
def Tree.paths : Tree → List (Symbol × BitString)
  | .leaf x => [(x, [])]
  | .node l r => (l.paths.map fun p => (p.1, false :: p.2)) ++ (r.paths.map fun p => (p.1, true :: p.2))

/-- Each leaf's symbol with its code: the path, or "0" when the root is the leaf (R152). -/
def Tree.codes : Tree → List (Symbol × BitString)
  | .leaf x => [(x, [false])]
  | .node l r => (Tree.node l r).paths

/-- A tree's code table (R50, R150). -/
def codeTable (t : Tree) : List CtEntry :=
  t.codes.map fun p => { sym := p.1, len := BitVec.ofNat 24 p.2.length, code := p.2 }

/-- The node `id` of a node memory is the root of this tree (R47). -/
def holdsTree (m : Memory Node) (id : NodeId) : Tree → Prop
  | .leaf x => ∃ n, m.get? id.toNat = some n ∧ n.leaf = true ∧ n.sym = x
  | .node l r => ∃ n, m.get? id.toNat = some n ∧ n.leaf = false ∧ holdsTree m n.l l ∧ holdsTree m n.r r

/-- The live tree is this one (00_scope.md, glossary). -/
def State.liveTree (s : State) (t : Tree) : Prop := s.root ≠ 0#24 ∧ holdsTree s.node s.root t

/-- The symbols and the bits of a sequence of (symbol, code) pairs. -/
def spelled (ps : List (Symbol × BitString)) : List Symbol × BitString := (ps.map (·.1), ps.flatMap (·.2))

/-! ### Encoding (42_code_table.md R151) -/

/-- CT[0..CT_CNT) has been written and is this list. -/
def State.holdsCodes (s : State) (l : List CtEntry) : Prop := s.ctCnt.toNat = l.length ∧ s.ct.holds 0 l

/-- The code of a symbol in a code table: that of its first entry (R151). -/
def codeIn (l : List CtEntry) (x : Symbol) : Option BitString := (l.find? fun e => decide (e.sym = x)).map entryBits

/-- The bit string of a text, if each symbol has a code (R151). -/
def textBits (l : List CtEntry) : List Symbol → Option BitString
  | [] => some []
  | x :: txt =>
    match codeIn l x, textBits l txt with
    | some c, some bs => some (c ++ bs)
    | _, _ => none

/-! ### The container (44_container.md R190, R191) -/

/-- A number as `n` bytes, most significant first (20_memory.md R73). -/
def beBytes : (n : Nat) → (v : Nat) → List Byte
  | 0, _ => []
  | n + 1, v => BitVec.ofNat 8 (v / 256 ^ n) :: beBytes n v

/-- The tree snapshot: pre-order records, 0x00 for an internal node, 0x01 and the 3-byte symbol for a leaf (R191). -/
def Tree.snapshot : Tree → List Byte
  | .leaf x => 0x01#8 :: beBytes 3 x.toNat
  | .node l r => 0x00#8 :: (l.snapshot ++ r.snapshot)

/-- The snapshot of a tree that may be absent (R191). -/
def snapshotOf : Option Tree → List Byte
  | none => []
  | some t => t.snapshot

/-- The container: MAGIC, ORIG, PADB, TLEN, PLEN, TREE, PAYLOAD (R190). -/
def containerBytes (orig pad : Nat) (tree : Option Tree) (payload : List Byte) : List Byte :=
  [0x48#8, 0x55#8, 0x46#8, 0x31#8] ++ beBytes 4 orig ++ beBytes 1 pad ++ beBytes 4 (snapshotOf tree).length ++
    beBytes 4 payload.length ++ snapshotOf tree ++ payload

/-- BLOB[0..BLOB_LEN) has been written, fits, and is this list of bytes. -/
def State.holdsBlob (s : State) (bytes : List Byte) : Prop :=
  s.blobLen.toNat = bytes.length ∧ bytes.length ≤ s.cfg.bMax ∧ s.blob.holds 0 bytes

/-! ### The queue (10_state.md R48, R53; 40_priority_queue.md) -/

/-- `W(id)`, 0 for a node that has not been written. -/
def weightOf (m : Memory Node) (id : NodeId) : Nat :=
  match m.get? id.toNat with
  | some n => n.w.toNat
  | none => 0

/-- The heap property of R48 on a list of node ids. -/
def heapOrdered (m : Memory Node) (h : List NodeId) : Prop :=
  ∀ i, 0 < i → i < h.length → weightOf m (h.getD ((i - 1) / 2) 0#24) ≤ weightOf m (h.getD i 0#24)

/-- NODE[1..NODE_CNT] has been written and is this list, and NODE has that many (10_state.md R32). -/
def State.arena (s : State) (nodes : List Node) : Prop :=
  s.nodeCnt.toNat = nodes.length ∧ nodes.length ≤ s.cfg.nodeMax ∧ s.node.holds 1 nodes

/-- HEAP[0..PQ_CNT) has been written, fits, and is this list of ids of allocated nodes, each once, with the heap property
(R53 items 5, 6). -/
def State.queue (s : State) (h : List NodeId) : Prop :=
  s.pqCnt.toNat = h.length ∧ h.length ≤ s.cfg.kMax ∧ s.heap.holds 0 h ∧ h.Nodup ∧ heapOrdered s.node h ∧
    ∀ id ∈ h, 1 ≤ id.toNat ∧ id.toNat ≤ s.nodeCnt.toNat

/-! ### The queue's order of equal weights (40_priority_queue.md R110, R111) -/

/-- `swap(HEAP[i], HEAP[j])` on a list of node ids. -/
def exchanged (h : List NodeId) (i j : Nat) : List NodeId := (h.set i (h.getD j 0#24)).set j (h.getD i 0#24)

/-- The sift-up of R110 from position `i` takes `h` to `h'`: an element rises past a strictly heavier parent and past no
other. -/
inductive SiftsUp (m : Memory Node) : Nat → List NodeId → List NodeId → Prop where
  | top (h : List NodeId) : SiftsUp m 0 h h
  | stay (i : Nat) (h : List NodeId) :
      weightOf m (h.getD ((i - 1) / 2) 0#24) ≤ weightOf m (h.getD i 0#24) → SiftsUp m i h h
  | rise (i : Nat) (h h' : List NodeId) : 0 < i →
      weightOf m (h.getD i 0#24) < weightOf m (h.getD ((i - 1) / 2) 0#24) →
      SiftsUp m ((i - 1) / 2) (exchanged h i ((i - 1) / 2)) h' → SiftsUp m i h h'

/-- The sift-down of R111 from position `i` takes `h` to `h'`: an element sinks past a strictly lighter child only, to the
left when the left child is not heavier than the right. -/
inductive SiftsDown (m : Memory Node) : Nat → List NodeId → List NodeId → Prop where
  | stay (i : Nat) (h : List NodeId) :
      (2 * i + 1 < h.length → weightOf m (h.getD i 0#24) ≤ weightOf m (h.getD (2 * i + 1) 0#24)) →
      (2 * i + 2 < h.length → weightOf m (h.getD i 0#24) ≤ weightOf m (h.getD (2 * i + 2) 0#24)) → SiftsDown m i h h
  | left (i : Nat) (h h' : List NodeId) : 2 * i + 1 < h.length →
      weightOf m (h.getD (2 * i + 1) 0#24) < weightOf m (h.getD i 0#24) →
      (2 * i + 2 < h.length → weightOf m (h.getD (2 * i + 1) 0#24) ≤ weightOf m (h.getD (2 * i + 2) 0#24)) →
      SiftsDown m (2 * i + 1) (exchanged h i (2 * i + 1)) h' → SiftsDown m i h h'
  | right (i : Nat) (h h' : List NodeId) : 2 * i + 2 < h.length →
      weightOf m (h.getD (2 * i + 2) 0#24) < weightOf m (h.getD i 0#24) →
      weightOf m (h.getD (2 * i + 2) 0#24) < weightOf m (h.getD (2 * i + 1) 0#24) →
      SiftsDown m (2 * i + 2) (exchanged h i (2 * i + 2)) h' → SiftsDown m i h h'

/-- `PqInsert(id)` takes the queue `h` to `h'` (R110). -/
def Inserts (m : Memory Node) (h : List NodeId) (id : NodeId) (h' : List NodeId) : Prop :=
  SiftsUp m h.length (h ++ [id]) h'

/-- `PqInsert` of each id of a list in turn. -/
inductive InsertsAll (m : Memory Node) : List NodeId → List NodeId → List NodeId → Prop where
  | nil (h : List NodeId) : InsertsAll m h [] h
  | cons (h : List NodeId) (id : NodeId) (h' : List NodeId) (ids h'' : List NodeId) : Inserts m h id h' →
      InsertsAll m h' ids h'' → InsertsAll m h (id :: ids) h''

/-- `PqExtract()` takes the queue `h` to `h'` and answers `id` (R111): the last element goes to the top and sinks. -/
inductive Extracts (m : Memory Node) : List NodeId → NodeId → List NodeId → Prop where
  | only (id : NodeId) : Extracts m [id] id []
  | more (id : NodeId) (h : List NodeId) (last : NodeId) (h' : List NodeId) : SiftsDown m 0 (last :: h) h' →
      Extracts m (id :: (h ++ [last])) id h'

/-! ### The host port (20_memory.md R61, R63) -/

/-- The CSR numbers of 10_state.md R22. -/
def csrNumbers : List Nat :=
  [0x00, 0x01, 0x02, 0x03, 0x04, 0x05, 0x06, 0x07, 0x08, 0x09, 0x0A, 0x0B, 0x0C, 0x0D, 0x0E, 0x0F, 0x10, 0x11, 0x12,
   0x18, 0x19, 0x1A, 0x1B]

/-- The address of an offset in a space: `space[3:0], offset[27:0]` side by side (R61). -/
def portAddr (space : BitVec 4) (offset : Nat) : Word := space ++ BitVec.ofNat 28 offset

/-- The addresses the host can read: the column "offsets implemented" of R61. -/
def hostReadable (c : Config) (addr : Word) : Prop :=
  ∃ space offset, addr.toNat = space * 2 ^ 28 + offset ∧ offset < 2 ^ 28 ∧
    ((space = 0 ∧ offset ∈ csrNumbers) ∨ (space = 1 ∧ offset < c.nMax) ∨ (space = 2 ∧ offset < c.bMax) ∨
      (space = 3 ∧ offset < 2 * c.kMax) ∨ (space = 4 ∧ 4 ≤ offset ∧ offset ≤ 4 * c.nodeMax + 3) ∨
      (space = 5 ∧ offset < c.kMax) ∨ (space = 6 ∧ offset < c.ctStride * c.kMax) ∨ (space = 7 ∧ offset < c.pMax))

/-- The addresses the host can write: CMD, TEXT_LEN, BLOB_LEN, TEXT and BLOB (10_state.md R22; R61, R63). -/
def hostWritable (c : Config) (addr : Word) : Prop :=
  ∃ space offset, addr.toNat = space * 2 ^ 28 + offset ∧ offset < 2 ^ 28 ∧
    ((space = 0 ∧ (offset = 0x00 ∨ offset = 0x06 ∨ offset = 0x07)) ∨ (space = 1 ∧ offset < c.nMax) ∨
      (space = 2 ∧ offset < c.bMax))

/-! ### Faults (60_exceptions.md R231, R232) -/

/-- The state with a fault recorded: code, ERR_INFO and ERR_CMD (R232). -/
def State.faulted (s : State) (code info : Nat) (w : Word) : State :=
  { s with err := BitVec.ofNat 8 code, errInfo := BitVec.ofNat 32 info, errCmd := w }

/-- The fault codes of a command: those R231 gives it in the column "raised by", its helpers' ones and the unreachable checks it
names among them; for COMPRESS and DECOMPRESS those of 45_codec_engine.md R212 and R213. -/
def faultCodes : Instr → List Nat
  | .nop => []
  | .clear => []
  | .pqInsert _ => [5, 7]
  | .pqExtract => []
  | .freq => [5, 6]
  | .leaves => [5]
  | .combine => [5, 8]
  | .build => [5, 8]
  | .setRoot _ => [7]
  | .codegen => [8]
  | .encode => [5, 9]
  | .pkInit => []
  | .pkPush _ _ => [5, 10]
  | .pkFlush => [5, 10]
  | .upInit => []
  | .upPop => []
  | .decode => [1, 2, 3, 5, 8]
  | .serialize => [5, 8, 10]
  | .parse => [1, 2, 3, 5]
  | .compress => [5, 6]
  | .decompress => [1, 2, 3, 5]

/-! ### Tree snapshots cut short (44_container.md R191, R195) -/

/-- The record of a leaf with its symbol, or of an internal node. -/
def recordBytes : Option Symbol → List Byte
  | none => [0x00#8]
  | some x => 0x01#8 :: beBytes 3 x.toNat

/-- The open internal nodes of a pre-order, last opened first, each with whether it has its left child, after a child is given to
the last opened: its second child closes it (R195, `STK`). -/
def childGiven : List Bool → List Bool
  | [] => []
  | false :: os => true :: os
  | true :: os => os

/-- The open internal nodes after these records of a pre-order, when `os` were open before them; none when the tree was complete
before the last of them, or when one of them opens a node while `most` are open (R195). Before the root the list is `[true]`: one
subtree is to come and nothing is left open after it. -/
def openAfter (most : Nat) : List Bool → List (Option Symbol) → Option (List Bool)
  | os, [] => some os
  | [], _ :: _ => none
  | o :: os, some _ :: rs => openAfter most (childGiven (o :: os)) rs
  | o :: os, none :: rs =>
    if (childGiven (o :: os)).length = most then none else openAfter most (false :: childGiven (o :: os)) rs

/-! ### Sequences of commands (45_codec_engine.md R217) -/

/-- The commands issued one after the other: from the first fault on the others are discarded (60_exceptions.md R233). -/
def inTurn : List Instr → State → Host.Outcome State Fault Refusal
  | [], s => .next s
  | i :: is, s =>
    if s.err ≠ 0#8 then .next s
    else
      match exec i s with
      | .next t => inTurn is t
      | .fault r => .fault r
      | .refused r => .refused r

/-- What WorkClear leaves (10_state.md R49). -/
def State.workZero (s : State) : State :=
  { s with qe := false, be := false, res := 0#32, ftCnt := 0#32, nodeCnt := 0#32, pqCnt := 0#32, root := 0#24,
           ctCnt := 0#32, pkLen := 0#32, pad := 0#3, origLen := 0#32, stgBits := 0#8, stgCnt := 0#3, upByte := 0#32,
           upBit := 0#3 }

/-- What the first four lines of PARSE leave (44_container.md R194). -/
def State.artifactZero (s : State) : State :=
  { s with nodeCnt := 0#32, pqCnt := 0#32, root := 0#24, ctCnt := 0#32, pkLen := 0#32, pad := 0#3, stgBits := 0#8,
           stgCnt := 0#3, origLen := 0#32, upByte := 0#32, upBit := 0#3 }

/-! ### The field checks of PARSE (44_container.md R194) -/

/-- The fixed part of a container: MAGIC, ORIG, PADB, TLEN, PLEN (R190). -/
def headerBytes (orig padb tlen plen : Nat) : List Byte :=
  [0x48#8, 0x55#8, 0x46#8, 0x31#8] ++ beBytes 4 orig ++ beBytes 1 padb ++ beBytes 4 tlen ++ beBytes 4 plen

/-- The first field check that fails on a blob of `len` bytes with these fields: the fault's code and ERR_INFO (R194). -/
def headerFault (c : Config) (orig padb tlen plen len : Nat) : Option (Nat × Nat) :=
  if 7 < padb then some (1, 8)
  else if len < 17 + tlen then some (1, 9)
  else if len < 17 + tlen + plen then some (3, 13)
  else if 17 + tlen + plen < len then some (1, 17 + tlen + plen)
  else if plen = 0 ∧ padb ≠ 0 then some (1, 8)
  else if tlen = 0 ∧ (plen ≠ 0 ∨ orig ≠ 0) then some (1, 9)
  else if c.pMax < plen then some (5, 7)
  else none

/-! ### The invariants of R53 -/

/-- A tree of node ids: a leaf with its id, or an internal node with its id and its two children. -/
inductive IdTree where
  | leaf (id : Nat)
  | node (id : Nat) (l r : IdTree)
  deriving DecidableEq, Repr

/-- The id at the root. -/
def IdTree.root : IdTree → Nat
  | .leaf id => id
  | .node id _ _ => id

/-- Every id in the tree, in pre-order. -/
def IdTree.ids : IdTree → List Nat
  | .leaf id => [id]
  | .node id l r => id :: (l.ids ++ r.ids)

/-- The ids of the leaves, in pre-order. -/
def IdTree.leafIds : IdTree → List Nat
  | .leaf id => [id]
  | .node _ l r => l.leafIds ++ r.leafIds

/-- `NODE[id].st`, 0 for a node that has not been written. -/
def stOf (m : Memory Node) (id : Nat) : BitVec 2 :=
  match m.get? id with
  | some n => n.st
  | none => 0#2

/-- NODE holds a tree of this shape: the fields of R53 item 3, the children CHILD, and each internal weight the sum of its
children's without wrap-around (R53 item 8). -/
def holdsShape (m : Memory Node) : IdTree → Prop
  | .leaf id => ∃ n, m.get? id = some n ∧ n.leaf = true ∧ n.l = 0#24 ∧ n.r = 0#24
  | .node id l r => ∃ n nl nr, m.get? id = some n ∧ n.leaf = false ∧ n.sym = 0#21 ∧ n.l.toNat = l.root ∧ n.r.toNat = r.root ∧
      m.get? l.root = some nl ∧ m.get? r.root = some nr ∧ nl.st = stChild ∧ nr.st = stChild ∧
      n.w.toNat = nl.w.toNat + nr.w.toNat ∧ holdsShape m l ∧ holdsShape m r

/-- The weight of a node by its id as a number. -/
def weightAt (m : Memory Node) (id : Nat) : Nat :=
  match m.get? id with
  | some n => n.w.toNat
  | none => 0

/-- R53 items 3, 4, 5, 8 and 11, for a node memory with `count` allocated nodes and a queue `h`: the allocated nodes are exactly the nodes of these trees, each node once, so no node is
shared and there is no cycle; every node below a root is CHILD, a root is QUEUED when it is in the queue and DETACHED
otherwise; the weights of the roots sum to the weights of the leaves, at most N_MAX; the leaves are at most K_MAX. -/
structure Grove (c : Config) (m : Memory Node) (count : Nat) (h : List NodeId) (trees : List IdTree) : Prop where
  ids : (trees.flatMap IdTree.ids).Perm (List.range' 1 count)
  shapes : ∀ t ∈ trees, holdsShape m t
  roots : ∀ t ∈ trees, stOf m t.root = if t.root ∈ h.map (·.toNat) then stQueued else stDetached
  queued : ∀ id ∈ h, id.toNat ∈ trees.map IdTree.root
  total : (trees.map fun t => weightAt m t.root).sum = ((trees.flatMap IdTree.leafIds).map (weightAt m)).sum
  bounded : (trees.map fun t => weightAt m t.root).sum ≤ c.nMax
  leaves : (trees.flatMap IdTree.leafIds).length ≤ c.kMax

/-- R53 item 1. -/
def State.countsOk (s : State) : Prop :=
  s.ftCnt.toNat ≤ s.cfg.kMax ∧ s.nodeCnt.toNat ≤ s.cfg.nodeMax ∧ s.pqCnt.toNat ≤ s.cfg.kMax ∧ s.ctCnt.toNat ≤ s.cfg.kMax ∧
    s.pkLen.toNat ≤ s.cfg.pMax ∧ s.pad.toNat ≤ 7 ∧ s.stgCnt.toNat ≤ 7 ∧ s.upBit.toNat ≤ 7

/-- R53 item 2, of the valid entries. -/
def tableOk (c : Config) (l : List FtEntry) : Prop :=
  (l.map (·.sym)).Nodup ∧ (∀ e ∈ l, e.sym.toNat ≤ symMax ∧ 1 ≤ e.cnt.toNat) ∧ (l.map (·.cnt.toNat)).sum ≤ c.nMax

/-- R53 item 7. -/
def State.rootOk (s : State) : Prop :=
  s.root = 0#24 ∨ (1 ≤ s.root.toNat ∧ s.root.toNat ≤ s.nodeCnt.toNat ∧ stOf s.node s.root.toNat = stDetached)

/-- R53 item 9. -/
def State.codesOk (s : State) : Prop :=
  s.ctCnt ≠ 0#32 → ∃ t, s.liveTree t ∧ s.ctCnt.toNat = (codeTable t).length ∧ s.ct.holds 0 (codeTable t)

/-- R53 item 10. -/
def State.packerOk (s : State) : Prop :=
  (s.pad ≠ 0#3 → s.stgCnt = 0#3 ∧ 1 ≤ s.pkLen.toNat) ∧ s.stgBits.toNat < 2 ^ s.stgCnt.toNat

/-- Every leaf among the allocated nodes holds a symbol of R44: FREQ and PARSE let no other in (41_tree_builder.md R131;
44_container.md R195). -/
def State.leavesLegal (s : State) : Prop :=
  ∀ id x, 1 ≤ id → id ≤ s.nodeCnt.toNat → s.node.get? id = some x → x.leaf = true → x.sym.toNat ≤ symMax

/-- Every valid byte of PK has been written (10_state.md R51, R55). -/
def State.payloadWritten (s : State) : Prop := ∀ k, k < s.pkLen.toNat → ∃ v, s.pk.get? k = some v

/-- The two states agree in every register and in every valid element of the memories (45_codec_engine.md R216). -/
def State.agrees (s t : State) : Prop :=
  t = { s with text := t.text, blob := t.blob, ft := t.ft, node := t.node, heap := t.heap, ct := t.ct, pk := t.pk,
               inbox := t.inbox, reply := t.reply, draws := t.draws } ∧
    (∀ k, k < s.textLen.toNat → t.text.get? k = s.text.get? k) ∧ (∀ k, k < s.blobLen.toNat → t.blob.get? k = s.blob.get? k) ∧
    (∀ k, k < s.ftCnt.toNat → t.ft.get? k = s.ft.get? k) ∧ (∀ k, 1 ≤ k → k ≤ s.nodeCnt.toNat → t.node.get? k = s.node.get? k) ∧
    (∀ k, k < s.pqCnt.toNat → t.heap.get? k = s.heap.get? k) ∧ (∀ k, k < s.ctCnt.toNat → t.ct.get? k = s.ct.get? k) ∧
    ∀ k, k < s.pkLen.toNat → t.pk.get? k = s.pk.get? k

/-- The eleven items of R53. -/
def State.sound (s : State) : Prop :=
  s.countsOk ∧ (∃ l, s.holdsTable l ∧ tableOk s.cfg l) ∧ (∃ h trees, s.queue h ∧ Grove s.cfg s.node s.nodeCnt.toNat h trees) ∧ s.rootOk ∧ s.codesOk ∧
    s.packerOk

end Sys2Proof.Machine
end

