-- ==== Sys2Proof/Certificates/Slice0/Obligations.lean ====
section
/-! DEFINITION. What is claimed of HCC, from the numbered rules of spec/. -/

open Sys2Proof Sys2Proof.Machine

/-! ## Encoding -/

/-- Words written out from the formats and the opcode map (30_encoding.md R91 to R94), and the operand example of R93. -/
def Obligations.SampleWordsDecode : Prop :=
  decodeWord 0x00000000#32 = .command .nop ∧ decodeWord 0x01000000#32 = .command .clear ∧
    decodeWord 0x10000003#32 = .command (.pqInsert 3#24) ∧ decodeWord 0x11000000#32 = .command .pqExtract ∧
    decodeWord 0x20000000#32 = .command .freq ∧ decodeWord 0x21000000#32 = .command .leaves ∧
    decodeWord 0x22000000#32 = .command .combine ∧ decodeWord 0x23000000#32 = .command .build ∧
    decodeWord 0x24000005#32 = .command (.setRoot 5#24) ∧ decodeWord 0x30000000#32 = .command .codegen ∧
    decodeWord 0x31000000#32 = .command .encode ∧ decodeWord 0x40000000#32 = .command .pkInit ∧
    decodeWord 0x41050016#32 = .command (.pkPush 5#5 0x16#16) ∧ decodeWord 0x42000000#32 = .command .pkFlush ∧
    decodeWord 0x48000000#32 = .command .upInit ∧ decodeWord 0x49000000#32 = .command .upPop ∧
    decodeWord 0x4A000000#32 = .command .decode ∧ decodeWord 0x50000000#32 = .command .serialize ∧
    decodeWord 0x51000000#32 = .command .parse ∧ decodeWord 0x60000000#32 = .command .compress ∧
    decodeWord 0x61000000#32 = .command .decompress ∧ operandBits 5#5 0x16#16 = [true, false, true, true, false]

/-- Decoding the word of a well-formed command gives the command back, every operand at every value its format admits
(30_encoding.md R91 to R95). -/
def Obligations.DecodeOfEncode : Prop :=
  ∀ i : Instr, i.wf = true → decodeWord (encodeInstr i) = .command i

/-- A word that decodes is the one word of its command, and the command is well formed (30_encoding.md R95, the last
sentence). -/
def Obligations.EncodingIsCanonical : Prop :=
  ∀ (w : Word) (i : Instr), decodeWord w = .command i → i.wf = true ∧ encodeInstr i = w

/-- Which words are commands: the matches and masks of R94 with the value conditions of R93; every other word is illegal
(R96). -/
def Obligations.LegalWords : Prop :=
  ∀ w : Word, (∃ i, decodeWord w = .command i) ↔
    (w ∈ [0x00000000#32, 0x01000000#32, 0x11000000#32, 0x20000000#32, 0x21000000#32, 0x22000000#32, 0x23000000#32,
          0x30000000#32, 0x31000000#32, 0x40000000#32, 0x42000000#32, 0x48000000#32, 0x49000000#32, 0x4A000000#32,
          0x50000000#32, 0x51000000#32, 0x60000000#32, 0x61000000#32] ∨
      w &&& 0xFF000000#32 = 0x10000000#32 ∨ w &&& 0xFF000000#32 = 0x24000000#32 ∨
      (w &&& 0xFFE00000#32 = 0x41000000#32 ∧ 1 ≤ w.toNat / 2 ^ 16 % 2 ^ 5 ∧ w.toNat / 2 ^ 16 % 2 ^ 5 ≤ 16 ∧
        w.toNat % 2 ^ 16 / 2 ^ (w.toNat / 2 ^ 16 % 2 ^ 5) = 0))

/-! ## The port, issue and reset -/

/-- `Issue(w)` (30_encoding.md R97): a step that takes a write of `w` to CMD discards the word in the fault state unless it is
CLEAR, raises E_ILLEGAL on an illegal word, and otherwise is `exec` of the decoded command. The port answers `ok` in each
case (20_memory.md R64). -/
def Obligations.StepIssuesTheWord : Prop :=
  ∀ (s : State) (w : Word) (rest : List HostTx), s.inbox = .write 0x00000000#32 w :: rest →
    (s.err ≠ 0#8 → w ≠ 0x01000000#32 → step s = .next { s with inbox := rest, reply := some .done }) ∧
    (s.err = 0#8 ∨ w = 0x01000000#32 →
      (∀ why, decodeWord w = .illegal why →
        step s = .next { s with inbox := rest, reply := some .done, err := 4#8, errInfo := 0#32, errCmd := w }) ∧
      ∀ i, decodeWord w = .command i → step s = exec i { s with inbox := rest, reply := some .done })

/-- The state after reset (10_state.md R54): every register 0 but the four constants, no element of a memory written; HCC
idles until the host does something. -/
def Obligations.ResetLeavesZeroAndIdles : Prop :=
  (∀ c : Config, (State.resetIn c).cfg = c ∧ (State.resetIn c).err = 0#8 ∧ (State.resetIn c).errInfo = 0#32 ∧
      (State.resetIn c).errCmd = 0#32 ∧ (State.resetIn c).qe = false ∧ (State.resetIn c).be = false ∧
      (State.resetIn c).res = 0#32 ∧ (State.resetIn c).textLen = 0#32 ∧ (State.resetIn c).blobLen = 0#32 ∧
      (State.resetIn c).ftCnt = 0#32 ∧ (State.resetIn c).nodeCnt = 0#32 ∧ (State.resetIn c).pqCnt = 0#32 ∧
      (State.resetIn c).root = 0#24 ∧ (State.resetIn c).ctCnt = 0#32 ∧ (State.resetIn c).pkLen = 0#32 ∧
      (State.resetIn c).pad = 0#3 ∧ (State.resetIn c).origLen = 0#32 ∧ (State.resetIn c).stgBits = 0#8 ∧
      (State.resetIn c).stgCnt = 0#3 ∧ (State.resetIn c).upByte = 0#32 ∧ (State.resetIn c).upBit = 0#3 ∧
      (State.resetIn c).text = [] ∧ (State.resetIn c).blob = [] ∧ (State.resetIn c).ft = [] ∧
      (State.resetIn c).node = [] ∧ (State.resetIn c).heap = [] ∧ (State.resetIn c).ct = [] ∧ (State.resetIn c).pk = []) ∧
    ∀ s : State, s.inbox = [] → step s = .next s

/-- The reset event (70_reset_and_hazards.md R260): every register 0 but the constants, every memory unspecified. -/
def Obligations.ResetEvent : Prop :=
  ∀ (s : State) (rest : List HostTx), s.inbox = .reset :: rest →
    step s = .next { State.resetIn s.cfg with inbox := rest, draws := s.draws }

/-- The fault state (60_exceptions.md R233, R234): a step from it keeps every register and every memory, unless it takes CLEAR or
a reset, which leave it, or a host write to TEXT_LEN, BLOB_LEN or one element of TEXT or BLOB, which changes that place alone. -/
def Obligations.FaultStateKeepsTheEvidence : Prop :=
  ∀ s t : State, s.err ≠ 0#8 → step s = .next t →
    (∃ rest, (s.inbox = .write 0x00000000#32 0x01000000#32 :: rest ∨ s.inbox = .reset :: rest) ∧ t.err = 0#8) ∨
      (t = { s with inbox := t.inbox, reply := t.reply, draws := t.draws, text := t.text, textLen := t.textLen,
                    blob := t.blob, blobLen := t.blobLen } ∧
        (t.textLen ≠ s.textLen → ∃ rest, s.inbox = .write (portAddr 0#4 0x06) t.textLen :: rest) ∧
        (t.blobLen ≠ s.blobLen → ∃ rest, s.inbox = .write (portAddr 0#4 0x07) t.blobLen :: rest) ∧
        (t.text ≠ s.text → ∃ i v rest, i < s.cfg.nMax ∧ s.inbox = .write (portAddr 1#4 i) v :: rest ∧
          ∀ k, k ≠ i → t.text.get? k = s.text.get? k) ∧
        (t.blob ≠ s.blob → ∃ i v rest, i < s.cfg.bMax ∧ s.inbox = .write (portAddr 2#4 i) v :: rest ∧
          ∀ k, k ≠ i → t.blob.get? k = s.blob.get? k))

/-- ERR, ERR_INFO and ERR_CMD are written together, by a fault and by CLEAR alone; the fault's code is 1 to 10 and ERR_CMD is
the word of the command (10_state.md R24, R25, R26). -/
def Obligations.FaultRegistersWrittenTogether : Prop :=
  ∀ (i : Instr) (s t : State), i ≠ .clear → exec i s = .next t →
    (t.err = s.err ∧ t.errInfo = s.errInfo ∧ t.errCmd = s.errCmd) ∨
      (1 ≤ t.err.toNat ∧ t.err.toNat ≤ 10 ∧ t.errCmd = encodeInstr i)

/-- Which faults each command raises (60_exceptions.md R231, the column "raised by"; 45_codec_engine.md R212, R213): COMPRESS and
DECOMPRESS raise none of their helpers' E_EMPTY, E_NO_CODE and E_SEQ. A text that the host has not written reads as it happens to,
twice, so COMPRESS may find a symbol without a code there, and there alone (70_reset_and_hazards.md R265 b; log 2). -/
def Obligations.FaultsOfEachCommand : Prop :=
  ∀ (i : Instr) (s t : State), s.cfg.Legal → s.err = 0#8 → exec i s = .next t → t.err ≠ 0#8 →
    t.err.toNat ∈ faultCodes i ∨
      (i = .compress ∧ t.err = 9#8 ∧ ∃ k, k < s.textLen.toNat ∧ s.text.get? k = none)

/-- At a fault the length register of the command's output is 0 (60_exceptions.md R232; for ENCODE past its first check,
42_code_table.md R151). -/
def Obligations.NoPartialOutputAfterAFault : Prop :=
  ∀ (i : Instr) (s t : State), s.err = 0#8 → exec i s = .next t → t.err ≠ 0#8 →
    (i = .serialize ∨ i = .compress → t.blobLen = 0#32) ∧ (i = .decode ∨ i = .decompress → t.textLen = 0#32) ∧
      (i = .parse → t.pkLen = 0#32 ∧ t.pad = 0#3 ∧ t.origLen = 0#32) ∧
      (i = .encode → s.textLen.toNat ≤ s.cfg.nMax → t.origLen = 0#32)

/-- The four constants never change (10_state.md R42). -/
def Obligations.ConfigurationIsConstant : Prop :=
  ∀ s t : State, step s = .next t → t.cfg = s.cfg

/-- Which commands write FLAGS and RES (10_state.md R27, R28). -/
def Obligations.FlagsAndResWriters : Prop :=
  ∀ (i : Instr) (s t : State), exec i s = .next t →
    (t.qe ≠ s.qe → i ∈ [.pqExtract, .clear, .compress, .decompress]) ∧
      (t.be ≠ s.be → i ∈ [.upPop, .clear, .compress, .decompress]) ∧
      (t.res ≠ s.res → i ∈ [.pqExtract, .combine, .build, .upPop, .clear, .compress, .decompress])

/-- Which commands write which memory: the W entries of 20_memory.md R78. -/
def Obligations.MemoryWriters : Prop :=
  ∀ (i : Instr) (s t : State), exec i s = .next t →
    (t.text ≠ s.text → i ∈ [.decode, .decompress]) ∧ (t.blob ≠ s.blob → i ∈ [.serialize, .compress]) ∧
      (t.ft ≠ s.ft → i ∈ [.freq, .compress]) ∧
      (t.node ≠ s.node → (∃ n, i = .pqInsert n) ∨
        i ∈ [.pqExtract, .leaves, .combine, .build, .parse, .compress, .decompress]) ∧
      (t.heap ≠ s.heap → (∃ n, i = .pqInsert n) ∨ i ∈ [.pqExtract, .leaves, .combine, .build, .compress]) ∧
      (t.ct ≠ s.ct → i ∈ [.codegen, .compress]) ∧
      (t.pk ≠ s.pk → (∃ len bits, i = .pkPush len bits) ∨ i ∈ [.encode, .pkFlush, .parse, .compress, .decompress])

/-- Every command completes, with or without a fault recorded: from every state in which the invariants of R53 hold, and but
for the three that walk the live tree from every state at all (93_implementation_defined.md section 1: there is no stuck state;
log 5). -/
def Obligations.EveryCommandCompletes : Prop :=
  (∀ (i : Instr) (s : State), i ∉ [.codegen, .serialize, .compress] → ∃ t, exec i s = .next t) ∧
    ∀ (i : Instr) (s : State), s.cfg.Legal → s.sound → ∃ t, exec i s = .next t

/-- A host read (20_memory.md R62, R72): a bus error outside the implemented addresses of R61, else data; no state changes. -/
def Obligations.HostReadAnswers : Prop :=
  ∀ (s : State) (addr : Word) (rest : List HostTx), s.inbox = .read addr :: rest →
    (¬ hostReadable s.cfg addr → step s = .next { s with inbox := rest, reply := some .busError }) ∧
    (hostReadable s.cfg addr →
      ∃ v n, step s = .next { s with inbox := rest, reply := some (.data v), draws := n })

/-- What the host reads in space 0 (20_memory.md R64; 10_state.md R22 to R42). -/
def Obligations.HostViewOfRegisters : Prop :=
  ∀ (s : State) (n : Nat) (v : Word) (rest : List HostTx),
    (n, v) ∈ [(0x00, 0#32), (0x01, BitVec.ofNat 32 s.err.toNat), (0x02, s.errInfo), (0x03, s.errCmd),
      (0x04, BitVec.ofNat 32 (s.qe.toNat + 2 * s.be.toNat)), (0x05, s.res), (0x06, s.textLen), (0x07, s.blobLen),
      (0x08, s.ftCnt), (0x09, s.nodeCnt), (0x0A, s.pqCnt), (0x0B, BitVec.ofNat 32 s.root.toNat), (0x0C, s.ctCnt),
      (0x0D, s.pkLen), (0x0E, BitVec.ofNat 32 s.pad.toNat), (0x0F, s.origLen),
      (0x10, BitVec.ofNat 32 (s.stgBits.toNat + 2 ^ 8 * s.stgCnt.toNat)), (0x11, s.upByte),
      (0x12, BitVec.ofNat 32 s.upBit.toNat), (0x18, BitVec.ofNat 32 s.cfg.kMax), (0x19, BitVec.ofNat 32 s.cfg.nMax),
      (0x1A, BitVec.ofNat 32 s.cfg.pMax), (0x1B, BitVec.ofNat 32 s.cfg.bMax)] →
    s.inbox = .read (portAddr 0#4 n) :: rest → step s = .next { s with inbox := rest, reply := some (.data v) }

/-- What the host reads of a written element in spaces 1 to 7 (20_memory.md R65 to R71). -/
def Obligations.HostViewOfMemories : Prop :=
  ∀ (s : State) (space : BitVec 4) (offset : Nat) (rest : List HostTx), s.cfg.Legal →
    s.inbox = .read (portAddr space offset) :: rest →
    (∀ v, space = 1#4 → offset < s.cfg.nMax → s.text.get? offset = some v →
      step s = .next { s with inbox := rest, reply := some (.data v) }) ∧
    (∀ v, space = 2#4 → offset < s.cfg.bMax → s.blob.get? offset = some v →
      step s = .next { s with inbox := rest, reply := some (.data (BitVec.ofNat 32 v.toNat)) }) ∧
    (∀ j e, space = 3#4 → j < s.cfg.kMax → s.ft.get? j = some e →
      (offset = 2 * j → step s = .next { s with inbox := rest, reply := some (.data (BitVec.ofNat 32 e.sym.toNat)) }) ∧
      (offset = 2 * j + 1 → step s = .next { s with inbox := rest, reply := some (.data e.cnt) })) ∧
    (∀ id x, space = 4#4 → 1 ≤ id → id ≤ s.cfg.nodeMax → s.node.get? id = some x →
      (offset = 4 * id → step s = .next { s with inbox := rest, reply := some (.data
        (BitVec.ofNat 32 (x.st.toNat * 2 ^ 30 + x.leaf.toNat * 2 ^ 29 + x.sym.toNat))) }) ∧
      (offset = 4 * id + 1 → step s = .next { s with inbox := rest, reply := some (.data x.w) }) ∧
      (offset = 4 * id + 2 → step s = .next { s with inbox := rest, reply := some (.data (BitVec.ofNat 32 x.l.toNat)) }) ∧
      (offset = 4 * id + 3 → step s = .next { s with inbox := rest, reply := some (.data (BitVec.ofNat 32 x.r.toNat)) })) ∧
    (∀ id, space = 5#4 → offset < s.cfg.kMax → s.heap.get? offset = some id →
      step s = .next { s with inbox := rest, reply := some (.data (BitVec.ofNat 32 id.toNat)) }) ∧
    (∀ j e, space = 6#4 → j < s.cfg.kMax → s.ct.get? j = some e →
      (offset = s.cfg.ctStride * j →
        step s = .next { s with inbox := rest, reply := some (.data (BitVec.ofNat 32 e.sym.toNat)) }) ∧
      (offset = s.cfg.ctStride * j + 1 →
        step s = .next { s with inbox := rest, reply := some (.data (BitVec.ofNat 32 e.len.toNat)) }) ∧
      ∀ q, q + 2 < s.cfg.ctStride → offset = s.cfg.ctStride * j + (q + 2) →
        ∃ v : Word, step s = .next { s with inbox := rest, reply := some (.data v) } ∧
          ∀ k, k < 32 → v.getLsbD (31 - k) = (decide (32 * q + k < e.len.toNat) && e.code.getD (32 * q + k) false)) ∧
    ∀ v, space = 7#4 → offset < s.cfg.pMax → s.pk.get? offset = some v →
      step s = .next { s with inbox := rest, reply := some (.data (BitVec.ofNat 32 v.toNat)) }

/-- A host write (20_memory.md R63 to R66, R72): a bus error and no change where the host cannot write; TEXT_LEN, BLOB_LEN and
TEXT take all 32 bits, BLOB the low 8; nothing else changes, in the fault state too (60_exceptions.md R233, R243). -/
def Obligations.HostWriteAnswers : Prop :=
  ∀ (s : State) (addr v : Word) (rest : List HostTx), s.inbox = .write addr v :: rest →
    (¬ hostWritable s.cfg addr → step s = .next { s with inbox := rest, reply := some .busError }) ∧
    (addr = portAddr 0#4 0x06 → step s = .next { s with inbox := rest, reply := some .done, textLen := v }) ∧
    (addr = portAddr 0#4 0x07 → step s = .next { s with inbox := rest, reply := some .done, blobLen := v }) ∧
    (∀ i, i < s.cfg.nMax → i < 2 ^ 28 → addr = portAddr 1#4 i →
      ∃ m, step s = .next { s with inbox := rest, reply := some .done, text := m } ∧
        ∀ k, m.get? k = if k = i then some v else s.text.get? k) ∧
    ∀ i, i < s.cfg.bMax → i < 2 ^ 28 → addr = portAddr 2#4 i →
      ∃ m, step s = .next { s with inbox := rest, reply := some .done, blob := m } ∧
        ∀ k, m.get? k = if k = i then some (BitVec.ofNat 8 v.toNat) else s.blob.get? k

/-! ## NOP, CLEAR, PK_INIT, UP_INIT -/

/-- NOP changes nothing (45_codec_engine.md R210); CLEAR zeroes every writable register and no memory (R211); PK_INIT empties
the packer (43_bit_packer.md R170); UP_INIT rewinds the unpacker (R174). -/
def Obligations.NopClearAndInits : Prop :=
  ∀ s : State, exec .nop s = .next s ∧
    exec .clear s = .next
      { s with err := 0#8, errInfo := 0#32, errCmd := 0#32, qe := false, be := false, res := 0#32, textLen := 0#32,
               blobLen := 0#32, ftCnt := 0#32, nodeCnt := 0#32, pqCnt := 0#32, root := 0#24, ctCnt := 0#32, pkLen := 0#32,
               pad := 0#3, origLen := 0#32, stgBits := 0#8, stgCnt := 0#3, upByte := 0#32, upBit := 0#3 } ∧
    exec .pkInit s = .next { s with pkLen := 0#32, pad := 0#3, stgBits := 0#8, stgCnt := 0#3 } ∧
    exec .upInit s = .next { s with upByte := 0#32, upBit := 0#3 }

/-! ## The queue -/

/-- PQ_INSERT of an allocated, DETACHED node that is not the live root (40_priority_queue.md R112): the node is QUEUED, the
queue is what the sift-up of R110 makes of it, in heap order (R114), and nothing else changes. -/
def Obligations.PqInsertQueuesTheNode : Prop :=
  ∀ (s : State) (n : NodeId) (nodes : List Node) (h : List NodeId) (x : Node), s.cfg.Legal → s.arena nodes → s.queue h →
    h.length < s.cfg.kMax → 1 ≤ n.toNat → n.toNat ≤ s.nodeCnt.toNat → s.node.get? n.toNat = some x → x.st = stDetached →
    n ≠ s.root → n ∉ h →
    ∃ t h', exec (.pqInsert n) s = .next t ∧
      t = { s with pqCnt := s.pqCnt + 1#32, heap := t.heap, node := t.node } ∧
      (∀ k, t.node.get? k = if k = n.toNat then some { x with st := stQueued } else s.node.get? k) ∧
      Inserts s.node h n h' ∧ h'.Perm (n :: h) ∧ t.queue h' ∧ s.heap.sameFrom t.heap (h.length + 1)

/-- The faults of PQ_INSERT (R112): E_BAD_NODE(n) on a node that is not allocated, not DETACHED or the live root, in that
order, and E_CAPACITY(5) on a full queue (R110); none of them changes anything else. -/
def Obligations.PqInsertFaults : Prop :=
  ∀ (s : State) (n : NodeId),
    (n = 0#24 ∨ s.nodeCnt.toNat < n.toNat → exec (.pqInsert n) s = .next (s.faulted 7 n.toNat (encodeInstr (.pqInsert n)))) ∧
    ∀ x, n ≠ 0#24 → n.toNat ≤ s.nodeCnt.toNat → s.node.get? n.toNat = some x →
      (x.st ≠ stDetached → exec (.pqInsert n) s = .next (s.faulted 7 n.toNat (encodeInstr (.pqInsert n)))) ∧
      (x.st = stDetached → n = s.root → exec (.pqInsert n) s = .next (s.faulted 7 n.toNat (encodeInstr (.pqInsert n)))) ∧
      (x.st = stDetached → n ≠ s.root → s.pqCnt.toNat = s.cfg.kMax →
        exec (.pqInsert n) s = .next (s.faulted 5 5 (encodeInstr (.pqInsert n))))

/-- PQ_EXTRACT (R113): an empty queue is reported by QE = 1 and RES = 0; else RES is the id R111 takes out, of least weight
(R114), which is DETACHED now, QE = 0, and nothing but the queue changes beside. -/
def Obligations.PqExtractTakesTheMinimum : Prop :=
  encodeInstr .pqExtract = 0x11000000#32 ∧
    (∀ s : State, s.pqCnt = 0#32 → exec .pqExtract s = .next { s with qe := true, res := 0#32 }) ∧
    ∀ (s : State) (nodes : List Node) (h : List NodeId), s.cfg.Legal → s.arena nodes → s.queue h → h ≠ [] →
      ∃ t m x h', exec .pqExtract s = .next t ∧
        t = { s with qe := false, res := BitVec.ofNat 32 m.toNat, pqCnt := s.pqCnt - 1#32, heap := t.heap, node := t.node } ∧
        Extracts s.node h m h' ∧ h.Perm (m :: h') ∧ (∀ y ∈ h, weightOf s.node m ≤ weightOf s.node y) ∧
        s.node.get? m.toNat = some x ∧
        (∀ k, t.node.get? k = if k = m.toNat then some { x with st := stDetached } else s.node.get? k) ∧
        t.queue h' ∧ s.heap.sameFrom t.heap (h.length - 1)

/-! ## Frequencies and the tree -/

/-- FREQ (41_tree_builder.md R131) on a legal text of at most K_MAX distinct symbols: FT is the text's frequency table in order
of first occurrence (10_state.md R46), and nothing else changes. -/
def Obligations.FreqCountsTheText : Prop :=
  ∀ (s : State) (txt : List Symbol), s.cfg.Legal → s.holdsText txt → (firstSeen txt).length ≤ s.cfg.kMax →
    ∃ t, exec .freq s = .next t ∧ t = { s with ft := t.ft, ftCnt := t.ftCnt } ∧ t.holdsTable (freqTable txt) ∧
      s.ft.sameFrom t.ft (firstSeen txt).length

/-- The faults of FREQ (R131): E_CAPACITY(1) on a length above N_MAX, before any write; E_BAD_SYMBOL(i) at the first word above
0x10FFFF; E_CAPACITY(3) at the first symbol that would be distinct symbol number K_MAX + 1. FT and FT_CNT keep what was
counted before index i. -/
def Obligations.FreqFaults : Prop :=
  (∀ s : State, s.cfg.nMax < s.textLen.toNat → exec .freq s = .next (s.faulted 5 1 (encodeInstr .freq))) ∧
    ∀ (s : State) (pre : List Symbol) (v : Word), s.cfg.Legal → pre.length < s.textLen.toNat → s.textLen.toNat ≤ s.cfg.nMax →
      s.text.holds 0 (pre.map (·.setWidth 32)) → (∀ x ∈ pre, x.toNat ≤ symMax) → (firstSeen pre).length ≤ s.cfg.kMax →
      s.text.get? pre.length = some v →
      (symMax < v.toNat → ∃ t, exec .freq s = .next t ∧
        t = State.faulted { s with ft := t.ft, ftCnt := t.ftCnt } 6 pre.length (encodeInstr .freq) ∧
        t.holdsTable (freqTable pre) ∧ s.ft.sameFrom t.ft (firstSeen pre).length) ∧
      (v.toNat ≤ symMax → (∀ x ∈ pre, x.setWidth 32 ≠ v) → (firstSeen pre).length = s.cfg.kMax →
        ∃ t, exec .freq s = .next t ∧
          t = State.faulted { s with ft := t.ft, ftCnt := t.ftCnt } 5 3 (encodeInstr .freq) ∧
          t.holdsTable (freqTable pre) ∧ s.ft.sameFrom t.ft (firstSeen pre).length)

/-- LEAVES (R132): one QUEUED leaf per entry of FT, leaf j + 1 from entry j, inserted in that order; the old nodes, queue, root
and code table are dropped, and nothing else changes. -/
def Obligations.LeavesQueueTheTable : Prop :=
  ∀ (s : State) (l : List FtEntry), s.cfg.Legal → s.holdsTable l → l.length ≤ s.cfg.kMax →
    ∃ t h, exec .leaves s = .next t ∧
      t = { s with nodeCnt := s.ftCnt, pqCnt := s.ftCnt, root := 0#24, ctCnt := 0#32, node := t.node, heap := t.heap } ∧
      t.arena (l.map fun e => { st := stQueued, leaf := true, sym := e.sym, w := e.cnt, l := 0#24, r := 0#24 }) ∧
      InsertsAll t.node [] ((List.range' 1 l.length).map (BitVec.ofNat 24)) h ∧
      h.Perm ((List.range' 1 l.length).map (BitVec.ofNat 24)) ∧ t.queue h ∧ s.node.sameFrom t.node (l.length + 1) ∧
      s.heap.sameFrom t.heap l.length

/-- COMBINE (R133): the two nodes of least weight become the left and the right child of a new internal node, whose weight is
their sum mod 2^32 and which is queued; RES is its id; nothing else changes. -/
def Obligations.CombineJoinsTheTwoLightest : Prop :=
  ∀ (s : State) (nodes : List Node) (h : List NodeId), s.cfg.Legal → s.arena nodes → s.queue h → 2 ≤ h.length →
    nodes.length < s.cfg.nodeMax →
    ∃ t a b xa xb h1 h2 h', exec .combine s = .next t ∧
      t = { s with nodeCnt := s.nodeCnt + 1#32, pqCnt := s.pqCnt - 1#32, res := s.nodeCnt + 1#32, node := t.node,
                   heap := t.heap } ∧
      Extracts s.node h a h1 ∧ Extracts s.node h1 b h2 ∧ h.Perm (a :: b :: h2) ∧
      (∀ y ∈ h, weightOf s.node a ≤ weightOf s.node y) ∧ (∀ y ∈ h, y ≠ a → weightOf s.node b ≤ weightOf s.node y) ∧
      s.node.get? a.toNat = some xa ∧ s.node.get? b.toNat = some xb ∧
      (∀ k, t.node.get? k =
        if k = nodes.length + 1 then
          some { st := stQueued, leaf := false, sym := 0#21, w := xa.w + xb.w, l := a, r := b }
        else if k = a.toNat then some { xa with st := stChild }
        else if k = b.toNat then some { xb with st := stChild }
        else s.node.get? k) ∧
      Inserts t.node h2 (BitVec.ofNat 24 (nodes.length + 1)) h' ∧ t.queue h' ∧ s.heap.sameFrom t.heap (h.length - 1)

/-- The checks COMBINE, BUILD and CODEGEN make before any write (R133, R134; 42_code_table.md R150): fewer than two queued nodes,
a full node memory, an empty frequency table, no tree. -/
def Obligations.NothingToWorkOn : Prop :=
  ∀ s : State,
    (s.pqCnt.toNat < 2 → exec .combine s = .next (s.faulted 8 s.pqCnt.toNat (encodeInstr .combine))) ∧
    (2 ≤ s.pqCnt.toNat → s.nodeCnt.toNat = s.cfg.nodeMax → exec .combine s = .next (s.faulted 5 4 (encodeInstr .combine))) ∧
    (s.ftCnt = 0#32 → exec .build s = .next (s.faulted 8 0 (encodeInstr .build))) ∧
    (s.root = 0#24 → exec .codegen s = .next (s.faulted 8 0 (encodeInstr .codegen)))

/-- BUILD (R134) on a table whose counts sum to at most N_MAX (10_state.md R53 item 2): a full binary tree with one leaf per
entry of FT, leaf j + 1 from entry j; the root is the last node allocated, DETACHED, every other node CHILD; the queue is
empty; the nodes are one tree as R53 says, and the root's weight is the sum of the counts. Nothing else changes. -/
def Obligations.BuildMakesOneTree : Prop :=
  ∀ (s : State) (l : List FtEntry), s.cfg.Legal → s.holdsTable l → l ≠ [] → l.length ≤ s.cfg.kMax →
    (l.map (·.cnt.toNat)).sum ≤ s.cfg.nMax →
    ∃ t T tree, exec .build s = .next t ∧
      t = { s with nodeCnt := BitVec.ofNat 32 (2 * l.length - 1), pqCnt := 0#32, root := BitVec.ofNat 24 (2 * l.length - 1),
                   ctCnt := 0#32, res := BitVec.ofNat 32 (2 * l.length - 1), node := t.node, heap := t.heap } ∧
      t.liveTree T ∧ T.leaves.Perm (l.map (·.sym)) ∧ T.size = 2 * l.length - 1 ∧
      (∀ id, 1 ≤ id → id ≤ 2 * l.length - 1 →
        stOf t.node id = if id = 2 * l.length - 1 then stDetached else stChild) ∧
      (∀ j e, l[j]? = some e → ∃ x, t.node.get? (j + 1) = some x ∧ x.leaf = true ∧ x.sym = e.sym ∧ x.w = e.cnt ∧
        x.l = 0#24 ∧ x.r = 0#24) ∧
      weightOf t.node t.root = (l.map (·.cnt.toNat)).sum ∧ Grove s.cfg t.node (2 * l.length - 1) [] [tree] ∧
      tree.root = 2 * l.length - 1 ∧ s.node.sameFrom t.node (2 * l.length) ∧ s.heap.sameFrom t.heap l.length

/-- BUILD is LEAVES, COMBINE once less than there are entries, PQ_EXTRACT and SET_ROOT of its RES, but for QE = 0
(45_codec_engine.md R217, second bullet). -/
def Obligations.BuildStepByStep : Prop :=
  ∀ (s t : State) (l : List FtEntry), s.cfg.Legal → s.err = 0#8 → s.holdsTable l → l ≠ [] → l.length ≤ s.cfg.kMax →
    exec .build s = .next t →
    inTurn ([.leaves] ++ List.replicate (l.length - 1) .combine ++ [.pqExtract, .setRoot (BitVec.ofNat 24 t.res.toNat)]) s =
      .next { t with qe := false }

/-- SET_ROOT (R135), whole: E_BAD_NODE(n) on a node that is not allocated or not DETACHED, with no other change; else ROOT is n
and the code table is dropped. -/
def Obligations.SetRootNamesADetachedNode : Prop :=
  ∀ (s : State) (n : NodeId), encodeInstr (.setRoot n) = 0x24000000#32 ||| n.setWidth 32 ∧
    (n = 0#24 ∨ s.nodeCnt.toNat < n.toNat → exec (.setRoot n) s = .next (s.faulted 7 n.toNat (encodeInstr (.setRoot n)))) ∧
    ∀ x, n ≠ 0#24 → n.toNat ≤ s.nodeCnt.toNat → s.node.get? n.toNat = some x →
      (x.st ≠ stDetached → exec (.setRoot n) s = .next (s.faulted 7 n.toNat (encodeInstr (.setRoot n)))) ∧
      (x.st = stDetached → exec (.setRoot n) s = .next { s with root := n, ctCnt := 0#32 })

/-! ## Codes -/

/-- CODEGEN (42_code_table.md R150, R152): CT lists the leaves of the live tree in pre-order with their codes, each of 1 to
LEN_MAX bits; nothing else changes. -/
def Obligations.CodegenListsTheCodes : Prop :=
  ∀ (s : State) (T : Tree), s.cfg.Legal → s.liveTree T → T.leaves.length ≤ s.cfg.kMax →
    ∃ t, exec .codegen s = .next t ∧ t = { s with ct := t.ct, ctCnt := t.ctCnt } ∧ t.holdsCodes (codeTable T) ∧
      (∀ e ∈ codeTable T, 1 ≤ e.len.toNat ∧ e.len.toNat ≤ s.cfg.lenMax ∧ e.len.toNat = e.code.length) ∧
      s.ct.sameFrom t.ct T.leaves.length

/-- The prefix property (R153): after CODEGEN from a tree whose leaves hold pairwise different symbols, the entries' symbols are
pairwise different and no entry's code is a prefix of another's. -/
def Obligations.NoCodeIsAPrefixOfAnother : Prop :=
  ∀ (s t : State) (T : Tree), s.cfg.Legal → s.liveTree T → T.leaves.length ≤ s.cfg.kMax → T.leaves.Nodup →
    exec .codegen s = .next t →
    ∀ j k e f, j < t.ctCnt.toNat → k < t.ctCnt.toNat → j ≠ k → t.ct.get? j = some e → t.ct.get? k = some f →
      e.sym ≠ f.sym ∧ ¬ entryBits e <+: entryBits f

/-- ENCODE (R151): PK holds the concatenation of the codes of the text, closed with its padding; ORIG_LEN is the length of the
text; nothing else changes. -/
def Obligations.EncodePacksTheCodes : Prop :=
  ∀ (s : State) (l : List CtEntry) (txt : List Symbol) (bs : BitString), s.cfg.Legal → s.holdsCodes l →
    s.textLen.toNat = txt.length → txt.length ≤ s.cfg.nMax → s.text.holds 0 (txt.map (·.setWidth 32)) →
    textBits l txt = some bs → (bs.length + 7) / 8 ≤ s.cfg.pMax →
    ∃ t, exec .encode s = .next t ∧
      t = { s with origLen := s.textLen, pkLen := BitVec.ofNat 32 ((bs.length + 7) / 8),
                   pad := BitVec.ofNat 3 (padCount bs.length), stgBits := 0#8, stgCnt := 0#3, pk := t.pk } ∧
      t.holdsPacked (packBytes (padded bs)) (padCount bs.length) ∧ s.pk.sameFrom t.pk ((bs.length + 7) / 8)

/-- The faults of ENCODE (R151): E_CAPACITY(1) before any write; E_NO_CODE(i) at the first symbol without an entry; E_CAPACITY(7)
at the bit that would complete byte P_MAX + 1, whatever the text holds after it, or at the flush of a text whose last byte does
not fit. On the last two what was packed stands and ORIG_LEN is 0. -/
def Obligations.EncodeFaults : Prop :=
  (∀ s : State, s.cfg.nMax < s.textLen.toNat → exec .encode s = .next (s.faulted 5 1 (encodeInstr .encode))) ∧
    (∀ (s : State) (l : List CtEntry) (pre : List Symbol) (bs : BitString) (v : Word), s.cfg.Legal → s.holdsCodes l →
      pre.length < s.textLen.toNat → s.textLen.toNat ≤ s.cfg.nMax → s.text.holds 0 (pre.map (·.setWidth 32)) →
      s.text.get? pre.length = some v → textBits l pre = some bs → (∀ e ∈ l, e.sym.setWidth 32 ≠ v) →
      bs.length / 8 ≤ s.cfg.pMax →
      ∃ t, exec .encode s = .next t ∧
        t = State.faulted { s with origLen := 0#32, pkLen := t.pkLen, pad := 0#3, stgBits := t.stgBits, stgCnt := t.stgCnt,
                                   pk := t.pk } 9 pre.length (encodeInstr .encode) ∧ t.packs bs) ∧
    ∀ (s : State) (l : List CtEntry) (pre : List Symbol) (bs : BitString), s.cfg.Legal → s.holdsCodes l →
      pre.length ≤ s.textLen.toNat → s.textLen.toNat ≤ s.cfg.nMax → s.text.holds 0 (pre.map (·.setWidth 32)) →
      textBits l pre = some bs →
      8 * s.cfg.pMax + 7 < bs.length ∨ (pre.length = s.textLen.toNat ∧ s.cfg.pMax < (bs.length + 7) / 8) →
      ∃ t, exec .encode s = .next t ∧
        t = State.faulted { s with origLen := 0#32, pkLen := t.pkLen, pad := 0#3, stgBits := t.stgBits, stgCnt := t.stgCnt,
                                   pk := t.pk } 5 7 (encodeInstr .encode) ∧ t.packs (bs.take (8 * s.cfg.pMax + 7))

/-! ## Bits -/

/-- PK_PUSH (43_bit_packer.md R172): the operand's bits, first bit most significant, are appended to the open bit string; nothing
else changes. Every legal operand is one of these (30_encoding.md R93). -/
def Obligations.PkPushAppendsTheBits : Prop :=
  ∀ (s : State) (bs cs : BitString) (len : BitVec 5) (bits : BitVec 16), s.cfg.Legal → s.packs bs → len.toNat = cs.length →
    bits.toNat = bitsValue cs → 1 ≤ cs.length → cs.length ≤ 16 → (bs.length + cs.length) / 8 ≤ s.cfg.pMax →
    ∃ t, exec (.pkPush len bits) s = .next t ∧
      t = { s with pkLen := t.pkLen, stgBits := t.stgBits, stgCnt := t.stgCnt, pk := t.pk } ∧ t.packs (bs ++ cs) ∧
      s.pk.sameFrom t.pk ((bs.length + cs.length) / 8)

/-- PK_FLUSH (R173, R177): the bit string is closed with (8 - L mod 8) mod 8 zero bits; bit 7 - k of PK[q] is bit 8q + k of the
string or 0; nothing else changes. What is unpacked from it is the string again (R178). -/
def Obligations.PkFlushClosesTheString : Prop :=
  ∀ (s : State) (bs : BitString), s.cfg.Legal → s.packs bs → (bs.length + 7) / 8 ≤ s.cfg.pMax →
    ∃ t bytes, exec .pkFlush s = .next t ∧
      t = { s with pkLen := BitVec.ofNat 32 ((bs.length + 7) / 8), pad := BitVec.ofNat 3 ((8 - bs.length % 8) % 8),
                   stgBits := 0#8, stgCnt := 0#3, pk := t.pk } ∧
      t.holdsPacked bytes ((8 - bs.length % 8) % 8) ∧
      (∀ q v k, bytes[q]? = some v → k < 8 → v.getLsbD (7 - k) = bs.getD (8 * q + k) false) ∧
      unpackBits bytes ((8 - bs.length % 8) % 8) = bs ∧ s.pk.sameFrom t.pk ((bs.length + 7) / 8)

/-- The faults of PK_PUSH and PK_FLUSH (R172, R173): E_SEQ(PAD) on a string closed with padding, no change; E_CAPACITY(7) when PK
is full, the bits pushed before staying staged. -/
def Obligations.PackerFaults : Prop :=
  (∀ (s : State) (len : BitVec 5) (bits : BitVec 16), s.pad ≠ 0#3 →
      exec (.pkPush len bits) s = .next (s.faulted 10 s.pad.toNat (encodeInstr (.pkPush len bits))) ∧
      exec .pkFlush s = .next (s.faulted 10 s.pad.toNat (encodeInstr .pkFlush))) ∧
    (∀ (s : State) (bs cs : BitString) (len : BitVec 5) (bits : BitVec 16), s.cfg.Legal → s.packs bs →
      len.toNat = cs.length → bits.toNat = bitsValue cs → 1 ≤ cs.length → cs.length ≤ 16 → bs.length ≤ 8 * s.cfg.pMax + 7 →
      8 * s.cfg.pMax + 7 < bs.length + cs.length →
      ∃ t, exec (.pkPush len bits) s = .next t ∧
        t = State.faulted { s with pkLen := t.pkLen, stgBits := t.stgBits, stgCnt := t.stgCnt, pk := t.pk } 5 7
          (encodeInstr (.pkPush len bits)) ∧ t.packs (bs ++ cs.take (8 * s.cfg.pMax + 7 - bs.length))) ∧
    ∀ (s : State) (bs : BitString), s.packs bs → bs.length / 8 = s.cfg.pMax → bs.length % 8 ≠ 0 →
      exec .pkFlush s = .next (s.faulted 5 7 (encodeInstr .pkFlush))

/-- UP_POP (R175, R176), whole: past the end of the bit string BE = 1, RES = 0 and the position stays; else BE = 0, RES is the
bit at the position, most significant first, and the position moves by one. -/
def Obligations.UpPopTakesTheNextBit : Prop :=
  encodeInstr .upPop = 0x49000000#32 ∧ ∀ s : State,
    (8 * s.pkLen.toNat - s.pad.toNat ≤ 8 * s.upByte.toNat + s.upBit.toNat →
      exec .upPop s = .next { s with be := true, res := 0#32 }) ∧
    ∀ v, 8 * s.upByte.toNat + s.upBit.toNat < 8 * s.pkLen.toNat - s.pad.toNat → s.pk.get? s.upByte.toNat = some v →
      exec .upPop s = .next
        { s with be := false, res := BitVec.ofNat 32 (v.toNat / 2 ^ (7 - s.upBit.toNat) % 2),
                 upByte := if s.upBit = 7#3 then s.upByte + 1#32 else s.upByte,
                 upBit := if s.upBit = 7#3 then 0#3 else s.upBit + 1#3 }

/-- What successive UP_POP commands answer is the unpacked string (R178): at position p below its length, the bit p of it, and
the position is p + 1 then. -/
def Obligations.UpPopReadsTheUnpackedString : Prop :=
  ∀ (s : State) (bytes : List Byte) (pad p : Nat), s.cfg.Legal → s.holdsPacked bytes pad → bytes.length ≤ s.cfg.pMax →
    8 * s.upByte.toNat + s.upBit.toNat = p → p < (unpackBits bytes pad).length →
    ∃ t b, (unpackBits bytes pad)[p]? = some b ∧ exec .upPop s = .next t ∧
      t = { s with be := false, res := BitVec.ofNat 32 b.toNat, upByte := t.upByte, upBit := t.upBit } ∧
      8 * t.upByte.toNat + t.upBit.toNat = p + 1

/-! ## The decoder -/

/-- DECODE (45_codec_engine.md R214) on packed bits that are the codes of ORIG_LEN leaves of the live tree: TEXT holds their
symbols, TEXT_LEN their number, the unpacker stands at the end; nothing else changes. With no bits and ORIG_LEN = 0 it needs
no tree. -/
def Obligations.DecodeWritesTheText : Prop :=
  (∀ (s : State) (T : Tree) (ps : List (Symbol × BitString)) (bytes : List Byte) (pad : Nat), s.cfg.Legal → s.liveTree T →
      s.holdsPacked bytes pad → bytes.length ≤ s.cfg.pMax → (∀ p ∈ ps, p ∈ T.codes) →
      unpackBits bytes pad = (spelled ps).2 → s.origLen.toNat = ps.length → ps.length ≤ s.cfg.nMax →
      ∃ t, exec .decode s = .next t ∧
        t = { s with text := t.text, textLen := s.origLen, upByte := BitVec.ofNat 32 ((8 * bytes.length - pad) / 8),
                     upBit := BitVec.ofNat 3 ((8 * bytes.length - pad) % 8) } ∧
        t.text.holds 0 ((spelled ps).1.map (·.setWidth 32)) ∧ s.text.sameFrom t.text ps.length) ∧
    ∀ s : State, s.pkLen = 0#32 → s.origLen = 0#32 →
      exec .decode s = .next { s with textLen := 0#32, upByte := 0#32, upBit := 0#3 }

/-- The faults of DECODE (R214): the bits end inside a code; fewer or more symbols than ORIG_LEN; a 1 bit for a bare leaf; bits
but no tree; symbol number N_MAX + 1. TEXT_LEN is 0 and only TEXT and the unpacker change beside. -/
def Obligations.DecodeFaults : Prop :=
  ∀ (s : State) (bytes : List Byte) (pad : Nat), s.cfg.Legal → s.holdsPacked bytes pad → bytes.length ≤ s.cfg.pMax →
    (∀ (T : Tree) (ps : List (Symbol × BitString)) (more : BitString), s.liveTree T → (∀ p ∈ ps, p ∈ T.codes) →
      unpackBits bytes pad = (spelled ps).2 ++ more →
      ∀ code info,
        ((ps.length ≤ s.cfg.nMax ∧ more ≠ [] ∧ (∃ q ∈ T.codes, more <+: q.2 ∧ more ≠ q.2) ∧
            code = 2 ∧ info = 8 * bytes.length - pad) ∨
          (ps.length ≤ s.cfg.nMax ∧ more = [] ∧ ps.length < s.origLen.toNat ∧ code = 3 ∧ info = ps.length) ∨
          (ps.length ≤ s.cfg.nMax ∧ more = [] ∧ s.origLen.toNat < ps.length ∧ code = 1 ∧ info = ps.length) ∨
          (ps.length ≤ s.cfg.nMax ∧ (∃ x, T = .leaf x) ∧ (∃ rest, more = true :: rest) ∧ code = 2 ∧ info = ps.length) ∨
          (ps.length = s.cfg.nMax + 1 ∧ code = 5 ∧ info = 1)) →
        ∃ t, exec .decode s = .next t ∧
          t = State.faulted { s with text := t.text, textLen := 0#32, upByte := t.upByte, upBit := t.upBit } code info
            (encodeInstr .decode)) ∧
    (s.root = 0#24 → 0 < 8 * bytes.length - pad →
      exec .decode s = .next (State.faulted { s with textLen := 0#32, upByte := 0#32, upBit := 1#3 } 8 0
        (encodeInstr .decode)))

/-! ## The container -/

/-- SERIALIZE (44_container.md R193): BLOB is the container of R190 for the live tree and the packed bytes, or the header alone
when there is neither; BLOB_LEN is its length; nothing else changes. -/
def Obligations.SerializeWritesTheContainer : Prop :=
  (∀ (s : State) (T : Tree) (payload : List Byte) (pad : Nat), s.cfg.Legal → s.stgCnt = 0#3 → s.liveTree T →
      T.leaves.length ≤ s.cfg.kMax → s.holdsPacked payload pad →
      17 + T.snapshot.length + payload.length ≤ s.cfg.bMax →
      ∃ t, exec .serialize s = .next t ∧
        t = { s with blob := t.blob, blobLen := BitVec.ofNat 32 (17 + T.snapshot.length + payload.length) } ∧
        t.holdsBlob (containerBytes s.origLen.toNat pad (some T) payload) ∧
        s.blob.sameFrom t.blob (17 + T.snapshot.length + payload.length)) ∧
    ∀ s : State, s.cfg.Legal → s.stgCnt = 0#3 → s.root = 0#24 → s.pkLen = 0#32 → s.origLen = 0#32 → s.pad = 0#3 →
      ∃ t, exec .serialize s = .next t ∧ t = { s with blob := t.blob, blobLen := 17#32 } ∧
        t.holdsBlob (containerBytes 0 0 none []) ∧ s.blob.sameFrom t.blob 17

/-- The faults of SERIALIZE (R193): staged bits, a payload or a length without a tree, a container that does not fit. BLOB_LEN is
0, and only BLOB changes beside. -/
def Obligations.SerializeFaults : Prop :=
  (∀ s : State, s.stgCnt ≠ 0#3 →
      exec .serialize s = .next (State.faulted { s with blobLen := 0#32 } 10 s.stgCnt.toNat (encodeInstr .serialize))) ∧
    (∀ s : State, s.stgCnt = 0#3 → s.root = 0#24 → s.pkLen ≠ 0#32 ∨ s.origLen ≠ 0#32 →
      exec .serialize s = .next (State.faulted { s with blobLen := 0#32 } 8 0 (encodeInstr .serialize))) ∧
    ∀ (s : State) (T : Tree) (payload : List Byte) (pad : Nat), s.cfg.Legal → s.stgCnt = 0#3 → s.liveTree T →
      T.leaves.length ≤ s.cfg.kMax → s.holdsPacked payload pad →
      s.cfg.bMax < 17 + T.snapshot.length + payload.length →
      ∃ t, exec .serialize s = .next t ∧
        t = State.faulted { s with blob := t.blob, blobLen := 0#32 } 5 2 (encodeInstr .serialize) ∧
        s.blob.sameFrom t.blob s.cfg.bMax

/-- PARSE (R194, R195) of a container: the live tree is the container's, its nodes numbered in pre-order with weight 0, the root
DETACHED and the others CHILD; PK, PAD and ORIG_LEN are the container's; queue, code table, stager and unpacker are empty;
nothing else changes. -/
def Obligations.ParseLoadsTheContainer : Prop :=
  (∀ (s : State) (T : Tree) (payload : List Byte) (orig pad : Nat), s.cfg.Legal →
      s.holdsBlob (containerBytes orig pad (some T) payload) → orig < 2 ^ 32 → pad ≤ 7 → (payload = [] → pad = 0) →
      payload.length ≤ s.cfg.pMax → T.leaves.length ≤ s.cfg.kMax → (∀ x ∈ T.leaves, x.toNat ≤ symMax) →
      ∃ t, exec .parse s = .next t ∧
        t = { s.artifactZero with nodeCnt := BitVec.ofNat 32 T.size, root := 1#24, pkLen := BitVec.ofNat 32 payload.length,
                                  pad := BitVec.ofNat 3 pad, origLen := BitVec.ofNat 32 orig, node := t.node, pk := t.pk } ∧
        t.liveTree T ∧ t.holdsPacked payload pad ∧
        (∃ ids : IdTree, ids.ids = List.range' 1 T.size ∧ holdsShape t.node ids) ∧
        (∀ id, 1 ≤ id → id ≤ T.size → ∃ x, t.node.get? id = some x ∧ x.w = 0#32 ∧
          x.st = (if id = 1 then stDetached else stChild)) ∧
        s.node.sameFrom t.node (T.size + 1) ∧ s.pk.sameFrom t.pk payload.length) ∧
    ∀ s : State, s.cfg.Legal → s.holdsBlob (containerBytes 0 0 none []) → exec .parse s = .next s.artifactZero

/-- The faults of PARSE before the tree, in the order of R194: a length above B_MAX or below 17, the first wrong byte of MAGIC,
then the first field check that fails. The registers PARSE zeroes first are zero, and nothing else changes. -/
def Obligations.ParseFieldFaults : Prop :=
  ∀ s : State, s.cfg.Legal →
    (s.cfg.bMax < s.blobLen.toNat → exec .parse s = .next (s.artifactZero.faulted 5 2 (encodeInstr .parse))) ∧
    (s.blobLen.toNat < 17 → exec .parse s = .next (s.artifactZero.faulted 1 s.blobLen.toNat (encodeInstr .parse))) ∧
    (∀ bytes k v, s.holdsBlob bytes → 17 ≤ bytes.length → k < 4 →
      bytes.take k = ([0x48#8, 0x55#8, 0x46#8, 0x31#8] : List Byte).take k → bytes[k]? = some v →
      some v ≠ ([0x48#8, 0x55#8, 0x46#8, 0x31#8] : List Byte)[k]? →
      exec .parse s = .next (s.artifactZero.faulted 1 k (encodeInstr .parse))) ∧
    ∀ orig padb tlen plen more code info, orig < 2 ^ 32 → padb < 2 ^ 8 → tlen < 2 ^ 32 → plen < 2 ^ 32 →
      s.holdsBlob (headerBytes orig padb tlen plen ++ more) →
      headerFault s.cfg orig padb tlen plen (17 + more.length) = some (code, info) →
      exec .parse s = .next (s.artifactZero.faulted code info (encodeInstr .parse))

/-- The faults of ParseTree (R195) on a snapshot that begins with these records, at the first byte after them: it ends early, an
unknown tag, a leaf record cut short, a value that is no symbol, bytes left over, one record more than NODE holds, one open
node more than STK holds, `os` being the nodes open after the records. NODE, NODE_CNT and ROOT may keep a partial tree; nothing
else changes but what PARSE zeroes. -/
def Obligations.ParseTreeFaults : Prop :=
  ∀ (s : State) (recs : List (Option Symbol)) (rest payload : List Byte) (orig pad at' : Nat) (os : List Bool), s.cfg.Legal →
    s.holdsBlob (headerBytes orig pad ((recs.flatMap recordBytes).length + rest.length) payload.length ++
      recs.flatMap recordBytes ++ rest ++ payload) → orig < 2 ^ 32 → pad < 2 ^ 8 →
    headerFault s.cfg orig pad ((recs.flatMap recordBytes).length + rest.length) payload.length
      (17 + ((recs.flatMap recordBytes).length + rest.length) + payload.length) = none →
    0 < (recs.flatMap recordBytes).length + rest.length → (∀ x, some x ∈ recs → x.toNat ≤ symMax) →
    openAfter s.cfg.kMax [true] recs = some os → recs.length ≤ s.cfg.nodeMax →
    at' = 17 + (recs.flatMap recordBytes).length →
    ∀ code info,
      ((os ≠ [] ∧ rest = [] ∧ code = 2 ∧ info = at') ∨
        (os ≠ [] ∧ (∃ v more, rest = v :: more ∧ v ≠ 0x00#8 ∧ v ≠ 0x01#8) ∧ code = 2 ∧ info = at') ∨
        (os ≠ [] ∧ (∃ more, rest = 0x01#8 :: more ∧ more.length < 3) ∧ code = 2 ∧ info = at') ∨
        (os ≠ [] ∧ (∃ a b c more, rest = 0x01#8 :: a :: b :: c :: more ∧
            symMax < a.toNat * 2 ^ 16 + b.toNat * 2 ^ 8 + c.toNat) ∧ code = 2 ∧ info = at' + 1) ∨
        (os = [] ∧ rest ≠ [] ∧ code = 2 ∧ info = at') ∨
        (os ≠ [] ∧ recs.length = s.cfg.nodeMax ∧ (∃ r more, rest = recordBytes r ++ more ∧
            ∀ x, r = some x → x.toNat ≤ symMax) ∧ code = 5 ∧ info = 4) ∨
        ((childGiven os).length = s.cfg.kMax ∧ recs.length < s.cfg.nodeMax ∧ (∃ more, rest = 0x00#8 :: more) ∧
          code = 5 ∧ info = 8)) →
      ∃ t, exec .parse s = .next t ∧
        t = State.faulted { s.artifactZero with node := t.node, nodeCnt := t.nodeCnt, root := t.root } code info
          (encodeInstr .parse)

/-- PARSE accepts nothing but containers (R194, R195): if it ends with no fault, the bytes are the container of R190 for what it
loaded. -/
def Obligations.ParseAcceptsOnlyContainers : Prop :=
  ∀ (s t : State) (bytes : List Byte), s.cfg.Legal → s.err = 0#8 → s.holdsBlob bytes → exec .parse s = .next t →
    t.err = 0#8 →
    ∃ (tree : Option Tree) (payload : List Byte),
      bytes = containerBytes t.origLen.toNat t.pad.toNat tree payload ∧ t.holdsPacked payload t.pad.toNat ∧
        payload.length ≤ s.cfg.pMax ∧
        ((tree = none ∧ t.root = 0#24 ∧ payload = [] ∧ t.origLen = 0#32) ∨
          ∃ T, tree = some T ∧ t.liveTree T ∧ T.leaves.length ≤ s.cfg.kMax ∧ ∀ x ∈ T.leaves, x.toNat ≤ symMax)

/-- The round trip of the container (R196). If SERIALIZE ends with no fault, PARSE of its bytes gives PK, PAD, ORIG_LEN and the
tree again, its ids in pre-order and its weights 0; if PARSE ends with no fault, SERIALIZE writes the same bytes back. The three
invariants it asks for hold after reset and are kept by every step (StepKeepsSoundness, InvariantsHoldAtReset). -/
def Obligations.ContainerRoundTrip : Prop :=
  (∀ s t u : State, s.cfg.Legal → s.err = 0#8 → s.sound → s.leavesLegal → s.payloadWritten → exec .serialize s = .next t →
      t.err = 0#8 → u.cfg = t.cfg → u.err = 0#8 → u.blobLen = t.blobLen →
      (∀ k, k < t.blobLen.toNat → u.blob.get? k = t.blob.get? k) →
      ∃ v, exec .parse u = .next v ∧ v.err = 0#8 ∧ v.pkLen = s.pkLen ∧ v.pad = s.pad ∧ v.origLen = s.origLen ∧
        (∀ k, k < s.pkLen.toNat → v.pk.get? k = s.pk.get? k) ∧
        ((s.root = 0#24 ∧ v.root = 0#24) ∨
          ∃ T, ∃ ids : IdTree, s.liveTree T ∧ v.liveTree T ∧ v.root = 1#24 ∧ v.nodeCnt.toNat = T.size ∧
            ids.ids = List.range' 1 T.size ∧ holdsShape v.node ids ∧ ∀ id ∈ ids.ids, weightAt v.node id = 0)) ∧
    ∀ (u v : State) (bytes : List Byte), u.cfg.Legal → u.err = 0#8 → u.holdsBlob bytes → exec .parse u = .next v →
      v.err = 0#8 →
      ∃ w, exec .serialize v = .next w ∧ w.err = 0#8 ∧ w.blobLen = u.blobLen ∧ ∀ k, w.blob.get? k = u.blob.get? k

/-! ## The whole calls -/

/-- COMPRESS (45_codec_engine.md R212) as its rule composes it: WorkClear, BLOB_LEN to 0, the check of the length, then SERIALIZE
alone for the empty text, else FREQ, BUILD, CODEGEN, ENCODE, SERIALIZE up to the first fault, ERR_CMD being COMPRESS's word. -/
def Obligations.CompressRunsTheStages : Prop :=
  ∀ s : State, s.err = 0#8 →
    (s.cfg.nMax < s.textLen.toNat →
      exec .compress s = .next (State.faulted { s.workZero with blobLen := 0#32 } 5 1 0x60000000#32)) ∧
    ∀ stages, ((s.textLen = 0#32 ∧ stages = [.serialize]) ∨
        (s.textLen ≠ 0#32 ∧ s.textLen.toNat ≤ s.cfg.nMax ∧ stages = [.freq, .build, .codegen, .encode, .serialize])) →
      ∀ t, inTurn stages { s.workZero with blobLen := 0#32 } = .next t →
        exec .compress s = .next (if t.err = 0#8 then t else { t with errCmd := 0x60000000#32 })

/-- COMPRESS of a legal, non-empty text of at most K_MAX distinct symbols (R212): the container of R190 for a tree over its
symbols and its codes' bits, of 17 + (5k - 1) + PK_LEN bytes (44_container.md R192); or E_CAPACITY(7) when the packed bytes do not
fit, or E_CAPACITY(2) when the container does not, with BLOB_LEN 0. In each case the frequency table, the tree and its codes are in
FT, NODE and CT, and TEXT and TEXT_LEN are not written. -/
def Obligations.CompressMakesTheContainer : Prop :=
  ∀ (s : State) (txt : List Symbol), s.cfg.Legal → s.err = 0#8 → s.holdsText txt → txt ≠ [] →
    (firstSeen txt).length ≤ s.cfg.kMax →
    ∃ t T bs, exec .compress s = .next t ∧ T.leaves.Perm (firstSeen txt) ∧ textBits (codeTable T) txt = some bs ∧
      txt.length ≤ bs.length ∧ t.text = s.text ∧ t.textLen = s.textLen ∧ t.holdsTable (freqTable txt) ∧ t.liveTree T ∧
      t.root.toNat = 2 * (firstSeen txt).length - 1 ∧ t.nodeCnt.toNat = 2 * (firstSeen txt).length - 1 ∧
      t.holdsCodes (codeTable T) ∧
      (s.cfg.pMax < (bs.length + 7) / 8 →
        t.err = 5#8 ∧ t.errInfo = 7#32 ∧ t.errCmd = 0x60000000#32 ∧ t.blobLen = 0#32) ∧
      ((bs.length + 7) / 8 ≤ s.cfg.pMax → s.cfg.bMax < 17 + (5 * (firstSeen txt).length - 1) + (bs.length + 7) / 8 →
        t.err = 5#8 ∧ t.errInfo = 2#32 ∧ t.errCmd = 0x60000000#32 ∧ t.blobLen = 0#32) ∧
      ((bs.length + 7) / 8 ≤ s.cfg.pMax → 17 + (5 * (firstSeen txt).length - 1) + (bs.length + 7) / 8 ≤ s.cfg.bMax →
        t = { s with qe := false, be := false, res := BitVec.ofNat 32 t.root.toNat, ftCnt := t.ftCnt, nodeCnt := t.nodeCnt,
                     pqCnt := 0#32, root := t.root, ctCnt := t.ctCnt, pkLen := t.pkLen, pad := t.pad, origLen := s.textLen,
                     stgBits := 0#8, stgCnt := 0#3, upByte := 0#32, upBit := 0#3, blobLen := t.blobLen, ft := t.ft,
                     node := t.node, heap := t.heap, ct := t.ct, pk := t.pk, blob := t.blob } ∧
        t.holdsPacked (packBytes (padded bs)) (padCount bs.length) ∧
        t.holdsBlob (containerBytes txt.length (padCount bs.length) (some T) (packBytes (padded bs))) ∧
        t.blobLen.toNat = 17 + (5 * (firstSeen txt).length - 1) + (bs.length + 7) / 8)

/-- DECOMPRESS (R213) as its rule composes it: WorkClear, TEXT_LEN to 0, then PARSE and DECODE up to the first fault, ERR_CMD
being DECOMPRESS's word. -/
def Obligations.DecompressRunsTheStages : Prop :=
  ∀ s t : State, s.err = 0#8 → inTurn [.parse, .decode] { s.workZero with textLen := 0#32 } = .next t →
    exec .decompress s = .next (if t.err = 0#8 then t else { t with errCmd := 0x61000000#32 })

/-- DECOMPRESS of a container whose payload spells ORIG leaves of its tree (R213, R214), or of the header-only container: TEXT
and TEXT_LEN are the text; FLAGS, RES, FT_CNT and CT_CNT are 0; BLOB and BLOB_LEN are not written. -/
def Obligations.DecompressRecoversTheText : Prop :=
  (∀ (s : State) (T : Tree) (ps : List (Symbol × BitString)) (payload : List Byte) (pad : Nat), s.cfg.Legal → s.err = 0#8 →
      s.holdsBlob (containerBytes ps.length pad (some T) payload) → pad ≤ 7 → (payload = [] → pad = 0) →
      payload.length ≤ s.cfg.pMax → T.leaves.length ≤ s.cfg.kMax → (∀ x ∈ T.leaves, x.toNat ≤ symMax) →
      (∀ p ∈ ps, p ∈ T.codes) → unpackBits payload pad = (spelled ps).2 → ps.length ≤ s.cfg.nMax →
      ∃ t, exec .decompress s = .next t ∧
        t = { s.workZero with nodeCnt := BitVec.ofNat 32 T.size, root := 1#24, pkLen := BitVec.ofNat 32 payload.length,
                              pad := BitVec.ofNat 3 pad, origLen := BitVec.ofNat 32 ps.length, node := t.node, pk := t.pk,
                              text := t.text, textLen := BitVec.ofNat 32 ps.length, upByte := t.upByte, upBit := t.upBit } ∧
        t.holdsText (spelled ps).1 ∧ t.liveTree T) ∧
    ∀ s : State, s.cfg.Legal → s.err = 0#8 → s.holdsBlob (containerBytes 0 0 none []) →
      exec .decompress s = .next { s.workZero with textLen := 0#32 }

/-- The round trip (R215): after COMPRESS of a legal text that ends with no fault, DECOMPRESS of the same container, in any
state of the same configuration, ends with no fault and gives the text again; the empty text included. -/
def Obligations.DecompressAfterCompressIsTheText : Prop :=
  ∀ (s : State) (txt : List Symbol), s.cfg.Legal → s.err = 0#8 → s.holdsText txt → (firstSeen txt).length ≤ s.cfg.kMax →
    ∃ t, exec .compress s = .next t ∧
      (t.err = 0#8 → ∀ u : State, u.cfg = s.cfg → u.err = 0#8 → u.blobLen = t.blobLen →
        (∀ k, k < t.blobLen.toNat → u.blob.get? k = t.blob.get? k) →
        ∃ v, exec .decompress u = .next v ∧ v.err = 0#8 ∧ v.holdsText txt)

/-- Truncation is detected (R218), for the container of any tree and any non-empty sequence of its codes: cut short, it is
refused by PARSE; with its last payload bytes gone and a PLEN that says so, by PARSE when the padding has no byte left, else by the
walk. TEXT_LEN is 0. -/
def Obligations.TruncationIsDetected : Prop :=
  ∀ (s : State) (T : Tree) (ps : List (Symbol × BitString)) (payload : List Byte) (pad : Nat), s.cfg.Legal → s.err = 0#8 →
    T.leaves.length ≤ s.cfg.kMax → (∀ x ∈ T.leaves, x.toNat ≤ symMax) → ps ≠ [] → (∀ p ∈ ps, p ∈ T.codes) →
    ps.length ≤ s.cfg.nMax → payload = packBytes (padded (spelled ps).2) → pad = padCount (spelled ps).2.length →
    payload.length ≤ s.cfg.pMax →
    (∀ n, n < 17 + T.snapshot.length + payload.length →
      s.holdsBlob ((containerBytes ps.length pad (some T) payload).take n) →
      ∃ t, exec .decompress s = .next t ∧ t.textLen = 0#32 ∧ t.errCmd = 0x61000000#32 ∧
        (17 + T.snapshot.length ≤ n → t.err = 3#8 ∧ t.errInfo = 13#32) ∧
        (17 ≤ n → n < 17 + T.snapshot.length → t.err = 1#8 ∧ t.errInfo = 9#32) ∧
        (n < 17 → t.err = 1#8 ∧ t.errInfo = BitVec.ofNat 32 n)) ∧
    ∀ j, 1 ≤ j → j ≤ payload.length →
      s.holdsBlob (containerBytes ps.length pad (some T) (payload.take (payload.length - j))) →
      ∃ t, exec .decompress s = .next t ∧ t.textLen = 0#32 ∧ t.errCmd = 0x61000000#32 ∧
        (j = payload.length → pad ≠ 0 → t.err = 1#8 ∧ t.errInfo = 8#32) ∧
        (j < payload.length ∨ pad = 0 → t.err = 2#8 ∨ t.err = 3#8)

/-- Per-call isolation (R216): COMPRESS on the same text, and DECOMPRESS on the same container, end in the same registers and the
same valid elements, whatever was there before. -/
def Obligations.CallsDependOnTheirInputAlone : Prop :=
  ∀ s s' t t' : State, s.cfg.Legal → s'.cfg = s.cfg → s.err = 0#8 → s'.err = 0#8 → s'.errInfo = s.errInfo →
    s'.errCmd = s.errCmd →
    (s'.textLen = s.textLen → (∀ k, k < s.textLen.toNat → ∃ v, s.text.get? k = some v ∧ s'.text.get? k = some v) →
      exec .compress s = .next t → exec .compress s' = .next t' → t.agrees t') ∧
    (s'.blobLen = s.blobLen → (∀ k, k < s.blobLen.toNat → ∃ v, s.blob.get? k = some v ∧ s'.blob.get? k = some v) →
      exec .decompress s = .next t → exec .decompress s' = .next t' → t.agrees t')

/-! ## Invariants -/

/-- Every step keeps the memories in canonical form, with no element a memory does not have (10_state.md R43). -/
def Obligations.StepKeepsMemoryForm : Prop :=
  ∀ s t : State, s.memoryForm → step s = .next t → t.memoryForm

/-- Every step keeps the invariants of R53 (10_state.md) in the states without a fault, in every legal configuration; and that every
leaf holds a legal symbol (41_tree_builder.md R131; 44_container.md R195) and every valid byte of PK is written (10_state.md R51,
R55). -/
def Obligations.StepKeepsSoundness : Prop :=
  ∀ s t : State, s.cfg.Legal → (s.err = 0#8 → s.sound ∧ s.leavesLegal ∧ s.payloadWritten) → step s = .next t →
    t.err = 0#8 → t.sound ∧ t.leavesLegal ∧ t.payloadWritten

/-- The invariants hold after reset, in every configuration. -/
def Obligations.InvariantsHoldAtReset : Prop :=
  ∀ c : Config, (State.resetIn c).memoryForm ∧ (State.resetIn c).sound ∧ (State.resetIn c).leavesLegal ∧
    (State.resetIn c).payloadWritten
end

