-- ==== Sys2Proof/Laws/HeapList.lean ====
section
/-! SUPPORT. The binary heap of the priority queue as operations on lists: sift-up and sift-down keep the elements and restore the heap order (40_priority_queue.md R110, R111, R114). -/

namespace Sys2Proof.HeapList

/-- Exchange the elements at positions `i` and `j`. -/
def swap (h : List NodeId) (i j : Nat) : List NodeId := (h.set i (h.getD j 0#24)).set j (h.getD i 0#24)

/-- The sift-up loop on a list. -/
def siftUp (W : NodeId → Nat) : Nat → Nat → List NodeId → List NodeId
  | 0, _, h => h
  | fuel + 1, i, h =>
    if i = 0 then h
    else if W (h.getD i 0#24) < W (h.getD ((i - 1) / 2) 0#24) then siftUp W fuel ((i - 1) / 2) (swap h i ((i - 1) / 2))
    else h

/-- The position of the smaller weight of the list at `s` and `c`; a tie stays at `s`. -/
def smaller (W : NodeId → Nat) (h : List NodeId) (c s : Nat) : Nat :=
  if c < h.length then (if W (h.getD c 0#24) < W (h.getD s 0#24) then c else s) else s

/-- The smallest of the three positions at and below `i`. -/
def smallest (W : NodeId → Nat) (h : List NodeId) (i : Nat) : Nat := smaller W h (2 * i + 2) (smaller W h (2 * i + 1) i)

/-- The sift-down loop on a list. -/
def siftDown (W : NodeId → Nat) : Nat → Nat → List NodeId → List NodeId
  | 0, _, h => h
  | fuel + 1, i, h => if smallest W h i = i then h else siftDown W fuel (smallest W h i) (swap h i (smallest W h i))

/-- Insertion on a list. -/
def insert (W : NodeId → Nat) (h : List NodeId) (id : NodeId) : List NodeId := siftUp W h.length h.length (h ++ [id])

/-- What is left after the first element is taken, on a list. -/
def extract (W : NodeId → Nat) (h : List NodeId) : List NodeId :=
  if 1 < h.length then siftDown W (h.length - 1) 0 ((h.take (h.length - 1)).set 0 (h.getD (h.length - 1) 0#24))
  else []

/-- The heap order: no node weighs less than its parent (10_state.md R48). -/
def Ordered (W : NodeId → Nat) (h : List NodeId) : Prop :=
  ∀ i, 0 < i → i < h.length → W (h.getD ((i - 1) / 2) 0#24) ≤ W (h.getD i 0#24)

variable {W : NodeId → Nat} {h : List NodeId}

@[simp] theorem swap_length (i j : Nat) : (swap h i j).length = h.length := by simp [swap]

theorem swap_getD {i j : Nat} (hi : i < h.length) (hj : j < h.length) (k : Nat) :
    (swap h i j).getD k 0#24 = if k = j then h.getD i 0#24 else if k = i then h.getD j 0#24 else h.getD k 0#24 := by
  unfold swap
  simp only [List.getD_eq_getElem?_getD, List.getElem?_set, List.length_set]
  by_cases hkj : k = j
  · subst hkj; simp [hj]
  · by_cases hki : k = i
    · subst hki; simp [hkj, Ne.symm hkj, hi]
    · simp [hkj, hki, Ne.symm hkj, Ne.symm hki]

theorem swap_perm {i j : Nat} (hi : i < h.length) (hj : j < h.length) : (swap h i j).Perm h := by
  have := Array.swap_perm (xs := h.toArray) (i := i) (j := j) (by simpa using hi) (by simpa using hj)
  have := this.toList
  simpa [swap, Array.toList_swap, hi, hj, List.getD_eq_getElem?_getD, List.getElem?_eq_getElem] using this

theorem siftUp_length (fuel i : Nat) (h : List NodeId) : (siftUp W fuel i h).length = h.length := by
  induction fuel generalizing i h with
  | zero => rfl
  | succ fuel ih =>
    unfold siftUp
    split
    · rfl
    · split
      · rw [ih, swap_length]
      · rfl

theorem siftUp_perm (fuel i : Nat) (h : List NodeId) (hi : i < h.length) : (siftUp W fuel i h).Perm h := by
  induction fuel generalizing i h with
  | zero => exact .refl _
  | succ fuel ih =>
    unfold siftUp
    split
    · exact .refl _
    · split
      · exact (ih _ _ (by rw [swap_length]; omega)).trans (swap_perm hi (by omega))
      · exact .refl _

/-- The heap order everywhere but between `i` and its parent, with the children of `i` no lighter than that parent. -/
def OrderedBut (W : NodeId → Nat) (h : List NodeId) (i : Nat) : Prop :=
  (∀ j, 0 < j → j < h.length → j ≠ i → W (h.getD ((j - 1) / 2) 0#24) ≤ W (h.getD j 0#24)) ∧
    (0 < i → ∀ j, 0 < j → j < h.length → (j - 1) / 2 = i → W (h.getD ((i - 1) / 2) 0#24) ≤ W (h.getD j 0#24))

theorem siftUp_ordered (fuel i : Nat) (h : List NodeId) (hi : i < h.length) (hf : i ≤ fuel)
    (ho : OrderedBut W h i) : Ordered W (siftUp W fuel i h) := by
  induction fuel generalizing i h with
  | zero =>
    obtain rfl : i = 0 := by omega
    exact fun j h0 hj => ho.1 j h0 hj (by omega)
  | succ fuel ih =>
    unfold siftUp
    split
    · rename_i hz
      subst hz
      exact fun j h0 hj => ho.1 j h0 hj (by omega)
    · rename_i hz
      split
      · rename_i hlt
        refine ih _ _ (by rw [swap_length]; omega) (by omega) ⟨fun j h0 hj hne => ?_, fun h0 j hj0 hj hp => ?_⟩
        · rw [swap_length] at hj
          rw [swap_getD hi (by omega), swap_getD hi (by omega)]
          have h1 := ho.1 j h0 hj
          have h2 := ho.2 (by omega) j h0 hj
          have h3 := ho.1 ((i - 1) / 2)
          by_cases e1 : j = i
          · subst e1
            rw [if_pos rfl, if_neg hne, if_pos rfl]
            omega
          · rw [if_neg hne, if_neg e1]
            by_cases e2 : (j - 1) / 2 = (i - 1) / 2
            · rw [if_pos e2]; have := h1 e1; rw [e2] at this; omega
            · rw [if_neg e2]
              by_cases e3 : (j - 1) / 2 = i
              · rw [if_pos e3]; exact h2 e3
              · rw [if_neg e3]; exact h1 e1
        · rw [swap_length] at hj
          rw [swap_getD hi (by omega), swap_getD hi (by omega)]
          have h1 := ho.1 j hj0 hj
          have h3 := ho.1 ((i - 1) / 2) h0 (by omega) (by omega)
          rw [if_neg (by omega), if_neg (by omega)]
          by_cases e1 : j = i
          · subst e1
            rw [if_neg (by omega), if_pos rfl]
            exact h3
          · rw [if_neg (by omega), if_neg e1]
            have := h1 e1
            rw [hp] at this
            omega
      · rename_i hlt
        intro j h0 hj
        by_cases e1 : j = i
        · subst e1; omega
        · exact ho.1 j h0 hj e1

theorem insert_perm (id : NodeId) : (insert W h id).Perm (id :: h) :=
  (siftUp_perm _ _ _ (by simp)).trans (List.perm_append_singleton id h)

theorem insert_length (id : NodeId) : (insert W h id).length = h.length + 1 := by
  unfold insert; rw [siftUp_length]; simp

theorem getD_append_left {k : Nat} (l : List NodeId) (hk : k < h.length) : (h ++ l).getD k 0#24 = h.getD k 0#24 := by
  simp [List.getD_eq_getElem?_getD, List.getElem?_append_left hk]

/-- Insertion keeps the heap order (R114). -/
theorem insert_ordered (ho : Ordered W h) (id : NodeId) : Ordered W (insert W h id) := by
  refine siftUp_ordered _ _ _ (by simp) (Nat.le_refl _) ⟨fun j h0 hj hne => ?_, fun _ j h0 hj hp => ?_⟩
  · simp only [List.length_append, List.length_singleton] at hj
    rw [getD_append_left _ (by omega), getD_append_left _ (by omega)]
    exact ho j h0 (by omega)
  · simp only [List.length_append, List.length_singleton] at hj
    omega

/-! ### Sift-down -/

theorem smaller_cases (c s : Nat) :
    (smaller W h c s = s ∧ (c < h.length → W (h.getD s 0#24) ≤ W (h.getD c 0#24))) ∨
      (smaller W h c s = c ∧ c < h.length ∧ W (h.getD c 0#24) < W (h.getD s 0#24)) := by
  unfold smaller
  split
  · split
    · exact .inr ⟨rfl, ‹_›, ‹_›⟩
    · exact .inl ⟨rfl, fun _ => by omega⟩
  · exact .inl ⟨rfl, fun hh => absurd hh ‹_›⟩

/-- The smallest of three: it is `i` or a child in the heap, and it is no heavier than any of the three. -/
theorem smallest_spec (i : Nat) :
    (smallest W h i = i ∨ ((smallest W h i - 1) / 2 = i ∧ 0 < smallest W h i ∧ smallest W h i < h.length ∧
        W (h.getD (smallest W h i) 0#24) < W (h.getD i 0#24))) ∧
      W (h.getD (smallest W h i) 0#24) ≤ W (h.getD i 0#24) ∧
      ∀ c, 0 < c → c < h.length → (c - 1) / 2 = i → W (h.getD (smallest W h i) 0#24) ≤ W (h.getD c 0#24) := by
  unfold smallest
  rcases smaller_cases (W := W) (h := h) (2 * i + 1) i with ⟨e1, h1⟩ | ⟨e1, l1, h1⟩ <;> rw [e1]
  · rcases smaller_cases (W := W) (h := h) (2 * i + 2) i with ⟨e2, h2⟩ | ⟨e2, l2, h2⟩ <;> rw [e2]
    · refine ⟨.inl rfl, Nat.le_refl _, fun c h0 hc hp => ?_⟩
      obtain rfl | rfl : c = 2 * i + 1 ∨ c = 2 * i + 2 := by omega
      · exact h1 hc
      · exact h2 hc
    · refine ⟨.inr ⟨by omega, by omega, l2, h2⟩, by omega, fun c h0 hc hp => ?_⟩
      obtain rfl | rfl : c = 2 * i + 1 ∨ c = 2 * i + 2 := by omega
      · have := h1 hc; omega
      · exact Nat.le_refl _
  · rcases smaller_cases (W := W) (h := h) (2 * i + 2) (2 * i + 1) with ⟨e2, h2⟩ | ⟨e2, l2, h2⟩ <;> rw [e2]
    · refine ⟨.inr ⟨by omega, by omega, l1, h1⟩, by omega, fun c h0 hc hp => ?_⟩
      obtain rfl | rfl : c = 2 * i + 1 ∨ c = 2 * i + 2 := by omega
      · exact Nat.le_refl _
      · exact h2 hc
    · refine ⟨.inr ⟨by omega, by omega, l2, by omega⟩, by omega, fun c h0 hc hp => ?_⟩
      obtain rfl | rfl : c = 2 * i + 1 ∨ c = 2 * i + 2 := by omega
      · omega
      · exact Nat.le_refl _

theorem siftDown_length (fuel i : Nat) (h : List NodeId) : (siftDown W fuel i h).length = h.length := by
  induction fuel generalizing i h with
  | zero => rfl
  | succ fuel ih =>
    unfold siftDown
    split
    · rfl
    · rw [ih, swap_length]

theorem siftDown_perm (fuel i : Nat) (h : List NodeId) (hi : i < h.length) : (siftDown W fuel i h).Perm h := by
  induction fuel generalizing i h with
  | zero => exact .refl _
  | succ fuel ih =>
    unfold siftDown
    rcases (smallest_spec (W := W) (h := h) i).1 with e | ⟨_, _, hl, _⟩
    · rw [if_pos e]
    · split
      · exact .refl _
      · exact (ih _ _ (by rw [swap_length]; exact hl)).trans (swap_perm hi hl)

/-- The heap order everywhere but below `i`, with the children of `i` no lighter than the parent of `i`. -/
def OrderedAbove (W : NodeId → Nat) (h : List NodeId) (i : Nat) : Prop :=
  (∀ j, 0 < j → j < h.length → (j - 1) / 2 ≠ i → W (h.getD ((j - 1) / 2) 0#24) ≤ W (h.getD j 0#24)) ∧
    (0 < i → ∀ j, 0 < j → j < h.length → (j - 1) / 2 = i → W (h.getD ((i - 1) / 2) 0#24) ≤ W (h.getD j 0#24))

theorem siftDown_ordered (fuel i : Nat) (h : List NodeId) (hi : i < h.length) (hf : h.length ≤ fuel + i)
    (ho : OrderedAbove W h i) : Ordered W (siftDown W fuel i h) := by
  induction fuel generalizing i h with
  | zero => omega
  | succ fuel ih =>
    unfold siftDown
    obtain ⟨hc, hle, hall⟩ := smallest_spec (W := W) (h := h) i
    split
    · rename_i e
      rw [e] at hall
      intro j h0 hj
      by_cases hp : (j - 1) / 2 = i
      · rw [hp]; exact hall j h0 hj hp
      · exact ho.1 j h0 hj hp
    · rename_i e
      obtain ⟨hp, hz, hl, hlt⟩ := hc.resolve_left e
      generalize smallest W h i = s at *
      refine ih _ _ (by rw [swap_length]; exact hl) (by rw [swap_length]; omega) ⟨fun j h0 hj hne => ?_, fun _ j h0 hj hjp => ?_⟩
      · rw [swap_length] at hj
        rw [swap_getD hi hl, swap_getD hi hl]
        have h1 := ho.1 j h0 hj
        have h2 := ho.2
        rw [if_neg hne]
        by_cases e1 : (j - 1) / 2 = i
        · rw [if_pos e1]
          by_cases e2 : j = s
          · rw [if_pos e2]; omega
          · rw [if_neg e2, if_neg (by omega)]; exact hall j h0 hj e1
        · rw [if_neg e1]
          by_cases e2 : j = s
          · omega
          · rw [if_neg e2]
            by_cases e3 : j = i
            · subst e3
              rw [if_pos rfl]
              exact h2 h0 s hz hl hp
            · rw [if_neg e3]; exact h1 e1
      · rw [swap_length] at hj
        rw [swap_getD hi hl, swap_getD hi hl, hp, if_neg (by omega), if_pos rfl, if_neg (by omega), if_neg (by omega)]
        have := ho.1 j h0 hj (by omega)
        rwa [hjp] at this

/-! ### Extraction -/

theorem ordered_head_le (ho : Ordered W h) : ∀ i, i < h.length → W (h.getD 0 0#24) ≤ W (h.getD i 0#24) := by
  intro i
  induction i using Nat.strong_induction_on with
  | _ i ih =>
    intro hi
    by_cases h0 : i = 0
    · subst h0; exact Nat.le_refl _
    · exact Nat.le_trans (ih ((i - 1) / 2) (by omega) (by omega)) (ho i (by omega) hi)

/-- The first element of a heap is one of smallest weight (R114). -/
theorem ordered_head_min (ho : Ordered W h) (x : NodeId) (hx : x ∈ h) : W (h.getD 0 0#24) ≤ W x := by
  obtain ⟨i, hi, rfl⟩ := List.getElem_of_mem hx
  have := ordered_head_le ho i hi
  rwa [List.getD_eq_getElem?_getD (i := i), List.getElem?_eq_getElem hi] at this

theorem extract_length (hn : 0 < h.length) : (extract W h).length = h.length - 1 := by
  unfold extract
  split
  · rw [siftDown_length]; simp
  · simp; omega

theorem extract_perm (hn : 0 < h.length) : h.Perm (h.getD 0 0#24 :: extract W h) := by
  unfold extract
  split
  · rename_i h1
    refine .trans ?_ ((siftDown_perm (W := W) _ 0 _ (by simp; omega)).symm.cons _)
    obtain ⟨x, l, rfl⟩ := List.exists_cons_of_ne_nil (List.ne_nil_of_length_pos hn)
    rcases List.eq_nil_or_concat l with rfl | ⟨m, y, rfl⟩
    · simp at h1
    · have e : (x :: (m.concat y)).take ((x :: (m.concat y)).length - 1) = x :: m := by simp
      have e2 : (x :: (m.concat y)).getD ((x :: (m.concat y)).length - 1) 0#24 = y := by simp
      rw [e, e2]
      simp
  · obtain ⟨x, rfl⟩ := List.length_eq_one_iff.mp (show h.length = 1 by omega)
    simp

theorem take_set_getD {n k : Nat} (x : NodeId) (hn : n ≤ h.length) (hk : k < n) (hz : 0 < n) :
    ((h.take n).set 0 x).getD k 0#24 = if k = 0 then x else h.getD k 0#24 := by
  simp only [List.getD_eq_getElem?_getD, List.getElem?_set, List.getElem?_take, List.length_take]
  by_cases e : k = 0
  · subst e; simp [Nat.min_eq_left hn, hz]
  · simp [e, Ne.symm e, hk]

/-- Extraction keeps the heap order (R114). -/
theorem extract_ordered (ho : Ordered W h) : Ordered W (extract W h) := by
  unfold extract
  split
  · rename_i h1
    have hlen : ((h.take (h.length - 1)).set 0 (h.getD (h.length - 1) 0#24)).length = h.length - 1 := by simp
    refine siftDown_ordered _ _ _ (by rw [hlen]; omega) (by rw [hlen]; omega) ⟨fun j h0 hj hp => ?_, fun hh => absurd hh (by omega)⟩
    rw [hlen] at hj
    rw [take_set_getD _ (by omega) (by omega) (by omega), take_set_getD _ (by omega) hj (by omega), if_neg hp, if_neg (by omega)]
    exact ho j h0 (by omega)
  · intro i h0 hi
    simp at hi

/-! ### Only the weights of the elements count -/

variable {W' : NodeId → Nat}

theorem getD_mem {i : Nat} (hi : i < h.length) : h.getD i 0#24 ∈ h := by
  rw [List.getD_eq_getElem?_getD, List.getElem?_eq_getElem hi]
  exact List.getElem_mem hi

theorem siftUp_congr (fuel i : Nat) (h : List NodeId) (hi : i < h.length) (hW : ∀ x ∈ h, W x = W' x) :
    siftUp W fuel i h = siftUp W' fuel i h := by
  induction fuel generalizing i h with
  | zero => rfl
  | succ fuel ih =>
    have hp : (i - 1) / 2 < h.length := by omega
    unfold siftUp
    rw [hW _ (getD_mem hi), hW _ (getD_mem hp),
      ih _ _ (by rw [swap_length]; exact hp) fun x hx => hW x ((swap_perm hi hp).mem_iff.mp hx)]

theorem smaller_congr {c i : Nat} (hi : i < h.length) (hW : ∀ x ∈ h, W x = W' x) : smaller W h c i = smaller W' h c i := by
  unfold smaller
  split
  · rename_i hc
    rw [hW _ (getD_mem hc), hW _ (getD_mem hi)]
  · rfl

theorem smallest_lt {i : Nat} (hi : i < h.length) : smallest W h i < h.length := by
  rcases (smallest_spec (W := W) (h := h) i).1 with e | ⟨_, _, hl, _⟩
  · rw [e]; exact hi
  · exact hl

theorem smallest_congr {i : Nat} (hi : i < h.length) (hW : ∀ x ∈ h, W x = W' x) : smallest W h i = smallest W' h i := by
  unfold smallest
  rw [smaller_congr hi hW, smaller_congr _ hW]
  rcases smaller_cases (W := W') (h := h) (2 * i + 1) i with ⟨e, _⟩ | ⟨e, l, _⟩ <;> rw [e] <;> assumption

theorem siftDown_congr (fuel i : Nat) (h : List NodeId) (hi : i < h.length) (hW : ∀ x ∈ h, W x = W' x) :
    siftDown W fuel i h = siftDown W' fuel i h := by
  induction fuel generalizing i h with
  | zero => rfl
  | succ fuel ih =>
    unfold siftDown
    rw [smallest_congr hi hW]
    split
    · rfl
    · exact ih _ _ (by rw [swap_length]; exact smallest_lt hi) fun x hx => hW x ((swap_perm hi (smallest_lt hi)).mem_iff.mp hx)

theorem insert_congr (id : NodeId) (hW : ∀ x ∈ h ++ [id], W x = W' x) : insert W h id = insert W' h id :=
  siftUp_congr _ _ _ (by simp) hW

theorem extract_congr (hW : ∀ x ∈ h, W x = W' x) : extract W h = extract W' h := by
  unfold extract
  split
  · rename_i h1
    refine siftDown_congr _ _ _ (by simp; omega) fun x hx => ?_
    rcases List.mem_or_eq_of_mem_set hx with hx | rfl
    · exact hW x (List.mem_of_mem_take hx)
    · exact hW _ (getD_mem (by omega))
  · rfl

theorem ordered_congr (hW : ∀ x ∈ h, W x = W' x) (ho : Ordered W h) : Ordered W' h := by
  intro i h0 hi
  rw [← hW _ (getD_mem hi), ← hW _ (getD_mem (by omega))]
  exact ho i h0 hi

end Sys2Proof.HeapList
end

