-- ==== Sys2Proof/Laws/Arbiter.lean ====
section
/-! SUPPORT. The list operations of the queue take a queue to what the rules' own relation says (40_priority_queue.md R110, R111). -/

namespace Sys2Proof.Machine

variable {m m' : Memory Node} {h h' : List NodeId}

theorem siftUp_siftsUp (fuel i : Nat) (h : List NodeId) (hf : i ≤ fuel) :
    SiftsUp m i h (HeapList.siftUp (weightOf m) fuel i h) := by
  induction fuel generalizing i h with
  | zero =>
    obtain rfl : i = 0 := by omega
    exact .top h
  | succ fuel ih =>
    rw [HeapList.siftUp]
    split
    · rename_i hi
      rw [hi]
      exact .top h
    · rename_i hi
      split
      · rename_i hw
        exact .rise i h _ (by omega) hw (ih _ _ (by omega))
      · rename_i hw
        exact .stay i h (by omega)

theorem insert_inserts (h : List NodeId) (id : NodeId) : Inserts m h id (HeapList.insert (weightOf m) h id) :=
  siftUp_siftsUp h.length h.length _ (Nat.le_refl _)

@[simp] theorem exchanged_length (h : List NodeId) (i j : Nat) : (exchanged h i j).length = h.length := by simp [exchanged]

theorem siftDown_siftsDown (fuel i : Nat) (h : List NodeId) (hi : i < h.length) (hf : h.length ≤ fuel + i) :
    SiftsDown m i h (HeapList.siftDown (weightOf m) fuel i h) := by
  induction fuel generalizing i h with
  | zero => omega
  | succ fuel ih =>
    rw [HeapList.siftDown]
    unfold HeapList.smallest
    have hswap : ∀ j, HeapList.swap h i j = exchanged h i j := fun _ => rfl
    simp only [hswap]
    rcases HeapList.smaller_cases (W := weightOf m) (h := h) (2 * i + 1) i with ⟨e1, hl⟩ | ⟨e1, hlen1, hl⟩
    · rw [e1]
      rcases HeapList.smaller_cases (W := weightOf m) (h := h) (2 * i + 2) i with ⟨e2, hr⟩ | ⟨e2, hlen2, hr⟩
      · rw [e2, if_pos rfl]
        exact .stay i h hl hr
      · rw [e2, if_neg (by omega)]
        exact .right i h _ hlen2 hr (by have := hl (by omega); omega) (ih _ _ (by rw [exchanged_length]; exact hlen2) (by rw [exchanged_length]; omega))
    · rw [e1]
      rcases HeapList.smaller_cases (W := weightOf m) (h := h) (2 * i + 2) (2 * i + 1) with ⟨e2, hr⟩ | ⟨e2, hlen2, hr⟩
      · rw [e2, if_neg (by omega)]
        exact .left i h _ hlen1 hl hr (ih _ _ (by rw [exchanged_length]; exact hlen1) (by rw [exchanged_length]; omega))
      · rw [e2, if_neg (by omega)]
        exact .right i h _ hlen2 (by omega) hr (ih _ _ (by rw [exchanged_length]; exact hlen2) (by rw [exchanged_length]; omega))

theorem extract_extracts (hn : 0 < h.length) : Extracts m h (h.getD 0 0#24) (HeapList.extract (weightOf m) h) := by
  unfold HeapList.extract
  match h, hn with
  | [id], _ => exact .only id
  | id :: a :: l, _ =>
    rw [if_pos (by simp)]
    have hl : (a :: l) = (a :: l).dropLast ++ [(a :: l).getLast (by simp)] := (List.dropLast_append_getLast (by simp)).symm
    generalize hd : (a :: l).dropLast = d at hl
    generalize hx : (a :: l).getLast (by simp) = x at hl
    rw [hl]
    have e1 : ((id :: (d ++ [x])).take ((id :: (d ++ [x])).length - 1)).set 0 ((id :: (d ++ [x])).getD ((id :: (d ++ [x])).length - 1) 0#24) =
        x :: d := by
      simp
    rw [e1]
    exact .more id d x _ (siftDown_siftsDown _ 0 _ (by simp) (by simp))

/-- The sift-up looks at the weights of the queue's own nodes alone. -/
theorem SiftsUp.congr {i : Nat} (hs : SiftsUp m i h h') (hi : i < h.length) (hW : ∀ x ∈ h, weightOf m' x = weightOf m x) :
    SiftsUp m' i h h' := by
  induction hs with
  | top h => exact .top h
  | stay i h hw =>
    refine .stay i h ?_
    rw [hW _ (HeapList.getD_mem hi), hW _ (HeapList.getD_mem (by omega))]
    exact hw
  | rise i h h' h0 hw hs ih =>
    have hp : (i - 1) / 2 < h.length := by omega
    refine .rise i h h' h0 ?_ (ih ?_ ?_)
    · rw [hW _ (HeapList.getD_mem hi), hW _ (HeapList.getD_mem hp)]
      exact hw
    · show (i - 1) / 2 < (HeapList.swap h i ((i - 1) / 2)).length
      simpa using hp
    · intro x hx
      exact hW x ((HeapList.swap_perm hi hp).mem_iff.mp hx)

theorem Inserts.congr {id : NodeId} (hs : Inserts m h id h') (hW : ∀ x ∈ h ++ [id], weightOf m' x = weightOf m x) :
    Inserts m' h id h' :=
  SiftsUp.congr hs (by simp) hW

end Sys2Proof.Machine
end

