-- ==== Sys2Proof/Laws/Bits.lean ====
section
/-! SUPPORT. Laws of bit strings: their value, their whole bytes, padding, and unpacking as the inverse of packing (43_bit_packer.md R177, R178). -/

namespace Sys2Proof.Machine

@[simp] theorem bitsValue_nil : bitsValue [] = 0 := rfl

theorem bitsValue_snoc (bs : BitString) (b : Bool) : bitsValue (bs ++ [b]) = 2 * bitsValue bs + b.toNat := by
  simp [bitsValue]

theorem bitsValue_lt (bs : BitString) : bitsValue bs < 2 ^ bs.length := by
  induction bs using List.reverseRecOn with
  | nil => simp
  | append_singleton bs b ih =>
    rw [bitsValue_snoc, List.length_append, List.length_singleton, Nat.pow_succ]
    have := Bool.toNat_le b
    omega

theorem bitsValue_append_zeros (bs : BitString) (n : Nat) :
    bitsValue (bs ++ List.replicate n false) = bitsValue bs * 2 ^ n := by
  induction n with
  | zero => simp
  | succ n ih =>
    rw [List.replicate_succ', ← List.append_assoc, bitsValue_snoc, ih, Nat.pow_succ]
    simp
    ring

/-- Bit `k` of the value of a bit string, counted from the last bit. -/
theorem bitsValue_testBit (bs : BitString) (k : Nat) (hk : k < bs.length) :
    (bitsValue bs).testBit k = bs[bs.length - 1 - k]'(by omega) := by
  induction bs using List.reverseRecOn generalizing k with
  | nil => simp at hk
  | append_singleton bs b ih =>
    rw [bitsValue_snoc]
    rw [List.length_append, List.length_singleton] at hk
    cases k with
    | zero => cases b <;> simp [Nat.testBit_zero, Nat.add_mod]
    | succ k =>
      rw [Nat.testBit_succ, show (2 * bitsValue bs + b.toNat) / 2 = bitsValue bs by have := Bool.toNat_le b; omega,
        ih k (by omega), List.getElem_append_left (by simp; omega)]
      congr 1
      simp
      omega

/-- Expanding the byte of eight bits gives the bits. -/
theorem byteBits_ofNat (bs : BitString) (h : bs.length = 8) : byteBits (BitVec.ofNat 8 (bitsValue bs)) = bs := by
  refine List.ext_getElem (by simp [byteBits, h]) fun k hk hk' => ?_
  simp only [byteBits, List.getElem_map, List.getElem_range]
  have hk8 : k < 8 := by omega
  rw [BitVec.getLsbD_ofNat, decide_eq_true (by omega : 7 - k < 8), Bool.true_and, bitsValue_testBit _ _ (by omega)]
  congr 1
  omega

theorem byteBits_length (b : Byte) : (byteBits b).length = 8 := by simp [byteBits]

/-- The byte of a byte's bits is the byte. -/
theorem ofNat_byteBits (b : Byte) : BitVec.ofNat 8 (bitsValue (byteBits b)) = b := by
  refine BitVec.eq_of_getLsbD_eq fun k hk => ?_
  rw [BitVec.getLsbD_ofNat, decide_eq_true hk, Bool.true_and, bitsValue_testBit _ _ (by rw [byteBits_length]; exact hk)]
  simp only [byteBits, List.getElem_map, List.getElem_range, List.length_map, List.length_range]
  congr 1
  omega

@[simp] theorem packBytes_length (bs : BitString) : (packBytes bs).length = bs.length / 8 := by simp [packBytes]

theorem packBytes_short {bs : BitString} (h : bs.length < 8) : packBytes bs = [] := by
  simp [packBytes, Nat.div_eq_of_lt h]

theorem packBytes_eight {bs : BitString} (h : bs.length = 8) : packBytes bs = [BitVec.ofNat 8 (bitsValue bs)] := by
  simp [packBytes, h, List.take_of_length_le]

/-- Whole bytes before a bit string are packed on their own. -/
theorem packBytes_append (as bs : BitString) (h : as.length % 8 = 0) : packBytes (as ++ bs) = packBytes as ++ packBytes bs := by
  have hl : as.length = 8 * (as.length / 8) := by omega
  have hq : (as ++ bs).length / 8 = as.length / 8 + bs.length / 8 := by rw [List.length_append]; omega
  simp only [packBytes, hq, List.range_add, List.map_append, List.map_map]
  congr 1
  · refine List.map_congr_left fun q hq => ?_
    have : q < as.length / 8 := List.mem_range.mp hq
    rw [List.drop_append_of_le_length (by omega), List.take_append_of_le_length (by rw [List.length_drop]; omega)]
  · refine List.map_congr_left fun q _ => ?_
    simp only [Function.comp]
    rw [Nat.mul_add, ← hl, List.drop_append, List.drop_of_length_le (by omega), List.nil_append, Nat.add_sub_cancel_left]

/-- A bit string is its whole bytes and a rest of fewer than eight bits. -/
theorem packBytes_take (bs : BitString) : packBytes bs = packBytes (bs.take (8 * (bs.length / 8))) := by
  have h : bs.take (8 * (bs.length / 8)) ++ bs.drop (8 * (bs.length / 8)) = bs := List.take_append_drop ..
  have hl : (bs.take (8 * (bs.length / 8))).length = 8 * (bs.length / 8) := by rw [List.length_take]; omega
  conv_lhs => rw [← h]
  rw [packBytes_append _ _ (by rw [hl]; omega), packBytes_short (bs := bs.drop _) (by rw [List.length_drop]; omega),
    List.append_nil]

/-- One more bit that completes no byte. -/
theorem packBytes_snoc_open {bs : BitString} (b : Bool) (h : bs.length % 8 ≠ 7) : packBytes (bs ++ [b]) = packBytes bs := by
  rw [packBytes_take (bs ++ [b]), packBytes_take bs]
  have : (bs ++ [b]).length / 8 = bs.length / 8 := by rw [List.length_append, List.length_singleton]; omega
  rw [this, List.take_append_of_le_length (by omega)]

/-- One more bit that completes a byte. -/
theorem packBytes_snoc_full {bs : BitString} (b : Bool) (h : bs.length % 8 = 7) :
    packBytes (bs ++ [b]) =
      packBytes bs ++ [BitVec.ofNat 8 (2 * bitsValue (bs.drop (8 * (bs.length / 8))) + b.toNat)] := by
  have e : bs.take (8 * (bs.length / 8)) ++ (bs.drop (8 * (bs.length / 8)) ++ [b]) = bs ++ [b] := by
    rw [← List.append_assoc, List.take_append_drop]
  have hl : (bs.take (8 * (bs.length / 8))).length = 8 * (bs.length / 8) := by rw [List.length_take]; omega
  rw [← e, packBytes_append _ _ (by rw [hl]; omega), ← packBytes_take,
    packBytes_eight (bs := bs.drop (8 * (bs.length / 8)) ++ [b]) (by simp; omega), bitsValue_snoc]

theorem padCount_lt (n : Nat) : padCount n < 8 := by unfold padCount; omega

theorem padded_length (bs : BitString) : (padded bs).length = 8 * ((bs.length + 7) / 8) := by
  simp [padded, padCount]
  omega

theorem padCount_eq_zero {n : Nat} (h : n % 8 = 0) : padCount n = 0 := by unfold padCount; omega

theorem padded_of_whole {bs : BitString} (h : bs.length % 8 = 0) : padded bs = bs := by
  simp [padded, padCount_eq_zero h]

/-- The last byte of a padded bit string that had an open byte. -/
theorem packBytes_padded_open {bs : BitString} (h : bs.length % 8 ≠ 0) :
    packBytes (padded bs) = packBytes bs ++
      [BitVec.ofNat 8 (bitsValue (bs.drop (8 * (bs.length / 8))) * 2 ^ (8 - bs.length % 8))] := by
  have e : bs.take (8 * (bs.length / 8)) ++ (bs.drop (8 * (bs.length / 8)) ++ List.replicate (padCount bs.length) false) =
      padded bs := by
    rw [← List.append_assoc, List.take_append_drop]; rfl
  have hl : (bs.take (8 * (bs.length / 8))).length = 8 * (bs.length / 8) := by rw [List.length_take]; omega
  have hp : padCount bs.length = 8 - bs.length % 8 := by unfold padCount; omega
  rw [← e, packBytes_append _ _ (by rw [hl]; omega), ← packBytes_take,
    packBytes_eight (bs := bs.drop (8 * (bs.length / 8)) ++ List.replicate (padCount bs.length) false) (by simp [hp]; omega),
    bitsValue_append_zeros, hp]

/-- Expanding packed whole bytes gives the bits back. -/
theorem flatMap_packBytes (bs : BitString) (h : bs.length % 8 = 0) : (packBytes bs).flatMap byteBits = bs := by
  induction hn : bs.length / 8 generalizing bs with
  | zero =>
    obtain rfl : bs = [] := List.eq_nil_of_length_eq_zero (by omega)
    rfl
  | succ n ih =>
    have e : bs.take 8 ++ bs.drop 8 = bs := List.take_append_drop ..
    have hl : (bs.take 8).length = 8 := by rw [List.length_take]; omega
    conv_lhs => rw [← e]
    rw [packBytes_append _ _ (by rw [hl]), packBytes_eight hl, List.flatMap_append,
      ih _ (by rw [List.length_drop]; omega) (by rw [List.length_drop]; omega)]
    simp [byteBits_ofNat _ hl]

/-- Packing expanded bytes gives the bytes back. -/
theorem packBytes_flatMap (bytes : List Byte) : packBytes (bytes.flatMap byteBits) = bytes := by
  induction bytes with
  | nil => rfl
  | cons b bytes ih =>
    rw [List.flatMap_cons, packBytes_append _ _ (by rw [byteBits_length]), packBytes_eight (byteBits_length b),
      ofNat_byteBits, ih]
    rfl

theorem flatMap_byteBits_length (bytes : List Byte) : (bytes.flatMap byteBits).length = 8 * bytes.length := by
  induction bytes with
  | nil => rfl
  | cons b bytes ih => rw [List.flatMap_cons, List.length_append, byteBits_length, ih, List.length_cons]; omega

/-- The bit-level round trip (R178). -/
theorem unpackBits_packBytes (bs : BitString) : unpackBits (packBytes (padded bs)) (padCount bs.length) = bs := by
  have hl := padded_length bs
  unfold unpackBits
  rw [flatMap_packBytes _ (by omega), packBytes_length, hl]
  have : 8 * (8 * ((bs.length + 7) / 8) / 8) - padCount bs.length = bs.length := by unfold padCount; omega
  rw [this]
  simp [padded]

theorem unpackBits_length (bytes : List Byte) (pad : Nat) : (unpackBits bytes pad).length = 8 * bytes.length - pad := by
  rw [unpackBits, List.length_take, flatMap_byteBits_length]
  omega

/-- The bit at a position of an unpacked string is a bit of one byte, most significant first. -/
theorem unpackBits_getElem? {bytes : List Byte} {pad k : Nat} (hk : k < 8 * bytes.length - pad) :
    (unpackBits bytes pad)[k]? = some ((bytes.getD (k / 8) 0#8).getLsbD (7 - k % 8)) := by
  rw [unpackBits, List.getElem?_take, if_pos hk]
  replace hk : k < 8 * bytes.length := by omega
  induction bytes generalizing k with
  | nil => simp at hk
  | cons b bytes ih =>
    rw [List.flatMap_cons]
    by_cases h : k < 8
    · rw [List.getElem?_append_left (by rw [byteBits_length]; exact h), Nat.div_eq_of_lt h, Nat.mod_eq_of_lt h]
      simp [byteBits, h]
    · rw [List.getElem?_append_right (by rw [byteBits_length]; omega), byteBits_length,
        ih (by rw [List.length_cons] at hk; omega)]
      rw [show k / 8 = (k - 8) / 8 + 1 by omega, show (k - 8) % 8 = k % 8 by omega, List.getD_cons_succ]

end Sys2Proof.Machine
end

