-- ==== Sys2Proof/Laws/Memory.lean ====
section
/-! SUPPORT. The laws of a sparse memory: read after write, and the canonical form every write keeps (10_state.md R43). -/

namespace Sys2Proof.Machine

variable {α : Type}

@[simp] theorem Memory.get?_nil (i : Nat) : Memory.get? ([] : Memory α) i = none := rfl

theorem Memory.get?_put_self (m : Memory α) (i : Nat) (a : α) : (m.put i a).get? i = some a := by
  induction m with
  | nil => simp [Memory.put, Memory.get?]
  | cons c m ih =>
    obtain ⟨j, b⟩ := c
    by_cases h1 : i < j
    · simp [Memory.put, Memory.get?, h1]
    · by_cases h2 : i = j
      · simp [Memory.put, Memory.get?, h2]
      · simp [Memory.put, Memory.get?, h1, h2, Ne.symm h2, ih]

theorem Memory.get?_put_other (m : Memory α) {i k : Nat} (a : α) (h : k ≠ i) : (m.put i a).get? k = m.get? k := by
  induction m with
  | nil => simp [Memory.put, Memory.get?, Ne.symm h]
  | cons c m ih =>
    obtain ⟨j, b⟩ := c
    by_cases h1 : i < j
    · simp [Memory.put, Memory.get?, h1, Ne.symm h]
    · by_cases h2 : i = j
      · subst h2; simp [Memory.put, Memory.get?, Ne.symm h]
      · simp [Memory.put, Memory.get?, h1, h2, ih]

/-- Read after write, in one equation. -/
theorem Memory.get?_put (m : Memory α) (i k : Nat) (a : α) :
    (m.put i a).get? k = if k = i then some a else m.get? k := by
  by_cases h : k = i
  · subst h; simp [Memory.get?_put_self]
  · simp [h, Memory.get?_put_other m a h]

/-- Read after a store, in one equation. -/
theorem Memory.get?_store (lo hi : Nat) (m : Memory α) (i k : Nat) (a : α) :
    (m.store lo hi i a).get? k = if k = i ∧ lo ≤ i ∧ i < hi then some a else m.get? k := by
  unfold Memory.store
  by_cases h : lo ≤ i ∧ i < hi
  · simp [h, Memory.get?_put]
  · rw [if_neg h, if_neg (fun hh => h hh.2)]

theorem Memory.get?_store_self {lo hi : Nat} (m : Memory α) {i : Nat} (a : α) (h1 : lo ≤ i) (h2 : i < hi) :
    (m.store lo hi i a).get? i = some a := by
  simp [Memory.get?_store, h1, h2]

theorem Memory.get?_store_other (lo hi : Nat) (m : Memory α) {i k : Nat} (a : α) (h : k ≠ i) :
    (m.store lo hi i a).get? k = m.get? k := by
  simp [Memory.get?_store, h]

theorem Memory.mem_put {m : Memory α} {i : Nat} {a : α} {c : Nat × α} (h : c ∈ m.put i a) : c = (i, a) ∨ c ∈ m := by
  induction m with
  | nil => simpa [Memory.put] using h
  | cons d m ih =>
    obtain ⟨j, b⟩ := d
    by_cases h1 : i < j
    · simpa [Memory.put, h1] using h
    · by_cases h2 : i = j
      · rw [Memory.put, if_neg h1, if_pos h2, List.mem_cons] at h
        exact h.imp id (List.mem_cons_of_mem _)
      · rw [Memory.put, if_neg h1, if_neg h2, List.mem_cons] at h
        rcases h with h | h
        · exact .inr (h ▸ List.mem_cons_self ..)
        · exact (ih h).imp id (List.mem_cons_of_mem _)

/-- A write keeps the canonical form. -/
theorem Memory.put_wf {m : Memory α} (h : m.wf) (i : Nat) (a : α) : (m.put i a).wf := by
  induction m with
  | nil => simp [Memory.put, Memory.wf]
  | cons c m ih =>
    obtain ⟨j, b⟩ := c
    have ⟨hj, hm⟩ := List.pairwise_cons.mp h
    by_cases h1 : i < j
    · rw [Memory.put, if_pos h1]
      refine List.pairwise_cons.mpr ⟨fun d hd => ?_, h⟩
      rcases List.mem_cons.mp hd with rfl | hd
      · exact h1
      · exact Nat.lt_trans h1 (hj d hd)
    · by_cases h2 : i = j
      · subst h2
        rw [Memory.put, if_neg h1, if_pos rfl]
        exact List.pairwise_cons.mpr ⟨hj, hm⟩
      · rw [Memory.put, if_neg h1, if_neg h2]
        refine List.pairwise_cons.mpr ⟨fun d hd => ?_, ih hm⟩
        rcases Memory.mem_put hd with rfl | hd
        · exact Nat.lt_of_le_of_ne (Nat.le_of_not_lt h1) (Ne.symm h2)
        · exact hj d hd

/-- A store keeps the canonical form. -/
theorem Memory.store_wf {m : Memory α} (h : m.wf) (lo hi i : Nat) (a : α) : (m.store lo hi i a).wf := by
  unfold Memory.store
  split
  · exact Memory.put_wf h i a
  · exact h

/-- A store keeps every listed index in the memory's range. -/
theorem Memory.store_within {lo hi : Nat} {m : Memory α} (h : m.within lo hi) (i : Nat) (a : α) :
    (m.store lo hi i a).within lo hi := by
  unfold Memory.store
  split
  · rename_i hi
    intro c hc
    rcases Memory.mem_put hc with rfl | hc
    · exact hi
    · exact h c hc
  · exact h

end Sys2Proof.Machine
end

