-- ==== Sys2Proof/Laws/State.lean ====
section
/-! SUPPORT. What each named update of State does to each field, one lemma per field (used by simp instead of unfolding the update). -/

namespace Sys2Proof.Machine

/-! TEXT[i] <- v -/

@[simp] theorem State.storeText_cfg (s : State) (i : Nat) (v : Word) : (s.storeText i v).cfg = s.cfg := rfl
@[simp] theorem State.storeText_err (s : State) (i : Nat) (v : Word) : (s.storeText i v).err = s.err := rfl
@[simp] theorem State.storeText_errInfo (s : State) (i : Nat) (v : Word) : (s.storeText i v).errInfo = s.errInfo := rfl
@[simp] theorem State.storeText_errCmd (s : State) (i : Nat) (v : Word) : (s.storeText i v).errCmd = s.errCmd := rfl
@[simp] theorem State.storeText_qe (s : State) (i : Nat) (v : Word) : (s.storeText i v).qe = s.qe := rfl
@[simp] theorem State.storeText_be (s : State) (i : Nat) (v : Word) : (s.storeText i v).be = s.be := rfl
@[simp] theorem State.storeText_res (s : State) (i : Nat) (v : Word) : (s.storeText i v).res = s.res := rfl
@[simp] theorem State.storeText_textLen (s : State) (i : Nat) (v : Word) : (s.storeText i v).textLen = s.textLen := rfl
@[simp] theorem State.storeText_blobLen (s : State) (i : Nat) (v : Word) : (s.storeText i v).blobLen = s.blobLen := rfl
@[simp] theorem State.storeText_ftCnt (s : State) (i : Nat) (v : Word) : (s.storeText i v).ftCnt = s.ftCnt := rfl
@[simp] theorem State.storeText_nodeCnt (s : State) (i : Nat) (v : Word) : (s.storeText i v).nodeCnt = s.nodeCnt := rfl
@[simp] theorem State.storeText_pqCnt (s : State) (i : Nat) (v : Word) : (s.storeText i v).pqCnt = s.pqCnt := rfl
@[simp] theorem State.storeText_root (s : State) (i : Nat) (v : Word) : (s.storeText i v).root = s.root := rfl
@[simp] theorem State.storeText_ctCnt (s : State) (i : Nat) (v : Word) : (s.storeText i v).ctCnt = s.ctCnt := rfl
@[simp] theorem State.storeText_pkLen (s : State) (i : Nat) (v : Word) : (s.storeText i v).pkLen = s.pkLen := rfl
@[simp] theorem State.storeText_pad (s : State) (i : Nat) (v : Word) : (s.storeText i v).pad = s.pad := rfl
@[simp] theorem State.storeText_origLen (s : State) (i : Nat) (v : Word) : (s.storeText i v).origLen = s.origLen := rfl
@[simp] theorem State.storeText_stgBits (s : State) (i : Nat) (v : Word) : (s.storeText i v).stgBits = s.stgBits := rfl
@[simp] theorem State.storeText_stgCnt (s : State) (i : Nat) (v : Word) : (s.storeText i v).stgCnt = s.stgCnt := rfl
@[simp] theorem State.storeText_upByte (s : State) (i : Nat) (v : Word) : (s.storeText i v).upByte = s.upByte := rfl
@[simp] theorem State.storeText_upBit (s : State) (i : Nat) (v : Word) : (s.storeText i v).upBit = s.upBit := rfl
@[simp] theorem State.storeText_text (s : State) (i : Nat) (v : Word) : (s.storeText i v).text = s.text.store 0 s.cfg.nMax i v := rfl
@[simp] theorem State.storeText_blob (s : State) (i : Nat) (v : Word) : (s.storeText i v).blob = s.blob := rfl
@[simp] theorem State.storeText_ft (s : State) (i : Nat) (v : Word) : (s.storeText i v).ft = s.ft := rfl
@[simp] theorem State.storeText_node (s : State) (i : Nat) (v : Word) : (s.storeText i v).node = s.node := rfl
@[simp] theorem State.storeText_heap (s : State) (i : Nat) (v : Word) : (s.storeText i v).heap = s.heap := rfl
@[simp] theorem State.storeText_ct (s : State) (i : Nat) (v : Word) : (s.storeText i v).ct = s.ct := rfl
@[simp] theorem State.storeText_pk (s : State) (i : Nat) (v : Word) : (s.storeText i v).pk = s.pk := rfl
@[simp] theorem State.storeText_inbox (s : State) (i : Nat) (v : Word) : (s.storeText i v).inbox = s.inbox := rfl
@[simp] theorem State.storeText_reply (s : State) (i : Nat) (v : Word) : (s.storeText i v).reply = s.reply := rfl
@[simp] theorem State.storeText_draws (s : State) (i : Nat) (v : Word) : (s.storeText i v).draws = s.draws := rfl

/-! BLOB[i] <- v -/

@[simp] theorem State.storeBlob_cfg (s : State) (i : Nat) (v : Byte) : (s.storeBlob i v).cfg = s.cfg := rfl
@[simp] theorem State.storeBlob_err (s : State) (i : Nat) (v : Byte) : (s.storeBlob i v).err = s.err := rfl
@[simp] theorem State.storeBlob_errInfo (s : State) (i : Nat) (v : Byte) : (s.storeBlob i v).errInfo = s.errInfo := rfl
@[simp] theorem State.storeBlob_errCmd (s : State) (i : Nat) (v : Byte) : (s.storeBlob i v).errCmd = s.errCmd := rfl
@[simp] theorem State.storeBlob_qe (s : State) (i : Nat) (v : Byte) : (s.storeBlob i v).qe = s.qe := rfl
@[simp] theorem State.storeBlob_be (s : State) (i : Nat) (v : Byte) : (s.storeBlob i v).be = s.be := rfl
@[simp] theorem State.storeBlob_res (s : State) (i : Nat) (v : Byte) : (s.storeBlob i v).res = s.res := rfl
@[simp] theorem State.storeBlob_textLen (s : State) (i : Nat) (v : Byte) : (s.storeBlob i v).textLen = s.textLen := rfl
@[simp] theorem State.storeBlob_blobLen (s : State) (i : Nat) (v : Byte) : (s.storeBlob i v).blobLen = s.blobLen := rfl
@[simp] theorem State.storeBlob_ftCnt (s : State) (i : Nat) (v : Byte) : (s.storeBlob i v).ftCnt = s.ftCnt := rfl
@[simp] theorem State.storeBlob_nodeCnt (s : State) (i : Nat) (v : Byte) : (s.storeBlob i v).nodeCnt = s.nodeCnt := rfl
@[simp] theorem State.storeBlob_pqCnt (s : State) (i : Nat) (v : Byte) : (s.storeBlob i v).pqCnt = s.pqCnt := rfl
@[simp] theorem State.storeBlob_root (s : State) (i : Nat) (v : Byte) : (s.storeBlob i v).root = s.root := rfl
@[simp] theorem State.storeBlob_ctCnt (s : State) (i : Nat) (v : Byte) : (s.storeBlob i v).ctCnt = s.ctCnt := rfl
@[simp] theorem State.storeBlob_pkLen (s : State) (i : Nat) (v : Byte) : (s.storeBlob i v).pkLen = s.pkLen := rfl
@[simp] theorem State.storeBlob_pad (s : State) (i : Nat) (v : Byte) : (s.storeBlob i v).pad = s.pad := rfl
@[simp] theorem State.storeBlob_origLen (s : State) (i : Nat) (v : Byte) : (s.storeBlob i v).origLen = s.origLen := rfl
@[simp] theorem State.storeBlob_stgBits (s : State) (i : Nat) (v : Byte) : (s.storeBlob i v).stgBits = s.stgBits := rfl
@[simp] theorem State.storeBlob_stgCnt (s : State) (i : Nat) (v : Byte) : (s.storeBlob i v).stgCnt = s.stgCnt := rfl
@[simp] theorem State.storeBlob_upByte (s : State) (i : Nat) (v : Byte) : (s.storeBlob i v).upByte = s.upByte := rfl
@[simp] theorem State.storeBlob_upBit (s : State) (i : Nat) (v : Byte) : (s.storeBlob i v).upBit = s.upBit := rfl
@[simp] theorem State.storeBlob_text (s : State) (i : Nat) (v : Byte) : (s.storeBlob i v).text = s.text := rfl
@[simp] theorem State.storeBlob_blob (s : State) (i : Nat) (v : Byte) : (s.storeBlob i v).blob = s.blob.store 0 s.cfg.bMax i v := rfl
@[simp] theorem State.storeBlob_ft (s : State) (i : Nat) (v : Byte) : (s.storeBlob i v).ft = s.ft := rfl
@[simp] theorem State.storeBlob_node (s : State) (i : Nat) (v : Byte) : (s.storeBlob i v).node = s.node := rfl
@[simp] theorem State.storeBlob_heap (s : State) (i : Nat) (v : Byte) : (s.storeBlob i v).heap = s.heap := rfl
@[simp] theorem State.storeBlob_ct (s : State) (i : Nat) (v : Byte) : (s.storeBlob i v).ct = s.ct := rfl
@[simp] theorem State.storeBlob_pk (s : State) (i : Nat) (v : Byte) : (s.storeBlob i v).pk = s.pk := rfl
@[simp] theorem State.storeBlob_inbox (s : State) (i : Nat) (v : Byte) : (s.storeBlob i v).inbox = s.inbox := rfl
@[simp] theorem State.storeBlob_reply (s : State) (i : Nat) (v : Byte) : (s.storeBlob i v).reply = s.reply := rfl
@[simp] theorem State.storeBlob_draws (s : State) (i : Nat) (v : Byte) : (s.storeBlob i v).draws = s.draws := rfl

/-! FT[i] <- v -/

@[simp] theorem State.storeFt_cfg (s : State) (i : Nat) (v : FtEntry) : (s.storeFt i v).cfg = s.cfg := rfl
@[simp] theorem State.storeFt_err (s : State) (i : Nat) (v : FtEntry) : (s.storeFt i v).err = s.err := rfl
@[simp] theorem State.storeFt_errInfo (s : State) (i : Nat) (v : FtEntry) : (s.storeFt i v).errInfo = s.errInfo := rfl
@[simp] theorem State.storeFt_errCmd (s : State) (i : Nat) (v : FtEntry) : (s.storeFt i v).errCmd = s.errCmd := rfl
@[simp] theorem State.storeFt_qe (s : State) (i : Nat) (v : FtEntry) : (s.storeFt i v).qe = s.qe := rfl
@[simp] theorem State.storeFt_be (s : State) (i : Nat) (v : FtEntry) : (s.storeFt i v).be = s.be := rfl
@[simp] theorem State.storeFt_res (s : State) (i : Nat) (v : FtEntry) : (s.storeFt i v).res = s.res := rfl
@[simp] theorem State.storeFt_textLen (s : State) (i : Nat) (v : FtEntry) : (s.storeFt i v).textLen = s.textLen := rfl
@[simp] theorem State.storeFt_blobLen (s : State) (i : Nat) (v : FtEntry) : (s.storeFt i v).blobLen = s.blobLen := rfl
@[simp] theorem State.storeFt_ftCnt (s : State) (i : Nat) (v : FtEntry) : (s.storeFt i v).ftCnt = s.ftCnt := rfl
@[simp] theorem State.storeFt_nodeCnt (s : State) (i : Nat) (v : FtEntry) : (s.storeFt i v).nodeCnt = s.nodeCnt := rfl
@[simp] theorem State.storeFt_pqCnt (s : State) (i : Nat) (v : FtEntry) : (s.storeFt i v).pqCnt = s.pqCnt := rfl
@[simp] theorem State.storeFt_root (s : State) (i : Nat) (v : FtEntry) : (s.storeFt i v).root = s.root := rfl
@[simp] theorem State.storeFt_ctCnt (s : State) (i : Nat) (v : FtEntry) : (s.storeFt i v).ctCnt = s.ctCnt := rfl
@[simp] theorem State.storeFt_pkLen (s : State) (i : Nat) (v : FtEntry) : (s.storeFt i v).pkLen = s.pkLen := rfl
@[simp] theorem State.storeFt_pad (s : State) (i : Nat) (v : FtEntry) : (s.storeFt i v).pad = s.pad := rfl
@[simp] theorem State.storeFt_origLen (s : State) (i : Nat) (v : FtEntry) : (s.storeFt i v).origLen = s.origLen := rfl
@[simp] theorem State.storeFt_stgBits (s : State) (i : Nat) (v : FtEntry) : (s.storeFt i v).stgBits = s.stgBits := rfl
@[simp] theorem State.storeFt_stgCnt (s : State) (i : Nat) (v : FtEntry) : (s.storeFt i v).stgCnt = s.stgCnt := rfl
@[simp] theorem State.storeFt_upByte (s : State) (i : Nat) (v : FtEntry) : (s.storeFt i v).upByte = s.upByte := rfl
@[simp] theorem State.storeFt_upBit (s : State) (i : Nat) (v : FtEntry) : (s.storeFt i v).upBit = s.upBit := rfl
@[simp] theorem State.storeFt_text (s : State) (i : Nat) (v : FtEntry) : (s.storeFt i v).text = s.text := rfl
@[simp] theorem State.storeFt_blob (s : State) (i : Nat) (v : FtEntry) : (s.storeFt i v).blob = s.blob := rfl
@[simp] theorem State.storeFt_ft (s : State) (i : Nat) (v : FtEntry) : (s.storeFt i v).ft = s.ft.store 0 s.cfg.kMax i v := rfl
@[simp] theorem State.storeFt_node (s : State) (i : Nat) (v : FtEntry) : (s.storeFt i v).node = s.node := rfl
@[simp] theorem State.storeFt_heap (s : State) (i : Nat) (v : FtEntry) : (s.storeFt i v).heap = s.heap := rfl
@[simp] theorem State.storeFt_ct (s : State) (i : Nat) (v : FtEntry) : (s.storeFt i v).ct = s.ct := rfl
@[simp] theorem State.storeFt_pk (s : State) (i : Nat) (v : FtEntry) : (s.storeFt i v).pk = s.pk := rfl
@[simp] theorem State.storeFt_inbox (s : State) (i : Nat) (v : FtEntry) : (s.storeFt i v).inbox = s.inbox := rfl
@[simp] theorem State.storeFt_reply (s : State) (i : Nat) (v : FtEntry) : (s.storeFt i v).reply = s.reply := rfl
@[simp] theorem State.storeFt_draws (s : State) (i : Nat) (v : FtEntry) : (s.storeFt i v).draws = s.draws := rfl

/-! NODE[i] <- v -/

@[simp] theorem State.storeNode_cfg (s : State) (i : NodeId) (v : Node) : (s.storeNode i v).cfg = s.cfg := rfl
@[simp] theorem State.storeNode_err (s : State) (i : NodeId) (v : Node) : (s.storeNode i v).err = s.err := rfl
@[simp] theorem State.storeNode_errInfo (s : State) (i : NodeId) (v : Node) : (s.storeNode i v).errInfo = s.errInfo := rfl
@[simp] theorem State.storeNode_errCmd (s : State) (i : NodeId) (v : Node) : (s.storeNode i v).errCmd = s.errCmd := rfl
@[simp] theorem State.storeNode_qe (s : State) (i : NodeId) (v : Node) : (s.storeNode i v).qe = s.qe := rfl
@[simp] theorem State.storeNode_be (s : State) (i : NodeId) (v : Node) : (s.storeNode i v).be = s.be := rfl
@[simp] theorem State.storeNode_res (s : State) (i : NodeId) (v : Node) : (s.storeNode i v).res = s.res := rfl
@[simp] theorem State.storeNode_textLen (s : State) (i : NodeId) (v : Node) : (s.storeNode i v).textLen = s.textLen := rfl
@[simp] theorem State.storeNode_blobLen (s : State) (i : NodeId) (v : Node) : (s.storeNode i v).blobLen = s.blobLen := rfl
@[simp] theorem State.storeNode_ftCnt (s : State) (i : NodeId) (v : Node) : (s.storeNode i v).ftCnt = s.ftCnt := rfl
@[simp] theorem State.storeNode_nodeCnt (s : State) (i : NodeId) (v : Node) : (s.storeNode i v).nodeCnt = s.nodeCnt := rfl
@[simp] theorem State.storeNode_pqCnt (s : State) (i : NodeId) (v : Node) : (s.storeNode i v).pqCnt = s.pqCnt := rfl
@[simp] theorem State.storeNode_root (s : State) (i : NodeId) (v : Node) : (s.storeNode i v).root = s.root := rfl
@[simp] theorem State.storeNode_ctCnt (s : State) (i : NodeId) (v : Node) : (s.storeNode i v).ctCnt = s.ctCnt := rfl
@[simp] theorem State.storeNode_pkLen (s : State) (i : NodeId) (v : Node) : (s.storeNode i v).pkLen = s.pkLen := rfl
@[simp] theorem State.storeNode_pad (s : State) (i : NodeId) (v : Node) : (s.storeNode i v).pad = s.pad := rfl
@[simp] theorem State.storeNode_origLen (s : State) (i : NodeId) (v : Node) : (s.storeNode i v).origLen = s.origLen := rfl
@[simp] theorem State.storeNode_stgBits (s : State) (i : NodeId) (v : Node) : (s.storeNode i v).stgBits = s.stgBits := rfl
@[simp] theorem State.storeNode_stgCnt (s : State) (i : NodeId) (v : Node) : (s.storeNode i v).stgCnt = s.stgCnt := rfl
@[simp] theorem State.storeNode_upByte (s : State) (i : NodeId) (v : Node) : (s.storeNode i v).upByte = s.upByte := rfl
@[simp] theorem State.storeNode_upBit (s : State) (i : NodeId) (v : Node) : (s.storeNode i v).upBit = s.upBit := rfl
@[simp] theorem State.storeNode_text (s : State) (i : NodeId) (v : Node) : (s.storeNode i v).text = s.text := rfl
@[simp] theorem State.storeNode_blob (s : State) (i : NodeId) (v : Node) : (s.storeNode i v).blob = s.blob := rfl
@[simp] theorem State.storeNode_ft (s : State) (i : NodeId) (v : Node) : (s.storeNode i v).ft = s.ft := rfl
@[simp] theorem State.storeNode_node (s : State) (i : NodeId) (v : Node) : (s.storeNode i v).node = s.node.store 1 (s.cfg.nodeMax + 1) i.toNat v := rfl
@[simp] theorem State.storeNode_heap (s : State) (i : NodeId) (v : Node) : (s.storeNode i v).heap = s.heap := rfl
@[simp] theorem State.storeNode_ct (s : State) (i : NodeId) (v : Node) : (s.storeNode i v).ct = s.ct := rfl
@[simp] theorem State.storeNode_pk (s : State) (i : NodeId) (v : Node) : (s.storeNode i v).pk = s.pk := rfl
@[simp] theorem State.storeNode_inbox (s : State) (i : NodeId) (v : Node) : (s.storeNode i v).inbox = s.inbox := rfl
@[simp] theorem State.storeNode_reply (s : State) (i : NodeId) (v : Node) : (s.storeNode i v).reply = s.reply := rfl
@[simp] theorem State.storeNode_draws (s : State) (i : NodeId) (v : Node) : (s.storeNode i v).draws = s.draws := rfl

/-! HEAP[i] <- v -/

@[simp] theorem State.storeHeap_cfg (s : State) (i : Nat) (v : NodeId) : (s.storeHeap i v).cfg = s.cfg := rfl
@[simp] theorem State.storeHeap_err (s : State) (i : Nat) (v : NodeId) : (s.storeHeap i v).err = s.err := rfl
@[simp] theorem State.storeHeap_errInfo (s : State) (i : Nat) (v : NodeId) : (s.storeHeap i v).errInfo = s.errInfo := rfl
@[simp] theorem State.storeHeap_errCmd (s : State) (i : Nat) (v : NodeId) : (s.storeHeap i v).errCmd = s.errCmd := rfl
@[simp] theorem State.storeHeap_qe (s : State) (i : Nat) (v : NodeId) : (s.storeHeap i v).qe = s.qe := rfl
@[simp] theorem State.storeHeap_be (s : State) (i : Nat) (v : NodeId) : (s.storeHeap i v).be = s.be := rfl
@[simp] theorem State.storeHeap_res (s : State) (i : Nat) (v : NodeId) : (s.storeHeap i v).res = s.res := rfl
@[simp] theorem State.storeHeap_textLen (s : State) (i : Nat) (v : NodeId) : (s.storeHeap i v).textLen = s.textLen := rfl
@[simp] theorem State.storeHeap_blobLen (s : State) (i : Nat) (v : NodeId) : (s.storeHeap i v).blobLen = s.blobLen := rfl
@[simp] theorem State.storeHeap_ftCnt (s : State) (i : Nat) (v : NodeId) : (s.storeHeap i v).ftCnt = s.ftCnt := rfl
@[simp] theorem State.storeHeap_nodeCnt (s : State) (i : Nat) (v : NodeId) : (s.storeHeap i v).nodeCnt = s.nodeCnt := rfl
@[simp] theorem State.storeHeap_pqCnt (s : State) (i : Nat) (v : NodeId) : (s.storeHeap i v).pqCnt = s.pqCnt := rfl
@[simp] theorem State.storeHeap_root (s : State) (i : Nat) (v : NodeId) : (s.storeHeap i v).root = s.root := rfl
@[simp] theorem State.storeHeap_ctCnt (s : State) (i : Nat) (v : NodeId) : (s.storeHeap i v).ctCnt = s.ctCnt := rfl
@[simp] theorem State.storeHeap_pkLen (s : State) (i : Nat) (v : NodeId) : (s.storeHeap i v).pkLen = s.pkLen := rfl
@[simp] theorem State.storeHeap_pad (s : State) (i : Nat) (v : NodeId) : (s.storeHeap i v).pad = s.pad := rfl
@[simp] theorem State.storeHeap_origLen (s : State) (i : Nat) (v : NodeId) : (s.storeHeap i v).origLen = s.origLen := rfl
@[simp] theorem State.storeHeap_stgBits (s : State) (i : Nat) (v : NodeId) : (s.storeHeap i v).stgBits = s.stgBits := rfl
@[simp] theorem State.storeHeap_stgCnt (s : State) (i : Nat) (v : NodeId) : (s.storeHeap i v).stgCnt = s.stgCnt := rfl
@[simp] theorem State.storeHeap_upByte (s : State) (i : Nat) (v : NodeId) : (s.storeHeap i v).upByte = s.upByte := rfl
@[simp] theorem State.storeHeap_upBit (s : State) (i : Nat) (v : NodeId) : (s.storeHeap i v).upBit = s.upBit := rfl
@[simp] theorem State.storeHeap_text (s : State) (i : Nat) (v : NodeId) : (s.storeHeap i v).text = s.text := rfl
@[simp] theorem State.storeHeap_blob (s : State) (i : Nat) (v : NodeId) : (s.storeHeap i v).blob = s.blob := rfl
@[simp] theorem State.storeHeap_ft (s : State) (i : Nat) (v : NodeId) : (s.storeHeap i v).ft = s.ft := rfl
@[simp] theorem State.storeHeap_node (s : State) (i : Nat) (v : NodeId) : (s.storeHeap i v).node = s.node := rfl
@[simp] theorem State.storeHeap_heap (s : State) (i : Nat) (v : NodeId) : (s.storeHeap i v).heap = s.heap.store 0 s.cfg.kMax i v := rfl
@[simp] theorem State.storeHeap_ct (s : State) (i : Nat) (v : NodeId) : (s.storeHeap i v).ct = s.ct := rfl
@[simp] theorem State.storeHeap_pk (s : State) (i : Nat) (v : NodeId) : (s.storeHeap i v).pk = s.pk := rfl
@[simp] theorem State.storeHeap_inbox (s : State) (i : Nat) (v : NodeId) : (s.storeHeap i v).inbox = s.inbox := rfl
@[simp] theorem State.storeHeap_reply (s : State) (i : Nat) (v : NodeId) : (s.storeHeap i v).reply = s.reply := rfl
@[simp] theorem State.storeHeap_draws (s : State) (i : Nat) (v : NodeId) : (s.storeHeap i v).draws = s.draws := rfl

/-! CT[i] <- v -/

@[simp] theorem State.storeCt_cfg (s : State) (i : Nat) (v : CtEntry) : (s.storeCt i v).cfg = s.cfg := rfl
@[simp] theorem State.storeCt_err (s : State) (i : Nat) (v : CtEntry) : (s.storeCt i v).err = s.err := rfl
@[simp] theorem State.storeCt_errInfo (s : State) (i : Nat) (v : CtEntry) : (s.storeCt i v).errInfo = s.errInfo := rfl
@[simp] theorem State.storeCt_errCmd (s : State) (i : Nat) (v : CtEntry) : (s.storeCt i v).errCmd = s.errCmd := rfl
@[simp] theorem State.storeCt_qe (s : State) (i : Nat) (v : CtEntry) : (s.storeCt i v).qe = s.qe := rfl
@[simp] theorem State.storeCt_be (s : State) (i : Nat) (v : CtEntry) : (s.storeCt i v).be = s.be := rfl
@[simp] theorem State.storeCt_res (s : State) (i : Nat) (v : CtEntry) : (s.storeCt i v).res = s.res := rfl
@[simp] theorem State.storeCt_textLen (s : State) (i : Nat) (v : CtEntry) : (s.storeCt i v).textLen = s.textLen := rfl
@[simp] theorem State.storeCt_blobLen (s : State) (i : Nat) (v : CtEntry) : (s.storeCt i v).blobLen = s.blobLen := rfl
@[simp] theorem State.storeCt_ftCnt (s : State) (i : Nat) (v : CtEntry) : (s.storeCt i v).ftCnt = s.ftCnt := rfl
@[simp] theorem State.storeCt_nodeCnt (s : State) (i : Nat) (v : CtEntry) : (s.storeCt i v).nodeCnt = s.nodeCnt := rfl
@[simp] theorem State.storeCt_pqCnt (s : State) (i : Nat) (v : CtEntry) : (s.storeCt i v).pqCnt = s.pqCnt := rfl
@[simp] theorem State.storeCt_root (s : State) (i : Nat) (v : CtEntry) : (s.storeCt i v).root = s.root := rfl
@[simp] theorem State.storeCt_ctCnt (s : State) (i : Nat) (v : CtEntry) : (s.storeCt i v).ctCnt = s.ctCnt := rfl
@[simp] theorem State.storeCt_pkLen (s : State) (i : Nat) (v : CtEntry) : (s.storeCt i v).pkLen = s.pkLen := rfl
@[simp] theorem State.storeCt_pad (s : State) (i : Nat) (v : CtEntry) : (s.storeCt i v).pad = s.pad := rfl
@[simp] theorem State.storeCt_origLen (s : State) (i : Nat) (v : CtEntry) : (s.storeCt i v).origLen = s.origLen := rfl
@[simp] theorem State.storeCt_stgBits (s : State) (i : Nat) (v : CtEntry) : (s.storeCt i v).stgBits = s.stgBits := rfl
@[simp] theorem State.storeCt_stgCnt (s : State) (i : Nat) (v : CtEntry) : (s.storeCt i v).stgCnt = s.stgCnt := rfl
@[simp] theorem State.storeCt_upByte (s : State) (i : Nat) (v : CtEntry) : (s.storeCt i v).upByte = s.upByte := rfl
@[simp] theorem State.storeCt_upBit (s : State) (i : Nat) (v : CtEntry) : (s.storeCt i v).upBit = s.upBit := rfl
@[simp] theorem State.storeCt_text (s : State) (i : Nat) (v : CtEntry) : (s.storeCt i v).text = s.text := rfl
@[simp] theorem State.storeCt_blob (s : State) (i : Nat) (v : CtEntry) : (s.storeCt i v).blob = s.blob := rfl
@[simp] theorem State.storeCt_ft (s : State) (i : Nat) (v : CtEntry) : (s.storeCt i v).ft = s.ft := rfl
@[simp] theorem State.storeCt_node (s : State) (i : Nat) (v : CtEntry) : (s.storeCt i v).node = s.node := rfl
@[simp] theorem State.storeCt_heap (s : State) (i : Nat) (v : CtEntry) : (s.storeCt i v).heap = s.heap := rfl
@[simp] theorem State.storeCt_ct (s : State) (i : Nat) (v : CtEntry) : (s.storeCt i v).ct = s.ct.store 0 s.cfg.kMax i v := rfl
@[simp] theorem State.storeCt_pk (s : State) (i : Nat) (v : CtEntry) : (s.storeCt i v).pk = s.pk := rfl
@[simp] theorem State.storeCt_inbox (s : State) (i : Nat) (v : CtEntry) : (s.storeCt i v).inbox = s.inbox := rfl
@[simp] theorem State.storeCt_reply (s : State) (i : Nat) (v : CtEntry) : (s.storeCt i v).reply = s.reply := rfl
@[simp] theorem State.storeCt_draws (s : State) (i : Nat) (v : CtEntry) : (s.storeCt i v).draws = s.draws := rfl

/-! PK[i] <- v -/

@[simp] theorem State.storePk_cfg (s : State) (i : Nat) (v : Byte) : (s.storePk i v).cfg = s.cfg := rfl
@[simp] theorem State.storePk_err (s : State) (i : Nat) (v : Byte) : (s.storePk i v).err = s.err := rfl
@[simp] theorem State.storePk_errInfo (s : State) (i : Nat) (v : Byte) : (s.storePk i v).errInfo = s.errInfo := rfl
@[simp] theorem State.storePk_errCmd (s : State) (i : Nat) (v : Byte) : (s.storePk i v).errCmd = s.errCmd := rfl
@[simp] theorem State.storePk_qe (s : State) (i : Nat) (v : Byte) : (s.storePk i v).qe = s.qe := rfl
@[simp] theorem State.storePk_be (s : State) (i : Nat) (v : Byte) : (s.storePk i v).be = s.be := rfl
@[simp] theorem State.storePk_res (s : State) (i : Nat) (v : Byte) : (s.storePk i v).res = s.res := rfl
@[simp] theorem State.storePk_textLen (s : State) (i : Nat) (v : Byte) : (s.storePk i v).textLen = s.textLen := rfl
@[simp] theorem State.storePk_blobLen (s : State) (i : Nat) (v : Byte) : (s.storePk i v).blobLen = s.blobLen := rfl
@[simp] theorem State.storePk_ftCnt (s : State) (i : Nat) (v : Byte) : (s.storePk i v).ftCnt = s.ftCnt := rfl
@[simp] theorem State.storePk_nodeCnt (s : State) (i : Nat) (v : Byte) : (s.storePk i v).nodeCnt = s.nodeCnt := rfl
@[simp] theorem State.storePk_pqCnt (s : State) (i : Nat) (v : Byte) : (s.storePk i v).pqCnt = s.pqCnt := rfl
@[simp] theorem State.storePk_root (s : State) (i : Nat) (v : Byte) : (s.storePk i v).root = s.root := rfl
@[simp] theorem State.storePk_ctCnt (s : State) (i : Nat) (v : Byte) : (s.storePk i v).ctCnt = s.ctCnt := rfl
@[simp] theorem State.storePk_pkLen (s : State) (i : Nat) (v : Byte) : (s.storePk i v).pkLen = s.pkLen := rfl
@[simp] theorem State.storePk_pad (s : State) (i : Nat) (v : Byte) : (s.storePk i v).pad = s.pad := rfl
@[simp] theorem State.storePk_origLen (s : State) (i : Nat) (v : Byte) : (s.storePk i v).origLen = s.origLen := rfl
@[simp] theorem State.storePk_stgBits (s : State) (i : Nat) (v : Byte) : (s.storePk i v).stgBits = s.stgBits := rfl
@[simp] theorem State.storePk_stgCnt (s : State) (i : Nat) (v : Byte) : (s.storePk i v).stgCnt = s.stgCnt := rfl
@[simp] theorem State.storePk_upByte (s : State) (i : Nat) (v : Byte) : (s.storePk i v).upByte = s.upByte := rfl
@[simp] theorem State.storePk_upBit (s : State) (i : Nat) (v : Byte) : (s.storePk i v).upBit = s.upBit := rfl
@[simp] theorem State.storePk_text (s : State) (i : Nat) (v : Byte) : (s.storePk i v).text = s.text := rfl
@[simp] theorem State.storePk_blob (s : State) (i : Nat) (v : Byte) : (s.storePk i v).blob = s.blob := rfl
@[simp] theorem State.storePk_ft (s : State) (i : Nat) (v : Byte) : (s.storePk i v).ft = s.ft := rfl
@[simp] theorem State.storePk_node (s : State) (i : Nat) (v : Byte) : (s.storePk i v).node = s.node := rfl
@[simp] theorem State.storePk_heap (s : State) (i : Nat) (v : Byte) : (s.storePk i v).heap = s.heap := rfl
@[simp] theorem State.storePk_ct (s : State) (i : Nat) (v : Byte) : (s.storePk i v).ct = s.ct := rfl
@[simp] theorem State.storePk_pk (s : State) (i : Nat) (v : Byte) : (s.storePk i v).pk = s.pk.store 0 s.cfg.pMax i v := rfl
@[simp] theorem State.storePk_inbox (s : State) (i : Nat) (v : Byte) : (s.storePk i v).inbox = s.inbox := rfl
@[simp] theorem State.storePk_reply (s : State) (i : Nat) (v : Byte) : (s.storePk i v).reply = s.reply := rfl
@[simp] theorem State.storePk_draws (s : State) (i : Nat) (v : Byte) : (s.storePk i v).draws = s.draws := rfl

/-! WorkClear (10_state.md R49) -/

@[simp] theorem State.workCleared_cfg (s : State) : (s.workCleared).cfg = s.cfg := rfl
@[simp] theorem State.workCleared_err (s : State) : (s.workCleared).err = s.err := rfl
@[simp] theorem State.workCleared_errInfo (s : State) : (s.workCleared).errInfo = s.errInfo := rfl
@[simp] theorem State.workCleared_errCmd (s : State) : (s.workCleared).errCmd = s.errCmd := rfl
@[simp] theorem State.workCleared_qe (s : State) : (s.workCleared).qe = false := rfl
@[simp] theorem State.workCleared_be (s : State) : (s.workCleared).be = false := rfl
@[simp] theorem State.workCleared_res (s : State) : (s.workCleared).res = 0#32 := rfl
@[simp] theorem State.workCleared_textLen (s : State) : (s.workCleared).textLen = s.textLen := rfl
@[simp] theorem State.workCleared_blobLen (s : State) : (s.workCleared).blobLen = s.blobLen := rfl
@[simp] theorem State.workCleared_ftCnt (s : State) : (s.workCleared).ftCnt = 0#32 := rfl
@[simp] theorem State.workCleared_nodeCnt (s : State) : (s.workCleared).nodeCnt = 0#32 := rfl
@[simp] theorem State.workCleared_pqCnt (s : State) : (s.workCleared).pqCnt = 0#32 := rfl
@[simp] theorem State.workCleared_root (s : State) : (s.workCleared).root = 0#24 := rfl
@[simp] theorem State.workCleared_ctCnt (s : State) : (s.workCleared).ctCnt = 0#32 := rfl
@[simp] theorem State.workCleared_pkLen (s : State) : (s.workCleared).pkLen = 0#32 := rfl
@[simp] theorem State.workCleared_pad (s : State) : (s.workCleared).pad = 0#3 := rfl
@[simp] theorem State.workCleared_origLen (s : State) : (s.workCleared).origLen = 0#32 := rfl
@[simp] theorem State.workCleared_stgBits (s : State) : (s.workCleared).stgBits = 0#8 := rfl
@[simp] theorem State.workCleared_stgCnt (s : State) : (s.workCleared).stgCnt = 0#3 := rfl
@[simp] theorem State.workCleared_upByte (s : State) : (s.workCleared).upByte = 0#32 := rfl
@[simp] theorem State.workCleared_upBit (s : State) : (s.workCleared).upBit = 0#3 := rfl
@[simp] theorem State.workCleared_text (s : State) : (s.workCleared).text = s.text := rfl
@[simp] theorem State.workCleared_blob (s : State) : (s.workCleared).blob = s.blob := rfl
@[simp] theorem State.workCleared_ft (s : State) : (s.workCleared).ft = s.ft := rfl
@[simp] theorem State.workCleared_node (s : State) : (s.workCleared).node = s.node := rfl
@[simp] theorem State.workCleared_heap (s : State) : (s.workCleared).heap = s.heap := rfl
@[simp] theorem State.workCleared_ct (s : State) : (s.workCleared).ct = s.ct := rfl
@[simp] theorem State.workCleared_pk (s : State) : (s.workCleared).pk = s.pk := rfl
@[simp] theorem State.workCleared_inbox (s : State) : (s.workCleared).inbox = s.inbox := rfl
@[simp] theorem State.workCleared_reply (s : State) : (s.workCleared).reply = s.reply := rfl
@[simp] theorem State.workCleared_draws (s : State) : (s.workCleared).draws = s.draws := rfl

/-! CLEAR (45_codec_engine.md R211) -/

@[simp] theorem State.cleared_cfg (s : State) : (s.cleared).cfg = s.cfg := rfl
@[simp] theorem State.cleared_err (s : State) : (s.cleared).err = 0#8 := rfl
@[simp] theorem State.cleared_errInfo (s : State) : (s.cleared).errInfo = 0#32 := rfl
@[simp] theorem State.cleared_errCmd (s : State) : (s.cleared).errCmd = 0#32 := rfl
@[simp] theorem State.cleared_qe (s : State) : (s.cleared).qe = false := rfl
@[simp] theorem State.cleared_be (s : State) : (s.cleared).be = false := rfl
@[simp] theorem State.cleared_res (s : State) : (s.cleared).res = 0#32 := rfl
@[simp] theorem State.cleared_textLen (s : State) : (s.cleared).textLen = 0#32 := rfl
@[simp] theorem State.cleared_blobLen (s : State) : (s.cleared).blobLen = 0#32 := rfl
@[simp] theorem State.cleared_ftCnt (s : State) : (s.cleared).ftCnt = 0#32 := rfl
@[simp] theorem State.cleared_nodeCnt (s : State) : (s.cleared).nodeCnt = 0#32 := rfl
@[simp] theorem State.cleared_pqCnt (s : State) : (s.cleared).pqCnt = 0#32 := rfl
@[simp] theorem State.cleared_root (s : State) : (s.cleared).root = 0#24 := rfl
@[simp] theorem State.cleared_ctCnt (s : State) : (s.cleared).ctCnt = 0#32 := rfl
@[simp] theorem State.cleared_pkLen (s : State) : (s.cleared).pkLen = 0#32 := rfl
@[simp] theorem State.cleared_pad (s : State) : (s.cleared).pad = 0#3 := rfl
@[simp] theorem State.cleared_origLen (s : State) : (s.cleared).origLen = 0#32 := rfl
@[simp] theorem State.cleared_stgBits (s : State) : (s.cleared).stgBits = 0#8 := rfl
@[simp] theorem State.cleared_stgCnt (s : State) : (s.cleared).stgCnt = 0#3 := rfl
@[simp] theorem State.cleared_upByte (s : State) : (s.cleared).upByte = 0#32 := rfl
@[simp] theorem State.cleared_upBit (s : State) : (s.cleared).upBit = 0#3 := rfl
@[simp] theorem State.cleared_text (s : State) : (s.cleared).text = s.text := rfl
@[simp] theorem State.cleared_blob (s : State) : (s.cleared).blob = s.blob := rfl
@[simp] theorem State.cleared_ft (s : State) : (s.cleared).ft = s.ft := rfl
@[simp] theorem State.cleared_node (s : State) : (s.cleared).node = s.node := rfl
@[simp] theorem State.cleared_heap (s : State) : (s.cleared).heap = s.heap := rfl
@[simp] theorem State.cleared_ct (s : State) : (s.cleared).ct = s.ct := rfl
@[simp] theorem State.cleared_pk (s : State) : (s.cleared).pk = s.pk := rfl
@[simp] theorem State.cleared_inbox (s : State) : (s.cleared).inbox = s.inbox := rfl
@[simp] theorem State.cleared_reply (s : State) : (s.cleared).reply = s.reply := rfl
@[simp] theorem State.cleared_draws (s : State) : (s.cleared).draws = s.draws := rfl

/-! Reset (70_reset_and_hazards.md R260) -/

@[simp] theorem State.afterReset_cfg (s : State) : (s.afterReset).cfg = s.cfg := rfl
@[simp] theorem State.afterReset_err (s : State) : (s.afterReset).err = 0#8 := rfl
@[simp] theorem State.afterReset_errInfo (s : State) : (s.afterReset).errInfo = 0#32 := rfl
@[simp] theorem State.afterReset_errCmd (s : State) : (s.afterReset).errCmd = 0#32 := rfl
@[simp] theorem State.afterReset_qe (s : State) : (s.afterReset).qe = false := rfl
@[simp] theorem State.afterReset_be (s : State) : (s.afterReset).be = false := rfl
@[simp] theorem State.afterReset_res (s : State) : (s.afterReset).res = 0#32 := rfl
@[simp] theorem State.afterReset_textLen (s : State) : (s.afterReset).textLen = 0#32 := rfl
@[simp] theorem State.afterReset_blobLen (s : State) : (s.afterReset).blobLen = 0#32 := rfl
@[simp] theorem State.afterReset_ftCnt (s : State) : (s.afterReset).ftCnt = 0#32 := rfl
@[simp] theorem State.afterReset_nodeCnt (s : State) : (s.afterReset).nodeCnt = 0#32 := rfl
@[simp] theorem State.afterReset_pqCnt (s : State) : (s.afterReset).pqCnt = 0#32 := rfl
@[simp] theorem State.afterReset_root (s : State) : (s.afterReset).root = 0#24 := rfl
@[simp] theorem State.afterReset_ctCnt (s : State) : (s.afterReset).ctCnt = 0#32 := rfl
@[simp] theorem State.afterReset_pkLen (s : State) : (s.afterReset).pkLen = 0#32 := rfl
@[simp] theorem State.afterReset_pad (s : State) : (s.afterReset).pad = 0#3 := rfl
@[simp] theorem State.afterReset_origLen (s : State) : (s.afterReset).origLen = 0#32 := rfl
@[simp] theorem State.afterReset_stgBits (s : State) : (s.afterReset).stgBits = 0#8 := rfl
@[simp] theorem State.afterReset_stgCnt (s : State) : (s.afterReset).stgCnt = 0#3 := rfl
@[simp] theorem State.afterReset_upByte (s : State) : (s.afterReset).upByte = 0#32 := rfl
@[simp] theorem State.afterReset_upBit (s : State) : (s.afterReset).upBit = 0#3 := rfl
@[simp] theorem State.afterReset_text (s : State) : (s.afterReset).text = [] := rfl
@[simp] theorem State.afterReset_blob (s : State) : (s.afterReset).blob = [] := rfl
@[simp] theorem State.afterReset_ft (s : State) : (s.afterReset).ft = [] := rfl
@[simp] theorem State.afterReset_node (s : State) : (s.afterReset).node = [] := rfl
@[simp] theorem State.afterReset_heap (s : State) : (s.afterReset).heap = [] := rfl
@[simp] theorem State.afterReset_ct (s : State) : (s.afterReset).ct = [] := rfl
@[simp] theorem State.afterReset_pk (s : State) : (s.afterReset).pk = [] := rfl
@[simp] theorem State.afterReset_inbox (s : State) : (s.afterReset).inbox = s.inbox := rfl
@[simp] theorem State.afterReset_reply (s : State) : (s.afterReset).reply = none := rfl
@[simp] theorem State.afterReset_draws (s : State) : (s.afterReset).draws = s.draws := rfl

/-! Fault entry (60_exceptions.md R232) -/

@[simp] theorem takeFault_cfg (code : FaultCode) (info : Nat) (w : Word) (s : State) : (takeFault code info w s).cfg = s.cfg := rfl
@[simp] theorem takeFault_err (code : FaultCode) (info : Nat) (w : Word) (s : State) : (takeFault code info w s).err = code.number := rfl
@[simp] theorem takeFault_errInfo (code : FaultCode) (info : Nat) (w : Word) (s : State) : (takeFault code info w s).errInfo = BitVec.ofNat 32 info := rfl
@[simp] theorem takeFault_errCmd (code : FaultCode) (info : Nat) (w : Word) (s : State) : (takeFault code info w s).errCmd = w := rfl
@[simp] theorem takeFault_qe (code : FaultCode) (info : Nat) (w : Word) (s : State) : (takeFault code info w s).qe = s.qe := rfl
@[simp] theorem takeFault_be (code : FaultCode) (info : Nat) (w : Word) (s : State) : (takeFault code info w s).be = s.be := rfl
@[simp] theorem takeFault_res (code : FaultCode) (info : Nat) (w : Word) (s : State) : (takeFault code info w s).res = s.res := rfl
@[simp] theorem takeFault_textLen (code : FaultCode) (info : Nat) (w : Word) (s : State) : (takeFault code info w s).textLen = s.textLen := rfl
@[simp] theorem takeFault_blobLen (code : FaultCode) (info : Nat) (w : Word) (s : State) : (takeFault code info w s).blobLen = s.blobLen := rfl
@[simp] theorem takeFault_ftCnt (code : FaultCode) (info : Nat) (w : Word) (s : State) : (takeFault code info w s).ftCnt = s.ftCnt := rfl
@[simp] theorem takeFault_nodeCnt (code : FaultCode) (info : Nat) (w : Word) (s : State) : (takeFault code info w s).nodeCnt = s.nodeCnt := rfl
@[simp] theorem takeFault_pqCnt (code : FaultCode) (info : Nat) (w : Word) (s : State) : (takeFault code info w s).pqCnt = s.pqCnt := rfl
@[simp] theorem takeFault_root (code : FaultCode) (info : Nat) (w : Word) (s : State) : (takeFault code info w s).root = s.root := rfl
@[simp] theorem takeFault_ctCnt (code : FaultCode) (info : Nat) (w : Word) (s : State) : (takeFault code info w s).ctCnt = s.ctCnt := rfl
@[simp] theorem takeFault_pkLen (code : FaultCode) (info : Nat) (w : Word) (s : State) : (takeFault code info w s).pkLen = s.pkLen := rfl
@[simp] theorem takeFault_pad (code : FaultCode) (info : Nat) (w : Word) (s : State) : (takeFault code info w s).pad = s.pad := rfl
@[simp] theorem takeFault_origLen (code : FaultCode) (info : Nat) (w : Word) (s : State) : (takeFault code info w s).origLen = s.origLen := rfl
@[simp] theorem takeFault_stgBits (code : FaultCode) (info : Nat) (w : Word) (s : State) : (takeFault code info w s).stgBits = s.stgBits := rfl
@[simp] theorem takeFault_stgCnt (code : FaultCode) (info : Nat) (w : Word) (s : State) : (takeFault code info w s).stgCnt = s.stgCnt := rfl
@[simp] theorem takeFault_upByte (code : FaultCode) (info : Nat) (w : Word) (s : State) : (takeFault code info w s).upByte = s.upByte := rfl
@[simp] theorem takeFault_upBit (code : FaultCode) (info : Nat) (w : Word) (s : State) : (takeFault code info w s).upBit = s.upBit := rfl
@[simp] theorem takeFault_text (code : FaultCode) (info : Nat) (w : Word) (s : State) : (takeFault code info w s).text = s.text := rfl
@[simp] theorem takeFault_blob (code : FaultCode) (info : Nat) (w : Word) (s : State) : (takeFault code info w s).blob = s.blob := rfl
@[simp] theorem takeFault_ft (code : FaultCode) (info : Nat) (w : Word) (s : State) : (takeFault code info w s).ft = s.ft := rfl
@[simp] theorem takeFault_node (code : FaultCode) (info : Nat) (w : Word) (s : State) : (takeFault code info w s).node = s.node := rfl
@[simp] theorem takeFault_heap (code : FaultCode) (info : Nat) (w : Word) (s : State) : (takeFault code info w s).heap = s.heap := rfl
@[simp] theorem takeFault_ct (code : FaultCode) (info : Nat) (w : Word) (s : State) : (takeFault code info w s).ct = s.ct := rfl
@[simp] theorem takeFault_pk (code : FaultCode) (info : Nat) (w : Word) (s : State) : (takeFault code info w s).pk = s.pk := rfl
@[simp] theorem takeFault_inbox (code : FaultCode) (info : Nat) (w : Word) (s : State) : (takeFault code info w s).inbox = s.inbox := rfl
@[simp] theorem takeFault_reply (code : FaultCode) (info : Nat) (w : Word) (s : State) : (takeFault code info w s).reply = s.reply := rfl
@[simp] theorem takeFault_draws (code : FaultCode) (info : Nat) (w : Word) (s : State) : (takeFault code info w s).draws = s.draws := rfl

/-! The host's next write to CMD -/

@[simp] theorem State.present_cfg (s : State) (w : Word) : (s.present w).cfg = s.cfg := rfl
@[simp] theorem State.present_err (s : State) (w : Word) : (s.present w).err = s.err := rfl
@[simp] theorem State.present_errInfo (s : State) (w : Word) : (s.present w).errInfo = s.errInfo := rfl
@[simp] theorem State.present_errCmd (s : State) (w : Word) : (s.present w).errCmd = s.errCmd := rfl
@[simp] theorem State.present_qe (s : State) (w : Word) : (s.present w).qe = s.qe := rfl
@[simp] theorem State.present_be (s : State) (w : Word) : (s.present w).be = s.be := rfl
@[simp] theorem State.present_res (s : State) (w : Word) : (s.present w).res = s.res := rfl
@[simp] theorem State.present_textLen (s : State) (w : Word) : (s.present w).textLen = s.textLen := rfl
@[simp] theorem State.present_blobLen (s : State) (w : Word) : (s.present w).blobLen = s.blobLen := rfl
@[simp] theorem State.present_ftCnt (s : State) (w : Word) : (s.present w).ftCnt = s.ftCnt := rfl
@[simp] theorem State.present_nodeCnt (s : State) (w : Word) : (s.present w).nodeCnt = s.nodeCnt := rfl
@[simp] theorem State.present_pqCnt (s : State) (w : Word) : (s.present w).pqCnt = s.pqCnt := rfl
@[simp] theorem State.present_root (s : State) (w : Word) : (s.present w).root = s.root := rfl
@[simp] theorem State.present_ctCnt (s : State) (w : Word) : (s.present w).ctCnt = s.ctCnt := rfl
@[simp] theorem State.present_pkLen (s : State) (w : Word) : (s.present w).pkLen = s.pkLen := rfl
@[simp] theorem State.present_pad (s : State) (w : Word) : (s.present w).pad = s.pad := rfl
@[simp] theorem State.present_origLen (s : State) (w : Word) : (s.present w).origLen = s.origLen := rfl
@[simp] theorem State.present_stgBits (s : State) (w : Word) : (s.present w).stgBits = s.stgBits := rfl
@[simp] theorem State.present_stgCnt (s : State) (w : Word) : (s.present w).stgCnt = s.stgCnt := rfl
@[simp] theorem State.present_upByte (s : State) (w : Word) : (s.present w).upByte = s.upByte := rfl
@[simp] theorem State.present_upBit (s : State) (w : Word) : (s.present w).upBit = s.upBit := rfl
@[simp] theorem State.present_text (s : State) (w : Word) : (s.present w).text = s.text := rfl
@[simp] theorem State.present_blob (s : State) (w : Word) : (s.present w).blob = s.blob := rfl
@[simp] theorem State.present_ft (s : State) (w : Word) : (s.present w).ft = s.ft := rfl
@[simp] theorem State.present_node (s : State) (w : Word) : (s.present w).node = s.node := rfl
@[simp] theorem State.present_heap (s : State) (w : Word) : (s.present w).heap = s.heap := rfl
@[simp] theorem State.present_ct (s : State) (w : Word) : (s.present w).ct = s.ct := rfl
@[simp] theorem State.present_pk (s : State) (w : Word) : (s.present w).pk = s.pk := rfl
@[simp] theorem State.present_inbox (s : State) (w : Word) : (s.present w).inbox = .write cmdAddr w :: s.inbox := rfl
@[simp] theorem State.present_reply (s : State) (w : Word) : (s.present w).reply = s.reply := rfl
@[simp] theorem State.present_draws (s : State) (w : Word) : (s.present w).draws = s.draws := rfl

/-! One more bit of the unpacker (43_bit_packer.md R175): every field but UP_BYTE and UP_BIT. -/

@[simp] theorem State.upNext_cfg (s : State) : s.upNext.cfg = s.cfg := by unfold State.upNext; split <;> rfl
@[simp] theorem State.upNext_err (s : State) : s.upNext.err = s.err := by unfold State.upNext; split <;> rfl
@[simp] theorem State.upNext_errInfo (s : State) : s.upNext.errInfo = s.errInfo := by unfold State.upNext; split <;> rfl
@[simp] theorem State.upNext_errCmd (s : State) : s.upNext.errCmd = s.errCmd := by unfold State.upNext; split <;> rfl
@[simp] theorem State.upNext_qe (s : State) : s.upNext.qe = s.qe := by unfold State.upNext; split <;> rfl
@[simp] theorem State.upNext_be (s : State) : s.upNext.be = s.be := by unfold State.upNext; split <;> rfl
@[simp] theorem State.upNext_res (s : State) : s.upNext.res = s.res := by unfold State.upNext; split <;> rfl
@[simp] theorem State.upNext_textLen (s : State) : s.upNext.textLen = s.textLen := by unfold State.upNext; split <;> rfl
@[simp] theorem State.upNext_blobLen (s : State) : s.upNext.blobLen = s.blobLen := by unfold State.upNext; split <;> rfl
@[simp] theorem State.upNext_ftCnt (s : State) : s.upNext.ftCnt = s.ftCnt := by unfold State.upNext; split <;> rfl
@[simp] theorem State.upNext_nodeCnt (s : State) : s.upNext.nodeCnt = s.nodeCnt := by unfold State.upNext; split <;> rfl
@[simp] theorem State.upNext_pqCnt (s : State) : s.upNext.pqCnt = s.pqCnt := by unfold State.upNext; split <;> rfl
@[simp] theorem State.upNext_root (s : State) : s.upNext.root = s.root := by unfold State.upNext; split <;> rfl
@[simp] theorem State.upNext_ctCnt (s : State) : s.upNext.ctCnt = s.ctCnt := by unfold State.upNext; split <;> rfl
@[simp] theorem State.upNext_pkLen (s : State) : s.upNext.pkLen = s.pkLen := by unfold State.upNext; split <;> rfl
@[simp] theorem State.upNext_pad (s : State) : s.upNext.pad = s.pad := by unfold State.upNext; split <;> rfl
@[simp] theorem State.upNext_origLen (s : State) : s.upNext.origLen = s.origLen := by unfold State.upNext; split <;> rfl
@[simp] theorem State.upNext_stgBits (s : State) : s.upNext.stgBits = s.stgBits := by unfold State.upNext; split <;> rfl
@[simp] theorem State.upNext_stgCnt (s : State) : s.upNext.stgCnt = s.stgCnt := by unfold State.upNext; split <;> rfl
@[simp] theorem State.upNext_text (s : State) : s.upNext.text = s.text := by unfold State.upNext; split <;> rfl
@[simp] theorem State.upNext_blob (s : State) : s.upNext.blob = s.blob := by unfold State.upNext; split <;> rfl
@[simp] theorem State.upNext_ft (s : State) : s.upNext.ft = s.ft := by unfold State.upNext; split <;> rfl
@[simp] theorem State.upNext_node (s : State) : s.upNext.node = s.node := by unfold State.upNext; split <;> rfl
@[simp] theorem State.upNext_heap (s : State) : s.upNext.heap = s.heap := by unfold State.upNext; split <;> rfl
@[simp] theorem State.upNext_ct (s : State) : s.upNext.ct = s.ct := by unfold State.upNext; split <;> rfl
@[simp] theorem State.upNext_pk (s : State) : s.upNext.pk = s.pk := by unfold State.upNext; split <;> rfl
@[simp] theorem State.upNext_inbox (s : State) : s.upNext.inbox = s.inbox := by unfold State.upNext; split <;> rfl
@[simp] theorem State.upNext_reply (s : State) : s.upNext.reply = s.reply := by unfold State.upNext; split <;> rfl
@[simp] theorem State.upNext_draws (s : State) : s.upNext.draws = s.draws := by unfold State.upNext; split <;> rfl

end Sys2Proof.Machine
end

