-- ==== Sys2Proof/Laws/Cmd.lean ====
section
/-! SUPPORT. What a command rule leaves, as a weakest precondition: one equation per primitive (00_scope.md R11, R12). Later proofs run a rule with these instead of unfolding it. -/

namespace Sys2Proof.Machine

variable {α β : Type}

/-- The rule `c`, run from `s`, ends normally with a value and a state that meet `Q`, or stops with a reason and a state that
meet `E`. -/
def Cmd.wp (c : Cmd α) (Q : α → State → Prop) (E : Stop → State → Prop) (s : State) : Prop :=
  match c s with
  | .ok a t => Q a t
  | .error e t => E e t

variable {Q : α → State → Prop} {E : Stop → State → Prop} {s : State}

@[simp] theorem Cmd.wp_pure (a : α) : Cmd.wp (pure a) Q E s ↔ Q a s := Iff.rfl

@[simp] theorem Cmd.wp_bind (c : Cmd β) (f : β → Cmd α) :
    Cmd.wp (c >>= f) Q E s ↔ Cmd.wp c (fun b => Cmd.wp (f b) Q E) E s := by
  show (match EStateM.bind c f s with | .ok a t => Q a t | .error e t => E e t) ↔ _
  unfold Cmd.wp EStateM.bind
  cases c s <;> rfl

@[simp] theorem Cmd.wp_csr (f : State → α) : Cmd.wp (Cmd.csr f) Q E s ↔ Q (f s) s := Iff.rfl

@[simp] theorem Cmd.wp_update (f : State → State) {Q : Unit → State → Prop} :
    Cmd.wp (Cmd.update f) Q E s ↔ Q () (f s) := Iff.rfl

@[simp] theorem Cmd.wp_raise (code : FaultCode) (info : Nat) :
    Cmd.wp (Cmd.raise code info : Cmd α) Q E s ↔ E (.raise code info) s := Iff.rfl

@[simp] theorem Cmd.wp_stuck (reason : Fault) :
    Cmd.wp (Cmd.stuck reason : Cmd α) Q E s ↔ E (.stuck reason) s := Iff.rfl

@[simp] theorem Cmd.wp_raiseIf (c : Prop) [Decidable c] (code : FaultCode) (info : Nat) {Q : Unit → State → Prop} :
    Cmd.wp (Cmd.raiseIf c code info) Q E s ↔ (c → E (.raise code info) s) ∧ (¬c → Q () s) := by
  unfold Cmd.raiseIf
  by_cases h : c <;> simp [h]

@[simp] theorem Cmd.wp_ite (c : Prop) [Decidable c] (x y : Cmd α) :
    Cmd.wp (if c then x else y) Q E s ↔ (c → Cmd.wp x Q E s) ∧ (¬c → Cmd.wp y Q E s) := by
  by_cases h : c <;> simp [h]

theorem Cmd.wp_mono {c : Cmd α} {Q' : α → State → Prop} {E' : Stop → State → Prop} (h : Cmd.wp c Q E s)
    (hQ : ∀ a t, Q a t → Q' a t) (hE : ∀ e t, E e t → E' e t) : Cmd.wp c Q' E' s := by
  unfold Cmd.wp at *
  split at h
  · exact hQ _ _ h
  · exact hE _ _ h

/-- Any rule ends in some way. -/
theorem Cmd.wp_any (c : Cmd α) (s : State) : Cmd.wp c (fun _ _ => True) (fun _ _ => True) s := by
  unfold Cmd.wp
  split <;> trivial

/-- Two things that hold of a rule's ends hold together. -/
theorem Cmd.wp_and {c : Cmd α} {Q' : α → State → Prop} {E' : Stop → State → Prop} (h : Cmd.wp c Q E s) (h' : Cmd.wp c Q' E' s) :
    Cmd.wp c (fun a t => Q a t ∧ Q' a t) (fun e t => E e t ∧ E' e t) s := by
  unfold Cmd.wp at *
  split <;> simp_all

/-- A rule that starts with a helper whose spec is known. -/
theorem Cmd.wp_then {c : Cmd β} {f : β → Cmd α} {Q' : β → State → Prop} {E' : Stop → State → Prop} (hc : Cmd.wp c Q' E' s)
    (hf : ∀ b t, Q' b t → Cmd.wp (f b) Q E t) (hE : ∀ e t, E' e t → E e t) : Cmd.wp (c >>= f) Q E s :=
  (Cmd.wp_bind c f).mpr (Cmd.wp_mono hc hf hE)

/-! ### Reads and writes of elements -/

/-- An element that is listed is what a read answers, and the state is as before. -/
theorem readElem_some {mem : State → Memory α} {free : State → α} {i : Nat} {a : α} (h : (mem s).get? i = some a) :
    readElem mem free i s = (a, s) := by
  simp [readElem, h]

/-- A read changes nothing but the number of free values. -/
theorem readElem_state (mem : State → Memory α) (free : State → α) (i : Nat) (s : State) :
    (readElem mem free i s).2 = { s with draws := (readElem mem free i s).2.draws } := by
  unfold readElem
  split <;> rfl

/-- A read answers the listed element, or a free value. -/
theorem readElem_cases (mem : State → Memory α) (free : State → α) (i : Nat) (s : State) :
    ((mem s).get? i = some (readElem mem free i s).1 ∧ (readElem mem free i s).2 = s) ∨
      ((mem s).get? i = none ∧ readElem mem free i s = (free s, { s with draws := s.draws + 1 })) := by
  unfold readElem
  cases h : (mem s).get? i <;> simp

@[simp] theorem Cmd.wp_readText (i : Nat) {Q : Word → State → Prop} :
    Cmd.wp (readText i) Q E s ↔ Q (textAt i s).1 (textAt i s).2 := Iff.rfl

@[simp] theorem Cmd.wp_readBlob (i : Nat) {Q : Byte → State → Prop} :
    Cmd.wp (readBlob i) Q E s ↔ Q (blobAt i s).1 (blobAt i s).2 := Iff.rfl

@[simp] theorem Cmd.wp_readFt (j : Nat) {Q : FtEntry → State → Prop} :
    Cmd.wp (readFt j) Q E s ↔ Q (ftAt j s).1 (ftAt j s).2 := Iff.rfl

@[simp] theorem Cmd.wp_readNode (id : NodeId) {Q : Node → State → Prop} :
    Cmd.wp (readNode id) Q E s ↔ Q (nodeAt id.toNat s).1 (nodeAt id.toNat s).2 := Iff.rfl

@[simp] theorem Cmd.wp_readHeap (i : Nat) {Q : NodeId → State → Prop} :
    Cmd.wp (readHeap i) Q E s ↔ Q (heapAt i s).1 (heapAt i s).2 := Iff.rfl

@[simp] theorem Cmd.wp_readCt (j : Nat) {Q : CtEntry → State → Prop} :
    Cmd.wp (readCt j) Q E s ↔ Q (ctAt j s).1 (ctAt j s).2 := Iff.rfl

@[simp] theorem Cmd.wp_readPk (i : Nat) {Q : Byte → State → Prop} :
    Cmd.wp (readPk i) Q E s ↔ Q (pkAt i s).1 (pkAt i s).2 := Iff.rfl

@[simp] theorem Cmd.wp_writeText (i : Nat) (v : Word) {Q : Unit → State → Prop} :
    Cmd.wp (writeText i v) Q E s ↔ Q () (s.storeText i v) := Iff.rfl

@[simp] theorem Cmd.wp_writeBlob (i : Nat) (v : Byte) {Q : Unit → State → Prop} :
    Cmd.wp (writeBlob i v) Q E s ↔ Q () (s.storeBlob i v) := Iff.rfl

@[simp] theorem Cmd.wp_writeFt (j : Nat) (e : FtEntry) {Q : Unit → State → Prop} :
    Cmd.wp (writeFt j e) Q E s ↔ Q () (s.storeFt j e) := Iff.rfl

@[simp] theorem Cmd.wp_writeNode (id : NodeId) (n : Node) {Q : Unit → State → Prop} :
    Cmd.wp (writeNode id n) Q E s ↔ Q () (s.storeNode id n) := Iff.rfl

@[simp] theorem Cmd.wp_writeHeap (i : Nat) (id : NodeId) {Q : Unit → State → Prop} :
    Cmd.wp (writeHeap i id) Q E s ↔ Q () (s.storeHeap i id) := Iff.rfl

@[simp] theorem Cmd.wp_writeCt (j : Nat) (e : CtEntry) {Q : Unit → State → Prop} :
    Cmd.wp (writeCt j e) Q E s ↔ Q () (s.storeCt j e) := Iff.rfl

@[simp] theorem Cmd.wp_writePk (i : Nat) (v : Byte) {Q : Unit → State → Prop} :
    Cmd.wp (writePk i v) Q E s ↔ Q () (s.storePk i v) := Iff.rfl

theorem textAt_some {i : Nat} {v : Word} (h : s.text.get? i = some v) : textAt i s = (v, s) := readElem_some h
theorem blobAt_some {i : Nat} {v : Byte} (h : s.blob.get? i = some v) : blobAt i s = (v, s) := readElem_some h
theorem ftAt_some {j : Nat} {e : FtEntry} (h : s.ft.get? j = some e) : ftAt j s = (e, s) := readElem_some h
theorem nodeAt_some {id : Nat} {n : Node} (h : s.node.get? id = some n) : nodeAt id s = (n, s) := readElem_some h
theorem heapAt_some {i : Nat} {id : NodeId} (h : s.heap.get? i = some id) : heapAt i s = (id, s) := readElem_some h
theorem ctAt_some {j : Nat} {e : CtEntry} (h : s.ct.get? j = some e) : ctAt j s = (e, s) := readElem_some h
theorem pkAt_some {i : Nat} {v : Byte} (h : s.pk.get? i = some v) : pkAt i s = (v, s) := readElem_some h

/-! ### Loops -/

@[simp] theorem Cmd.wp_forFrom_zero (body : Nat → Cmd Unit) (a : Nat) {Q : Unit → State → Prop} :
    Cmd.wp (Cmd.forFrom body 0 a) Q E s ↔ Q () s := Iff.rfl

@[simp] theorem Cmd.wp_forFrom_succ (body : Nat → Cmd Unit) (n a : Nat) {Q : Unit → State → Prop} :
    Cmd.wp (Cmd.forFrom body (n + 1) a) Q E s ↔
      Cmd.wp (body a) (fun _ => Cmd.wp (Cmd.forFrom body n (a + 1)) Q E) E s := by
  rw [Cmd.forFrom, Cmd.wp_bind]

@[simp] theorem Cmd.wp_forBits_nil (body : Bool → Cmd Unit) {Q : Unit → State → Prop} :
    Cmd.wp (Cmd.forBits body []) Q E s ↔ Q () s := Iff.rfl

@[simp] theorem Cmd.wp_forBits_cons (body : Bool → Cmd Unit) (b : Bool) (bs : BitString) {Q : Unit → State → Prop} :
    Cmd.wp (Cmd.forBits body (b :: bs)) Q E s ↔ Cmd.wp (body b) (fun _ => Cmd.wp (Cmd.forBits body bs) Q E) E s := by
  rw [Cmd.forBits, Cmd.wp_bind]

/-- An invariant that every turn keeps holds after a loop. -/
theorem Cmd.wp_forFrom {body : Nat → Cmd Unit} {I : Nat → State → Prop} (n a : Nat)
    (hbody : ∀ i t, a ≤ i → i < a + n → I i t → Cmd.wp (body i) (fun _ u => I (i + 1) u) E t) (h : I a s) :
    Cmd.wp (Cmd.forFrom body n a) (fun _ t => I (a + n) t) E s := by
  induction n generalizing a s with
  | zero => exact h
  | succ n ih =>
    rw [Cmd.wp_forFrom_succ]
    refine Cmd.wp_mono (hbody a s (Nat.le_refl a) (by omega) h) (fun _ t ht => ?_) (fun _ _ h => h)
    have := ih (a + 1) (fun i t h1 h2 => hbody i t (by omega) (by omega)) ht
    rwa [show a + 1 + n = a + (n + 1) by omega] at this

/-! ### A rule run as a command -/

/-- A rule that ends normally is the command's next state. -/
theorem runCommand_ok {w : Word} {c : Cmd Unit} {t : State} (h : c s = .ok () t) : runCommand w c s = .next t := by
  simp [runCommand, h]

/-- A raise is the fault entry on what the rule left (60_exceptions.md R232). -/
theorem runCommand_raise {w : Word} {c : Cmd Unit} {t : State} {code : FaultCode} {info : Nat}
    (h : c s = .error (.raise code info) t) : runCommand w c s = .next (takeFault code info w t) := by
  simp [runCommand, h]

/-- From a weakest precondition that allows no stop to the command's next state. -/
theorem runCommand_of_wp {w : Word} {c : Cmd Unit} {P : State → Prop}
    (h : Cmd.wp c (fun _ t => P t) (fun _ _ => False) s) : ∃ t, runCommand w c s = .next t ∧ P t := by
  unfold Cmd.wp at h
  split at h
  · rename_i a t heq
    exact ⟨t, runCommand_ok heq, h⟩
  · exact h.elim

/-- From a weakest precondition that names the state a rule ends in. -/
theorem runCommand_eq {w : Word} {c : Cmd Unit} {t : State} (h : Cmd.wp c (fun _ u => u = t) (fun _ _ => False) s) :
    runCommand w c s = .next t := by
  obtain ⟨u, hu, rfl⟩ := runCommand_of_wp (w := w) h
  exact hu

/-- From a weakest precondition that allows one raise and no normal end to the fault it ends in. -/
theorem runCommand_fault {w : Word} {c : Cmd Unit} {code : FaultCode} {info : Nat} {P : State → Prop}
    (h : Cmd.wp c (fun _ _ => False) (fun e t => e = .raise code info ∧ P t) s) :
    ∃ t, runCommand w c s = .next (takeFault code info w t) ∧ P t := by
  unfold Cmd.wp at h
  split at h
  · exact h.elim
  · rename_i e t heq
    obtain ⟨rfl, hp⟩ := h
    exact ⟨t, runCommand_raise heq, hp⟩

/-- From a weakest precondition that allows one raise, in a state it names. -/
theorem runCommand_fault_eq {w : Word} {c : Cmd Unit} {code : FaultCode} {info : Nat} {t : State}
    (h : Cmd.wp c (fun _ _ => False) (fun e u => e = .raise code info ∧ u = t) s) :
    runCommand w c s = .next (takeFault code info w t) := by
  obtain ⟨u, hu, rfl⟩ := runCommand_fault (w := w) h
  exact hu

/-- A command stops the model only where its rule does. -/
theorem runCommand_total {w : Word} {c : Cmd Unit} (h : Cmd.wp c (fun _ _ => True) (fun e _ => ∀ r, e ≠ .stuck r) s) :
    ∃ t, runCommand w c s = .next t := by
  unfold Cmd.wp at h
  split at h
  · rename_i a t heq
    exact ⟨t, runCommand_ok heq⟩
  · rename_i e t heq
    cases e with
    | raise code info => exact ⟨_, runCommand_raise heq⟩
    | stuck r => exact (h r rfl).elim

/-- What every next state of a command is, from what its rule leaves. -/
theorem runCommand_next {w : Word} {c : Cmd Unit} {t : State} {P : State → Prop}
    (hc : Cmd.wp c (fun _ u => P u)
      (fun e u => ∀ code info, e = .raise code info → P (takeFault code info w u)) s)
    (h : runCommand w c s = .next t) : P t := by
  unfold Cmd.wp at hc
  unfold runCommand at h
  split at h
  · rename_i heq
    rw [heq] at hc
    cases h
    exact hc
  · rename_i heq
    rw [heq] at hc
    cases h
    exact hc _ _ rfl
  · cases h

end Sys2Proof.Machine
end

