-- ==== Sys2Proof/Laws/Holds.lean ====
section
/-! SUPPORT. Laws of lists of elements held in a memory. -/

namespace Sys2Proof.Machine

variable {α : Type} {m m' : Memory α} {base : Nat} {l l' : List α}

theorem Memory.holds.get (h : m.holds base l) {k : Nat} (hk : k < l.length) : m.get? (base + k) = some l[k] := by
  rw [h k hk, List.getElem?_eq_getElem hk]

theorem Memory.holds.getZero (h : m.holds 0 l) {k : Nat} (hk : k < l.length) : m.get? k = some l[k] := by
  have := h.get hk
  rwa [Nat.zero_add] at this

theorem Memory.holds.getD (h : m.holds 0 l) (d : α) {k : Nat} (hk : k < l.length) : m.get? k = some (l.getD k d) := by
  rw [h.getZero hk, List.getD_eq_getElem?_getD, List.getElem?_eq_getElem hk, Option.getD_some]

@[simp] theorem Memory.holds_nil (m : Memory α) (base : Nat) : m.holds base [] := fun _ h => absurd h (Nat.not_lt_zero _)

theorem Memory.holds_append : m.holds base (l ++ l') ↔ m.holds base l ∧ m.holds (base + l.length) l' := by
  refine ⟨fun h => ⟨fun k hk => ?_, fun k hk => ?_⟩, fun ⟨h1, h2⟩ k hk => ?_⟩
  · rw [h k (by simp; omega), List.getElem?_append_left hk]
  · rw [Nat.add_assoc, h _ (by simp; omega), List.getElem?_append_right (by omega), Nat.add_sub_cancel_left]
  · by_cases hl : k < l.length
    · rw [h1 k hl, List.getElem?_append_left hl]
    · rw [List.length_append] at hk
      have := h2 (k - l.length) (by omega)
      rwa [show base + l.length + (k - l.length) = base + k by omega, ← List.getElem?_append_right (by omega)] at this

theorem Memory.holds_cons {a : α} : m.holds base (a :: l) ↔ m.get? base = some a ∧ m.holds (base + 1) l := by
  rw [show a :: l = [a] ++ l from rfl, Memory.holds_append]
  refine and_congr ⟨fun h => by simpa using h 0 (by simp), fun h k hk => ?_⟩ Iff.rfl
  obtain rfl : k = 0 := by simpa using hk
  simpa using h

/-- A list held at positions that two memories agree on is held in both. -/
theorem Memory.holds.congr (h : m.holds base l) (e : ∀ k, k < l.length → m'.get? (base + k) = m.get? (base + k)) :
    m'.holds base l := fun k hk => (e k hk).trans (h k hk)

/-- A store outside a held list leaves it held. -/
theorem Memory.holds.store (h : m.holds base l) {lo hi i : Nat} {a : α} (ho : i < base ∨ base + l.length ≤ i) :
    (m.store lo hi i a).holds base l :=
  h.congr fun k hk => Memory.get?_store_other _ _ _ _ (by omega)

/-- A store just after a held list lengthens it by one. -/
theorem Memory.holds.storeNext (h : m.holds base l) {lo hi : Nat} {a : α} (h1 : lo ≤ base + l.length)
    (h2 : base + l.length < hi) : (m.store lo hi (base + l.length) a).holds base (l ++ [a]) := by
  refine Memory.holds_append.mpr ⟨h.store (.inr (Nat.le_refl _)), Memory.holds_cons.mpr ⟨?_, by simp⟩⟩
  exact Memory.get?_store_self _ _ h1 h2

/-- A store at a position of a held list. -/
theorem Memory.holds.storeSet (h : m.holds 0 l) {hi i : Nat} {a : α} (h1 : i < l.length) (h2 : l.length ≤ hi) :
    (m.store 0 hi i a).holds 0 (l.set i a) := by
  intro k hk
  rw [List.length_set] at hk
  rw [Nat.zero_add, Memory.get?_store, List.getElem?_set]
  by_cases e : k = i
  · subst e
    simp [h1, Nat.lt_of_lt_of_le h1 h2]
  · simp only [e, false_and, if_false, Ne.symm e]
    simpa using h k hk

theorem Memory.holds.take (h : m.holds base l) (n : Nat) : m.holds base (l.take n) := by
  intro k hk
  rw [List.length_take] at hk
  rw [h k (by omega), List.getElem?_take, if_pos (by omega)]

theorem Memory.sameFrom.refl (m : Memory α) (n : Nat) : m.sameFrom m n := fun _ _ => rfl

theorem Memory.sameFrom.trans {m'' : Memory α} {n : Nat} (h1 : m.sameFrom m' n) (h2 : m'.sameFrom m'' n) : m.sameFrom m'' n :=
  fun i hi => (h2 i hi).trans (h1 i hi)

theorem Memory.sameFrom.mono {n n' : Nat} (h : m.sameFrom m' n) (hn : n ≤ n') : m.sameFrom m' n' :=
  fun i hi => h i (Nat.le_trans hn hi)

/-- A store below `n` changes nothing from `n` on. -/
theorem Memory.sameFrom_store {lo hi i n : Nat} {a : α} (h : i < n) : m.sameFrom (m.store lo hi i a) n :=
  fun k hk => Memory.get?_store_other _ _ _ _ (by omega)

end Sys2Proof.Machine
end

