-- ==== Sys2Proof/Laws/Queue.lean ====
section
/-! SUPPORT. The queue helpers PqInsert and PqExtract do on HEAP what the list operations of Laws/HeapList.lean do, and change nothing else (40_priority_queue.md R110, R111). -/

namespace Sys2Proof.Machine

variable {s : State} {h : List NodeId}

/-- HEAP holds this list from position 0, it fits, and every node it names has been written. -/
structure HeapHeld (s : State) (h : List NodeId) : Prop where
  fits : h.length ≤ s.cfg.kMax
  held : s.heap.holds 0 h
  nodes : ∀ id ∈ h, ∃ n, s.node.get? id.toNat = some n

theorem HeapHeld.mem (_ : HeapHeld s h) {i : Nat} (hi : i < h.length) : h.getD i 0#24 ∈ h := by
  rw [List.getD_eq_getElem?_getD, List.getElem?_eq_getElem hi]
  exact List.getElem_mem hi

theorem weightOf_lt (m : Memory Node) (id : NodeId) : weightOf m id < 2 ^ 32 := by
  unfold weightOf; split <;> omega

/-- Weights compare as the numbers they are. -/
theorem weight_lt_iff (m : Memory Node) (a b : NodeId) :
    BitVec.ofNat 32 (weightOf m a) < BitVec.ofNat 32 (weightOf m b) ↔ weightOf m a < weightOf m b := by
  rw [BitVec.lt_def, BitVec.toNat_ofNat, BitVec.toNat_ofNat, Nat.mod_eq_of_lt (weightOf_lt _ _),
    Nat.mod_eq_of_lt (weightOf_lt _ _)]

/-- The weight read at a heap position. -/
theorem wp_heapWeight (hh : HeapHeld s h) {i : Nat} (hi : i < h.length) {Q : Word → State → Prop}
    {E : Stop → State → Prop} :
    Cmd.wp (heapWeight i) Q E s ↔ Q (BitVec.ofNat 32 (weightOf s.node (h.getD i 0#24))) s := by
  obtain ⟨n, hn⟩ := hh.nodes _ (hh.mem hi)
  simp only [heapWeight, Cmd.wp_bind, Cmd.wp_readHeap, heapAt_some (hh.held.getD 0#24 hi), Cmd.wp_readNode, nodeAt_some hn,
    Cmd.wp_pure, weightOf, hn, BitVec.ofNat_toNat, BitVec.setWidth_eq]

/-- HEAP after an exchange of two of its elements. -/
def swappedHeap (s : State) (h : List NodeId) (i j : Nat) : Memory NodeId :=
  (s.heap.store 0 s.cfg.kMax i (h.getD j 0#24)).store 0 s.cfg.kMax j (h.getD i 0#24)

theorem wp_swapHeap (hh : HeapHeld s h) {i j : Nat} (hi : i < h.length) (hj : j < h.length) {Q : Unit → State → Prop}
    {E : Stop → State → Prop} :
    Cmd.wp (swapHeap i j) Q E s ↔ Q () { s with heap := swappedHeap s h i j } := by
  simp only [swapHeap, Cmd.wp_bind, Cmd.wp_readHeap, heapAt_some (hh.held.getD 0#24 hi), heapAt_some (hh.held.getD 0#24 hj),
    Cmd.wp_writeHeap]
  exact Iff.rfl

theorem HeapHeld.swapped (hh : HeapHeld s h) {i j : Nat} (hi : i < h.length) (hj : j < h.length) :
    HeapHeld { s with heap := swappedHeap s h i j } (HeapList.swap h i j) := by
  refine ⟨by rw [HeapList.swap_length]; exact hh.fits, ?_, fun id hid => hh.nodes id ((HeapList.swap_perm hi hj).mem_iff.mp hid)⟩
  exact (hh.held.storeSet hi hh.fits).storeSet (by simpa using hj) (by simpa using hh.fits)

theorem swapped_sameFrom {i j n : Nat} (hi : i < n) (hj : j < n) : s.heap.sameFrom (swappedHeap s h i j) n :=
  (Memory.sameFrom_store hi).trans (Memory.sameFrom_store hj)

/-- What a loop over HEAP leaves: HEAP holds the new list, and nothing else has changed. -/
def HeapTo (s : State) (h : List NodeId) (t : State) : Prop :=
  ∃ m, t = { s with heap := m } ∧ m.holds 0 h ∧ s.heap.sameFrom m h.length

/-- A loop that goes on after an exchange. -/
theorem HeapTo.afterSwap {i j : Nat} {h' : List NodeId} {t : State} (hi : i < h.length) (hj : j < h.length)
    (hl : h'.length = h.length) (ht : HeapTo { s with heap := swappedHeap s h i j } h' t) : HeapTo s h' t := by
  obtain ⟨m, rfl, hm, hs⟩ := ht
  exact ⟨m, rfl, hm, (swapped_sameFrom (by omega) (by omega)).trans hs⟩

theorem siftUp_spec (fuel i : Nat) (hh : HeapHeld s h) (hi : i < h.length) :
    Cmd.wp (siftUp fuel i) (fun _ t => HeapTo s (HeapList.siftUp (weightOf s.node) fuel i h) t) (fun _ _ => False) s := by
  induction fuel generalizing s h i with
  | zero => exact ⟨s.heap, rfl, hh.held, .refl _ _⟩
  | succ fuel ih =>
    have hp : (i - 1) / 2 < h.length := by omega
    simp only [siftUp, HeapList.siftUp, Cmd.wp_ite, Cmd.wp_bind, Cmd.wp_pure, wp_heapWeight hh hi, wp_heapWeight hh hp,
      weight_lt_iff, wp_swapHeap hh hi hp]
    refine ⟨fun e => by rw [if_pos e]; exact ⟨s.heap, rfl, hh.held, .refl _ _⟩, fun e => ?_⟩
    rw [if_neg e]
    refine ⟨fun lt => ?_, fun lt => by rw [if_neg lt]; exact ⟨s.heap, rfl, hh.held, .refl _ _⟩⟩
    rw [if_pos lt]
    refine Cmd.wp_mono (ih _ (hh.swapped hi hp) (by simpa using hp)) (fun _ t ht => ?_) (fun _ _ h => h)
    exact ht.afterSwap hi hp (by rw [HeapList.siftUp_length, HeapList.swap_length])

theorem wp_smallerAt (hh : HeapHeld s h) {c i : Nat} (hi : i < h.length) {Q : Nat → State → Prop}
    {E : Stop → State → Prop} :
    Cmd.wp (smallerAt h.length c i) Q E s ↔ Q (HeapList.smaller (weightOf s.node) h c i) s := by
  unfold smallerAt HeapList.smaller
  by_cases hc : c < h.length
  · simp only [if_pos hc, Cmd.wp_bind, wp_heapWeight hh hc, wp_heapWeight hh hi, Cmd.wp_pure, weight_lt_iff]
  · simp only [if_neg hc, Cmd.wp_pure]

theorem siftDown_spec (fuel i : Nat) (hh : HeapHeld s h) (hi : i < h.length) :
    Cmd.wp (siftDown h.length fuel i) (fun _ t => HeapTo s (HeapList.siftDown (weightOf s.node) fuel i h) t)
      (fun _ _ => False) s := by
  induction fuel generalizing s h i with
  | zero => exact ⟨s.heap, rfl, hh.held, .refl _ _⟩
  | succ fuel ih =>
    have hs : HeapList.smaller (weightOf s.node) h (2 * i + 1) i < h.length := by
      rcases HeapList.smaller_cases (W := weightOf s.node) (h := h) (2 * i + 1) i with ⟨e, _⟩ | ⟨e, l, _⟩ <;> rw [e] <;> assumption
    simp only [siftDown, HeapList.siftDown, Cmd.wp_ite, Cmd.wp_bind, Cmd.wp_pure, wp_smallerAt hh hi, wp_smallerAt hh hs]
    change (HeapList.smallest _ h i = i → _) ∧ (¬HeapList.smallest _ h i = i → _)
    have hsm := (HeapList.smallest_spec (W := weightOf s.node) (h := h) i).1
    refine ⟨fun e => by rw [if_pos e]; exact ⟨s.heap, rfl, hh.held, .refl _ _⟩, fun e => ?_⟩
    have hl := (hsm.resolve_left e).2.2.1
    rw [if_neg e]
    change Cmd.wp (swapHeap i (HeapList.smallest (weightOf s.node) h i)) _ _ s
    rw [wp_swapHeap hh hi hl]
    have := ih (HeapList.smallest (weightOf s.node) h i) (hh.swapped hi hl) (by simpa using hl)
    rw [HeapList.swap_length] at this
    refine Cmd.wp_mono this (fun _ t ht => ?_) (fun _ _ h => h)
    exact ht.afterSwap hi hl (by rw [HeapList.siftDown_length, HeapList.swap_length])

/-! ### Changing the state of one node -/

/-- NODE with the `st` field of a written node changed. -/
def withSt (s : State) (id : NodeId) (n : Node) (v : BitVec 2) : Memory Node :=
  s.node.store 1 (s.cfg.nodeMax + 1) id.toNat { n with st := v }

theorem wp_setNodeSt {id : NodeId} {n : Node} (hn : s.node.get? id.toNat = some n) (v : BitVec 2) {Q : Unit → State → Prop}
    {E : Stop → State → Prop} : Cmd.wp (setNodeSt id v) Q E s ↔ Q () { s with node := withSt s id n v } := by
  simp only [setNodeSt, Cmd.wp_bind, Cmd.wp_readNode, nodeAt_some hn, Cmd.wp_writeNode]
  exact Iff.rfl

theorem get?_withSt {id : NodeId} {n : Node} {v : BitVec 2} (h1 : 1 ≤ id.toNat) (h2 : id.toNat ≤ s.cfg.nodeMax) (k : Nat) :
    (withSt s id n v).get? k = if k = id.toNat then some { n with st := v } else s.node.get? k := by
  unfold withSt
  rw [Memory.get?_store]
  by_cases e : k = id.toNat
  · rw [if_pos ⟨e, h1, by omega⟩, if_pos e]
  · rw [if_neg (fun hh => e hh.1), if_neg e]

/-- A change of `st` changes no weight. -/
theorem weightOf_withSt {id : NodeId} {n : Node} {v : BitVec 2} (h1 : 1 ≤ id.toNat) (h2 : id.toNat ≤ s.cfg.nodeMax)
    (hn : s.node.get? id.toNat = some n) : weightOf (withSt s id n v) = weightOf s.node := by
  funext x
  unfold weightOf
  rw [get?_withSt h1 h2]
  by_cases e : x.toNat = id.toNat
  · rw [if_pos e, e, hn]
  · rw [if_neg e]

/-! ### PqInsert and PqExtract -/

/-- What PqInsert does to a written node `id` (R110): HEAP becomes the list with `id` inserted, PQ_CNT goes up by one, the node
becomes QUEUED, and nothing else changes. -/
theorem pqInsert_spec {id : NodeId} {n : Node} (hh : HeapHeld s h) (hc : s.pqCnt.toNat = h.length)
    (hlt : h.length < s.cfg.kMax) (h1 : 1 ≤ id.toNat) (h2 : id.toNat ≤ s.cfg.nodeMax)
    (hn : s.node.get? id.toNat = some n) :
    Cmd.wp (pqInsert id) (fun _ t => ∃ m, t = { s with heap := m, pqCnt := s.pqCnt + 1#32, node := withSt s id n stQueued } ∧
        m.holds 0 (HeapList.insert (weightOf s.node) h id) ∧ s.heap.sameFrom m (h.length + 1)) (fun _ _ => False) s := by
  simp only [pqInsert, Cmd.wp_bind, Cmd.wp_csr, Cmd.wp_raiseIf, hc, Cmd.wp_writeHeap, Cmd.wp_update]
  refine ⟨by omega, fun _ => ?_⟩
  rw [wp_setNodeSt (s := { s.storeHeap h.length id with pqCnt := _ }) (n := n) (by simpa using hn)]
  have hw : weightOf (withSt { s.storeHeap h.length id with pqCnt := s.pqCnt + 1#32 } id n stQueued) = weightOf s.node :=
    weightOf_withSt (s := s) h1 h2 hn
  have hh' : HeapHeld { s.storeHeap h.length id with
      pqCnt := s.pqCnt + 1#32, node := withSt { s.storeHeap h.length id with pqCnt := s.pqCnt + 1#32 } id n stQueued } (h ++ [id]) := by
    refine ⟨by simpa using hlt, ?_, fun x hx => ?_⟩
    · have := hh.held.storeNext (lo := 0) (hi := s.cfg.kMax) (a := id) (by omega) (by omega)
      rwa [Nat.zero_add] at this
    · show ∃ k, (withSt s id n stQueued).get? x.toNat = some k
      rw [get?_withSt h1 h2]
      by_cases e : x.toNat = id.toNat
      · rw [if_pos e]; exact ⟨_, rfl⟩
      · rw [if_neg e]
        rcases List.mem_append.mp hx with hx | hx
        · exact hh.nodes x hx
        · exact absurd (by rw [List.mem_singleton.mp hx]) e
  have := siftUp_spec h.length h.length hh' (by simp)
  refine Cmd.wp_mono this (fun _ t ht => ?_) (fun _ _ h => h)
  obtain ⟨m, rfl, hm, hs⟩ := ht
  refine ⟨m, rfl, ?_, ?_⟩
  · rw [hw] at hm; exact hm
  · rw [HeapList.siftUp_length, List.length_append, List.length_singleton] at hs
    exact Memory.sameFrom.trans (m' := s.heap.store 0 s.cfg.kMax h.length id) (Memory.sameFrom_store (Nat.lt_succ_self _)) hs

/-- The refill of the top leaves in HEAP what the list operation leaves, and changes nothing else. -/
theorem refill_spec (hh : HeapHeld s h) (hne : 0 < h.length) :
    Cmd.wp (refill (h.length - 1)) (fun _ t => ∃ m, t = { s with heap := m } ∧
        m.holds 0 (HeapList.extract (weightOf s.node) h) ∧ s.heap.sameFrom m (h.length - 1)) (fun _ _ => False) s := by
  unfold refill HeapList.extract
  by_cases hpos : 0 < h.length - 1
  · have hlen : ((h.take (h.length - 1)).set 0 (h.getD (h.length - 1) 0#24)).length = h.length - 1 := by simp
    rw [if_pos hpos, if_pos (by omega), Cmd.wp_bind, Cmd.wp_readHeap,
      heapAt_some (hh.held.getD 0#24 (k := h.length - 1) (by omega)), Cmd.wp_bind, Cmd.wp_writeHeap]
    have hh' : HeapHeld { s with heap := s.heap.store 0 s.cfg.kMax 0 (h.getD (h.length - 1) 0#24) }
        ((h.take (h.length - 1)).set 0 (h.getD (h.length - 1) 0#24)) := by
      refine ⟨by rw [hlen]; have := hh.fits; simp; omega, ?_, fun x hx => ?_⟩
      · exact (hh.held.take _).storeSet (by simp; omega) (by have := hh.fits; simp; omega)
      · rcases List.mem_or_eq_of_mem_set hx with hx | rfl
        · exact hh.nodes x (List.mem_of_mem_take hx)
        · exact hh.nodes _ (hh.mem (by omega))
    have := siftDown_spec (h.length - 1) 0 hh' (by rw [hlen]; omega)
    rw [hlen] at this
    refine Cmd.wp_mono this (fun _ t ht => ?_) (fun _ _ h => h)
    obtain ⟨m, rfl, hm, hs⟩ := ht
    refine ⟨m, rfl, hm, ?_⟩
    rw [HeapList.siftDown_length, hlen] at hs
    exact .trans (Memory.sameFrom_store hpos) hs
  · rw [if_neg hpos, if_neg (by omega)]
    exact ⟨s.heap, rfl, by simp, .refl _ _⟩

/-- What PqExtract does on a queue that is not empty (R111): it answers the first element, HEAP becomes what is left, PQ_CNT
goes down by one, the node becomes DETACHED, and nothing else changes. -/
theorem pqExtract_spec {n : Node} (hh : HeapHeld s h) (hc : s.pqCnt.toNat = h.length) (hne : 0 < h.length)
    (hn : s.node.get? (h.getD 0 0#24).toNat = some n) :
    Cmd.wp pqExtract (fun id t => id = h.getD 0 0#24 ∧ ∃ m,
        t = { s with heap := m, pqCnt := s.pqCnt - 1#32, node := withSt s (h.getD 0 0#24) n stDetached } ∧
        m.holds 0 (HeapList.extract (weightOf s.node) h) ∧ s.heap.sameFrom m (h.length - 1)) (fun _ _ => False) s := by
  have hdec : (s.pqCnt - 1#32).toNat = h.length - 1 := by
    rw [BitVec.toNat_sub_of_le (by rw [BitVec.le_def]; simp; omega)]
    simp [hc]
  have hh' : HeapHeld { s with pqCnt := s.pqCnt - 1#32 } h := ⟨hh.fits, hh.held, hh.nodes⟩
  rw [pqExtract, Cmd.wp_bind, Cmd.wp_readHeap, heapAt_some (hh.held.getD 0#24 hne), Cmd.wp_bind, Cmd.wp_update, Cmd.wp_bind,
    Cmd.wp_csr, Cmd.wp_bind]
  simp only [hdec]
  refine Cmd.wp_mono (refill_spec hh' hne) (fun _ t ht => ?_) (fun _ _ h => h)
  obtain ⟨m, rfl, hm, hs⟩ := ht
  refine (Cmd.wp_bind _ _).mpr ((wp_setNodeSt (n := n) ?_ _).mpr ?_)
  · exact hn
  · exact ⟨rfl, m, rfl, hm, hs⟩

end Sys2Proof.Machine
end

