-- ==== Sys2Proof/Laws/Builder.lean ====
section
/-! SUPPORT. NODE and HEAP as lists: what allocation, insertion, extraction, LEAVES, COMBINE and BUILD do to them (41_tree_builder.md R130 to R134). -/

namespace Sys2Proof.Machine

/-! ### The node memory and the queue as lists -/

/-- The allocated nodes, id 1 first, and the queue. -/
structure Forest where
  nodes : List Node
  heap : List NodeId

/-- `W(id)` in a list of nodes. -/
def weightIn (nodes : List Node) (id : NodeId) : Nat := ((nodes[id.toNat - 1]?).map (·.w.toNat)).getD 0

/-- `NODE[id].st <- v` in a list of nodes. -/
def setSt (nodes : List Node) (id : NodeId) (v : BitVec 2) : List Node :=
  nodes.modify (id.toNat - 1) fun n => { n with st := v }

/-- PqInsert in lists (R110). -/
def Forest.insert (f : Forest) (id : NodeId) : Forest :=
  { nodes := setSt f.nodes id stQueued, heap := HeapList.insert (weightIn f.nodes) f.heap id }

/-- What PqExtract leaves, in lists (R111). -/
def Forest.extract (f : Forest) : Forest :=
  { nodes := setSt f.nodes (f.heap.getD 0 0#24) stDetached, heap := HeapList.extract (weightIn f.nodes) f.heap }

/-- NodeAlloc in lists (R130). -/
def Forest.alloc (f : Forest) (n : Node) : Forest := { f with nodes := f.nodes ++ [n] }

/-- The id the next allocation answers. -/
def Forest.nextId (f : Forest) : NodeId := BitVec.ofNat 24 (f.nodes.length + 1)

/-- A node as NodeAlloc makes it. -/
def newNode (leaf : Bool) (sym : Symbol) (w : Word) (l r : NodeId) : Node :=
  { st := stDetached, leaf := leaf, sym := sym, w := w, l := l, r := r }

/-- One turn of LEAVES in lists (R132). -/
def Forest.addLeaf (f : Forest) (e : FtEntry) : Forest :=
  (f.alloc (newNode true e.sym e.cnt 0#24 0#24)).insert f.nextId

/-- `W(id)` as the word it is. -/
def wordIn (nodes : List Node) (id : NodeId) : Word := BitVec.ofNat 32 (weightIn nodes id)

/-- COMBINE in lists (R133). -/
def Forest.grow (f : Forest) : Forest :=
  let a := f.heap.getD 0 0#24
  let f1 := f.extract
  let b := f1.heap.getD 0 0#24
  let f2 := f1.extract
  let f3 := f2.alloc (newNode false 0#21 (wordIn f2.nodes a + wordIn f2.nodes b) a b)
  Forest.insert { f3 with nodes := setSt (setSt f3.nodes a stChild) b stChild } f2.nextId

/-- NODE and HEAP hold this forest. -/
structure ForestHeld (s : State) (f : Forest) : Prop where
  cnt : s.nodeCnt.toNat = f.nodes.length
  room : f.nodes.length ≤ s.cfg.nodeMax
  held : s.node.holds 1 f.nodes
  qcnt : s.pqCnt.toNat = f.heap.length
  fits : f.heap.length ≤ s.cfg.kMax
  heap : s.heap.holds 0 f.heap
  ids : ∀ id ∈ f.heap, 1 ≤ id.toNat ∧ id.toNat ≤ f.nodes.length

/-- From `s` to `t` only NODE, NODE_CNT, HEAP and PQ_CNT have changed, they hold the forest, and NODE after the allocated
nodes and HEAP from position `n` on are as before. -/
def ForestTo (s : State) (f : Forest) (n : Nat) (t : State) : Prop :=
  t = { s with node := t.node, nodeCnt := t.nodeCnt, heap := t.heap, pqCnt := t.pqCnt } ∧ ForestHeld t f ∧
    s.node.sameFrom t.node (f.nodes.length + 1) ∧ s.heap.sameFrom t.heap n

variable {s t u : State} {f g : Forest} {n m : Nat}

theorem ForestTo.trans (h1 : ForestTo s f n t) (h2 : ForestTo t g m u) (hn : n ≤ m) (hl : f.nodes.length ≤ g.nodes.length) :
    ForestTo s g m u := by
  obtain ⟨e1, _, p1, q1⟩ := h1
  obtain ⟨e2, k2, p2, q2⟩ := h2
  refine ⟨?_, k2, .trans (p1.mono (by omega)) p2, .trans (q1.mono hn) q2⟩
  rw [e1] at e2
  exact e2

theorem ForestTo.mono (h : ForestTo s f n t) (hn : n ≤ m) : ForestTo s f m t :=
  ⟨h.1, h.2.1, h.2.2.1, h.2.2.2.mono hn⟩

theorem ForestTo.cfg (h : ForestTo s f n t) : t.cfg = s.cfg := by rw [h.1]

@[simp] theorem setSt_length (nodes : List Node) (id : NodeId) (v : BitVec 2) : (setSt nodes id v).length = nodes.length := by
  simp [setSt]

theorem setSt_getElem? (nodes : List Node) (id : NodeId) (v : BitVec 2) (k : Nat) :
    (setSt nodes id v)[k]? = if id.toNat - 1 = k then (nodes[k]?).map (fun n => { n with st := v }) else nodes[k]? := by
  rw [setSt, List.getElem?_modify]
  split
  · rfl
  · simp

/-- A change of `st` changes no weight. -/
@[simp] theorem weightIn_setSt (nodes : List Node) (id : NodeId) (v : BitVec 2) : weightIn (setSt nodes id v) = weightIn nodes := by
  funext x
  unfold weightIn
  rw [setSt_getElem?]
  split
  · cases nodes[x.toNat - 1]? <;> rfl
  · rfl

theorem weightIn_append {nodes l : List Node} {id : NodeId} (h1 : 1 ≤ id.toNat) (h2 : id.toNat ≤ nodes.length) :
    weightIn (nodes ++ l) id = weightIn nodes id := by
  unfold weightIn
  rw [List.getElem?_append_left (by omega)]

/-- The weights of a node memory that holds a list of nodes. -/
theorem weightOf_held {m : Memory Node} {nodes : List Node} (h : m.holds 1 nodes) {id : NodeId} (h1 : 1 ≤ id.toNat)
    (h2 : id.toNat ≤ nodes.length) : weightOf m id = weightIn nodes id := by
  unfold weightOf weightIn
  have e := h (id.toNat - 1) (by omega)
  rw [show 1 + (id.toNat - 1) = id.toNat by omega] at e
  rw [e]
  cases nodes[id.toNat - 1]? <;> rfl

theorem ForestHeld.weight (h : ForestHeld s f) {id : NodeId} (hid : id ∈ f.heap) :
    weightOf s.node id = weightIn f.nodes id := weightOf_held h.held (h.ids id hid).1 (h.ids id hid).2

theorem ForestHeld.node (h : ForestHeld s f) {id : NodeId} (h1 : 1 ≤ id.toNat) (h2 : id.toNat ≤ f.nodes.length) :
    s.node.get? id.toNat = some (f.nodes[id.toNat - 1]'(by omega)) := by
  have e := h.held.get (k := id.toNat - 1) (by omega)
  rwa [show 1 + (id.toNat - 1) = id.toNat by omega] at e

theorem ForestHeld.heapHeld (h : ForestHeld s f) : HeapHeld s f.heap :=
  ⟨h.fits, h.heap, fun id hid => ⟨_, h.node (h.ids id hid).1 (h.ids id hid).2⟩⟩

/-- A changed `st` in the memory is the changed `st` in the list. -/
theorem holds_withSt {nodes : List Node} (h : s.node.holds 1 nodes) (hroom : nodes.length ≤ s.cfg.nodeMax) {id : NodeId}
    (h1 : 1 ≤ id.toNat) (h2 : id.toNat ≤ nodes.length) {x : Node} (hx : s.node.get? id.toNat = some x) (v : BitVec 2) :
    (withSt s id x v).holds 1 (setSt nodes id v) := by
  intro k hk
  rw [setSt_length] at hk
  rw [get?_withSt h1 (by omega), setSt_getElem?]
  have hk' := h k hk
  by_cases e : id.toNat - 1 = k
  · rw [if_pos (by omega), if_pos e, ← hk', show 1 + k = id.toNat by omega, hx]
    rfl
  · rw [if_neg (by omega), if_neg e, hk']

theorem withSt_sameFrom {id : NodeId} {x : Node} {v : BitVec 2} {n : Nat} (h : id.toNat < n) : s.node.sameFrom (withSt s id x v) n :=
  Memory.sameFrom_store h

/-- PqInsert in lists (R110). -/
theorem pqInsert_forest {id : NodeId} (h : ForestHeld s f) (hlt : f.heap.length < s.cfg.kMax) (hk : s.cfg.kMax < 2 ^ 32)
    (h1 : 1 ≤ id.toNat) (h2 : id.toNat ≤ f.nodes.length) :
    Cmd.wp (pqInsert id) (fun _ t => ForestTo s (f.insert id) (f.heap.length + 1) t) (fun _ _ => False) s := by
  have hx := h.node h1 h2
  have hroom := h.room
  refine Cmd.wp_mono (pqInsert_spec h.heapHeld h.qcnt hlt h1 (by omega) hx) (fun _ t ht => ?_) (fun _ _ h => h)
  obtain ⟨m, rfl, hm, hs⟩ := ht
  have hW : HeapList.insert (weightOf s.node) f.heap id = HeapList.insert (weightIn f.nodes) f.heap id := by
    refine HeapList.insert_congr id fun x hx => ?_
    rcases List.mem_append.mp hx with hx | hx
    · exact h.weight hx
    · rw [List.mem_singleton.mp hx]; exact weightOf_held h.held h1 h2
  rw [hW] at hm
  refine ⟨rfl, ⟨?_, ?_, ?_, ?_, ?_, hm, fun x hx => ?_⟩, ?_, hs⟩
  · show s.nodeCnt.toNat = _
    rw [h.cnt, Forest.insert, setSt_length]
  · simpa [Forest.insert] using h.room
  · exact holds_withSt h.held h.room h1 h2 hx _
  · show (s.pqCnt + 1#32).toNat = _
    rw [BitVec.toNat_add, h.qcnt, Forest.insert, HeapList.insert_length]
    simp
    omega
  · rw [Forest.insert, HeapList.insert_length]; exact hlt
  · have hx := (HeapList.insert_perm id).mem_iff.mp hx
    rw [Forest.insert, setSt_length]
    rcases List.mem_cons.mp hx with rfl | hx
    · exact ⟨h1, h2⟩
    · exact h.ids x hx
  · exact withSt_sameFrom (by rw [Forest.insert, setSt_length]; omega)

/-- PqExtract in lists (R111). -/
theorem pqExtract_forest (h : ForestHeld s f) (hne : 0 < f.heap.length) :
    Cmd.wp pqExtract (fun id t => id = f.heap.getD 0 0#24 ∧ ForestTo s f.extract (f.heap.length - 1) t) (fun _ _ => False) s := by
  have hmem : f.heap.getD 0 0#24 ∈ f.heap := HeapList.getD_mem hne
  have hids := h.ids _ hmem
  have hx := h.node hids.1 hids.2
  refine Cmd.wp_mono (pqExtract_spec h.heapHeld h.qcnt hne hx) (fun _ t ht => ?_) (fun _ _ h => h)
  obtain ⟨rfl, m, rfl, hm, hs⟩ := ht
  have hW : HeapList.extract (weightOf s.node) f.heap = HeapList.extract (weightIn f.nodes) f.heap :=
    HeapList.extract_congr fun x hx => h.weight hx
  rw [hW] at hm
  refine ⟨rfl, rfl, ⟨?_, ?_, ?_, ?_, ?_, hm, fun x hx => ?_⟩, ?_, hs⟩
  · show s.nodeCnt.toNat = _
    rw [h.cnt, Forest.extract, setSt_length]
  · simpa [Forest.extract] using h.room
  · exact holds_withSt h.held h.room hids.1 hids.2 hx _
  · show (s.pqCnt - 1#32).toNat = _
    rw [BitVec.toNat_sub_of_le (by rw [BitVec.le_def, h.qcnt]; simp; omega), h.qcnt, Forest.extract,
      HeapList.extract_length hne]
    rfl
  · rw [Forest.extract, HeapList.extract_length hne]
    exact Nat.le_trans (Nat.sub_le ..) h.fits
  · rw [Forest.extract, setSt_length]
    exact h.ids x ((HeapList.extract_perm hne).mem_iff.mpr (List.mem_cons_of_mem _ hx))
  · exact withSt_sameFrom (by rw [Forest.extract, setSt_length]; omega)

/-- The next id, as a number. -/
theorem nextId_toNat (h : f.nodes.length < 2 ^ 24 - 1) : f.nextId.toNat = f.nodes.length + 1 := by
  rw [Forest.nextId, BitVec.toNat_ofNat]
  exact Nat.mod_eq_of_lt (by omega)

theorem nodeMax_lt {c : Config} (hk : c.kMax ≤ 2 ^ 23) : c.nodeMax ≤ 2 ^ 24 - 1 := by
  unfold Config.nodeMax; omega

/-- NodeAlloc in lists (R130). -/
theorem nodeAlloc_forest {leaf : Bool} {sym : Symbol} {w : Word} {l r : NodeId} (h : ForestHeld s f)
    (hroom : f.nodes.length < s.cfg.nodeMax) (hk : s.cfg.kMax ≤ 2 ^ 23) :
    Cmd.wp (nodeAlloc leaf sym w l r)
      (fun id t => id = f.nextId ∧ ForestTo s (f.alloc (newNode leaf sym w l r)) 0 t) (fun _ _ => False) s := by
  have hnm := nodeMax_lt hk
  have hc : (s.nodeCnt + 1#32).toNat = f.nodes.length + 1 := by
    rw [BitVec.toNat_add, h.cnt]; simp; omega
  have hid : (s.nodeCnt + 1#32).setWidth 24 = f.nextId := by
    apply BitVec.eq_of_toNat_eq
    rw [BitVec.toNat_setWidth, hc, nextId_toNat (by omega)]
    exact Nat.mod_eq_of_lt (by omega)
  have hn := nextId_toNat (f := f) (by omega)
  simp only [nodeAlloc, Cmd.wp_bind, Cmd.wp_csr, Cmd.wp_raiseIf, Cmd.wp_update, Cmd.wp_writeNode, Cmd.wp_pure, h.cnt]
  refine ⟨fun e => by omega, fun _ => ⟨hid, rfl, ⟨?_, ?_, ?_, h.qcnt, h.fits, h.heap, fun x hx => ?_⟩, ?_, .refl _ _⟩⟩
  · show (s.nodeCnt + 1#32).toNat = _
    rw [hc]; simp [Forest.alloc]
  · simpa [Forest.alloc] using hroom
  · show (s.node.store 1 (s.cfg.nodeMax + 1) ((s.nodeCnt + 1#32).setWidth 24).toNat _).holds 1 _
    rw [hid, hn, show f.nodes.length + 1 = 1 + f.nodes.length by omega]
    exact h.held.storeNext (by omega) (by omega)
  · have := h.ids x hx
    simp only [Forest.alloc, List.length_append, List.length_singleton]
    omega
  · show s.node.sameFrom (s.node.store 1 (s.cfg.nodeMax + 1) ((s.nodeCnt + 1#32).setWidth 24).toNat _) _
    rw [hid, hn]
    exact Memory.sameFrom_store (by simp [Forest.alloc])

/-- One turn of LEAVES in lists (R132). -/
theorem leafStep_forest {e : FtEntry} {j : Nat} (h : ForestHeld s f) (he : s.ft.get? j = some e)
    (hroom : f.nodes.length < s.cfg.nodeMax) (hlt : f.heap.length < s.cfg.kMax) (hk : s.cfg.kMax ≤ 2 ^ 23) :
    Cmd.wp (leafStep j) (fun _ t => ForestTo s (f.addLeaf e) (f.heap.length + 1) t) (fun _ _ => False) s := by
  have hnm := nodeMax_lt hk
  rw [leafStep, Cmd.wp_bind, Cmd.wp_readFt, ftAt_some he]
  refine Cmd.wp_then (nodeAlloc_forest h hroom hk) (fun id t ht => ?_) (fun _ _ h => h)
  obtain ⟨rfl, ht⟩ := ht
  have hc : t.cfg = s.cfg := ht.cfg
  have hn := nextId_toNat (f := f) (by omega)
  refine Cmd.wp_mono (pqInsert_forest ht.2.1 (by rw [hc]; exact hlt) (by rw [hc]; omega) (by omega)
    (by simp only [Forest.alloc, List.length_append, List.length_singleton]; omega)) (fun _ u hu => ?_) (fun _ _ h => h)
  exact ht.trans hu (by omega) (by simp [Forest.addLeaf, Forest.insert])

/-- LEAVES in lists (R132). -/
def leavesForest (l : List FtEntry) : Forest := l.foldl Forest.addLeaf { nodes := [], heap := [] }

theorem addLeaf_lengths (f : Forest) (e : FtEntry) :
    (f.addLeaf e).nodes.length = f.nodes.length + 1 ∧ (f.addLeaf e).heap.length = f.heap.length + 1 := by
  simp [Forest.addLeaf, Forest.insert, Forest.alloc, HeapList.insert_length]

theorem addLeaves_lengths (l : List FtEntry) (f : Forest) :
    (l.foldl Forest.addLeaf f).nodes.length = f.nodes.length + l.length ∧
      (l.foldl Forest.addLeaf f).heap.length = f.heap.length + l.length := by
  induction l generalizing f with
  | nil => exact ⟨rfl, rfl⟩
  | cons e l ih =>
    have h := ih (f.addLeaf e)
    have h' := addLeaf_lengths f e
    rw [List.foldl_cons, List.length_cons]
    omega

theorem leafLoop_forest {l : List FtEntry} {j : Nat} (h : ForestHeld s f) (hl : s.ft.holds j l)
    (hroom : f.nodes.length + l.length ≤ s.cfg.nodeMax) (hlt : f.heap.length + l.length ≤ s.cfg.kMax) (hk : s.cfg.kMax ≤ 2 ^ 23) :
    Cmd.wp (Cmd.forFrom leafStep l.length j)
      (fun _ t => ForestTo s (l.foldl Forest.addLeaf f) (f.heap.length + l.length) t) (fun _ _ => False) s := by
  induction l generalizing s f j with
  | nil => exact ⟨rfl, h, .refl _ _, .refl _ _⟩
  | cons e l ih =>
    rw [List.length_cons] at hroom hlt ⊢
    rw [Memory.holds_cons] at hl
    have hal := addLeaf_lengths f e
    rw [Cmd.wp_forFrom_succ]
    refine Cmd.wp_mono (leafStep_forest h hl.1 (by omega) (by omega) hk) (fun _ t ht => ?_) (fun _ _ h => h)
    have hft : t.ft = s.ft := by rw [ht.1]
    refine Cmd.wp_mono (ih ht.2.1 (by rw [hft]; exact hl.2) (by rw [ht.cfg]; omega) (by rw [ht.cfg]; omega)
      (by rw [ht.cfg]; exact hk)) (fun _ u hu => ?_) (fun _ _ h => h)
    rw [hal.2, show f.heap.length + 1 + l.length = f.heap.length + (l.length + 1) by omega] at hu
    have hlen := addLeaves_lengths l (f.addLeaf e)
    exact ht.trans hu (by omega) (by rw [List.foldl_cons, hlen.1]; omega)

/-- The state with no tree, no queue and no code table, as LEAVES and PARSE begin. -/
def State.dropped (s : State) : State := { s with nodeCnt := 0#32, pqCnt := 0#32, root := 0#24, ctCnt := 0#32 }

theorem dropped_forest (s : State) : ForestHeld s.dropped { nodes := [], heap := [] } :=
  ⟨rfl, Nat.zero_le _, Memory.holds_nil _ _, rfl, Nat.zero_le _, Memory.holds_nil _ _, by simp⟩

theorem leaves_forest {l : List FtEntry} (hl : s.holdsTable l) (hfit : l.length ≤ s.cfg.kMax) (hk : s.cfg.kMax ≤ 2 ^ 23) :
    Cmd.wp leaves (fun _ t => ForestTo s.dropped (leavesForest l) l.length t) (fun _ _ => False) s := by
  rw [leaves, Cmd.wp_bind, Cmd.wp_update, Cmd.wp_bind, Cmd.wp_csr]
  have := leafLoop_forest (s := s.dropped) (dropped_forest s) hl.2
    (by simp only [List.length_nil, Nat.zero_add]; show l.length ≤ s.cfg.nodeMax; unfold Config.nodeMax; omega)
    (by simp only [List.length_nil, Nat.zero_add]; exact hfit) hk
  simp only [List.length_nil, Nat.zero_add] at this
  rw [show s.ftCnt.toNat = l.length from hl.1]
  exact this

/-! ### COMBINE -/

theorem extract_lengths (h : 0 < f.heap.length) :
    f.extract.nodes.length = f.nodes.length ∧ f.extract.heap.length = f.heap.length - 1 := by
  simp [Forest.extract, HeapList.extract_length h]

theorem grow_lengths (h : 2 ≤ f.heap.length) :
    f.grow.nodes.length = f.nodes.length + 1 ∧ f.grow.heap.length = f.heap.length - 1 := by
  have h1 := extract_lengths (f := f) (by omega)
  have h2 := extract_lengths (f := f.extract) (by omega)
  simp [Forest.grow, Forest.insert, Forest.alloc, HeapList.insert_length]
  omega

theorem toWord_weightIn {nodes : List Node} {id : NodeId} (h1 : 1 ≤ id.toNat) (h2 : id.toNat ≤ nodes.length) :
    (nodes[id.toNat - 1]'(by omega)).w = wordIn nodes id := by
  unfold wordIn weightIn
  rw [List.getElem?_eq_getElem (by omega)]
  simp

/-- A changed `st` of a held node. -/
theorem setNodeSt_forest {id : NodeId} (h : ForestHeld s f) (h1 : 1 ≤ id.toNat) (h2 : id.toNat ≤ f.nodes.length)
    (v : BitVec 2) {n : Nat} :
    Cmd.wp (setNodeSt id v) (fun _ t => ForestTo s { f with nodes := setSt f.nodes id v } n t) (fun _ _ => False) s := by
  have hx := h.node h1 h2
  rw [wp_setNodeSt hx]
  exact ⟨rfl, ⟨by rw [setSt_length]; exact h.cnt, by simpa using h.room, holds_withSt h.held h.room h1 h2 hx v, h.qcnt, h.fits, h.heap,
    fun x hx => by rw [setSt_length]; exact h.ids x hx⟩, withSt_sameFrom (by simp; omega), .refl _ _⟩

/-- COMBINE in lists (R133). -/
theorem combine_forest (h : ForestHeld s f) (h2 : 2 ≤ f.heap.length) (hroom : f.nodes.length < s.cfg.nodeMax)
    (hk : s.cfg.kMax ≤ 2 ^ 23) :
    Cmd.wp combine (fun _ t => ForestTo { s with res := f.nextId.setWidth 32 } f.grow (f.heap.length - 1) t)
      (fun _ _ => False) s := by
  have hnm := nodeMax_lt hk
  have hn := nextId_toNat (f := f) (by omega)
  have l1 := extract_lengths (f := f) (by omega)
  have l2 := extract_lengths (f := f.extract) (by omega)
  have ha := h.ids _ (HeapList.getD_mem (h := f.heap) (i := 0) (by omega))
  rw [combine, Cmd.wp_bind, Cmd.wp_csr, Cmd.wp_bind, Cmd.wp_raiseIf, h.qcnt]
  refine ⟨fun e => by omega, fun _ => ?_⟩
  rw [Cmd.wp_bind, Cmd.wp_csr, Cmd.wp_bind, Cmd.wp_csr, Cmd.wp_bind, Cmd.wp_raiseIf, h.cnt]
  refine ⟨fun e => by omega, fun _ => ?_⟩
  refine Cmd.wp_then (pqExtract_forest h (by omega)) (fun a t ht => ?_) (fun _ _ h => h)
  obtain ⟨rfl, ht⟩ := ht
  have hb := ht.2.1.ids _ (HeapList.getD_mem (h := f.extract.heap) (i := 0) (by omega))
  refine Cmd.wp_then (pqExtract_forest ht.2.1 (by omega)) (fun b u hu => ?_) (fun _ _ h => h)
  obtain ⟨rfl, hu⟩ := hu
  have su := ht.trans (hu.mono (m := f.heap.length - 1) (by omega)) (Nat.le_refl _) (by omega)
  have ha' := su.2.1.node ha.1 (by omega)
  have hb' := su.2.1.node hb.1 (by omega)
  rw [Cmd.wp_bind, Cmd.wp_readNode, nodeAt_some ha', Cmd.wp_bind, Cmd.wp_readNode, nodeAt_some hb', toWord_weightIn ha.1 (by omega), toWord_weightIn hb.1 (by omega)]
  refine Cmd.wp_then (nodeAlloc_forest su.2.1 (by rw [su.cfg]; omega) (by rw [su.cfg]; exact hk)) (fun id v hv => ?_) (fun _ _ h => h)
  obtain ⟨rfl, hv⟩ := hv
  have sv := su.trans (hv.mono (m := f.heap.length - 1) (by omega)) (Nat.le_refl _) (by simp [Forest.alloc])
  have hni : f.extract.extract.nextId = f.nextId := by rw [Forest.nextId, Forest.nextId, l2.1, l1.1]
  refine Cmd.wp_then (setNodeSt_forest (n := f.heap.length - 1) sv.2.1 ha.1 (by simp only [Forest.alloc, List.length_append]; omega) stChild) (fun _ w hw => ?_)
    (fun _ _ h => h)
  have sw := sv.trans hw (Nat.le_refl _) (by simp)
  refine Cmd.wp_then (setNodeSt_forest (n := f.heap.length - 1) sw.2.1 hb.1 (by simp only [Forest.alloc, List.length_append, setSt_length]; omega) stChild) (fun _ x hx => ?_)
    (fun _ _ h => h)
  have sx := sw.trans hx (Nat.le_refl _) (by simp)
  refine Cmd.wp_then (pqInsert_forest (id := f.extract.extract.nextId) sx.2.1 ?_ (by rw [sx.cfg]; omega) (by rw [hni]; omega)
    (by rw [hni, hn]; simp only [Forest.alloc, List.length_append, List.length_singleton, setSt_length]; omega)) (fun _ y hy => ?_) (fun _ _ h => h)
  · rw [sx.cfg]
    show f.extract.extract.heap.length < s.cfg.kMax
    have := h.fits
    omega
  have hl : (f.extract.extract.heap.length + 1) = f.heap.length - 1 := by omega
  have sy := sx.trans (hy.mono (m := f.heap.length - 1) (Nat.le_of_eq hl)) (Nat.le_refl _) (by simp [Forest.insert])
  obtain ⟨e, k1, k2, k3⟩ := sy
  rw [Cmd.wp_update, hni]
  refine ⟨?_, ⟨k1.cnt, k1.room, k1.held, k1.qcnt, k1.fits, k1.heap, k1.ids⟩, k2, k3⟩
  rw [e]

/-- The construction loop in lists (R134). -/
def growAll : Nat → Forest → Forest
  | 0, f => f
  | n + 1, f => if 1 < f.heap.length then growAll n f.grow else f

theorem growAll_lengths (n : Nat) (f : Forest) (hn : f.heap.length ≤ n + 1) (h1 : 1 ≤ f.heap.length) :
    (growAll n f).heap.length = 1 ∧ (growAll n f).nodes.length = f.nodes.length + (f.heap.length - 1) := by
  induction n generalizing f with
  | zero => rw [growAll]; omega
  | succ n ih =>
    rw [growAll]
    split
    · have hg := grow_lengths (f := f) (by omega)
      have := ih f.grow (by omega) (by omega)
      omega
    · omega

/-- The last id the construction loop has answered. -/
theorem combineAll_forest (n : Nat) (h : ForestHeld s f) (h1 : 1 ≤ f.heap.length) (hn : f.heap.length ≤ n + 1)
    (hroom : f.nodes.length + (f.heap.length - 1) ≤ s.cfg.nodeMax) (hk : s.cfg.kMax ≤ 2 ^ 23) :
    Cmd.wp (combineAll n) (fun _ t => ForestTo { s with res := t.res } (growAll n f) f.heap.length t) (fun _ _ => False) s := by
  induction n generalizing s f with
  | zero => exact ⟨rfl, h, .refl _ _, .refl _ _⟩
  | succ n ih =>
    rw [combineAll, growAll, Cmd.wp_bind, Cmd.wp_csr, h.qcnt, Cmd.wp_ite]
    refine ⟨fun hc => ?_, fun hc => ?_⟩
    · rw [if_pos hc]
      have hg := grow_lengths (f := f) (by omega)
      refine Cmd.wp_then (combine_forest h (by omega) (by omega) hk) (fun _ t ht => ?_) (fun _ _ h => h)
      refine Cmd.wp_mono (ih ht.2.1 (by omega) (by omega) (by rw [ht.cfg]; show _ ≤ s.cfg.nodeMax; omega) (by rw [ht.cfg]; exact hk))
        (fun _ u hu => ?_) (fun _ _ h => h)
      have hl := growAll_lengths n f.grow (by omega) (by omega)
      have ht' : ForestTo { s with res := u.res } f.grow (f.heap.length - 1) { t with res := u.res } := by
        obtain ⟨e, k, p, q⟩ := ht
        refine ⟨?_, ⟨k.cnt, k.room, k.held, k.qcnt, k.fits, k.heap, k.ids⟩, p, q⟩
        rw [e]
      exact ht'.trans (hu.mono (m := f.heap.length) (by omega)) (by omega) (by omega)
    · rw [if_neg hc]
      exact ⟨rfl, h, .refl _ _, .refl _ _⟩

/-- BUILD in lists, before the root is taken from the queue (R134). -/
def grownForest (l : List FtEntry) : Forest := growAll l.length (leavesForest l)

/-- BUILD in lists (R134). -/
def builtForest (l : List FtEntry) : Forest := (grownForest l).extract

theorem leavesForest_lengths (l : List FtEntry) :
    (leavesForest l).nodes.length = l.length ∧ (leavesForest l).heap.length = l.length := by
  have := addLeaves_lengths l { nodes := [], heap := [] }
  simpa [leavesForest] using this

theorem grownForest_lengths {l : List FtEntry} (hl : l ≠ []) :
    (grownForest l).heap.length = 1 ∧ (grownForest l).nodes.length = 2 * l.length - 1 := by
  have h := leavesForest_lengths l
  have hpos := List.length_pos_of_ne_nil hl
  have := growAll_lengths l.length (leavesForest l) (by omega) (by omega)
  unfold grownForest
  omega

/-- The root BUILD answers. -/
def builtRoot (l : List FtEntry) : NodeId := (grownForest l).heap.getD 0 0#24

/-- BUILD in lists (R134). -/
theorem build_forest {l : List FtEntry} (hl : s.holdsTable l) (hne : l ≠ []) (hfit : l.length ≤ s.cfg.kMax)
    (hk : s.cfg.kMax ≤ 2 ^ 23) :
    Cmd.wp build (fun _ t => ForestTo { s.dropped with root := builtRoot l, res := (builtRoot l).setWidth 32 } (builtForest l) l.length t)
      (fun _ _ => False) s := by
  have hpos := List.length_pos_of_ne_nil hne
  have hll := leavesForest_lengths l
  have hgl := grownForest_lengths hne
  rw [build, Cmd.wp_bind, Cmd.wp_csr, Cmd.wp_bind, Cmd.wp_raiseIf, hl.1]
  refine ⟨fun e => by omega, fun _ => ?_⟩
  refine Cmd.wp_then (leaves_forest hl hfit hk) (fun _ t ht => ?_) (fun _ _ h => h)
  have htc : t.cfg = s.cfg := ht.cfg
  rw [Cmd.wp_bind, Cmd.wp_csr, ht.2.1.qcnt, hll.2]
  refine Cmd.wp_then (combineAll_forest l.length ht.2.1 (by omega) (by omega) ?_ (by rw [htc]; exact hk)) (fun _ u hu => ?_) (fun _ _ h => h)
  · rw [htc]
    unfold Config.nodeMax
    omega
  have hu' : ForestTo { s.dropped with res := u.res } (grownForest l) l.length u := by
    have ht' : ForestTo { s.dropped with res := u.res } (leavesForest l) l.length { t with res := u.res } := by
      obtain ⟨e, k, p, q⟩ := ht
      refine ⟨?_, ⟨k.cnt, k.room, k.held, k.qcnt, k.fits, k.heap, k.ids⟩, p, q⟩
      rw [e]
    rw [hll.2] at hu
    exact ht'.trans hu (Nat.le_refl _) (by show _ ≤ (grownForest l).nodes.length; omega)
  refine Cmd.wp_then (pqExtract_forest hu'.2.1 (by omega)) (fun r v hv => ?_) (fun _ _ h => h)
  obtain ⟨rfl, hv⟩ := hv
  rw [Cmd.wp_update]
  have := hu'.trans (hv.mono (m := l.length) (by omega)) (Nat.le_refl _) (by simp [Forest.extract])
  obtain ⟨e, k, p, q⟩ := this
  refine ⟨?_, ⟨k.cnt, k.room, k.held, k.qcnt, k.fits, k.heap, k.ids⟩, p, q⟩
  rw [e]
  rfl

end Sys2Proof.Machine
end

