-- ==== Sys2Proof/Laws/Freq.lean ====
section
/-! SUPPORT. The frequency counter turns a text into its frequency table (41_tree_builder.md R131; 10_state.md R46). -/

namespace Sys2Proof.Machine

variable {s t : State}

/-! ### Scans -/

/-- A scan whose test answers `f` without changing the state answers the first index that meets `f`. -/
theorem Cmd.wp_findFrom {test : Nat → Cmd Bool} {f : Nat → Bool} {E : Stop → State → Prop} (n a : Nat)
    (h : ∀ i, a ≤ i → i < a + n → ∀ Q : Bool → State → Prop, Cmd.wp (test i) Q E s ↔ Q (f i) s)
    {Q : Option Nat → State → Prop} : Cmd.wp (Cmd.findFrom test n a) Q E s ↔ Q ((List.range' a n).find? f) s := by
  induction n generalizing a with
  | zero => rfl
  | succ n ih =>
    rw [Cmd.findFrom, Cmd.wp_bind, h a (by omega) (by omega), List.range'_succ]
    cases hf : f a with
    | true => rw [List.find?_cons_of_pos hf]; simp
    | false => rw [List.find?_cons_of_neg (by simp [hf])]; simpa using ih (a + 1) fun i h1 h2 => h i (by omega) (by omega)

/-- The first index of a list whose element meets a test. -/
theorem find?_range' {α : Type} (l : List α) (d : α) (p : α → Bool) :
    (List.range' 0 l.length).find? (fun j => p (l.getD j d)) = l.findIdx? p := by
  have : ∀ a : Nat, (List.range' a l.length).find? (fun j => p (l.getD (j - a) d)) = (l.findIdx? p).map (· + a) := by
    intro a
    induction l generalizing a with
    | nil => rfl
    | cons x l ih =>
      rw [List.length_cons, List.range'_succ, List.findIdx?_cons]
      by_cases hx : p x = true
      · rw [List.find?_cons_of_pos (by simpa using hx), if_pos hx]; simp
      · rw [List.find?_cons_of_neg (by simpa using hx), if_neg hx]
        have e : ∀ j ∈ List.range' (a + 1) l.length, p ((x :: l).getD (j - a) d) = p (l.getD (j - (a + 1)) d) := by
          intro j hj
          have := List.mem_range'_1.mp hj
          rw [show j - a = (j - (a + 1)) + 1 by omega, List.getD_cons_succ]
        rw [List.find?_congr e, ih]
        cases List.findIdx? p l <;> simp; omega
  simpa using this 0

/-! ### Texts and their tables -/

theorem mem_firstSeen {txt : List Symbol} {x : Symbol} : x ∈ firstSeen txt ↔ x ∈ txt := by
  induction txt with
  | nil => rfl
  | cons y txt ih =>
    simp only [firstSeen, List.mem_cons, List.mem_filter, ih, decide_eq_true_eq]
    by_cases h : x = y <;> simp [h]

theorem nodup_firstSeen (txt : List Symbol) : (firstSeen txt).Nodup := by
  induction txt with
  | nil => exact List.nodup_nil
  | cons y txt ih => exact List.nodup_cons.mpr ⟨by simp, ih.filter _⟩

theorem firstSeen_snoc (txt : List Symbol) (x : Symbol) :
    firstSeen (txt ++ [x]) = if x ∈ txt then firstSeen txt else firstSeen txt ++ [x] := by
  induction txt with
  | nil => rfl
  | cons y txt ih =>
    rw [List.cons_append]
    simp only [firstSeen, ih, List.mem_cons]
    by_cases hx : x ∈ txt
    · simp [hx]
    · by_cases hy : x = y
      · subst hy; simp [hx]
      · simp [hx, hy]

@[simp] theorem freqTable_length (txt : List Symbol) : (freqTable txt).length = (firstSeen txt).length := by simp [freqTable]

theorem firstSeen_length_snoc (txt : List Symbol) (x : Symbol) : (firstSeen txt).length ≤ (firstSeen (txt ++ [x])).length := by
  rw [firstSeen_snoc]
  split
  · exact Nat.le_refl _
  · simp

theorem firstSeen_length_append (txt rest : List Symbol) :
    (firstSeen txt).length ≤ (firstSeen (txt ++ rest)).length := by
  induction rest generalizing txt with
  | nil => simp
  | cons x rest ih =>
    have := ih (txt ++ [x])
    rw [List.append_assoc, List.singleton_append] at this
    exact Nat.le_trans (firstSeen_length_snoc txt x) this

/-- The table with one more occurrence of a symbol it has. -/
theorem freqTable_snoc_mem {txt : List Symbol} {x : Symbol} {j : Nat} (hj : (firstSeen txt)[j]? = some x) :
    freqTable (txt ++ [x]) = (freqTable txt).set j { sym := x, cnt := BitVec.ofNat 32 (txt.count x) + 1#32 } := by
  have hmem : x ∈ txt := mem_firstSeen.mp (List.mem_of_getElem? hj)
  obtain ⟨hlt, hx⟩ := List.getElem?_eq_some_iff.mp hj
  refine List.ext_getElem (by simp [firstSeen_snoc, hmem]) fun k hk hk' => ?_
  simp only [freqTable, List.length_map, firstSeen_snoc, if_pos hmem] at hk
  rw [List.getElem_set]
  simp only [freqTable, List.getElem_map, firstSeen_snoc, if_pos hmem, List.count_append, List.count_singleton]
  by_cases e : j = k
  · subst e
    rw [if_pos rfl, hx]
    simp [BitVec.ofNat_add]
  · rw [if_neg e]
    have : x ≠ (firstSeen txt)[k] := by
      intro he
      rw [← hx] at he
      exact e ((nodup_firstSeen txt).getElem_inj_iff.mp he)
    simp [this]

/-- The table with the first occurrence of a symbol. -/
theorem freqTable_snoc_new {txt : List Symbol} {x : Symbol} (hx : x ∉ txt) :
    freqTable (txt ++ [x]) = freqTable txt ++ [{ sym := x, cnt := 1#32 }] := by
  simp only [freqTable, firstSeen_snoc, if_neg hx, List.map_append, List.map_cons, List.map_nil]
  congr 1
  · refine List.map_congr_left fun y hy => ?_
    have : x ≠ y := fun e => hx (e ▸ mem_firstSeen.mp hy)
    simp [List.count_append, this]
  · simp [List.count_append, List.count_eq_zero_of_not_mem hx]

/-- Where a table has a symbol. -/
theorem freqTable_findIdx? (txt : List Symbol) (x : Symbol) :
    (freqTable txt).findIdx? (fun e => decide (e.sym.setWidth 32 = x.setWidth 32)) = (firstSeen txt).findIdx? (fun y => decide (y = x)) := by
  simp only [freqTable, List.findIdx?_map]
  congr 1
  funext y
  simp only [Function.comp]
  congr 1
  refine propext ⟨fun h => ?_, fun h => by rw [h]⟩
  have := congrArg (BitVec.setWidth 21) h
  simpa using this

/-! ### The scan of FREQ -/

/-- From `s` to `t` only FT and FT_CNT have changed, FT holds this table, and its entries from the table's end on are as
before. -/
def TableTo (s : State) (l : List FtEntry) (t : State) : Prop :=
  t = { s with ft := t.ft, ftCnt := t.ftCnt } ∧ t.holdsTable l ∧ s.ft.sameFrom t.ft l.length

theorem TableTo.trans {u : State} {l l' : List FtEntry} (h1 : TableTo s l t) (h2 : TableTo t l' u)
    (hl : l.length ≤ l'.length) : TableTo s l' u := by
  obtain ⟨e1, _, p1⟩ := h1
  obtain ⟨e2, k2, p2⟩ := h2
  refine ⟨?_, k2, .trans (p1.mono hl) p2⟩
  rw [e1] at e2
  exact e2

theorem TableTo.cfg {l : List FtEntry} (h : TableTo s l t) : t.cfg = s.cfg := by rw [h.1]
theorem TableTo.text {l : List FtEntry} (h : TableTo s l t) : t.text = s.text := by rw [h.1]

/-- The scan of the table for a text word. -/
theorem wp_findFt {l : List FtEntry} (h : s.holdsTable l) (v : Word) {Q : Option Nat → State → Prop} {E : Stop → State → Prop} :
    Cmd.wp (Cmd.findFrom (fun j => do
      let e ← readFt j
      pure (decide (e.sym.setWidth 32 = v))) l.length 0) Q E s ↔
      Q (l.findIdx? fun e => decide (e.sym.setWidth 32 = v)) s := by
  rw [Cmd.wp_findFrom (f := fun j => decide ((l.getD j { sym := 0#21, cnt := 0#32 }).sym.setWidth 32 = v))]
  · rw [find?_range' l { sym := 0#21, cnt := 0#32 } fun e => decide (e.sym.setWidth 32 = v)]
  · intro i _ hi Q
    rw [Cmd.wp_bind, Cmd.wp_readFt, ftAt_some (h.2.getD { sym := 0#21, cnt := 0#32 } (by omega)), Cmd.wp_pure]

/-- One legal symbol read and counted, when the table has room for it (R131). -/
theorem freqStep_read {pre : List Symbol} {x : Symbol} {i : Nat} {r : State} (ht : textAt i r = (x.setWidth 32, s))
    (h : s.holdsTable (freqTable pre)) (hx : x.toNat ≤ symMax) (hfit : (firstSeen (pre ++ [x])).length ≤ s.cfg.kMax)
    (hk : s.cfg.kMax < 2 ^ 32) :
    Cmd.wp (freqStep i) (fun _ t => TableTo s (freqTable (pre ++ [x])) t) (fun _ _ => False) r := by
  have hv : (x.setWidth 32).toNat = x.toNat := by
    rw [BitVec.toNat_setWidth]; exact Nat.mod_eq_of_lt (by have := x.isLt; omega)
  rw [freqStep, Cmd.wp_bind, Cmd.wp_readText, ht, Cmd.wp_bind, Cmd.wp_raiseIf]
  refine ⟨fun hb => by rw [hv] at hb; omega, fun _ => ?_⟩
  rw [Cmd.wp_bind, Cmd.wp_csr, h.1, Cmd.wp_bind, wp_findFt h, freqTable_findIdx?]
  cases hf : (firstSeen pre).findIdx? (fun y => decide (y = x)) with
  | some j =>
    obtain ⟨hj, hjx, _⟩ := List.findIdx?_eq_some_iff_getElem.mp hf
    have hjx : (firstSeen pre)[j] = x := by simpa using hjx
    have hj? : (firstSeen pre)[j]? = some x := by rw [List.getElem?_eq_getElem hj, hjx]
    have he : s.ft.get? j = some { sym := x, cnt := BitVec.ofNat 32 (pre.count x) } := by
      rw [h.2.getZero (by simpa using hj)]
      simp [freqTable, hjx]
    have hmem : x ∈ pre := mem_firstSeen.mp (List.mem_of_getElem? hj?)
    rw [firstSeen_snoc, if_pos hmem] at hfit
    simp only [Cmd.wp_bind, Cmd.wp_readFt, ftAt_some he, Cmd.wp_writeFt]
    refine ⟨rfl, ⟨?_, ?_⟩, ?_⟩
    · show s.ftCnt.toNat = _
      rw [h.1, freqTable_snoc_mem hj?, List.length_set]
    · rw [freqTable_snoc_mem hj?]
      exact h.2.storeSet (by simpa using hj) (by simpa using hfit)
    · exact Memory.sameFrom_store (by rw [freqTable_snoc_mem hj?, List.length_set]; simpa using hj)
  | none =>
    have hnot : x ∉ pre := by
      intro hmem
      have := List.findIdx?_eq_none_iff.mp hf x (mem_firstSeen.mpr hmem)
      simp at this
    rw [firstSeen_snoc, if_neg hnot] at hfit
    have hfit : (firstSeen pre).length < s.cfg.kMax := by simpa using hfit
    simp only [Cmd.wp_bind, Cmd.wp_csr, Cmd.wp_raiseIf, Cmd.wp_writeFt, Cmd.wp_update, freqTable_length]
    refine ⟨fun e => by omega, fun _ => ⟨rfl, ⟨?_, ?_⟩, ?_⟩⟩
    · show (s.ftCnt + 1#32).toNat = _
      rw [freqTable_snoc_new hnot, List.length_append, BitVec.toNat_add, h.1]
      simp
      omega
    · rw [freqTable_snoc_new hnot]
      have := h.2.storeNext (lo := 0) (hi := s.cfg.kMax) (a := { sym := x, cnt := 1#32 }) (by omega) (by simpa using hfit)
      rw [Nat.zero_add, freqTable_length] at this
      have e : (x.setWidth 32).setWidth 21 = x := by simp
      simpa [State.storeFt, e] using this
    · exact Memory.sameFrom_store (by rw [freqTable_snoc_new hnot, List.length_append]; simp)

/-- One legal symbol of the text counted, when the table has room for it (R131). -/
theorem freqStep_ok {pre : List Symbol} {x : Symbol} {i : Nat} (h : s.holdsTable (freqTable pre))
    (ht : s.text.get? i = some (x.setWidth 32)) (hx : x.toNat ≤ symMax) (hfit : (firstSeen (pre ++ [x])).length ≤ s.cfg.kMax)
    (hk : s.cfg.kMax < 2 ^ 32) :
    Cmd.wp (freqStep i) (fun _ t => TableTo s (freqTable (pre ++ [x])) t) (fun _ _ => False) s :=
  freqStep_read (textAt_some ht) h hx hfit hk

/-- A word above SYM_MAX (R131). -/
theorem freqStep_badSymbol {v : Word} {i : Nat} (ht : s.text.get? i = some v) (hv : symMax < v.toNat) {Q : Unit → State → Prop} :
    Cmd.wp (freqStep i) Q (fun e t => e = .raise .badSymbol i ∧ t = s) s := by
  rw [freqStep, Cmd.wp_bind, Cmd.wp_readText, textAt_some ht, Cmd.wp_bind, Cmd.wp_raiseIf]
  exact ⟨fun _ => ⟨rfl, rfl⟩, fun h => absurd hv h⟩

/-- A new symbol read when the table is full (R131). -/
theorem freqStep_readFull {pre : List Symbol} {x : Symbol} {i : Nat} {r : State} (ht : textAt i r = (x.setWidth 32, s))
    (h : s.holdsTable (freqTable pre)) (hx : x.toNat ≤ symMax) (hnew : x ∉ pre)
    (hfull : (firstSeen pre).length = s.cfg.kMax) {Q : Unit → State → Prop} :
    Cmd.wp (freqStep i) Q (fun e t => e = .raise .capacity 3 ∧ t = s) r := by
  have hv : (x.setWidth 32).toNat = x.toNat := by
    rw [BitVec.toNat_setWidth]; exact Nat.mod_eq_of_lt (by have := x.isLt; omega)
  rw [freqStep, Cmd.wp_bind, Cmd.wp_readText, ht, Cmd.wp_bind, Cmd.wp_raiseIf]
  refine ⟨fun hb => by rw [hv] at hb; omega, fun _ => ?_⟩
  have hf : (firstSeen pre).findIdx? (fun y => decide (y = x)) = none := by
    rw [List.findIdx?_eq_none_iff]
    intro y hy
    have : y ≠ x := fun e => hnew (e ▸ mem_firstSeen.mp hy)
    simpa using this
  rw [Cmd.wp_bind, Cmd.wp_csr, h.1, Cmd.wp_bind, wp_findFt h, freqTable_findIdx?, hf]
  simp only [Cmd.wp_bind, Cmd.wp_csr, Cmd.wp_raiseIf, freqTable_length]
  exact ⟨fun _ => ⟨trivial, trivial⟩, fun e => absurd hfull e⟩

/-- A new symbol of the text when the table is full (R131). -/
theorem freqStep_full {pre : List Symbol} {x : Symbol} {i : Nat} (h : s.holdsTable (freqTable pre))
    (ht : s.text.get? i = some (x.setWidth 32)) (hx : x.toNat ≤ symMax) (hnew : x ∉ pre)
    (hfull : (firstSeen pre).length = s.cfg.kMax) {Q : Unit → State → Prop} :
    Cmd.wp (freqStep i) Q (fun e t => e = .raise .capacity 3 ∧ t = s) s :=
  freqStep_readFull (textAt_some ht) h hx hnew hfull

/-- The loop over the first turns and then the rest. -/
theorem Cmd.wp_forFrom_add (body : Nat → Cmd Unit) (m n a : Nat) {Q : Unit → State → Prop} {E : Stop → State → Prop} :
    Cmd.wp (Cmd.forFrom body (m + n) a) Q E s ↔
      Cmd.wp (Cmd.forFrom body m a) (fun _ => Cmd.wp (Cmd.forFrom body n (a + m)) Q E) E s := by
  induction m generalizing a s with
  | zero => rw [Nat.zero_add]; rfl
  | succ m ih =>
    rw [show m + 1 + n = (m + n) + 1 by omega, Cmd.wp_forFrom_succ, Cmd.wp_forFrom_succ]
    rw [show a + (m + 1) = a + 1 + m by omega]
    unfold Cmd.wp
    cases body a s with
    | ok _ t => exact ih (a + 1)
    | error e t => exact Iff.rfl

/-- The scan of a text of legal symbols whose table fits (R131). -/
theorem freqLoop_ok {pre txt : List Symbol} {i : Nat} (h : s.holdsTable (freqTable pre))
    (ht : s.text.holds i (txt.map (·.setWidth 32))) (hx : ∀ x ∈ txt, x.toNat ≤ symMax)
    (hfit : (firstSeen (pre ++ txt)).length ≤ s.cfg.kMax) (hk : s.cfg.kMax < 2 ^ 32) :
    Cmd.wp (Cmd.forFrom freqStep txt.length i) (fun _ t => TableTo s (freqTable (pre ++ txt)) t) (fun _ _ => False) s := by
  induction txt generalizing s pre i with
  | nil => rw [List.append_nil]; exact ⟨rfl, h, .refl _ _⟩
  | cons x txt ih =>
    rw [List.length_cons, Cmd.wp_forFrom_succ]
    rw [List.map_cons, Memory.holds_cons] at ht
    have e : pre ++ x :: txt = (pre ++ [x]) ++ txt := by simp
    have hmono := firstSeen_length_append (pre ++ [x]) txt
    rw [e] at hfit ⊢
    refine Cmd.wp_mono (freqStep_ok h ht.1 (hx x (List.mem_cons_self ..)) (by omega) hk) (fun _ t h1 => ?_) (fun _ _ h => h)
    refine Cmd.wp_mono (ih h1.2.1 (by rw [h1.text]; exact ht.2) (fun y hy => hx y (List.mem_cons_of_mem _ hy))
      (by rw [h1.cfg]; exact hfit) (by rw [h1.cfg]; exact hk)) (fun _ u h2 => ?_) (fun _ _ h => h)
    exact h1.trans h2 (by simpa using hmono)

/-- FREQ on a text (R131). -/
theorem freq_ok {txt : List Symbol} (ht : s.holdsText txt) (hfit : (firstSeen txt).length ≤ s.cfg.kMax)
    (hk : s.cfg.kMax < 2 ^ 32) :
    Cmd.wp freq (fun _ t => TableTo s (freqTable txt) t) (fun _ _ => False) s := by
  obtain ⟨hl, hn, hh, hx⟩ := ht
  simp only [freq, Cmd.wp_bind, Cmd.wp_csr, Cmd.wp_raiseIf, Cmd.wp_update, hl]
  refine ⟨fun h => by omega, fun _ => ?_⟩
  exact freqLoop_ok (s := { s with ftCnt := 0#32 }) (pre := []) ⟨rfl, Memory.holds_nil _ _⟩ hh hx hfit hk

/-- FREQ on a text whose first symbols are legal and fit, up to a step that stops: the scan stops there (R131). -/
theorem freq_stop {pre : List Symbol} {code : FaultCode} {info : Nat} (hlen : pre.length < s.textLen.toNat)
    (hn : s.textLen.toNat ≤ s.cfg.nMax) (hh : s.text.holds 0 (pre.map (·.setWidth 32))) (hx : ∀ x ∈ pre, x.toNat ≤ symMax)
    (hfit : (firstSeen pre).length ≤ s.cfg.kMax) (hk : s.cfg.kMax < 2 ^ 32)
    (hstop : ∀ t, TableTo s (freqTable pre) t →
      Cmd.wp (freqStep pre.length) (fun _ _ => False) (fun e u => e = .raise code info ∧ u = t) t) :
    Cmd.wp freq (fun _ _ => False) (fun e t => e = .raise code info ∧ TableTo s (freqTable pre) t) s := by
  simp only [freq, Cmd.wp_bind, Cmd.wp_csr, Cmd.wp_raiseIf, Cmd.wp_update]
  refine ⟨fun h => by omega, fun _ => ?_⟩
  rw [show s.textLen.toNat = pre.length + ((s.textLen.toNat - pre.length - 1) + 1) by omega, Cmd.wp_forFrom_add, Nat.zero_add]
  refine Cmd.wp_mono (freqLoop_ok (s := { s with ftCnt := 0#32 }) (pre := []) ⟨rfl, Memory.holds_nil _ _⟩ hh hx hfit hk)
    (fun _ t ht => ?_) (fun _ _ h => h.elim)
  have ht : TableTo s (freqTable pre) t := ht
  rw [Cmd.wp_forFrom_succ]
  refine Cmd.wp_mono (hstop t ht) (fun _ _ h => h.elim) (fun e u hu => ?_)
  obtain ⟨rfl, rfl⟩ := hu
  exact ⟨rfl, ht⟩

/-! ### FREQ on any text, written or not (10_state.md R54; log 2) -/

/-- The text is one that reads of the elements from `i` on may give: what is written is in it. -/
def State.readsAs (s : State) (i : Nat) (txt : List Symbol) : Prop :=
  (∀ x ∈ txt, x.toNat ≤ symMax) ∧ ∀ k x v, txt[k]? = some x → s.text.get? (i + k) = some v → v = x.setWidth 32

/-- From `s` to `t` only FT, FT_CNT and the number of free values have changed. -/
def TableOnly (s t : State) : Prop := t = { s with ft := t.ft, ftCnt := t.ftCnt, draws := t.draws }

theorem TableOnly.trans {u : State} (h1 : TableOnly s t) (h2 : TableOnly t u) : TableOnly s u := by
  unfold TableOnly at *
  rw [h1] at h2
  exact h2

theorem TableOnly.cfg (h : TableOnly s t) : t.cfg = s.cfg := by rw [h]
theorem TableOnly.text (h : TableOnly s t) : t.text = s.text := by rw [h]

/-- One turn of FREQ: a legal symbol counted, or one of the two faults of the scan (R131). -/
theorem freqStep_any {pre : List Symbol} {i : Nat} (h : s.holdsTable (freqTable pre)) (hpre : (firstSeen pre).length ≤ s.cfg.kMax)
    (hk : s.cfg.kMax < 2 ^ 32) :
    Cmd.wp (freqStep i)
      (fun _ t => ∃ x : Symbol, x.toNat ≤ symMax ∧ (∀ v, s.text.get? i = some v → v = x.setWidth 32) ∧
        (firstSeen (pre ++ [x])).length ≤ s.cfg.kMax ∧ TableOnly s t ∧ t.holdsTable (freqTable (pre ++ [x])))
      (fun e _ => e = .raise .badSymbol i ∨ e = .raise .capacity 3) s := by
  obtain ⟨v, u, hr, hu, hv⟩ : ∃ v u, textAt i s = (v, u) ∧ u = { s with draws := u.draws } ∧ ∀ w, s.text.get? i = some w → w = v := by
    refine ⟨(textAt i s).1, (textAt i s).2, rfl, readElem_state _ _ _ _, fun w hw => ?_⟩
    rw [textAt_some hw]
  have uc : u.cfg = s.cfg := by rw [hu]
  have ut : u.holdsTable (freqTable pre) := by rw [hu]; exact h
  by_cases hbad : symMax < v.toNat
  · rw [freqStep, Cmd.wp_bind, Cmd.wp_readText, hr, Cmd.wp_bind, Cmd.wp_raiseIf]
    exact ⟨fun _ => .inl rfl, fun e => absurd hbad e⟩
  have hx : (v.setWidth 21).setWidth 32 = v := by
    apply BitVec.eq_of_toNat_eq
    rw [BitVec.toNat_setWidth, BitVec.toNat_setWidth]
    unfold symMax at hbad
    omega
  have hleg : (v.setWidth 21).toNat ≤ symMax := by
    rw [BitVec.toNat_setWidth]
    exact Nat.le_trans (Nat.mod_le _ _) (Nat.le_of_not_lt hbad)
  rw [← hx] at hr
  by_cases hfit : (firstSeen (pre ++ [v.setWidth 21])).length ≤ s.cfg.kMax
  · refine Cmd.wp_mono (freqStep_read hr ut hleg (by rw [uc]; exact hfit) (by rw [uc]; exact hk)) (fun _ t ht => ?_) (fun _ _ h => h.elim)
    refine ⟨_, hleg, fun w hw => by rw [hx]; exact hv w hw, hfit, ?_, ht.2.1⟩
    have := ht.1
    rw [hu] at this
    unfold TableOnly
    rw [this]
  · have hnew : v.setWidth 21 ∉ pre := fun hmem => hfit (by rw [firstSeen_snoc, if_pos hmem]; exact hpre)
    rw [firstSeen_snoc, if_neg hnew, List.length_append, List.length_singleton] at hfit
    exact Cmd.wp_mono (freqStep_readFull (Q := fun _ _ => False) hr ut hleg hnew (by rw [uc]; omega)) (fun _ _ h => h.elim)
      (fun e t he => .inr he.1)

/-- The scan of FREQ over any `n` elements (R131). -/
theorem freqLoop_any {pre : List Symbol} (n : Nat) {i : Nat} (h : s.holdsTable (freqTable pre)) (hpre : (firstSeen pre).length ≤ s.cfg.kMax)
    (hk : s.cfg.kMax < 2 ^ 32) :
    Cmd.wp (Cmd.forFrom freqStep n i)
      (fun _ t => ∃ txt : List Symbol, txt.length = n ∧ s.readsAs i txt ∧ (firstSeen (pre ++ txt)).length ≤ s.cfg.kMax ∧ TableOnly s t ∧
        t.holdsTable (freqTable (pre ++ txt)))
      (fun e _ => (∃ k, e = .raise .badSymbol k) ∨ e = .raise .capacity 3) s := by
  induction n generalizing s pre i with
  | zero =>
    exact ⟨[], rfl, ⟨by simp, fun k x v hx => by simp at hx⟩, by rw [List.append_nil]; exact hpre, rfl, by rw [List.append_nil]; exact h⟩
  | succ n ih =>
    rw [Cmd.wp_forFrom_succ]
    refine Cmd.wp_mono (freqStep_any h hpre hk) (fun _ t ht => ?_) (fun e _ he => he.imp (fun e => ⟨i, e⟩) id)
    obtain ⟨x, hx, hv, hfit, ho, ht⟩ := ht
    refine Cmd.wp_mono (ih ht (by rw [ho.cfg]; exact hfit) (by rw [ho.cfg]; exact hk)) (fun _ u hu => ?_) (fun _ _ h => h)
    obtain ⟨txt, hlen, ⟨h1, h2⟩, hfit, ho', hu⟩ := hu
    rw [ho.cfg, List.append_assoc] at hfit
    rw [List.append_assoc] at hu
    refine ⟨x :: txt, by rw [List.length_cons, hlen], ⟨fun y hy => ?_, fun k y v hy hg => ?_⟩, hfit, ho.trans ho', hu⟩
    · rcases List.mem_cons.mp hy with rfl | hy
      · exact hx
      · exact h1 y hy
    · cases k with
      | zero =>
        obtain rfl : x = y := by simpa using hy
        exact hv v hg
      | succ k =>
        refine h2 k y v (by simpa using hy) ?_
        rw [ho.text, show i + 1 + k = i + (k + 1) by omega]
        exact hg

/-- FREQ on any text (R131): the table of a text that the reads may have given, or a fault of the scan. -/
theorem freq_any (hk : s.cfg.kMax < 2 ^ 32) (hn : s.textLen.toNat ≤ s.cfg.nMax) :
    Cmd.wp freq
      (fun _ t => ∃ txt : List Symbol, txt.length = s.textLen.toNat ∧ s.readsAs 0 txt ∧ (firstSeen txt).length ≤ s.cfg.kMax ∧ TableOnly s t ∧
        t.holdsTable (freqTable txt))
      (fun e _ => (∃ k, e = .raise .badSymbol k) ∨ e = .raise .capacity 3) s := by
  simp only [freq, Cmd.wp_bind, Cmd.wp_csr, Cmd.wp_raiseIf, Cmd.wp_update]
  refine ⟨fun h => by omega, fun _ => ?_⟩
  refine Cmd.wp_mono (freqLoop_any (s := { s with ftCnt := 0#32 }) (pre := []) _ ⟨rfl, Memory.holds_nil _ _⟩ (Nat.zero_le _) hk)
    (fun _ t ht => ?_) (fun _ _ h => h)
  exact ht

end Sys2Proof.Machine
end

