-- ==== Sys2Proof/Laws/Packer.lean ====
section
/-! SUPPORT. The packer holds the bit string pushed so far, the flush closes it with its padding, the unpacker returns the bits of PK one by one (43_bit_packer.md R171 to R177). -/

namespace Sys2Proof.Machine

variable {s t : State} {bs cs : BitString}

/-- From `s` to `t` only the packer has changed; `t` packs `bs`; PK from the end of the whole bytes on is as before. -/
def PackTo (s : State) (bs : BitString) (t : State) : Prop :=
  t = { s with pk := t.pk, pkLen := t.pkLen, stgBits := t.stgBits, stgCnt := t.stgCnt } ∧ t.packs bs ∧
    s.pk.sameFrom t.pk (bs.length / 8)

theorem PackTo.refl (h : s.packs bs) : PackTo s bs s := ⟨rfl, h, .refl _ _⟩

theorem PackTo.trans {u : State} (h1 : PackTo s bs t) (h2 : PackTo t cs u) (hl : bs.length / 8 ≤ cs.length / 8) :
    PackTo s cs u := by
  obtain ⟨e1, _, p1⟩ := h1
  obtain ⟨e2, k2, p2⟩ := h2
  refine ⟨?_, k2, .trans (p1.mono hl) p2⟩
  rw [e1] at e2
  exact e2

theorem PackTo.cfg (h : PackTo s bs t) : t.cfg = s.cfg := by rw [h.1]

/-- The staged byte with one more bit, as a number. -/
theorem stageBit_toNat (v : Byte) (b : Bool) (h : v.toNat < 128) : (stageBit v b).toNat = 2 * v.toNat + b.toNat := by
  have : v < 128#8 := by rw [BitVec.lt_def]; exact h
  have e : stageBit v b = v + v + (BitVec.ofBool b).setWidth 8 := by
    unfold stageBit
    revert this; revert v
    cases b <;> decide
  rw [e]
  cases b <;> simp <;> omega

/-- One bit pushed, when the byte it may complete fits PK (R171). -/
theorem pkPushBit_ok (b : Bool) (h : s.packs bs) (hfit : (bs.length + 1) / 8 ≤ s.cfg.pMax) (hp : s.cfg.pMax < 2 ^ 32) :
    Cmd.wp (pkPushBit b) (fun _ t => PackTo s (bs ++ [b]) t) (fun _ _ => False) s := by
  obtain ⟨hpad, hlen, hpk, hcnt, hbits⟩ := h
  have hcnt7 : s.stgCnt = 7#3 ↔ bs.length % 8 = 7 := by
    rw [← hcnt]
    exact ⟨fun e => by rw [e]; rfl, fun e => BitVec.eq_of_toNat_eq e⟩
  have hrest : (bs.drop (8 * (bs.length / 8))).length = bs.length % 8 := by rw [List.length_drop]; omega
  have hlt := bitsValue_lt (bs.drop (8 * (bs.length / 8)))
  rw [hrest, ← hbits] at hlt
  have hlt7 : s.stgBits.toNat < 128 := Nat.lt_of_lt_of_le hlt (Nat.pow_le_pow_right (by omega) (by omega) : 2 ^ (bs.length % 8) ≤ 2 ^ 7)
  simp only [pkPushBit, Cmd.wp_bind, Cmd.wp_csr, Cmd.wp_raiseIf, Cmd.wp_ite, Cmd.wp_writePk, Cmd.wp_update, hlen]
  refine ⟨fun hc => ?_, fun _ => ⟨fun hc => ?_, fun hc => ?_⟩⟩
  · have := hcnt7.mp hc.1
    have := hc.2
    omega
  · have hm := hcnt7.mp hc
    have hlen' : (bs ++ [b]).length / 8 = bs.length / 8 + 1 := by rw [List.length_append, List.length_singleton]; omega
    have hbyte : stageBit s.stgBits b = BitVec.ofNat 8 (2 * bitsValue (bs.drop (8 * (bs.length / 8))) + b.toNat) := by
      apply BitVec.eq_of_toNat_eq
      rw [stageBit_toNat _ _ hlt7, hbits, BitVec.toNat_ofNat, Nat.mod_eq_of_lt]
      have := Bool.toNat_le b
      omega
    refine ⟨rfl, ⟨hpad, ?_, ?_, ?_, ?_⟩, ?_⟩
    · show (s.pkLen + 1#32).toNat = _
      rw [BitVec.toNat_add, hlen, hlen']
      simp
      omega
    · show (s.pk.store 0 s.cfg.pMax (bs.length / 8) (stageBit s.stgBits b)).holds 0 _
      rw [packBytes_snoc_full b hm, hbyte]
      have := hpk.storeNext (lo := 0) (hi := s.cfg.pMax) (a := BitVec.ofNat 8 (2 * bitsValue (bs.drop (8 * (bs.length / 8))) + b.toNat))
        (by omega) (by rw [packBytes_length]; omega)
      rwa [packBytes_length, Nat.zero_add] at this
    · show (0#3).toNat = _
      rw [List.length_append, List.length_singleton]
      simp
      omega
    · show (0#8).toNat = _
      rw [hlen', List.drop_of_length_le (by rw [List.length_append, List.length_singleton]; omega)]
      rfl
    · exact Memory.sameFrom_store (by omega)
  · have hm : bs.length % 8 ≠ 7 := fun e => hc (hcnt7.mpr e)
    have hlen' : (bs ++ [b]).length / 8 = bs.length / 8 := by rw [List.length_append, List.length_singleton]; omega
    refine ⟨rfl, ⟨hpad, ?_, ?_, ?_, ?_⟩, .refl _ _⟩
    · rw [hlen']; exact hlen
    · rw [packBytes_snoc_open b hm]; exact hpk
    · show (s.stgCnt + 1#3).toNat = _
      rw [BitVec.toNat_add, hcnt, List.length_append, List.length_singleton]
      simp
    · show (stageBit s.stgBits b).toNat = _
      rw [stageBit_toNat _ _ hlt7, hbits, hlen', List.drop_append_of_le_length (by omega), bitsValue_snoc]

/-- One bit pushed when it would complete a byte that does not fit PK: E_CAPACITY(7), and nothing has changed (R171). -/
theorem pkPushBit_full (b : Bool) (h : s.packs bs) (hfull : bs.length = 8 * s.cfg.pMax + 7) {Q : Unit → State → Prop} :
    Cmd.wp (pkPushBit b) Q (fun e t => e = .raise .capacity 7 ∧ t = s) s := by
  obtain ⟨hpad, hlen, hpk, hcnt, hbits⟩ := h
  have hcnt7 : s.stgCnt = 7#3 := BitVec.eq_of_toNat_eq (by rw [hcnt, hfull]; simp)
  simp only [pkPushBit, Cmd.wp_bind, Cmd.wp_csr, Cmd.wp_raiseIf, hlen]
  exact ⟨fun _ => ⟨trivial, trivial⟩, fun hc => absurd ⟨hcnt7, by omega⟩ hc⟩

/-- A bit string pushed, when its whole bytes fit PK (R172). -/
theorem pushBits_ok (h : s.packs bs) (hfit : (bs.length + cs.length) / 8 ≤ s.cfg.pMax) (hp : s.cfg.pMax < 2 ^ 32) :
    Cmd.wp (Cmd.forBits pkPushBit cs) (fun _ t => PackTo s (bs ++ cs) t) (fun _ _ => False) s := by
  induction cs generalizing s bs with
  | nil => rw [Cmd.wp_forBits_nil, List.append_nil]; exact .refl h
  | cons c cs ih =>
    rw [Cmd.wp_forBits_cons]
    rw [List.length_cons] at hfit
    refine Cmd.wp_mono (pkPushBit_ok c h (by omega) hp) (fun _ t ht => ?_) (fun _ _ h => h)
    refine Cmd.wp_mono (ih ht.2.1 (by rw [ht.cfg, List.length_append, List.length_singleton]; omega) (by rw [ht.cfg]; exact hp))
      (fun _ u hu => ?_) (fun _ _ h => h)
    rw [List.append_assoc, List.singleton_append] at hu
    exact ht.trans hu (Nat.div_le_div_right (by simp))

/-- A bit string pushed that does not fit PK: E_CAPACITY(7), with the bits before the failing one staged (R172). -/
theorem pushBits_full (h : s.packs bs) (hb : bs.length ≤ 8 * s.cfg.pMax + 7)
    (hfull : 8 * s.cfg.pMax + 7 < bs.length + cs.length) (hp : s.cfg.pMax < 2 ^ 32) {Q : Unit → State → Prop} :
    Cmd.wp (Cmd.forBits pkPushBit cs) Q
      (fun e t => e = .raise .capacity 7 ∧ PackTo s (bs ++ cs.take (8 * s.cfg.pMax + 7 - bs.length)) t) s := by
  induction cs generalizing s bs with
  | nil => simp at hfull; omega
  | cons c cs ih =>
    rw [Cmd.wp_forBits_cons]
    rw [List.length_cons] at hfull
    by_cases he : bs.length = 8 * s.cfg.pMax + 7
    · refine Cmd.wp_mono (pkPushBit_full c h he (Q := fun _ _ => False)) (fun _ _ h => h.elim) (fun e t ht => ?_)
      obtain ⟨rfl, rfl⟩ := ht
      refine ⟨rfl, ?_⟩
      rw [he, Nat.sub_self, List.take_zero, List.append_nil]
      exact .refl h
    · refine Cmd.wp_mono (pkPushBit_ok c h (by omega) hp) (fun _ t ht => ?_) (fun _ _ h => h.elim)
      have hl : (bs ++ [c]).length = bs.length + 1 := by simp
      refine Cmd.wp_mono (ih ht.2.1 (by rw [ht.cfg, hl]; omega) (by rw [ht.cfg, hl]; omega) (by rw [ht.cfg]; exact hp))
        (fun _ _ h => h) (fun e u hu => ⟨hu.1, ?_⟩)
      have h2 := hu.2
      rw [List.append_assoc, List.singleton_append, ht.cfg, hl] at h2
      rw [show 8 * s.cfg.pMax + 7 - bs.length = (8 * s.cfg.pMax + 7 - (bs.length + 1)) + 1 by omega, List.take_succ_cons]
      exact ht.trans h2 (Nat.div_le_div_right (by simp))

/-- From `s` to `t` only the packer has changed, and it is closed: PK holds the padded bytes of `bs` (R173, R177). -/
def ClosedTo (s : State) (bs : BitString) (t : State) : Prop :=
  t = { s with pk := t.pk, pkLen := t.pkLen, pad := t.pad, stgBits := 0#8, stgCnt := 0#3 } ∧
    t.holdsPacked (packBytes (padded bs)) (padCount bs.length) ∧ s.pk.sameFrom t.pk ((bs.length + 7) / 8)

/-- The flush of a bit string whose bytes fit PK (R173). -/
theorem pkFlush_ok (h : s.packs bs) (hfit : (bs.length + 7) / 8 ≤ s.cfg.pMax) (hp : s.cfg.pMax < 2 ^ 32) :
    Cmd.wp pkFlush (fun _ t => ClosedTo s bs t) (fun _ _ => False) s := by
  obtain ⟨hpad, hlen, hpk, hcnt, hbits⟩ := h
  simp only [pkFlush, Cmd.wp_bind, Cmd.wp_csr, Cmd.wp_ite, Cmd.wp_raiseIf, Cmd.wp_writePk, Cmd.wp_update, hlen, hcnt]
  have hc0 : s.stgCnt = 0#3 ↔ bs.length % 8 = 0 := by
    rw [← hcnt]
    exact ⟨fun e => by rw [e]; rfl, fun e => BitVec.eq_of_toNat_eq e⟩
  refine ⟨fun hc => ⟨fun hc2 => ?_, fun _ => ?_⟩, fun hc => ?_⟩
  · have : bs.length % 8 ≠ 0 := fun e => hc (hc0.mpr e)
    omega
  · have hm : bs.length % 8 ≠ 0 := fun e => hc (hc0.mpr e)
    have hrest : (bs.drop (8 * (bs.length / 8))).length = bs.length % 8 := by rw [List.length_drop]; omega
    have hbyte : s.stgBits <<< (8 - bs.length % 8) =
        BitVec.ofNat 8 (bitsValue (bs.drop (8 * (bs.length / 8))) * 2 ^ (8 - bs.length % 8)) := by
      apply BitVec.eq_of_toNat_eq
      rw [BitVec.toNat_shiftLeft, hbits, BitVec.toNat_ofNat, Nat.shiftLeft_eq]
    have hpl : (packBytes (padded bs)).length = bs.length / 8 + 1 := by
      rw [packBytes_length, padded_length]; omega
    refine ⟨rfl, ⟨?_, ?_, ?_, ?_⟩, ?_⟩
    · show (s.pkLen + 1#32).toNat = _
      rw [BitVec.toNat_add, hlen, hpl]
      simp
      omega
    · show (s.pk.store 0 s.cfg.pMax (bs.length / 8) (s.stgBits <<< (8 - bs.length % 8))).holds 0 _
      rw [packBytes_padded_open hm, hbyte]
      have := hpk.storeNext (lo := 0) (hi := s.cfg.pMax)
        (a := BitVec.ofNat 8 (bitsValue (bs.drop (8 * (bs.length / 8))) * 2 ^ (8 - bs.length % 8))) (by omega)
        (by rw [packBytes_length]; omega)
      rwa [packBytes_length, Nat.zero_add] at this
    · show (BitVec.ofNat 3 (8 - bs.length % 8)).toNat = _
      rw [BitVec.toNat_ofNat]
      unfold padCount
      omega
    · intro _ e
      rw [e] at hpl
      simp at hpl
    · exact Memory.sameFrom_store (by omega)
  · have hm : bs.length % 8 = 0 := hc0.mp (by simpa using hc)
    have hz : s.stgBits = 0#8 := by
      apply BitVec.eq_of_toNat_eq
      rw [hbits, List.drop_of_length_le (by omega)]
      rfl
    refine ⟨?_, ⟨?_, ?_, ?_, fun hne => absurd (padCount_eq_zero hm) hne⟩, .refl _ _⟩
    · rw [← hz, ← hc0.mpr hm]
    · rw [padded_of_whole hm, packBytes_length]; exact hlen
    · rw [padded_of_whole hm]; exact hpk
    · rw [padCount_eq_zero hm]; rfl

/-- The flush when the last byte does not fit PK: E_CAPACITY(7), and nothing has changed (R173). -/
theorem pkFlush_full (h : s.packs bs) (hfull : bs.length / 8 = s.cfg.pMax) (hm : bs.length % 8 ≠ 0)
    {Q : Unit → State → Prop} : Cmd.wp pkFlush Q (fun e t => e = .raise .capacity 7 ∧ t = s) s := by
  obtain ⟨hpad, hlen, hpk, hcnt, hbits⟩ := h
  have hc : s.stgCnt ≠ 0#3 := fun e => hm (by rw [← hcnt, e]; rfl)
  simp only [pkFlush, Cmd.wp_bind, Cmd.wp_csr, Cmd.wp_ite, Cmd.wp_raiseIf, hlen]
  exact ⟨fun _ => ⟨fun _ => ⟨trivial, trivial⟩, fun h => absurd hfull h⟩, fun h => absurd hc h⟩

/-- The empty packer packs the empty bit string (R170). -/
theorem packs_nil (hl : s.pkLen = 0#32) (hp : s.pad = 0#3) (hb : s.stgBits = 0#8) (hc : s.stgCnt = 0#3) : s.packs [] :=
  ⟨hp, by rw [hl]; rfl, by simp [packBytes], by rw [hc]; rfl, by rw [hb]; rfl⟩

/-! ### The unpacker -/

/-- UpPop past the end answers "exhausted" and changes nothing (R175). -/
theorem upPop_exhausted (h : s.bitLen ≤ s.upPos) {Q : Option Bool → State → Prop} {E : Stop → State → Prop} :
    Cmd.wp upPop Q E s ↔ Q none s := by
  simp only [upPop, Cmd.wp_bind, Cmd.wp_csr]
  rw [if_pos h]
  exact Cmd.wp_pure _

/-- UpPop before the end answers the bit at the position and moves the position on by one (R175). -/
theorem upPop_bit {bytes : List Byte} {pad : Nat} (hl : s.pkLen.toNat = bytes.length) (hpk : s.pk.holds 0 bytes)
    (hp : s.pad.toNat = pad) {b : Bool} (hb : (unpackBits bytes pad)[s.upPos]? = some b) {Q : Option Bool → State → Prop}
    {E : Stop → State → Prop} : Cmd.wp upPop Q E s ↔ Q (some b) s.upNext := by
  have hlt : s.upPos < 8 * bytes.length - pad := by
    have := (List.getElem?_eq_some_iff.mp hb).1
    rwa [unpackBits_length] at this
  have hnot : ¬s.bitLen ≤ s.upPos := by
    unfold State.bitLen
    rw [hl, hp]
    omega
  have hbit : s.upBit.toNat < 8 := s.upBit.isLt
  have hby : s.upByte.toNat < bytes.length := by
    have : s.upPos = 8 * s.upByte.toNat + s.upBit.toNat := rfl
    omega
  rw [unpackBits_getElem? hlt] at hb
  have hq : s.upPos / 8 = s.upByte.toNat := by
    show (8 * s.upByte.toNat + s.upBit.toNat) / 8 = _
    omega
  have hr : s.upPos % 8 = s.upBit.toNat := by
    show (8 * s.upByte.toNat + s.upBit.toNat) % 8 = _
    omega
  rw [hq, hr] at hb
  simp only [upPop, Cmd.wp_bind, Cmd.wp_csr]
  rw [if_neg hnot]
  simp only [Cmd.wp_bind, Cmd.wp_csr, Cmd.wp_readPk, pkAt_some (hpk.getD 0#8 hby), Cmd.wp_update, Cmd.wp_pure]
  rw [Option.some.inj hb]

/-- The position after one more bit, where it does not wrap. -/
theorem upPos_upNext (h : s.upPos + 1 < 2 ^ 32) : s.upNext.upPos = s.upPos + 1 := by
  have hbit : s.upBit.toNat < 8 := s.upBit.isLt
  unfold State.upNext
  have e : s.upPos = 8 * s.upByte.toNat + s.upBit.toNat := rfl
  split
  · rename_i h7
    have : s.upBit.toNat = 7 := by rw [h7]; rfl
    show 8 * (s.upByte + 1#32).toNat + (0#3).toNat = _
    rw [BitVec.toNat_add]
    simp
    omega
  · rename_i h7
    have : s.upBit.toNat ≠ 7 := fun e => h7 (BitVec.eq_of_toNat_eq e)
    show 8 * s.upByte.toNat + (s.upBit + 1#3).toNat = _
    rw [BitVec.toNat_add]
    simp
    omega

/-- Moving the position on changes nothing else. -/
theorem upNext_frame : s.upNext = { s with upByte := s.upNext.upByte, upBit := s.upNext.upBit } := by
  unfold State.upNext
  split <;> rfl

end Sys2Proof.Machine
end

