-- ==== Sys2Proof/Laws/Grove.lean ====
section
/-! SUPPORT. The invariants of the tree-node memory (10_state.md R53 items 3, 4, 5, 8, 11): a change of `st`, an allocation and the link of two roots under a new node keep them. -/

namespace Sys2Proof.Machine

variable {m m' : Memory Node} {c : Config} {n : Nat} {h : List NodeId} {trees : List IdTree} {t : IdTree}

@[simp] theorem IdTree.root_leaf (id : Nat) : (IdTree.leaf id).root = id := rfl
@[simp] theorem IdTree.root_node (id : Nat) (l r : IdTree) : (IdTree.node id l r).root = id := rfl

theorem weightAt_some {k : Nat} {x : Node} (hx : m.get? k = some x) : weightAt m k = x.w.toNat := by unfold weightAt; rw [hx]

theorem IdTree.root_mem (t : IdTree) : t.root ∈ t.ids := by cases t <;> simp [IdTree.root, IdTree.ids]

theorem IdTree.leafIds_subset {t : IdTree} {x : Nat} (hx : x ∈ t.leafIds) : x ∈ t.ids := by
  induction t with
  | leaf id => exact hx
  | node id l r ihl ihr =>
    rcases List.mem_append.mp hx with hx | hx
    · exact List.mem_cons_of_mem _ (List.mem_append_left _ (ihl hx))
    · exact List.mem_cons_of_mem _ (List.mem_append_right _ (ihr hx))

/-- Two nodes that differ at most in `st`. -/
def sameButSt (x y : Node) : Prop := y.leaf = x.leaf ∧ y.sym = x.sym ∧ y.w = x.w ∧ y.l = x.l ∧ y.r = x.r

/-- A shape is held in any memory that agrees on its nodes, but for the `st` of its root. -/
theorem holdsShape.congr (hs : holdsShape m t) (hrest : ∀ k ∈ t.ids, k ≠ t.root → m'.get? k = m.get? k)
    (hroot : ∀ x, m.get? t.root = some x → ∃ y, m'.get? t.root = some y ∧ sameButSt x y) (hnd : t.ids.Nodup) :
    holdsShape m' t := by
  induction t with
  | leaf id =>
    obtain ⟨x, hx, h1, h2, h3⟩ := hs
    obtain ⟨y, hy, e1, _, _, e4, e5⟩ := hroot x hx
    exact ⟨y, hy, e1.trans h1, e4.trans h2, e5.trans h3⟩
  | node id l r ihl ihr =>
    obtain ⟨x, xl, xr, hx, h1, h2, h3, h4, hl, hr, sl, sr, hw, kl, kr⟩ := hs
    obtain ⟨y, hy, e1, e2, e3, e4, e5⟩ := hroot x hx
    obtain ⟨hid, hnd⟩ := List.nodup_cons.mp hnd
    obtain ⟨ndl, ndr, _⟩ := List.nodup_append.mp hnd
    have same : ∀ k, k ∈ l.ids ∨ k ∈ r.ids → m'.get? k = m.get? k := fun k hk => by
      have hmem : k ∈ l.ids ++ r.ids := List.mem_append.mpr hk
      exact hrest k (List.mem_cons_of_mem _ hmem) (fun e => hid (by rw [IdTree.root_node] at e; exact e ▸ hmem))
    have rl := same _ (.inl l.root_mem)
    have rr := same _ (.inr r.root_mem)
    refine ⟨y, xl, xr, hy, e1.trans h1, e2.trans h2, by rw [e4]; exact h3, by rw [e5]; exact h4, rl.trans hl, rr.trans hr, sl, sr,
      by rw [e3]; exact hw, ihl kl (fun k hk _ => same k (.inl hk)) (fun x hx => ⟨x, rl.trans hx, rfl, rfl, rfl, rfl, rfl⟩) ndl,
      ihr kr (fun k hk _ => same k (.inr hk)) (fun x hx => ⟨x, rr.trans hx, rfl, rfl, rfl, rfl, rfl⟩) ndr⟩

/-- A node below the root is CHILD. -/
theorem holdsShape.child (hs : holdsShape m t) {k : Nat} (hk : k ∈ t.ids) (hne : k ≠ t.root) : stOf m k = stChild := by
  induction t with
  | leaf id => exact absurd (List.mem_singleton.mp hk) hne
  | node id l r ihl ihr =>
    obtain ⟨x, xl, xr, hx, h1, h2, h3, h4, hl, hr, sl, sr, hw, kl, kr⟩ := hs
    rcases List.mem_cons.mp hk with rfl | hk
    · exact absurd rfl hne
    · rcases List.mem_append.mp hk with hk | hk
      · by_cases e : k = l.root
        · subst e; unfold stOf; rw [hl]; exact sl
        · exact ihl kl hk e
      · by_cases e : k = r.root
        · subst e; unfold stOf; rw [hr]; exact sr
        · exact ihr kr hk e

theorem holdsShape.written (hs : holdsShape m t) {k : Nat} (hk : k ∈ t.ids) : ∃ x, m.get? k = some x := by
  induction t with
  | leaf id =>
    obtain ⟨x, hx, _⟩ := hs
    rw [List.mem_singleton.mp hk]
    exact ⟨x, hx⟩
  | node id l r ihl ihr =>
    obtain ⟨x, xl, xr, hx, h1, h2, h3, h4, hl, hr, sl, sr, hw, kl, kr⟩ := hs
    rcases List.mem_cons.mp hk with rfl | hk
    · exact ⟨x, hx⟩
    · rcases List.mem_append.mp hk with hk | hk
      · exact ihl kl hk
      · exact ihr kr hk

/-- The weight of a root is the sum of the weights of its leaves. -/
theorem holdsShape.weight (hs : holdsShape m t) : weightAt m t.root = (t.leafIds.map (weightAt m)).sum := by
  induction t with
  | leaf id => simp [IdTree.leafIds]
  | node id l r ihl ihr =>
    obtain ⟨x, xl, xr, hx, h1, h2, h3, h4, hl, hr, sl, sr, hw, kl, kr⟩ := hs
    rw [IdTree.leafIds, List.map_append, List.sum_append, ← ihl kl, ← ihr kr]
    rw [IdTree.root_node, weightAt_some hx, weightAt_some hl, weightAt_some hr, hw]

theorem Grove.nodup (g : Grove c m n h trees) : (trees.flatMap IdTree.ids).Nodup := g.ids.nodup_iff.mpr List.nodup_range'

theorem nodup_of_mem {α β : Type} {l : List α} {f : α → List β} (h : (l.flatMap f).Nodup) {a : α} (ha : a ∈ l) : (f a).Nodup :=
  (List.nodup_flatMap.mp h).1 a ha

/-- Two trees of a grove that share a node are the same tree. -/
theorem unique_of_mem {trees : List IdTree} (h : (trees.flatMap IdTree.ids).Nodup) {t u : IdTree} (ht : t ∈ trees) (hu : u ∈ trees) {k : Nat}
    (hkt : k ∈ t.ids) (hku : k ∈ u.ids) : t = u := by
  induction trees with
  | nil => cases ht
  | cons v trees ih =>
    rw [List.flatMap_cons] at h
    obtain ⟨_, h2, h3⟩ := List.nodup_append.mp h
    rcases List.mem_cons.mp ht with rfl | ht' <;> rcases List.mem_cons.mp hu with rfl | hu'
    · rfl
    · exact absurd rfl (h3 _ hkt _ (List.mem_flatMap.mpr ⟨u, hu', hku⟩))
    · exact absurd rfl (h3 _ hku _ (List.mem_flatMap.mpr ⟨t, ht', hkt⟩))
    · exact ih h2 ht' hu'

/-- Every allocated node is in one tree. -/
theorem Grove.tree (g : Grove c m n h trees) {k : Nat} (h1 : 1 ≤ k) (h2 : k ≤ n) : ∃ t ∈ trees, k ∈ t.ids := by
  have : k ∈ trees.flatMap IdTree.ids := g.ids.mem_iff.mpr (List.mem_range'_1.mpr ⟨h1, by omega⟩)
  simpa [List.mem_flatMap] using this

theorem Grove.range (g : Grove c m n h trees) {k : Nat} (ht : t ∈ trees) (hk : k ∈ t.ids) : 1 ≤ k ∧ k ≤ n := by
  have : k ∈ List.range' 1 n := g.ids.mem_iff.mp (List.mem_flatMap.mpr ⟨t, ht, hk⟩)
  have := List.mem_range'_1.mp this
  omega

/-- A node that is not CHILD is a root. -/
theorem Grove.root_of (g : Grove c m n h trees) {k : Nat} (h1 : 1 ≤ k) (h2 : k ≤ n) (hst : stOf m k ≠ stChild) :
    ∃ t ∈ trees, t.root = k := by
  obtain ⟨t, ht, hk⟩ := g.tree h1 h2
  by_cases e : k = t.root
  · exact ⟨t, ht, e.symm⟩
  · exact absurd ((g.shapes t ht).child hk e) hst

theorem Grove.written (g : Grove c m n h trees) {k : Nat} (h1 : 1 ≤ k) (h2 : k ≤ n) : ∃ x, m.get? k = some x := by
  obtain ⟨t, ht, hk⟩ := g.tree h1 h2
  exact (g.shapes t ht).written hk

theorem stOf_some {k : Nat} {x : Node} (hx : m.get? k = some x) : stOf m k = x.st := by unfold stOf; rw [hx]

/-- A queued node is allocated and QUEUED. -/
theorem Grove.queued_node (g : Grove c m n h trees) {id : NodeId} (hid : id ∈ h) :
    1 ≤ id.toNat ∧ id.toNat ≤ n ∧ stOf m id.toNat = stQueued := by
  obtain ⟨t, ht, e⟩ := List.mem_map.mp (g.queued id hid)
  have hr := g.range ht t.root_mem
  have hs := g.roots t ht
  rw [e] at hr hs
  exact ⟨hr.1, hr.2, by rw [hs, if_pos (List.mem_map_of_mem hid)]⟩

/-! ### A change of `st` at a root -/

theorem weightAt_congr {k : Nat} (e : ∀ j, j ≠ k → m'.get? j = m.get? j)
    (hk : ∀ x, m.get? k = some x → ∃ y, m'.get? k = some y ∧ sameButSt x y) {j : Nat} (hw : ∃ x, m.get? j = some x) :
    weightAt m' j = weightAt m j := by
  by_cases hj : j = k
  · subst hj
    obtain ⟨x, hx⟩ := hw
    obtain ⟨y, hy, _, _, hwy, _⟩ := hk x hx
    rw [weightAt_some hx, weightAt_some hy, hwy]
  · unfold weightAt
    rw [e j hj]

/-- The queue changes by one root, and so does its `st`: all else of the grove stands. -/
theorem Grove.setRoot (g : Grove c m n h trees) {id : NodeId} {h' : List NodeId} {v : BitVec 2} {x : Node}
    (hid : id.toNat ∈ trees.map IdTree.root) (hx : m.get? id.toNat = some x)
    (hm : ∀ k, m'.get? k = if k = id.toNat then some { x with st := v } else m.get? k)
    (hq : ∀ y, y ≠ id → (y ∈ h' ↔ y ∈ h)) (hv : v = if id ∈ h' then stQueued else stDetached) : Grove c m' n h' trees := by
  obtain ⟨t0, ht0, et0⟩ := List.mem_map.mp hid
  have hother : ∀ j, j ≠ id.toNat → m'.get? j = m.get? j := fun j hj => by rw [hm, if_neg hj]
  have hself : ∀ y, m.get? id.toNat = some y → ∃ z, m'.get? id.toNat = some z ∧ sameButSt y z := fun y hy => by
    obtain rfl : x = y := Option.some.inj (hx ▸ hy)
    exact ⟨{ x with st := v }, by rw [hm, if_pos rfl], rfl, rfl, rfl, rfl, rfl⟩
  have hmem : ∀ k : Nat, k ≠ id.toNat → (k ∈ h'.map (·.toNat) ↔ k ∈ h.map (·.toNat)) := fun k hk => by
    simp only [List.mem_map]
    constructor
    · rintro ⟨y, hy, rfl⟩; exact ⟨y, (hq y fun e => hk (by rw [e])).mp hy, rfl⟩
    · rintro ⟨y, hy, rfl⟩; exact ⟨y, (hq y fun e => hk (by rw [e])).mpr hy, rfl⟩
  have hwt : ∀ j, (∃ x, m.get? j = some x) → weightAt m' j = weightAt m j := fun j hj => weightAt_congr hother hself hj
  have hroots : (trees.map fun t => weightAt m' t.root) = trees.map fun t => weightAt m t.root :=
    List.map_congr_left fun t ht => hwt _ ((g.shapes t ht).written t.root_mem)
  have hleaves : (trees.flatMap IdTree.leafIds).map (weightAt m') = (trees.flatMap IdTree.leafIds).map (weightAt m) := by
    refine List.map_congr_left fun k hk => ?_
    obtain ⟨t, ht, hk⟩ := List.mem_flatMap.mp hk
    exact hwt _ ((g.shapes t ht).written (IdTree.leafIds_subset hk))
  refine ⟨g.ids, fun t ht => ?_, fun t ht => ?_, fun y hy => ?_, ?_, ?_, g.leaves⟩
  · refine (g.shapes t ht).congr (fun k hk hne => hother k fun e => ?_) (fun y hy => ?_) (nodup_of_mem g.nodup ht)
    · obtain rfl := unique_of_mem g.nodup ht ht0 hk (by rw [e, ← et0]; exact t0.root_mem)
      exact hne (e.trans et0.symm)
    · by_cases e : t.root = id.toNat
      · rw [e] at hy ⊢; exact hself y hy
      · exact ⟨y, by rw [hother _ e]; exact hy, rfl, rfl, rfl, rfl, rfl⟩
  · by_cases e : t.root = id.toNat
    · rw [e, stOf_some (by rw [hm, if_pos rfl])]
      simp only [hv]
      have : id.toNat ∈ h'.map (·.toNat) ↔ id ∈ h' := by
        refine ⟨fun hh => ?_, fun hh => List.mem_map_of_mem hh⟩
        obtain ⟨y, hy, ey⟩ := List.mem_map.mp hh
        rwa [← BitVec.eq_of_toNat_eq ey]
      simp only [this]
    · have hs := g.roots t ht
      unfold stOf at hs ⊢
      rw [hother _ e, hs]
      simp only [hmem _ e]
  · by_cases e : y = id
    · rw [e]; exact hid
    · exact g.queued y ((hq y e).mp hy)
  · rw [hroots, hleaves]; exact g.total
  · rw [hroots]; exact g.bounded

/-! ### Allocation and linking -/

/-- A new leaf of weight `w`, DETACHED. -/
theorem Grove.addLeaf (g : Grove c m n h trees) {x : Node} (hm : ∀ k, m'.get? k = if k = n + 1 then some x else m.get? k)
    (hleaf : x.leaf = true) (hl : x.l = 0#24) (hr : x.r = 0#24) (hst : x.st = stDetached)
    (hbound : (trees.map fun t => weightAt m t.root).sum + x.w.toNat ≤ c.nMax)
    (hcount : (trees.flatMap IdTree.leafIds).length + 1 ≤ c.kMax) : Grove c m' (n + 1) h (.leaf (n + 1) :: trees) := by
  have hother : ∀ t ∈ trees, ∀ k ∈ t.ids, m'.get? k = m.get? k := fun t ht k hk => by
    rw [hm, if_neg (by have := g.range ht hk; omega)]
  have hself : m'.get? (n + 1) = some x := by rw [hm, if_pos rfl]
  have hwt : ∀ t ∈ trees, ∀ k ∈ t.ids, weightAt m' k = weightAt m k := fun t ht k hk => by
    unfold weightAt; rw [hother t ht k hk]
  have hroots : (trees.map fun t => weightAt m' t.root) = trees.map fun t => weightAt m t.root :=
    List.map_congr_left fun t ht => hwt t ht _ t.root_mem
  have hleaves : (trees.flatMap IdTree.leafIds).map (weightAt m') = (trees.flatMap IdTree.leafIds).map (weightAt m) := by
    refine List.map_congr_left fun k hk => ?_
    obtain ⟨t, ht, hk⟩ := List.mem_flatMap.mp hk
    exact hwt t ht _ (IdTree.leafIds_subset hk)
  have hx : weightAt m' (n + 1) = x.w.toNat := by unfold weightAt; rw [hself]
  refine ⟨?_, fun t ht => ?_, fun t ht => ?_, fun id hid => List.mem_cons_of_mem _ (g.queued id hid), ?_, ?_, ?_⟩
  · rw [List.flatMap_cons, IdTree.ids, List.range'_1_concat, List.singleton_append]
    exact (g.ids.cons _).trans (by rw [Nat.add_comm 1 n]; exact (List.perm_append_singleton _ _).symm)
  · rcases List.mem_cons.mp ht with rfl | ht
    · exact ⟨x, hself, hleaf, hl, hr⟩
    · exact (g.shapes t ht).congr (fun k hk _ => hother t ht k hk)
        (fun y hy => ⟨y, (hother t ht _ t.root_mem).trans hy, rfl, rfl, rfl, rfl, rfl⟩) (nodup_of_mem g.nodup ht)
  · rcases List.mem_cons.mp ht with rfl | ht
    · rw [IdTree.root, stOf_some hself, hst, if_neg]
      intro hh
      obtain ⟨y, hy, e⟩ := List.mem_map.mp hh
      have := g.queued_node hy
      omega
    · have := g.roots t ht
      unfold stOf at this ⊢
      rw [hother t ht _ t.root_mem]
      exact this
  · rw [List.map_cons, List.sum_cons, List.flatMap_cons, List.map_append, List.sum_append, hroots, hleaves, g.total]
    simp [IdTree.leafIds]
  · rw [List.map_cons, List.sum_cons, hroots, IdTree.root_leaf, hx]
    omega
  · rw [List.flatMap_cons, List.length_append]
    simp only [IdTree.leafIds, List.length_singleton]
    omega

/-- Two DETACHED roots become the children of a new node whose weight is their sum. -/
theorem Grove.link (g : Grove c m n h trees) {ta tb : IdTree} {rest : List IdTree} (hp : trees.Perm (ta :: tb :: rest)) {xa xb x : Node}
    (ha : m.get? ta.root = some xa) (hb : m.get? tb.root = some xb) (hqa : ta.root ∉ h.map (·.toNat)) (hqb : tb.root ∉ h.map (·.toNat))
    (hm : ∀ k, m'.get? k = if k = n + 1 then some x else if k = ta.root then some { xa with st := stChild }
      else if k = tb.root then some { xb with st := stChild } else m.get? k)
    (hst : x.st = stDetached) (hleaf : x.leaf = false) (hsym : x.sym = 0#21) (hl : x.l.toNat = ta.root) (hr : x.r.toNat = tb.root)
    (hw : x.w.toNat = xa.w.toNat + xb.w.toNat) : Grove c m' (n + 1) h (.node (n + 1) ta tb :: rest) := by
  have hpi : (trees.flatMap IdTree.ids).Perm ((ta :: tb :: rest).flatMap IdTree.ids) := hp.flatMap_right _
  have hpl : (trees.flatMap IdTree.leafIds).Perm ((ta :: tb :: rest).flatMap IdTree.leafIds) := hp.flatMap_right _
  have hnd : ((ta :: tb :: rest).flatMap IdTree.ids).Nodup := hpi.nodup_iff.mp g.nodup
  have mem : ∀ t ∈ ta :: tb :: rest, t ∈ trees := fun t ht => hp.mem_iff.mpr ht
  have hrange : ∀ t ∈ ta :: tb :: rest, ∀ k ∈ t.ids, 1 ≤ k ∧ k ≤ n := fun t ht k hk => g.range (mem t ht) hk
  have hta : ta ∈ ta :: tb :: rest := List.mem_cons_self ..
  have htb : tb ∈ ta :: tb :: rest := List.mem_cons_of_mem _ (List.mem_cons_self ..)
  have hne : ta.root ≠ tb.root := by
    intro e
    rw [List.flatMap_cons, List.flatMap_cons, ← List.append_assoc] at hnd
    have := (List.nodup_append.mp (List.nodup_append.mp hnd).1).2.2 _ ta.root_mem _ (e ▸ tb.root_mem)
    exact this rfl
  have hrest : ∀ t ∈ rest, ∀ k ∈ t.ids, m'.get? k = m.get? k := by
    intro t ht k hk
    have h1 := hrange t (List.mem_cons_of_mem _ (List.mem_cons_of_mem _ ht)) k hk
    have hd : ∀ a ∈ ta.ids ++ tb.ids, ∀ b ∈ rest.flatMap IdTree.ids, a ≠ b := by
      rw [List.flatMap_cons, List.flatMap_cons, ← List.append_assoc] at hnd
      exact (List.nodup_append.mp hnd).2.2
    have hk' : k ∈ rest.flatMap IdTree.ids := List.mem_flatMap.mpr ⟨t, ht, hk⟩
    rw [hm, if_neg (by omega), if_neg (fun e => hd _ (List.mem_append_left _ ta.root_mem) k hk' e.symm),
      if_neg (fun e => hd _ (List.mem_append_right _ tb.root_mem) k hk' e.symm)]
  have hin : ∀ t, t = ta ∨ t = tb → ∀ k ∈ t.ids, k ≠ t.root → m'.get? k = m.get? k := by
    intro t ht k hk hkr
    have htm : t ∈ ta :: tb :: rest := by rcases ht with rfl | rfl <;> assumption
    have h1 := hrange t htm k hk
    rw [hm, if_neg (by omega), if_neg, if_neg]
    · intro e
      rcases ht with rfl | rfl
      · exact hne (by rw [unique_of_mem g.nodup (mem _ hta) (mem _ htb) hk (e ▸ tb.root_mem)])
      · exact hkr e
    · intro e
      rcases ht with rfl | rfl
      · exact hkr e
      · exact hne (by rw [unique_of_mem g.nodup (mem _ htb) (mem _ hta) hk (e ▸ ta.root_mem)])
  have ra := hrange ta hta _ ta.root_mem
  have rb := hrange tb htb _ tb.root_mem
  have ea : m'.get? ta.root = some { xa with st := stChild } := by rw [hm, if_neg (by omega), if_pos rfl]
  have eb : m'.get? tb.root = some { xb with st := stChild } := by rw [hm, if_neg (by omega), if_neg (Ne.symm hne), if_pos rfl]
  have ex : m'.get? (n + 1) = some x := by rw [hm, if_pos rfl]
  have hwt : ∀ t ∈ ta :: tb :: rest, ∀ k ∈ t.ids, weightAt m' k = weightAt m k := by
    intro t ht k hk
    unfold weightAt
    by_cases e1 : k = ta.root
    · subst e1; rw [ea, ha]
    · by_cases e2 : k = tb.root
      · subst e2; rw [eb, hb]
      · have := hrange t ht k hk
        rw [hm, if_neg (by omega), if_neg e1, if_neg e2]
  have hsum : ∀ l : List IdTree, (∀ t ∈ l, t ∈ ta :: tb :: rest) →
      (l.map fun t => weightAt m' t.root) = l.map fun t => weightAt m t.root :=
    fun l hl => List.map_congr_left fun t ht => hwt t (hl t ht) _ t.root_mem
  have hleaves : ((ta :: tb :: rest).flatMap IdTree.leafIds).map (weightAt m') =
      ((ta :: tb :: rest).flatMap IdTree.leafIds).map (weightAt m) := by
    refine List.map_congr_left fun k hk => ?_
    obtain ⟨t, ht, hk⟩ := List.mem_flatMap.mp hk
    exact hwt t ht _ (IdTree.leafIds_subset hk)
  have htotal : ((ta :: tb :: rest).map fun t => weightAt m t.root).sum = (trees.map fun t => weightAt m t.root).sum :=
    (hp.map _).sum_eq.symm
  have hltotal : (((ta :: tb :: rest).flatMap IdTree.leafIds).map (weightAt m)).sum = ((trees.flatMap IdTree.leafIds).map (weightAt m)).sum :=
    (hpl.map _).sum_eq.symm
  have hwa : weightAt m ta.root = xa.w.toNat := by unfold weightAt; rw [ha]
  have hwb : weightAt m tb.root = xb.w.toNat := by unfold weightAt; rw [hb]
  have hwx : weightAt m' (n + 1) = xa.w.toNat + xb.w.toNat := by unfold weightAt; rw [ex]; exact hw
  have hall : ((IdTree.node (n + 1) ta tb :: rest).map fun t => weightAt m' t.root).sum = (trees.map fun t => weightAt m t.root).sum := by
    rw [← htotal, List.map_cons, List.sum_cons, hsum rest fun t ht => List.mem_cons_of_mem _ (List.mem_cons_of_mem _ ht)]
    simp only [IdTree.root_node, hwx, List.map_cons, List.sum_cons, hwa, hwb]
    omega
  refine ⟨?_, fun t ht => ?_, fun t ht => ?_, fun id hid => ?_, ?_, ?_, ?_⟩
  · have e : (IdTree.node (n + 1) ta tb :: rest).flatMap IdTree.ids = (n + 1) :: (ta :: tb :: rest).flatMap IdTree.ids := by
      simp [IdTree.ids]
    rw [e, List.range'_1_concat]
    exact ((hpi.symm.trans g.ids).cons _).trans (by rw [Nat.add_comm 1 n]; exact (List.perm_append_singleton _ _).symm)
  · rcases List.mem_cons.mp ht with rfl | ht
    · refine ⟨x, _, _, ex, hleaf, hsym, hl, hr, ea, eb, rfl, rfl, hw, ?_, ?_⟩
      · exact (g.shapes ta (mem _ hta)).congr (hin ta (.inl rfl))
          (fun y hy => by obtain rfl := Option.some.inj (ha ▸ hy); exact ⟨_, ea, rfl, rfl, rfl, rfl, rfl⟩) (nodup_of_mem g.nodup (mem _ hta))
      · exact (g.shapes tb (mem _ htb)).congr (hin tb (.inr rfl))
          (fun y hy => by obtain rfl := Option.some.inj (hb ▸ hy); exact ⟨_, eb, rfl, rfl, rfl, rfl, rfl⟩) (nodup_of_mem g.nodup (mem _ htb))
    · have htm := mem t (List.mem_cons_of_mem _ (List.mem_cons_of_mem _ ht))
      exact (g.shapes t htm).congr (fun k hk _ => hrest t ht k hk)
        (fun y hy => ⟨y, (hrest t ht _ t.root_mem).trans hy, rfl, rfl, rfl, rfl, rfl⟩) (nodup_of_mem g.nodup htm)
  · rcases List.mem_cons.mp ht with rfl | ht
    · rw [IdTree.root, stOf_some ex, hst, if_neg]
      intro hh
      obtain ⟨y, hy, e⟩ := List.mem_map.mp hh
      have := g.queued_node hy
      omega
    · have := g.roots t (mem t (List.mem_cons_of_mem _ (List.mem_cons_of_mem _ ht)))
      unfold stOf at this ⊢
      rw [hrest t ht _ t.root_mem]
      exact this
  · have := (hp.map IdTree.root).mem_iff.mp (g.queued id hid)
    rw [List.map_cons, List.map_cons, List.mem_cons, List.mem_cons] at this
    rcases this with e | e | e
    · exact absurd (e ▸ List.mem_map_of_mem hid) hqa
    · exact absurd (e ▸ List.mem_map_of_mem hid) hqb
    · exact List.mem_cons_of_mem _ e
  · rw [hall, g.total, ← hltotal, ← hleaves]
    simp [IdTree.leafIds]
  · rw [hall]; exact g.bounded
  · have := hpl.length_eq
    have e : (IdTree.node (n + 1) ta tb :: rest).flatMap IdTree.leafIds = (ta :: tb :: rest).flatMap IdTree.leafIds := by
      simp [IdTree.leafIds]
    rw [e, ← this]
    exact g.leaves

/-- No node at all. -/
theorem Grove.empty (c : Config) (m : Memory Node) : Grove c m 0 [] [] :=
  ⟨.refl _, by simp, by simp, by simp, rfl, Nat.zero_le _, Nat.zero_le _⟩

end Sys2Proof.Machine
end

