-- ==== Sys2Proof/Laws/Tree.lean ====
section
/-! SUPPORT. From the node memory's invariants to prefix trees: an allocated root has a tree, its leaves and its size are bounded, and paths determine it (42_code_table.md R152). -/

namespace Sys2Proof.Machine

variable {m m' : Memory Node} {c : Config} {n : Nat} {h : List NodeId} {trees : List IdTree} {t : IdTree} {T U : Tree} {id : NodeId}

/-- `NODE[id].sym`, 0 for a node that has not been written. -/
def symAt (m : Memory Node) (id : Nat) : Symbol :=
  match m.get? id with
  | some n => n.sym
  | none => 0#21

/-- The prefix tree of a tree of ids. -/
def IdTree.tree (m : Memory Node) : IdTree → Tree
  | .leaf id => .leaf (symAt m id)
  | .node _ l r => .node (l.tree m) (r.tree m)

theorem IdTree.tree_size (t : IdTree) : (t.tree m).size = t.ids.length := by
  induction t with
  | leaf id => rfl
  | node id l r ihl ihr => simp [IdTree.tree, Tree.size, IdTree.ids, ihl, ihr]

theorem IdTree.tree_leaves (t : IdTree) : (t.tree m).leaves = t.leafIds.map (symAt m) := by
  induction t with
  | leaf id => rfl
  | node id l r ihl ihr => simp [IdTree.tree, Tree.leaves, IdTree.leafIds, ihl, ihr]

/-- A held shape is a held prefix tree. -/
theorem holdsShape.tree (hs : holdsShape m t) (hid : id.toNat = t.root) : holdsTree m id (t.tree m) := by
  induction t generalizing id with
  | leaf k =>
    obtain ⟨x, hx, h1, _⟩ := hs
    rw [IdTree.root_leaf] at hid
    exact ⟨x, by rw [hid]; exact hx, h1, by simp [symAt, hx]⟩
  | node k l r ihl ihr =>
    obtain ⟨x, xl, xr, hx, h1, h2, h3, h4, hl, hr, sl, sr, hw, kl, kr⟩ := hs
    rw [IdTree.root_node] at hid
    exact ⟨x, by rw [hid]; exact hx, h1, ihl kl h3, ihr kr h4⟩

/-- A node memory holds at most one tree at an id. -/
theorem holdsTree.unique (h1 : holdsTree m id T) (h2 : holdsTree m id U) : T = U := by
  induction T generalizing id U with
  | leaf x =>
    obtain ⟨a, ha, la, sa⟩ := h1
    cases U with
    | leaf y => obtain ⟨b, hb, lb, sb⟩ := h2; rw [ha] at hb; cases hb; rw [← sa, ← sb]
    | node l r => obtain ⟨b, hb, lb, _⟩ := h2; rw [ha] at hb; cases hb; rw [la] at lb; cases lb
  | node l r ihl ihr =>
    obtain ⟨a, ha, la, kl, kr⟩ := h1
    cases U with
    | leaf y => obtain ⟨b, hb, lb, sb⟩ := h2; rw [ha] at hb; cases hb; rw [la] at lb; cases lb
    | node l' r' => obtain ⟨b, hb, lb, kl', kr'⟩ := h2; rw [ha] at hb; cases hb; rw [ihl kl kl', ihr kr kr']

theorem length_le_of_mem {t : IdTree} (ht : t ∈ trees) (f : IdTree → List Nat) : (f t).length ≤ (trees.flatMap f).length := by
  induction trees with
  | nil => cases ht
  | cons u trees ih =>
    rw [List.flatMap_cons, List.length_append]
    rcases List.mem_cons.mp ht with rfl | ht
    · omega
    · have := ih ht; omega

/-- The tree at a root of a grove, with the bounds of R53 items 4 and 11. -/
theorem Grove.liveTree (g : Grove c m n h trees) (ht : t ∈ trees) (hid : id.toNat = t.root) :
    holdsTree m id (t.tree m) ∧ (t.tree m).size ≤ n ∧ (t.tree m).leaves.length ≤ c.kMax := by
  refine ⟨(g.shapes t ht).tree hid, ?_, ?_⟩
  · rw [IdTree.tree_size]
    have := length_le_of_mem ht IdTree.ids
    rw [g.ids.length_eq, List.length_range'] at this
    exact this
  · rw [IdTree.tree_leaves, List.length_map]
    exact Nat.le_trans (length_le_of_mem ht IdTree.leafIds) g.leaves

theorem Tree.size_pos (T : Tree) : 1 ≤ T.size := by cases T <;> simp [Tree.size]

theorem Tree.leaves_pos (T : Tree) : 1 ≤ T.leaves.length := by
  induction T with
  | leaf x => simp [Tree.leaves]
  | node l r ihl _ => rw [Tree.leaves, List.length_append]; omega

/-- A full binary tree has one node less than twice its leaves. -/
theorem Tree.size_eq (T : Tree) : T.size + 1 = 2 * T.leaves.length := by
  induction T with
  | leaf x => rfl
  | node l r ihl ihr => rw [Tree.size, Tree.leaves, List.length_append]; omega

@[simp] theorem Tree.paths_length (T : Tree) : T.paths.length = T.leaves.length := by
  induction T with
  | leaf x => rfl
  | node l r ihl ihr => simp [Tree.paths, Tree.leaves, ihl, ihr]

@[simp] theorem Tree.codes_length (T : Tree) : T.codes.length = T.leaves.length := by
  cases T with
  | leaf x => rfl
  | node l r => exact Tree.paths_length _

@[simp] theorem codeTable_length (T : Tree) : (codeTable T).length = T.leaves.length := by simp [codeTable]

theorem Tree.paths_fst (T : Tree) : T.paths.map (·.1) = T.leaves := by
  induction T with
  | leaf x => rfl
  | node l r ihl ihr =>
    simp only [Tree.paths, Tree.leaves, List.map_append, List.map_map, ← ihl, ← ihr]
    rfl

theorem Tree.codes_fst (T : Tree) : T.codes.map (·.1) = T.leaves := by
  cases T with
  | leaf x => rfl
  | node l r => exact Tree.paths_fst _

/-- Every path is shorter than the leaves are many. -/
theorem Tree.path_length {T : Tree} {p : Symbol × BitString} (hp : p ∈ T.paths) : p.2.length + 1 ≤ T.leaves.length := by
  induction T generalizing p with
  | leaf x => rw [List.mem_singleton.mp hp]; simp [Tree.leaves]
  | node l r ihl ihr =>
    rw [Tree.leaves, List.length_append]
    have hl := l.leaves_pos
    have hr := r.leaves_pos
    rcases List.mem_append.mp hp with hp | hp
    · obtain ⟨q, hq, rfl⟩ := List.mem_map.mp hp
      have := ihl hq
      simp only [List.length_cons]
      omega
    · obtain ⟨q, hq, rfl⟩ := List.mem_map.mp hp
      have := ihr hq
      simp only [List.length_cons]
      omega

/-- Every code has at least one bit. -/
theorem Tree.code_pos {T : Tree} {p : Symbol × BitString} (hp : p ∈ T.codes) : 1 ≤ p.2.length := by
  cases T with
  | leaf x => rw [List.mem_singleton.mp hp]; simp
  | node l r =>
    rcases List.mem_append.mp hp with hp | hp <;> obtain ⟨q, _, rfl⟩ := List.mem_map.mp hp <;> simp

/-- Every code has at most LEN_MAX bits when the leaves are at most K_MAX (R152). -/
theorem Tree.code_length {T : Tree} {p : Symbol × BitString} (hp : p ∈ T.codes) : p.2.length ≤ max 1 (T.leaves.length - 1) := by
  cases T with
  | leaf x => rw [List.mem_singleton.mp hp]; simp
  | node l r => have := Tree.path_length (T := .node l r) hp; omega

end Sys2Proof.Machine
end

