-- ==== Sys2Proof/Laws/Codes.lean ====
section
/-! SUPPORT. CODEGEN lists the codes of the live tree in pre-order; ENCODE packs the codes of the text (42_code_table.md R150, R151). -/

namespace Sys2Proof.Machine

variable {s t : State} {T : Tree}

/-! ### CODEGEN -/

/-- One more valid code-table entry. -/
def State.withCode (s : State) (e : CtEntry) : State := { s with ct := s.ct.store 0 s.cfg.kMax s.ctCnt.toNat e, ctCnt := s.ctCnt + 1#32 }

/-- More valid code-table entries. -/
def State.withCodes (s : State) (l : List CtEntry) : State := l.foldl State.withCode s

theorem wp_appendCt (e : CtEntry) {Q : Unit → State → Prop} {E : Stop → State → Prop} :
    Cmd.wp (appendCt e) Q E s ↔ Q () (s.withCode e) := Iff.rfl

theorem withCodes_append (s : State) (l l' : List CtEntry) : s.withCodes (l ++ l') = (s.withCodes l).withCodes l' :=
  List.foldl_append ..

theorem withCodes_frame (s : State) (l : List CtEntry) :
    s.withCodes l = { s with ct := (s.withCodes l).ct, ctCnt := (s.withCodes l).ctCnt } := by
  induction l generalizing s with
  | nil => rfl
  | cons e l ih =>
    show (s.withCode e).withCodes l = _
    rw [ih (s.withCode e)]
    rfl

theorem withCodes_node (s : State) (l : List CtEntry) : (s.withCodes l).node = s.node := by rw [withCodes_frame]

/-- Entries that fit are listed after the ones that were there. -/
theorem withCodes_holds {l l' : List CtEntry} (hc : s.ctCnt.toNat = l.length) (hl : s.ct.holds 0 l)
    (hfit : l.length + l'.length ≤ s.cfg.kMax) (hk : s.cfg.kMax < 2 ^ 32) :
    (s.withCodes l').ctCnt.toNat = l.length + l'.length ∧ (s.withCodes l').ct.holds 0 (l ++ l') ∧
      s.ct.sameFrom (s.withCodes l').ct (l.length + l'.length) := by
  induction l' generalizing s l with
  | nil => simpa using ⟨hc, hl, .refl _ _⟩
  | cons e l' ih =>
    rw [List.length_cons] at hfit
    have h1 : (s.withCode e).ctCnt.toNat = (l ++ [e]).length := by
      show (s.ctCnt + 1#32).toNat = _
      rw [BitVec.toNat_add, hc, List.length_append]
      simp
      omega
    have h2 : (s.withCode e).ct.holds 0 (l ++ [e]) := by
      show (s.ct.store 0 s.cfg.kMax s.ctCnt.toNat e).holds 0 _
      rw [hc]
      have := hl.storeNext (lo := 0) (hi := s.cfg.kMax) (a := e) (by omega) (by omega)
      rwa [Nat.zero_add] at this
    obtain ⟨k1, k2, k3⟩ := ih h1 h2 (by rw [List.length_append, List.length_singleton]; show _ ≤ s.cfg.kMax; omega) hk
    have hlen : (l ++ [e]).length = l.length + 1 := by simp
    rw [hlen] at k1 k3
    rw [List.append_assoc, List.singleton_append] at k2
    refine ⟨?_, k2, ?_⟩
    · rw [List.length_cons]; show ((s.withCode e).withCodes l').ctCnt.toNat = _; omega
    · refine Memory.sameFrom.trans (m' := (s.withCode e).ct) ?_ (k3.mono (by rw [List.length_cons]; omega))
      exact Memory.sameFrom_store (by rw [hc, List.length_cons]; omega)

/-- The entry of a leaf under a path. -/
def pathEntry (pre : BitString) (p : Symbol × BitString) : CtEntry :=
  { sym := p.1, len := BitVec.ofNat 24 (pre ++ p.2).length, code := pre ++ p.2 }

/-- The walk lists the leaves of the tree on top of the stack, and goes on with what is below it (R150). -/
theorem codeWalk_tree {Q : Unit → State → Prop} {E : Stop → State → Prop} {id : NodeId} {d : Nat} {b : Bool} {path pre : BitString}
    {stk : List (NodeId × Nat × Bool)} {fuel : Nat} (hT : holdsTree s.node id T) (hpre : pathTo path d b = pre) (hd : pre.length = d)
    (hnext : ∀ path', d ≤ path'.length → path'.take d = pre →
      Cmd.wp (codeWalk fuel stk path') Q E (s.withCodes (T.paths.map (pathEntry pre)))) :
    Cmd.wp (codeWalk (T.size + fuel) ((id, d, b) :: stk) path) Q E s := by
  induction T generalizing s id d b path pre stk fuel with
  | leaf x =>
    obtain ⟨n, hn, hl, hx⟩ := hT
    rw [Tree.size, Nat.add_comm, codeWalk, Cmd.wp_bind, Cmd.wp_readNode, nodeAt_some hn]
    rw [if_pos hl, Cmd.wp_bind, wp_appendCt, hpre]
    have := hnext pre (by omega) (by rw [← hd]; exact List.take_length)
    rw [hx, show pre.take d = pre from by rw [← hd]; exact List.take_length]
    simpa [Tree.paths, pathEntry, State.withCodes, hd] using this
  | node l r ihl ihr =>
    obtain ⟨n, hn, hl, kl, kr⟩ := hT
    rw [Tree.size, show l.size + r.size + 1 + fuel = (l.size + (r.size + fuel)) + 1 by omega, codeWalk, Cmd.wp_bind, Cmd.wp_readNode,
      nodeAt_some hn]
    simp only [hl, hpre]
    rw [if_neg (by simp)]
    have e1 : pathTo pre (d + 1) false = pre ++ [false] := by
      simp [pathTo, ← hd]
    refine ihl kl e1 (by simp [hd]) fun path1 h1 h1' => ?_
    have h1'' : path1.take d = pre := by
      have := congrArg (List.take d) h1'
      rwa [List.take_take, Nat.min_eq_left (by omega), List.take_append_of_le_length (by omega),
        show pre.take d = pre from by rw [← hd]; exact List.take_length] at this
    have e2 : pathTo path1 (d + 1) true = pre ++ [true] := by
      simp [pathTo, h1'']
    refine ihr (by rw [withCodes_node]; exact kr) e2 (by simp [hd]) fun path2 h2 h2' => ?_
    have h2'' : path2.take d = pre := by
      have := congrArg (List.take d) h2'
      rwa [List.take_take, Nat.min_eq_left (by omega), List.take_append_of_le_length (by omega),
        show pre.take d = pre from by rw [← hd]; exact List.take_length] at this
    have := hnext path2 (by omega) h2''
    rw [← withCodes_append]
    have e : (Tree.node l r).paths.map (pathEntry pre) =
        l.paths.map (pathEntry (pre ++ [false])) ++ r.paths.map (pathEntry (pre ++ [true])) := by
      simp only [Tree.paths, List.map_append, List.map_map]
      congr 1 <;> refine List.map_congr_left fun p _ => ?_ <;> simp [pathEntry]
    rwa [e] at this

/-- CODEGEN (R150). -/
theorem codeGen_ok (hT : s.liveTree T) (hsize : T.size ≤ s.cfg.nodeMax) :
    Cmd.wp codeGen (fun _ t => t = State.withCodes { s with ctCnt := 0#32 } (codeTable T)) (fun _ _ => False) s := by
  obtain ⟨hr, hT⟩ := hT
  rw [codeGen, Cmd.wp_bind, Cmd.wp_csr, Cmd.wp_bind, Cmd.wp_raiseIf]
  refine ⟨fun e => absurd e hr, fun _ => ?_⟩
  rw [Cmd.wp_bind, Cmd.wp_update, Cmd.wp_bind]
  obtain ⟨u, hu⟩ : ∃ u : State, u = { s with ctCnt := 0#32 } := ⟨_, rfl⟩
  rw [← hu]
  have hc : u.cfg = s.cfg := by rw [hu]
  replace hT : holdsTree u.node s.root T := by rw [hu]; exact hT
  cases T with
  | leaf x =>
    obtain ⟨n, hn, hl, hx⟩ := hT
    rw [Cmd.wp_readNode, nodeAt_some hn, if_pos hl, wp_appendCt, hx]
    rfl
  | node l r =>
    have hT' := hT
    obtain ⟨n, hn, hl, _⟩ := hT
    rw [Cmd.wp_readNode, nodeAt_some hn]
    simp only [hl]
    rw [if_neg (by simp), Cmd.wp_bind, Cmd.wp_csr, hc,
      show s.cfg.nodeMax = (Tree.node l r).size + (s.cfg.nodeMax - (Tree.node l r).size) by omega]
    refine codeWalk_tree (pre := []) hT' rfl rfl fun path' _ _ => ?_
    have e : (Tree.node l r).paths.map (pathEntry []) = codeTable (.node l r) := by
      simp only [codeTable, Tree.codes]
      exact List.map_congr_left fun p _ => by simp [pathEntry]
    rw [e]
    unfold codeWalk
    cases hf : s.cfg.nodeMax - (Tree.node l r).size <;> exact (Cmd.wp_pure _).mpr rfl

/-! ### ENCODE -/

/-- The scan of the code table for a text word. -/
theorem wp_findCt {l : List CtEntry} (h : s.holdsCodes l) (v : Word) {Q : Option Nat → State → Prop} {E : Stop → State → Prop} :
    Cmd.wp (Cmd.findFrom (fun j => do
      let e ← readCt j
      pure (decide (e.sym.setWidth 32 = v))) l.length 0) Q E s ↔
      Q (l.findIdx? fun e => decide (e.sym.setWidth 32 = v)) s := by
  rw [Cmd.wp_findFrom (f := fun j => decide ((l.getD j { sym := 0#21, len := 0#24, code := [] }).sym.setWidth 32 = v))]
  · rw [find?_range' l { sym := 0#21, len := 0#24, code := [] } fun e => decide (e.sym.setWidth 32 = v)]
  · intro i _ hi Q
    rw [Cmd.wp_bind, Cmd.wp_readCt, ctAt_some (h.2.getD { sym := 0#21, len := 0#24, code := [] } (by omega)), Cmd.wp_pure]

theorem findIdx?_of_find? {α : Type} {l : List α} {p : α → Bool} {e : α} (h : l.find? p = some e) :
    ∃ j, l.findIdx? p = some j ∧ l[j]? = some e := by
  induction l with
  | nil => cases h
  | cons a l ih =>
    rw [List.findIdx?_cons]
    by_cases ha : p a = true
    · rw [List.find?_cons_of_pos ha] at h
      rw [if_pos ha]
      exact ⟨0, rfl, h⟩
    · rw [List.find?_cons_of_neg (by simpa using ha)] at h
      obtain ⟨j, h1, h2⟩ := ih h
      rw [if_neg ha, h1]
      exact ⟨j + 1, rfl, h2⟩

theorem sym_eq_iff (a b : Symbol) : a.setWidth 32 = b.setWidth 32 ↔ a = b := by
  refine ⟨fun h => ?_, fun h => by rw [h]⟩
  have := congrArg (BitVec.setWidth 21) h
  simpa using this

/-- The turn of ENCODE for a symbol that has a code is the push of that code (R151). -/
theorem wp_encodeStep {l : List CtEntry} {x : Symbol} {c : BitString} {i : Nat} (h : s.holdsCodes l)
    (ht : s.text.get? i = some (x.setWidth 32)) (hc : codeIn l x = some c) {Q : Unit → State → Prop} {E : Stop → State → Prop} :
    Cmd.wp (encodeStep i) Q E s ↔ Cmd.wp (Cmd.forBits pkPushBit c) Q E s := by
  rw [encodeStep, Cmd.wp_bind, Cmd.wp_readText, textAt_some ht, Cmd.wp_bind, Cmd.wp_csr, h.1, Cmd.wp_bind, wp_findCt h]
  simp only [sym_eq_iff]
  unfold codeIn at hc
  obtain ⟨e, he, rfl⟩ := Option.map_eq_some_iff.mp hc
  obtain ⟨j, hj, hje⟩ := findIdx?_of_find? he
  obtain ⟨hlt, hje⟩ := List.getElem?_eq_some_iff.mp hje
  rw [hj]
  simp only []
  rw [Cmd.wp_bind, Cmd.wp_readCt, ctAt_some (h.2.getZero hlt), hje]

/-- The turn of ENCODE for a word that is no entry's symbol (R151). -/
theorem encodeStep_noCode {l : List CtEntry} {v : Word} {i : Nat} (h : s.holdsCodes l) (ht : s.text.get? i = some v)
    (hc : ∀ e ∈ l, e.sym.setWidth 32 ≠ v) {Q : Unit → State → Prop} :
    Cmd.wp (encodeStep i) Q (fun e t => e = .raise .noCode i ∧ t = s) s := by
  rw [encodeStep, Cmd.wp_bind, Cmd.wp_readText, textAt_some ht, Cmd.wp_bind, Cmd.wp_csr, h.1, Cmd.wp_bind, wp_findCt h,
    List.findIdx?_eq_none_iff.mpr fun e he => by simpa using hc e he]
  exact ⟨rfl, rfl⟩

theorem textBits_cons {l : List CtEntry} {x : Symbol} {txt : List Symbol} {bs : BitString} (h : textBits l (x :: txt) = some bs) :
    ∃ c cs, codeIn l x = some c ∧ textBits l txt = some cs ∧ bs = c ++ cs := by
  rw [textBits] at h
  split at h
  · rename_i c cs h1 h2
    exact ⟨c, cs, h1, h2, (Option.some.inj h).symm⟩
  · cases h

theorem PackTo.codes {bs : BitString} (h : PackTo s bs t) {l : List CtEntry} (hl : s.holdsCodes l) : t.holdsCodes l := by
  rw [h.1]; exact hl

theorem PackTo.text {bs : BitString} (h : PackTo s bs t) : t.text = s.text := by rw [h.1]

/-- The loop of ENCODE when the bits fit (R151). -/
theorem encodeLoop_ok {l : List CtEntry} {txt : List Symbol} {bs cs : BitString} {i : Nat} (h : s.packs bs) (hl : s.holdsCodes l)
    (ht : s.text.holds i (txt.map (·.setWidth 32))) (hc : textBits l txt = some cs)
    (hfit : (bs.length + cs.length) / 8 ≤ s.cfg.pMax) (hp : s.cfg.pMax < 2 ^ 32) :
    Cmd.wp (Cmd.forFrom encodeStep txt.length i) (fun _ t => PackTo s (bs ++ cs) t) (fun _ _ => False) s := by
  induction txt generalizing s bs cs i with
  | nil =>
    obtain rfl : [] = cs := Option.some.inj hc
    rw [List.append_nil]
    exact .refl h
  | cons x txt ih =>
    obtain ⟨c, cs, h1, h2, rfl⟩ := textBits_cons hc
    rw [List.map_cons, Memory.holds_cons] at ht
    rw [List.length_append] at hfit
    rw [List.length_cons, Cmd.wp_forFrom_succ, wp_encodeStep hl ht.1 h1]
    refine Cmd.wp_mono (pushBits_ok h (by omega) hp) (fun _ t ht' => ?_) (fun _ _ h => h)
    refine Cmd.wp_mono (ih ht'.2.1 (ht'.codes hl) (by rw [ht'.text]; exact ht.2) h2
      (by rw [ht'.cfg, List.length_append]; omega) (by rw [ht'.cfg]; exact hp)) (fun _ u hu => ?_) (fun _ _ h => h)
    rw [List.append_assoc] at hu
    exact ht'.trans hu (Nat.div_le_div_right (by simp))

/-- The loop of ENCODE when the bits do not fit (R151). -/
theorem encodeLoop_full {l : List CtEntry} {txt : List Symbol} {bs cs : BitString} {i : Nat} (h : s.packs bs) (hl : s.holdsCodes l)
    (ht : s.text.holds i (txt.map (·.setWidth 32))) (hc : textBits l txt = some cs) (hb : bs.length ≤ 8 * s.cfg.pMax + 7)
    (hfull : 8 * s.cfg.pMax + 7 < bs.length + cs.length) (hp : s.cfg.pMax < 2 ^ 32) {Q : Unit → State → Prop} :
    Cmd.wp (Cmd.forFrom encodeStep txt.length i) Q
      (fun e t => e = .raise .capacity 7 ∧ PackTo s ((bs ++ cs).take (8 * s.cfg.pMax + 7)) t) s := by
  induction txt generalizing s bs cs i with
  | nil =>
    obtain rfl : [] = cs := Option.some.inj hc
    simp at hfull
    omega
  | cons x txt ih =>
    obtain ⟨c, cs, h1, h2, rfl⟩ := textBits_cons hc
    rw [List.map_cons, Memory.holds_cons] at ht
    rw [List.length_append] at hfull
    rw [List.length_cons, Cmd.wp_forFrom_succ, wp_encodeStep hl ht.1 h1]
    by_cases hfit : 8 * s.cfg.pMax + 7 < bs.length + c.length
    · refine Cmd.wp_mono (pushBits_full (Q := fun _ _ => False) h hb hfit hp) (fun _ _ h => h.elim) (fun e t ht' => ⟨ht'.1, ?_⟩)
      have e : (bs ++ (c ++ cs)).take (8 * s.cfg.pMax + 7) = bs ++ c.take (8 * s.cfg.pMax + 7 - bs.length) := by
        rw [List.take_append, List.take_of_length_le hb, List.take_append_of_le_length (by omega)]
      rw [e]
      exact ht'.2
    · refine Cmd.wp_mono (pushBits_ok h (by omega) hp) (fun _ t ht' => ?_) (fun _ _ h => h.elim)
      refine Cmd.wp_mono (ih (bs := bs ++ c) ht'.2.1 (ht'.codes hl) (by rw [ht'.text]; exact ht.2) h2
        (by rw [ht'.cfg, List.length_append]; omega) (by rw [ht'.cfg, List.length_append]; omega) (by rw [ht'.cfg]; exact hp))
        (fun _ _ h => h) (fun e u hu => ⟨hu.1, ?_⟩)
      have hu2 := hu.2
      rw [List.append_assoc, ht'.cfg] at hu2
      refine ht'.trans hu2 (Nat.div_le_div_right ?_)
      rw [List.length_take, List.length_append, List.length_append, List.length_append]
      omega

/-- The state in which ENCODE starts to push. -/
def State.encoding (s : State) : State :=
  { s with pkLen := 0#32, pad := 0#3, stgBits := 0#8, stgCnt := 0#3, origLen := 0#32 }

theorem encoding_packs (s : State) : s.encoding.packs [] := packs_nil rfl rfl rfl rfl

/-- ENCODE before its loop (R151). -/
theorem wp_encodeText (hn : s.textLen.toNat ≤ s.cfg.nMax) {Q : Unit → State → Prop} {E : Stop → State → Prop}
    (h : Cmd.wp (Cmd.forFrom encodeStep s.textLen.toNat 0)
      (fun _ t => Cmd.wp pkFlush (fun _ u => Q () { u with origLen := u.textLen }) E t) E s.encoding) :
    Cmd.wp encodeText Q E s := by
  simp only [encodeText, Cmd.wp_bind, Cmd.wp_csr, Cmd.wp_raiseIf, pkInit, Cmd.wp_update]
  exact ⟨fun e => by omega, fun _ => Cmd.wp_mono h (fun _ t ht => (Cmd.wp_bind _ _).mpr ht) fun _ _ h => h⟩

/-- ENCODE when the bytes fit PK (R151). -/
theorem encodeText_ok {l : List CtEntry} {txt : List Symbol} {bs : BitString} (hl : s.holdsCodes l)
    (hlen : s.textLen.toNat = txt.length) (hn : txt.length ≤ s.cfg.nMax) (ht : s.text.holds 0 (txt.map (·.setWidth 32)))
    (hc : textBits l txt = some bs) (hfit : (bs.length + 7) / 8 ≤ s.cfg.pMax) (hp : s.cfg.pMax < 2 ^ 32) :
    Cmd.wp encodeText (fun _ t => ClosedTo { s with origLen := s.textLen } bs t) (fun _ _ => False) s := by
  refine wp_encodeText (by omega) ?_
  rw [hlen]
  refine Cmd.wp_mono (encodeLoop_ok (bs := []) (encoding_packs s) hl ht hc (by simp only [List.length_nil, Nat.zero_add]; show _ ≤ s.cfg.pMax; omega) hp)
    (fun _ t h1 => ?_) (fun _ _ h => h)
  have hcfg : t.cfg = s.cfg := h1.cfg
  refine Cmd.wp_mono (pkFlush_ok h1.2.1 (by rw [hcfg]; exact hfit) (by rw [hcfg]; exact hp)) (fun _ u h2 => ?_) (fun _ _ h => h)
  obtain ⟨e1, _, p1⟩ := h1
  obtain ⟨e2, k2, p2⟩ := h2
  refine ⟨?_, k2, .trans (p1.mono (Nat.div_le_div_right (by simp))) p2⟩
  rw [e1] at e2
  rw [e2]
  rfl

/-- ENCODE when PK is full: before the text is at its end, or at the flush (R151). -/
theorem encodeText_full {l : List CtEntry} {pre : List Symbol} {bs : BitString} (hl : s.holdsCodes l)
    (hlen : pre.length ≤ s.textLen.toNat) (hn : s.textLen.toNat ≤ s.cfg.nMax) (ht : s.text.holds 0 (pre.map (·.setWidth 32)))
    (hc : textBits l pre = some bs) (hp : s.cfg.pMax < 2 ^ 32)
    (hfull : 8 * s.cfg.pMax + 7 < bs.length ∨ (pre.length = s.textLen.toNat ∧ s.cfg.pMax < (bs.length + 7) / 8)) :
    Cmd.wp encodeText (fun _ _ => False)
      (fun e t => e = .raise .capacity 7 ∧ PackTo s.encoding (bs.take (8 * s.cfg.pMax + 7)) t) s := by
  refine wp_encodeText hn ?_
  by_cases h : 8 * s.cfg.pMax + 7 < bs.length
  · rw [show s.textLen.toNat = pre.length + (s.textLen.toNat - pre.length) by omega, Cmd.wp_forFrom_add]
    exact Cmd.wp_mono (encodeLoop_full (bs := []) (Q := fun _ _ => False) (encoding_packs s) hl ht hc (Nat.zero_le _)
      (by simp only [List.length_nil, Nat.zero_add]; exact h) hp) (fun _ _ h => h.elim) (fun e t ht => ht)
  · obtain ⟨hlen, hfull⟩ : pre.length = s.textLen.toNat ∧ s.cfg.pMax < (bs.length + 7) / 8 := hfull.resolve_left h
    rw [← hlen]
    refine Cmd.wp_mono (encodeLoop_ok (bs := []) (encoding_packs s) hl ht hc (by simp only [List.length_nil, Nat.zero_add]; show _ ≤ s.cfg.pMax; omega) hp)
      (fun _ t h1 => ?_) (fun _ _ h => h.elim)
    have hcfg : t.cfg = s.cfg := h1.cfg
    rw [List.nil_append] at h1
    refine Cmd.wp_mono (pkFlush_full (Q := fun _ _ => False) h1.2.1 (by rw [hcfg]; omega) (by omega)) (fun _ _ h => h.elim) (fun e u h2 => ?_)
    obtain ⟨rfl, rfl⟩ := h2
    rw [List.take_of_length_le (by omega)]
    exact ⟨rfl, h1⟩

/-- ENCODE at the first symbol without a code (R151). -/
theorem encodeText_noCode {l : List CtEntry} {pre : List Symbol} {bs : BitString} {v : Word} (hl : s.holdsCodes l)
    (hlen : pre.length < s.textLen.toNat) (hn : s.textLen.toNat ≤ s.cfg.nMax) (ht : s.text.holds 0 (pre.map (·.setWidth 32)))
    (hv : s.text.get? pre.length = some v) (hc : textBits l pre = some bs) (hno : ∀ e ∈ l, e.sym.setWidth 32 ≠ v)
    (hfit : bs.length / 8 ≤ s.cfg.pMax) (hp : s.cfg.pMax < 2 ^ 32) :
    Cmd.wp encodeText (fun _ _ => False) (fun e t => e = .raise .noCode pre.length ∧ PackTo s.encoding bs t) s := by
  refine wp_encodeText hn ?_
  rw [show s.textLen.toNat = pre.length + ((s.textLen.toNat - pre.length - 1) + 1) by omega, Cmd.wp_forFrom_add,
    Nat.zero_add]
  refine Cmd.wp_mono (encodeLoop_ok (bs := []) (encoding_packs s) hl ht hc (by simp only [List.length_nil, Nat.zero_add]; exact hfit) hp)
    (fun _ t h1 => ?_) (fun _ _ h => h.elim)
  rw [List.nil_append] at h1
  rw [Cmd.wp_forFrom_succ]
  refine Cmd.wp_mono (encodeStep_noCode (Q := fun _ _ => False) (h1.codes hl) (by rw [h1.text]; exact hv) hno) (fun _ _ h => h.elim)
    (fun e u h2 => ?_)
  obtain ⟨rfl, rfl⟩ := h2
  exact ⟨rfl, h1⟩

end Sys2Proof.Machine
end

