-- ==== Sys2Proof/Laws/Forest.lean ====
section
/-! SUPPORT. The lists the builder works on are a forest as R53 says: leaves, extraction, combination and insertion keep it (10_state.md R53; 41_tree_builder.md R132 to R134). -/

namespace Sys2Proof.Machine

variable {c : Config} {m m' : Memory Node} {n : Nat} {h : List NodeId} {trees : List IdTree} {f : Forest} {nodes : List Node}

/-! ### A list of nodes as a node memory -/

/-- The nodes of a list at ids from `i` on. -/
def memoryFrom : Nat → List Node → Memory Node
  | _, [] => []
  | i, x :: nodes => (i, x) :: memoryFrom (i + 1) nodes

/-- NODE with exactly the nodes of a list, ids from 1. -/
def nodeMemory (nodes : List Node) : Memory Node := memoryFrom 1 nodes

theorem get?_memoryFrom (i k : Nat) (nodes : List Node) :
    (memoryFrom i nodes).get? k = if i ≤ k then nodes[k - i]? else none := by
  induction nodes generalizing i with
  | nil => simp [memoryFrom]
  | cons x nodes ih =>
    rw [memoryFrom, Memory.get?, ih]
    by_cases h : i = k
    · subst h; simp
    · rw [if_neg h]
      by_cases h2 : i + 1 ≤ k
      · rw [if_pos h2, if_pos (by omega), show k - i = (k - (i + 1)) + 1 by omega, List.getElem?_cons_succ]
      · rw [if_neg h2, if_neg (by omega)]

theorem get?_nodeMemory (k : Nat) (nodes : List Node) :
    (nodeMemory nodes).get? k = if 1 ≤ k then nodes[k - 1]? else none := get?_memoryFrom 1 k nodes

/-- A memory that holds the list agrees with it on the list's ids. -/
theorem holds_nodeMemory (hm : m.holds 1 nodes) {k : Nat} (h1 : 1 ≤ k) (h2 : k ≤ nodes.length) :
    m.get? k = (nodeMemory nodes).get? k := by
  rw [get?_nodeMemory, if_pos h1]
  have := hm (k - 1) (by omega)
  rwa [show 1 + (k - 1) = k by omega] at this

theorem holdsShape.same {t : IdTree} (hs : holdsShape m t) (e : ∀ k ∈ t.ids, m'.get? k = m.get? k) : holdsShape m' t := by
  induction t with
  | leaf id =>
    obtain ⟨x, hx, r⟩ := hs
    exact ⟨x, by rw [e id (by simp [IdTree.ids])]; exact hx, r⟩
  | node id l r ihl ihr =>
    obtain ⟨x, xl, xr, hx, h1, h2, h3, h4, hl, hr, sl, sr, hw, kl, kr⟩ := hs
    have el : l.root ∈ (IdTree.node id l r).ids := by simp [IdTree.ids, l.root_mem]
    have er : r.root ∈ (IdTree.node id l r).ids := by simp [IdTree.ids, r.root_mem]
    exact ⟨x, xl, xr, by rw [e id (by simp [IdTree.ids])]; exact hx, h1, h2, h3, h4, by rw [e _ el]; exact hl, by rw [e _ er]; exact hr,
      sl, sr, hw, ihl kl fun k hk => e k (by simp [IdTree.ids, hk]), ihr kr fun k hk => e k (by simp [IdTree.ids, hk])⟩

/-- A grove is one in any memory that agrees on the allocated nodes. -/
theorem Grove.same (g : Grove c m n h trees) (e : ∀ k, 1 ≤ k → k ≤ n → m'.get? k = m.get? k) : Grove c m' n h trees := by
  have he : ∀ t ∈ trees, ∀ k ∈ t.ids, m'.get? k = m.get? k := fun t ht k hk => e k (g.range ht hk).1 (g.range ht hk).2
  have hw : ∀ t ∈ trees, ∀ k ∈ t.ids, weightAt m' k = weightAt m k := fun t ht k hk => by unfold weightAt; rw [he t ht k hk]
  have hroots : (trees.map fun t => weightAt m' t.root) = trees.map fun t => weightAt m t.root :=
    List.map_congr_left fun t ht => hw t ht _ t.root_mem
  have hleaves : (trees.flatMap IdTree.leafIds).map (weightAt m') = (trees.flatMap IdTree.leafIds).map (weightAt m) := by
    refine List.map_congr_left fun k hk => ?_
    obtain ⟨t, ht, hk⟩ := List.mem_flatMap.mp hk
    exact hw t ht _ (IdTree.leafIds_subset hk)
  refine ⟨g.ids, fun t ht => (g.shapes t ht).same (he t ht), fun t ht => ?_, g.queued, ?_, ?_, g.leaves⟩
  · have := g.roots t ht
    unfold stOf at this ⊢
    rw [he t ht _ t.root_mem]
    exact this
  · rw [hroots, hleaves]; exact g.total
  · rw [hroots]; exact g.bounded

theorem IdTree.tree_same {t : IdTree} (e : ∀ k ∈ t.ids, m'.get? k = m.get? k) : t.tree m' = t.tree m := by
  induction t with
  | leaf id => simp [IdTree.tree, symAt, e id (by simp [IdTree.ids])]
  | node id l r ihl ihr =>
    rw [IdTree.tree, IdTree.tree, ihl fun k hk => e k (by simp [IdTree.ids, hk]), ihr fun k hk => e k (by simp [IdTree.ids, hk])]

/-! ### Lists of nodes -/

theorem weightAt_nodeMemory {k : Nat} (h1 : 1 ≤ k) : weightAt (nodeMemory nodes) k = ((nodes[k - 1]?).map (·.w.toNat)).getD 0 := by
  unfold weightAt
  rw [get?_nodeMemory, if_pos h1]
  cases nodes[k - 1]? <;> rfl

theorem weightIn_eq {id : NodeId} (h1 : 1 ≤ id.toNat) : weightIn nodes id = weightAt (nodeMemory nodes) id.toNat := by
  rw [weightAt_nodeMemory h1]
  rfl

theorem get?_setSt {id : NodeId} {x : Node} (h1 : 1 ≤ id.toNat) (hx : nodes[id.toNat - 1]? = some x) (v : BitVec 2) (k : Nat) :
    (nodeMemory (setSt nodes id v)).get? k = if k = id.toNat then some { x with st := v } else (nodeMemory nodes).get? k := by
  rw [get?_nodeMemory, get?_nodeMemory, setSt_getElem?]
  by_cases hk : 1 ≤ k
  · rw [if_pos hk, if_pos hk]
    by_cases he : k = id.toNat
    · subst he; rw [if_pos rfl, if_pos rfl, hx]; rfl
    · rw [if_neg (by omega), if_neg he]
  · rw [if_neg hk, if_neg hk, if_neg (by omega)]

theorem get?_snoc (x : Node) (k : Nat) :
    (nodeMemory (nodes ++ [x])).get? k = if k = nodes.length + 1 then some x else (nodeMemory nodes).get? k := by
  rw [get?_nodeMemory, get?_nodeMemory]
  by_cases hk : 1 ≤ k
  · rw [if_pos hk, if_pos hk]
    by_cases he : k = nodes.length + 1
    · subst he; simp
    · rw [if_neg he]
      by_cases hl : k - 1 < nodes.length
      · rw [List.getElem?_append_left hl]
      · rw [List.getElem?_eq_none (by simp; omega), List.getElem?_eq_none (by omega)]
  · rw [if_neg hk, if_neg hk, if_neg (by omega)]

/-- The node of an id in a changed list, but for its `st`. -/
theorem setSt_keeps {id : NodeId} {v : BitVec 2} {k : Nat} {x : Node} (hx : nodes[k]? = some x) :
    ∃ y, (setSt nodes id v)[k]? = some y ∧ sameButSt x y := by
  rw [setSt_getElem?, hx]
  split
  · exact ⟨_, rfl, rfl, rfl, rfl, rfl, rfl⟩
  · exact ⟨x, rfl, rfl, rfl, rfl, rfl, rfl⟩

theorem sameButSt.trans {x y z : Node} (h1 : sameButSt x y) (h2 : sameButSt y z) : sameButSt x z :=
  ⟨h2.1.trans h1.1, h2.2.1.trans h1.2.1, h2.2.2.1.trans h1.2.2.1, h2.2.2.2.1.trans h1.2.2.2.1, h2.2.2.2.2.trans h1.2.2.2.2⟩

/-- The node list of an id a grove has. -/
theorem Grove.nodeAt (g : Grove c (nodeMemory nodes) nodes.length h trees) {id : NodeId} (h1 : 1 ≤ id.toNat) (h2 : id.toNat ≤ nodes.length) :
    ∃ x, nodes[id.toNat - 1]? = some x ∧ (nodeMemory nodes).get? id.toNat = some x := by
  obtain ⟨x, hx⟩ := g.written h1 h2
  refine ⟨x, ?_, hx⟩
  rwa [get?_nodeMemory, if_pos h1] at hx

theorem sublist_roots (trees : List IdTree) : (trees.map IdTree.root).Sublist (trees.flatMap IdTree.ids) := by
  induction trees with
  | nil => exact List.Sublist.refl _
  | cons t trees ih =>
    rw [List.map_cons, List.flatMap_cons]
    refine List.Sublist.append (l₁ := [t.root]) ?_ ih
    exact List.singleton_sublist.mpr t.root_mem

/-- The queue changes by one root of the list, and so does its `st`. -/
theorem Grove.setSt (g : Grove c (nodeMemory nodes) nodes.length h trees) {id : NodeId} {h' : List NodeId} {v : BitVec 2}
    (hid : id.toNat ∈ trees.map IdTree.root) (hq : ∀ y, y ≠ id → (y ∈ h' ↔ y ∈ h)) (hv : v = if id ∈ h' then stQueued else stDetached) :
    Grove c (nodeMemory (setSt nodes id v)) (setSt nodes id v).length h' trees := by
  obtain ⟨t, ht, e⟩ := List.mem_map.mp hid
  have hr := g.range ht t.root_mem
  rw [e] at hr
  obtain ⟨x, hx, hx'⟩ := g.nodeAt hr.1 hr.2
  rw [setSt_length]
  exact g.setRoot hid hx' (get?_setSt hr.1 hx v) hq hv

/-! ### The forest of the builder -/

/-- What the leaves and COMBINE keep of a forest made from the table `l`: the invariants of R53, the leaves of the table at
ids 1, 2, ..., every root in the queue, and the node allocated last among them. -/
structure ForestOk (c : Config) (l : List FtEntry) (f : Forest) (trees : List IdTree) : Prop where
  grove : Grove c (nodeMemory f.nodes) f.nodes.length f.heap trees
  ordered : HeapList.Ordered (weightIn f.nodes) f.heap
  nodup : f.heap.Nodup
  leafIds : (trees.flatMap IdTree.leafIds).Perm (List.range' 1 l.length)
  leafNodes : ∀ (j : Nat) (e : FtEntry), l[j]? = some e →
    ∃ x : Node, f.nodes[j]? = some x ∧ x.leaf = true ∧ x.sym = e.sym ∧ x.w = e.cnt ∧ x.l = 0#24 ∧ x.r = 0#24
  inQueue : ∀ t ∈ trees, t.root ∈ f.heap.map (·.toNat)
  count : f.nodes.length + f.heap.length = 2 * l.length
  roots : trees.length = f.heap.length
  last : f.heap ≠ [] → BitVec.ofNat 24 f.nodes.length ∈ f.heap

/-- The weights of the leaves are the counts of the table. -/
theorem ForestOk.weights {l : List FtEntry} (k : ForestOk c l f trees) :
    (trees.map fun t => weightAt (nodeMemory f.nodes) t.root).sum = (l.map (·.cnt.toNat)).sum := by
  rw [k.grove.total, (k.leafIds.map _).sum_eq]
  congr 1
  refine List.ext_getElem (by simp) fun j h1 h2 => ?_
  rw [List.getElem_map, List.getElem_map, List.getElem_range', weightAt_nodeMemory (by omega)]
  rw [List.length_map] at h2
  obtain ⟨x, hx, _, _, hw, _⟩ := k.leafNodes j l[j] (List.getElem?_eq_getElem h2)
  rw [show 1 + 1 * j - 1 = j by omega, hx, ← hw]
  rfl

/-- The leaf of one more table entry. -/
theorem ForestOk.addLeaf {l : List FtEntry} (k : ForestOk c l f trees) {e : FtEntry} (hlen : f.nodes.length = l.length)
    (hbound : ((l ++ [e]).map (·.cnt.toNat)).sum ≤ c.nMax) (hcount : l.length + 1 ≤ c.kMax) (hk : c.kMax ≤ 2 ^ 23) :
    ForestOk c (l ++ [e]) (f.addLeaf e) (.leaf (f.nodes.length + 1) :: trees) := by
  have hid : f.nextId.toNat = f.nodes.length + 1 := nextId_toNat (by omega)
  have hnew : f.nextId ∉ f.heap := fun hm => by
    have := (k.grove.queued_node hm).2.1
    omega
  rw [List.map_append, List.sum_append] at hbound
  obtain ⟨x, hx⟩ : ∃ x, x = newNode true e.sym e.cnt 0#24 0#24 := ⟨_, rfl⟩
  obtain ⟨ns, hns⟩ : ∃ ns, ns = f.nodes ++ [x] := ⟨_, rfl⟩
  have hl : ns.length = f.nodes.length + 1 := by rw [hns]; simp
  have hxs : ns[f.nodes.length]? = some x := by rw [hns]; simp
  have g1 : Grove c (nodeMemory ns) ns.length f.heap (.leaf (f.nodes.length + 1) :: trees) := by
    rw [hl]
    refine k.grove.addLeaf (x := x) (by rw [hns]; exact get?_snoc x) (by rw [hx]; rfl) (by rw [hx]; rfl) (by rw [hx]; rfl) (by rw [hx]; rfl) ?_ ?_
    · rw [k.weights, hx]; simpa [newNode] using hbound
    · rw [k.leafIds.length_eq]; simpa using hcount
  have hperm := HeapList.insert_perm (W := weightIn ns) (h := f.heap) f.nextId
  have hnodes : (f.addLeaf e).nodes = Machine.setSt ns f.nextId stQueued := by rw [hns, hx]; rfl
  have hheap : (f.addLeaf e).heap = HeapList.insert (weightIn ns) f.heap f.nextId := by rw [hns, hx]; rfl
  have hmem : f.nextId ∈ HeapList.insert (weightIn ns) f.heap f.nextId := hperm.mem_iff.mpr List.mem_cons_self
  have g2 := g1.setSt (id := f.nextId) (h' := HeapList.insert (weightIn ns) f.heap f.nextId) (v := stQueued) (by simp [hid])
    (fun y hy => by rw [hperm.mem_iff, List.mem_cons, or_iff_right hy]) (by rw [if_pos hmem])
  have hold : ∀ id ∈ f.heap, weightIn ns id = weightIn f.nodes id := fun id hid => by
    rw [hns]; exact weightIn_append (k.grove.queued_node hid).1 (k.grove.queued_node hid).2.1
  have hcnt := k.count
  rw [← hnodes] at g2
  have hln : (f.addLeaf e).nodes.length = f.nodes.length + 1 := by rw [hnodes, setSt_length, hl]
  refine ⟨by rw [hheap]; exact g2, ?_, ?_, ?_, ?_, ?_, ?_, ?_, ?_⟩
  · rw [hnodes, weightIn_setSt, hheap]
    exact HeapList.insert_ordered (HeapList.ordered_congr (fun x hx => (hold x hx).symm) k.ordered) _
  · rw [hheap]; exact hperm.nodup_iff.mpr (List.nodup_cons.mpr ⟨hnew, k.nodup⟩)
  · rw [List.flatMap_cons, IdTree.leafIds, List.singleton_append, List.length_append, List.length_singleton, List.range'_1_concat, hlen,
      Nat.add_comm 1 l.length]
    exact (k.leafIds.cons _).trans (List.perm_append_singleton _ _).symm
  · intro j e' hj
    rw [hnodes]
    by_cases hjl : j < l.length
    · rw [List.getElem?_append_left hjl] at hj
      obtain ⟨y, hy, r⟩ := k.leafNodes j e' hj
      obtain ⟨z, hz, s⟩ := setSt_keeps (nodes := ns) (id := f.nextId) (v := stQueued) (k := j) (x := y)
        (by rw [hns, List.getElem?_append_left (by omega), hy])
      exact ⟨z, hz, s.1.trans r.1, s.2.1.trans r.2.1, s.2.2.1.trans r.2.2.1, s.2.2.2.1.trans r.2.2.2.1, s.2.2.2.2.trans r.2.2.2.2⟩
    · have hj' : j = l.length := by
        have := (List.getElem?_eq_some_iff.mp hj).1
        simp at this
        omega
      subst hj'
      simp only [List.getElem?_concat_length, Option.some.injEq] at hj
      subst hj
      obtain ⟨z, hz, s⟩ := setSt_keeps (nodes := ns) (id := f.nextId) (v := stQueued) (k := l.length) (x := x) (by rw [← hlen]; exact hxs)
      rw [hx] at s
      exact ⟨z, hz, s⟩
  · intro t ht
    rw [hheap]
    rcases List.mem_cons.mp ht with rfl | ht
    · exact List.mem_map.mpr ⟨f.nextId, hmem, hid⟩
    · obtain ⟨y, hy, e'⟩ := List.mem_map.mp (k.inQueue t ht)
      exact List.mem_map.mpr ⟨y, hperm.mem_iff.mpr (List.mem_cons_of_mem _ hy), e'⟩
  · rw [hln, hheap, hperm.length_eq]
    simp only [List.length_cons, List.length_append, List.length_nil]
    omega
  · rw [hheap, hperm.length_eq, List.length_cons, List.length_cons, k.roots]
  · intro _
    rw [hln, hheap]
    exact hmem

theorem ForestOk.empty (c : Config) : ForestOk c [] { nodes := [], heap := [] } [] where
  grove := Grove.empty c _
  ordered := fun _ _ h => absurd h (Nat.not_lt_zero _)
  nodup := List.nodup_nil
  leafIds := .refl _
  leafNodes := fun _ _ h => by simp at h
  inQueue := fun _ h => by simp at h
  count := rfl
  roots := rfl
  last := fun h => absurd rfl h

/-- LEAVES makes a forest of single leaves (R132). -/
theorem leavesForest_ok (l : List FtEntry) (hbound : (l.map (·.cnt.toNat)).sum ≤ c.nMax) (hcount : l.length ≤ c.kMax)
    (hk : c.kMax ≤ 2 ^ 23) : ∃ trees, ForestOk c l (leavesForest l) trees := by
  induction l using List.reverseRecOn with
  | nil => exact ⟨[], ForestOk.empty c⟩
  | append_singleton l e ih =>
    simp only [List.length_append, List.length_singleton] at hcount
    obtain ⟨trees, ok⟩ := ih (by rw [List.map_append, List.sum_append] at hbound; omega) (by omega)
    refine ⟨.leaf ((leavesForest l).nodes.length + 1) :: trees, ?_⟩
    have := ok.addLeaf (e := e) (leavesForest_lengths l).1 hbound hcount hk
    unfold leavesForest at this ⊢
    rw [List.foldl_append]
    exact this

/-- The root at the top of the queue becomes DETACHED. -/
theorem Grove.extract (g : Grove c (nodeMemory f.nodes) f.nodes.length f.heap trees) (hnd : f.heap.Nodup) (hne : 0 < f.heap.length) :
    Grove c (nodeMemory f.extract.nodes) f.extract.nodes.length f.extract.heap trees := by
  have hp := HeapList.extract_perm (W := weightIn f.nodes) hne
  have hnot : f.heap.getD 0 0#24 ∉ HeapList.extract (weightIn f.nodes) f.heap := (List.nodup_cons.mp (hp.nodup_iff.mp hnd)).1
  exact g.setSt (h' := HeapList.extract (weightIn f.nodes) f.heap) (v := stDetached) (g.queued _ (HeapList.getD_mem hne))
    (fun y hy => by rw [hp.mem_iff, List.mem_cons, or_iff_right hy]) (by rw [if_neg hnot])

/-- COMBINE joins two trees of the forest (R133). -/
theorem ForestOk.grow {l : List FtEntry} (k : ForestOk c l f trees) (h2 : 2 ≤ f.heap.length)
    (hcount : l.length ≤ c.kMax) (hk : c.kMax ≤ 2 ^ 23) (hn : c.nMax < 2 ^ 32) : ∃ trees', ForestOk c l f.grow trees' := by
  have hcnt := k.count
  have hid : f.nextId.toNat = f.nodes.length + 1 := nextId_toNat (by omega)
  have l1 := extract_lengths (f := f) (by omega)
  have l2 := extract_lengths (f := f.extract) (by omega)
  obtain ⟨a, ea⟩ : ∃ a, a = f.heap.getD 0 0#24 := ⟨_, rfl⟩
  obtain ⟨b, eb⟩ : ∃ b, b = f.extract.heap.getD 0 0#24 := ⟨_, rfl⟩
  have p1 : f.heap.Perm (a :: f.extract.heap) := by rw [ea]; exact HeapList.extract_perm (by omega)
  have p2 : f.extract.heap.Perm (b :: f.extract.extract.heap) := by rw [eb]; exact HeapList.extract_perm (by omega)
  have p12 : f.heap.Perm (a :: b :: f.extract.extract.heap) := p1.trans (p2.cons a)
  have nd12 := p12.nodup_iff.mp k.nodup
  have nd1 : f.extract.heap.Nodup := (List.nodup_cons.mp (p1.nodup_iff.mp k.nodup)).2
  have g2 := (k.grove.extract k.nodup (by omega)).extract nd1 (by omega)
  have W1 : weightIn f.extract.nodes = weightIn f.nodes := weightIn_setSt _ _ _
  have W2 : weightIn f.extract.extract.nodes = weightIn f.nodes := (weightIn_setSt _ _ _).trans W1
  have o1 : HeapList.Ordered (weightIn f.nodes) f.extract.heap := HeapList.extract_ordered k.ordered
  have o2 : HeapList.Ordered (weightIn f.nodes) f.extract.extract.heap := by
    have := HeapList.extract_ordered (W := weightIn f.extract.nodes) (h := f.extract.heap) (by rw [W1]; exact o1)
    rw [← W1]; exact this
  have ma : a ∈ f.heap := p12.mem_iff.mpr List.mem_cons_self
  have mb : b ∈ f.heap := p12.mem_iff.mpr (List.mem_cons_of_mem _ List.mem_cons_self)
  have qa := k.grove.queued_node ma
  have qb := k.grove.queued_node mb
  obtain ⟨f2, hf2⟩ : ∃ f2, f2 = f.extract.extract := ⟨_, rfl⟩
  have hg : f.grow = Forest.insert { nodes := Machine.setSt (Machine.setSt (f2.nodes ++ [newNode false 0#21 (wordIn f2.nodes a + wordIn f2.nodes b) a b]) a stChild) b stChild, heap := f2.heap } f2.nextId := by
    rw [hf2, ea, eb]; rfl
  rw [← hf2] at g2 W2 o2 p2 p12 nd12 l2
  have hl2 : f2.nodes.length = f.nodes.length := by omega
  have hni : f2.nextId = f.nextId := by rw [Forest.nextId, Forest.nextId, hl2]
  rw [hni] at hg
  have hab : a ≠ b := fun e => (List.nodup_cons.mp nd12).1 (e ▸ List.mem_cons_self)
  have na : a ∉ f2.heap := fun e => (List.nodup_cons.mp nd12).1 (List.mem_cons_of_mem _ e)
  have nb : b ∉ f2.heap := (List.nodup_cons.mp (List.nodup_cons.mp nd12).2).1
  have notin : ∀ y : NodeId, y ∉ f2.heap → y.toNat ∉ f2.heap.map (·.toNat) := fun y hy hm => by
    obtain ⟨z, hz, e⟩ := List.mem_map.mp hm
    exact hy (by rw [← BitVec.eq_of_toNat_eq e]; exact hz)
  obtain ⟨ta, hta, ra⟩ := List.mem_map.mp (k.grove.queued a ma)
  obtain ⟨tb, htb, rb⟩ := List.mem_map.mp (k.grove.queued b mb)
  have htab : tb ≠ ta := fun e => hab (BitVec.eq_of_toNat_eq (by rw [← ra, ← rb, e]))
  obtain ⟨rest, hrest⟩ : ∃ rest, rest = (trees.erase ta).erase tb := ⟨_, rfl⟩
  have hp : trees.Perm (ta :: tb :: rest) := by
    rw [hrest]
    exact (List.perm_cons_erase hta).trans ((List.perm_cons_erase ((List.mem_erase_of_ne htab).mpr htb)).cons _)
  obtain ⟨xa, hxa, hxa'⟩ := g2.nodeAt (id := a) qa.1 (by omega)
  obtain ⟨xb, hxb, hxb'⟩ := g2.nodeAt (id := b) qb.1 (by omega)
  have wa : weightIn f2.nodes a = xa.w.toNat := by rw [weightIn, hxa]; rfl
  have wb : weightIn f2.nodes b = xb.w.toNat := by rw [weightIn, hxb]; rfl
  have hsum : xa.w.toNat + xb.w.toNat ≤ c.nMax := by
    have := g2.bounded
    rw [(hp.map _).sum_eq, List.map_cons, List.map_cons, List.sum_cons, List.sum_cons, ra, rb, weightAt_some hxa', weightAt_some hxb'] at this
    omega
  obtain ⟨x, hx⟩ : ∃ x, x = newNode false 0#21 (wordIn f2.nodes a + wordIn f2.nodes b) a b := ⟨_, rfl⟩
  have hxw : x.w.toNat = xa.w.toNat + xb.w.toNat := by
    rw [hx]
    show (wordIn f2.nodes a + wordIn f2.nodes b).toNat = _
    rw [wordIn, wordIn, wa, wb, BitVec.toNat_add, BitVec.toNat_ofNat, BitVec.toNat_ofNat, Nat.mod_eq_of_lt xa.w.isLt, Nat.mod_eq_of_lt xb.w.isLt]
    exact Nat.mod_eq_of_lt (by omega)
  rw [← hx] at hg
  obtain ⟨ns, hns⟩ : ∃ ns, ns = Machine.setSt (Machine.setSt (f2.nodes ++ [x]) a stChild) b stChild := ⟨_, rfl⟩
  rw [← hns] at hg
  have hnsl : ns.length = f.nodes.length + 1 := by rw [hns, setSt_length, setSt_length, List.length_append, hl2]; rfl
  have e1 : (f2.nodes ++ [x])[a.toNat - 1]? = some xa := by rw [List.getElem?_append_left (by omega), hxa]
  have e2 : (Machine.setSt (f2.nodes ++ [x]) a stChild)[b.toNat - 1]? = some xb := by
    have : a.toNat ≠ b.toNat := fun e => hab (BitVec.eq_of_toNat_eq e)
    rw [setSt_getElem?, if_neg (by omega), List.getElem?_append_left (by omega), hxb]
  have hmem : ∀ j, (nodeMemory ns).get? j = if j = f.nodes.length + 1 then some x else if j = ta.root then some { xa with st := stChild }
      else if j = tb.root then some { xb with st := stChild } else (nodeMemory f2.nodes).get? j := by
    intro j
    have : a.toNat ≠ b.toNat := fun e => hab (BitVec.eq_of_toNat_eq e)
    rw [hns, get?_setSt qb.1 e2, get?_setSt qa.1 e1, get?_snoc, ra, rb, hl2]
    by_cases h1 : j = f.nodes.length + 1
    · rw [if_neg (by omega), if_neg (by omega), if_pos h1, if_pos h1]
    · rw [if_neg h1]
      by_cases h2 : j = a.toNat
      · rw [if_neg (by omega), if_pos h2, if_neg h1, if_pos h2]
      · rw [if_neg h2, if_neg h1, if_neg h2]
  have g3 : Grove c (nodeMemory ns) ns.length f2.heap (.node (f.nodes.length + 1) ta tb :: rest) := by
    rw [hnsl, ← hl2]
    refine g2.link hp (by rw [ra]; exact hxa') (by rw [rb]; exact hxb') (by rw [ra]; exact notin a na) (by rw [rb]; exact notin b nb)
      (by rw [hl2]; exact hmem) (by rw [hx]; rfl) (by rw [hx]; rfl) (by rw [hx]; rfl) (by rw [hx]; exact ra.symm) (by rw [hx]; exact rb.symm) hxw
  have hip := HeapList.insert_perm (W := weightIn ns) (h := f2.heap) f.nextId
  have him : f.nextId ∈ HeapList.insert (weightIn ns) f2.heap f.nextId := hip.mem_iff.mpr List.mem_cons_self
  have g4 := g3.setSt (id := f.nextId) (h' := HeapList.insert (weightIn ns) f2.heap f.nextId) (v := stQueued) (by simp [hid])
    (fun y hy => by rw [hip.mem_iff, List.mem_cons, or_iff_right hy]) (by rw [if_pos him])
  have hgn : f.grow.nodes = Machine.setSt ns f.nextId stQueued := by rw [hg]; rfl
  have hgh : f.grow.heap = HeapList.insert (weightIn ns) f2.heap f.nextId := by rw [hg]; rfl
  have hgl : f.grow.nodes.length = f.nodes.length + 1 := by rw [hgn, setSt_length, hnsl]
  have hnew : f.nextId ∉ f2.heap := fun hm => by
    have := (k.grove.queued_node (p12.mem_iff.mpr (List.mem_cons_of_mem _ (List.mem_cons_of_mem _ hm)))).2.1
    omega
  have hold : ∀ id ∈ f2.heap, weightIn ns id = weightIn f.nodes id := fun id hid => by
    have q := k.grove.queued_node (p12.mem_iff.mpr (List.mem_cons_of_mem _ (List.mem_cons_of_mem _ hid)))
    rw [hns, weightIn_setSt, weightIn_setSt, weightIn_append q.1 (by omega), W2]
  refine ⟨.node (f.nodes.length + 1) ta tb :: rest, by rw [hgh, hgn]; exact g4, ?_, ?_, ?_, ?_, ?_, ?_, ?_, ?_⟩
  · rw [hgn, weightIn_setSt, hgh]
    exact HeapList.insert_ordered (HeapList.ordered_congr (fun x hx => (hold x hx).symm) o2) _
  · rw [hgh]; exact hip.nodup_iff.mpr (List.nodup_cons.mpr ⟨hnew, (List.nodup_cons.mp (List.nodup_cons.mp nd12).2).2⟩)
  · have : (IdTree.node (f.nodes.length + 1) ta tb :: rest).flatMap IdTree.leafIds = (ta :: tb :: rest).flatMap IdTree.leafIds := by
      simp [IdTree.leafIds]
    rw [this]
    exact (hp.flatMap_right _).symm.trans k.leafIds
  · intro j e hj
    have hjl : j < l.length := (List.getElem?_eq_some_iff.mp hj).1
    obtain ⟨y, hy, r⟩ := k.leafNodes j e hj
    obtain ⟨y1, hy1, s1⟩ := setSt_keeps (nodes := f.nodes) (id := f.heap.getD 0 0#24) (v := stDetached) hy
    obtain ⟨y2, hy2, s2⟩ := setSt_keeps (nodes := f.extract.nodes) (id := f.extract.heap.getD 0 0#24) (v := stDetached) hy1
    have hy2' : (f2.nodes ++ [x])[j]? = some y2 := by
      have : f2.nodes[j]? = some y2 := by rw [hf2]; exact hy2
      rw [List.getElem?_append_left (List.getElem?_eq_some_iff.mp this).1]
      exact this
    obtain ⟨y3, hy3, s3⟩ := setSt_keeps (id := a) (v := stChild) hy2'
    obtain ⟨y4, hy4, s4⟩ := setSt_keeps (id := b) (v := stChild) hy3
    rw [← hns] at hy4
    obtain ⟨z, hz, s5⟩ := setSt_keeps (id := f.nextId) (v := stQueued) hy4
    have s := ((((s1.trans s2).trans s3).trans s4).trans s5)
    rw [hgn]
    exact ⟨z, hz, s.1.trans r.1, s.2.1.trans r.2.1, s.2.2.1.trans r.2.2.1, s.2.2.2.1.trans r.2.2.2.1, s.2.2.2.2.trans r.2.2.2.2⟩
  · intro t ht
    rw [hgh]
    rcases List.mem_cons.mp ht with rfl | ht
    · exact List.mem_map.mpr ⟨f.nextId, him, hid⟩
    · obtain ⟨y, hy, e⟩ := List.mem_map.mp (k.inQueue t (hp.mem_iff.mpr (List.mem_cons_of_mem _ (List.mem_cons_of_mem _ ht))))
      refine List.mem_map.mpr ⟨y, hip.mem_iff.mpr (List.mem_cons_of_mem _ ?_), e⟩
      have hdisj := hp.nodup_iff.mp (show trees.Nodup from ?_)
      · rcases List.mem_cons.mp (p12.mem_iff.mp hy) with e' | hy
        · exfalso
          have : t = ta := unique_of_mem k.grove.nodup (hp.mem_iff.mpr (List.mem_cons_of_mem _ (List.mem_cons_of_mem _ ht))) hta t.root_mem
            (by rw [← e, e', ← ra]; exact ta.root_mem)
          exact (List.nodup_cons.mp hdisj).1 (this ▸ List.mem_cons_of_mem _ ht)
        · rcases List.mem_cons.mp hy with e' | hy
          · exfalso
            have : t = tb := unique_of_mem k.grove.nodup (hp.mem_iff.mpr (List.mem_cons_of_mem _ (List.mem_cons_of_mem _ ht))) htb t.root_mem
              (by rw [← e, e', ← rb]; exact tb.root_mem)
            exact (List.nodup_cons.mp (List.nodup_cons.mp hdisj).2).1 (this ▸ ht)
          · exact hy
      · refine List.Nodup.of_map IdTree.root (List.Nodup.sublist ?_ k.grove.nodup)
        exact sublist_roots trees
  · rw [hgl, hgh, hip.length_eq, List.length_cons]
    omega
  · have := hp.length_eq
    have hr := k.roots
    rw [hgh, hip.length_eq, List.length_cons, List.length_cons]
    simp only [List.length_cons] at this
    omega
  · intro _
    rw [hgl, hgh]
    exact him

/-- The construction loop ends with one tree, rooted at the node allocated last (R134). -/
theorem growAll_ok {l : List FtEntry} (n : Nat) (k : ForestOk c l f trees) (h1 : 1 ≤ f.heap.length) (hn : f.heap.length ≤ n + 1)
    (hcount : l.length ≤ c.kMax) (hk : c.kMax ≤ 2 ^ 23) (hN : c.nMax < 2 ^ 32) :
    ∃ t, ForestOk c l (growAll n f) [t] := by
  induction n generalizing f trees with
  | zero =>
    rw [growAll]
    obtain ⟨t, rfl⟩ := List.length_eq_one_iff.mp (show trees.length = 1 by rw [k.roots]; omega)
    exact ⟨t, k⟩
  | succ n ih =>
    rw [growAll]
    split
    · obtain ⟨trees', k'⟩ := k.grow (by omega) hcount hk hN
      have := grow_lengths (f := f) (by omega)
      exact ih k' (by omega) (by omega)
    · obtain ⟨t, rfl⟩ := List.length_eq_one_iff.mp (show trees.length = 1 by rw [k.roots]; omega)
      exact ⟨t, k⟩

/-- What BUILD makes of a table, in lists (R134): one tree, rooted at the node allocated last, which is out of the queue. -/
theorem builtForest_ok {l : List FtEntry} (hne : l ≠ []) (hbound : (l.map (·.cnt.toNat)).sum ≤ c.nMax) (hcount : l.length ≤ c.kMax)
    (hk : c.kMax ≤ 2 ^ 23) (hN : c.nMax < 2 ^ 32) :
    ∃ t, Grove c (nodeMemory (builtForest l).nodes) (2 * l.length - 1) [] [t] ∧ (builtForest l).heap = [] ∧
      (builtForest l).nodes.length = 2 * l.length - 1 ∧ builtRoot l = BitVec.ofNat 24 (2 * l.length - 1) ∧
      t.root = 2 * l.length - 1 ∧ t.leafIds.Perm (List.range' 1 l.length) ∧
      weightAt (nodeMemory (builtForest l).nodes) t.root = (l.map (·.cnt.toNat)).sum ∧
      ∀ (j : Nat) (e : FtEntry), l[j]? = some e → ∃ x : Node, (builtForest l).nodes[j]? = some x ∧ x.leaf = true ∧ x.sym = e.sym ∧
        x.w = e.cnt ∧ x.l = 0#24 ∧ x.r = 0#24 := by
  have hpos := List.length_pos_of_ne_nil hne
  have hll := leavesForest_lengths l
  obtain ⟨trees, k⟩ := leavesForest_ok l hbound hcount hk
  obtain ⟨t, k⟩ : ∃ t, ForestOk c l (grownForest l) [t] := growAll_ok l.length k (by omega) (by omega) hcount hk hN
  have hgl := grownForest_lengths hne
  have hel := extract_lengths (f := grownForest l) (by omega)
  have hheap : (builtForest l).heap = [] := List.length_eq_zero_iff.mp (show (grownForest l).extract.heap.length = 0 by omega)
  have hlen : (builtForest l).nodes.length = 2 * l.length - 1 := by show (grownForest l).extract.nodes.length = _; omega
  obtain ⟨r, hr⟩ := List.length_eq_one_iff.mp hgl.1
  have hroot : r = BitVec.ofNat 24 (2 * l.length - 1) := by
    have := k.last (by rw [hr]; simp)
    rw [hr, hgl.2] at this
    exact (List.mem_singleton.mp this).symm
  have htr : t.root = r.toNat := by
    have := k.inQueue t (List.mem_singleton.mpr rfl)
    rw [hr] at this
    simpa using this
  have hrn : r.toNat = 2 * l.length - 1 := by rw [hroot, BitVec.toNat_ofNat, Nat.mod_eq_of_lt (by omega)]
  have g := k.grove.extract k.nodup (by omega)
  rw [show (grownForest l).extract = builtForest l from rfl, hheap, hlen] at g
  have hleaf : t.leafIds.Perm (List.range' 1 l.length) := by simpa using k.leafIds
  have hnodes : ∀ (j : Nat) (e : FtEntry), l[j]? = some e → ∃ x : Node, (builtForest l).nodes[j]? = some x ∧ x.leaf = true ∧ x.sym = e.sym ∧
        x.w = e.cnt ∧ x.l = 0#24 ∧ x.r = 0#24 := by
    intro j e hj
    obtain ⟨y, hy, r⟩ := k.leafNodes j e hj
    obtain ⟨z, hz, s⟩ := setSt_keeps (id := (grownForest l).heap.getD 0 0#24) (v := stDetached) hy
    exact ⟨z, hz, s.1.trans r.1, s.2.1.trans r.2.1, s.2.2.1.trans r.2.2.1, s.2.2.2.1.trans r.2.2.2.1, s.2.2.2.2.trans r.2.2.2.2⟩
  refine ⟨t, g, hheap, hlen, ?_, htr.trans hrn, hleaf, ?_, hnodes⟩
  · rw [builtRoot, hr, ← hroot]; rfl
  · have hw := k.weights
    rw [List.map_cons, List.map_nil, List.sum_cons, List.sum_nil, Nat.add_zero] at hw
    rw [← hw]
    have hrg := k.grove.range (List.mem_singleton.mpr rfl) t.root_mem
    have e1 : weightIn (builtForest l).nodes r = weightIn (grownForest l).nodes r := congrFun (weightIn_setSt _ _ _) r
    rw [weightIn_eq (by omega), weightIn_eq (by omega), ← htr] at e1
    exact e1

end Sys2Proof.Machine
end

