-- ==== Sys2Proof/Laws/Snapshot.lean ====
section
/-! SUPPORT. SERIALIZE writes the container's bytes, and stops at the first position that BLOB does not have (44_container.md R190, R191, R193). -/

namespace Sys2Proof.Machine

variable {s t : State} {T : Tree}

/-! ### Bytes into BLOB -/

/-- The state with bytes written to BLOB from a position on. -/
def State.withBytes : State → Nat → List Byte → State
  | s, _, [] => s
  | s, p, v :: vs => (s.storeBlob p v).withBytes (p + 1) vs

theorem withBytes_append (s : State) (p : Nat) (l l' : List Byte) :
    s.withBytes p (l ++ l') = (s.withBytes p l).withBytes (p + l.length) l' := by
  induction l generalizing s p with
  | nil => rfl
  | cons v l ih =>
    rw [List.cons_append, State.withBytes, State.withBytes, ih, List.length_cons, show p + 1 + l.length = p + (l.length + 1) by omega]

theorem withBytes_frame (s : State) (p : Nat) (l : List Byte) : s.withBytes p l = { s with blob := (s.withBytes p l).blob } := by
  induction l generalizing s p with
  | nil => rfl
  | cons v l ih => rw [State.withBytes, ih]; rfl

theorem withBytes_cfg (s : State) (p : Nat) (l : List Byte) : (s.withBytes p l).cfg = s.cfg := by rw [withBytes_frame]
theorem withBytes_node (s : State) (p : Nat) (l : List Byte) : (s.withBytes p l).node = s.node := by rw [withBytes_frame]
theorem withBytes_pk (s : State) (p : Nat) (l : List Byte) : (s.withBytes p l).pk = s.pk := by rw [withBytes_frame]

/-- BLOB after bytes that fit. -/
theorem get?_withBytes {p : Nat} {l : List Byte} (h : p + l.length ≤ s.cfg.bMax) (k : Nat) :
    (s.withBytes p l).blob.get? k = if p ≤ k ∧ k < p + l.length then l[k - p]? else s.blob.get? k := by
  induction l generalizing s p with
  | nil => rw [State.withBytes, if_neg (by simp only [List.length_nil]; omega)]
  | cons v l ih =>
    rw [List.length_cons] at h ⊢
    rw [State.withBytes, ih (by show p + 1 + l.length ≤ s.cfg.bMax; omega)]
    show (if _ then _ else (s.blob.store 0 s.cfg.bMax p v).get? k) = _
    rw [Memory.get?_store]
    by_cases e : k = p
    · subst e
      rw [if_neg (by omega), if_pos ⟨rfl, by omega, by omega⟩, if_pos ⟨by omega, by omega⟩, Nat.sub_self]
      rfl
    · by_cases e2 : p + 1 ≤ k ∧ k < p + 1 + l.length
      · rw [if_pos e2, if_pos (by omega), show k - p = (k - (p + 1)) + 1 by omega, List.getElem?_cons_succ]
      · rw [if_neg e2, if_neg (by tauto), if_neg (by omega)]

theorem withBytes_holds {p : Nat} {l : List Byte} (h : p + l.length ≤ s.cfg.bMax) : (s.withBytes p l).blob.holds p l := fun k hk => by
  rw [get?_withBytes h, if_pos (by omega), Nat.add_sub_cancel_left]

/-- Bytes written elsewhere leave a list of bytes held. -/
theorem Memory.holds.withBytes {p q : Nat} {l l' : List Byte} (hl : s.blob.holds q l') (h : p + l.length ≤ s.cfg.bMax)
    (ho : q + l'.length ≤ p ∨ p + l.length ≤ q) : (s.withBytes p l).blob.holds q l' :=
  hl.congr fun k hk => by rw [get?_withBytes h, if_neg (by omega)]

theorem withBytes_sameFrom {p n : Nat} {l : List Byte} (h : p + l.length ≤ s.cfg.bMax) (hn : p + l.length ≤ n) :
    s.blob.sameFrom (s.withBytes p l).blob n := fun k hk => by rw [get?_withBytes h, if_neg (by omega)]

/-- Only BLOB has changed, and no element past its end. -/
def BlobOnly (s t : State) : Prop := t = { s with blob := t.blob } ∧ s.blob.sameFrom t.blob s.cfg.bMax

theorem BlobOnly.refl (s : State) : BlobOnly s s := ⟨rfl, .refl _ _⟩

theorem BlobOnly.trans {u : State} (h1 : BlobOnly s t) (h2 : BlobOnly t u) : BlobOnly s u := by
  obtain ⟨e1, p1⟩ := h1
  obtain ⟨e2, p2⟩ := h2
  have hc : t.cfg = s.cfg := by rw [e1]
  refine ⟨?_, p1.trans (by rw [hc] at p2; exact p2)⟩
  rw [e1] at e2
  exact e2

theorem withBytes_only {p : Nat} {l : List Byte} (h : p + l.length ≤ s.cfg.bMax) : BlobOnly s (s.withBytes p l) :=
  ⟨withBytes_frame s p l, withBytes_sameFrom h h⟩

/-- The fault of a position past the end. -/
def NoRoom (s : State) (e : Stop) (t : State) : Prop := e = .raise .capacity 2 ∧ BlobOnly s t

theorem NoRoom.from {u : State} {e : Stop} (h1 : BlobOnly s t) (h2 : NoRoom t e u) : NoRoom s e u := ⟨h2.1, h1.trans h2.2⟩

theorem wp_emit {p : Nat} {v : Byte} (h : p < s.cfg.bMax) {Q : Unit → State → Prop} {E : Stop → State → Prop} :
    Cmd.wp (emit p v) Q E s ↔ Q () (s.withBytes p [v]) := by
  rw [emit, Cmd.wp_bind, Cmd.wp_csr, Cmd.wp_bind, Cmd.wp_raiseIf]
  exact ⟨fun h' => h'.2 (by omega), fun h' => ⟨fun e => by omega, fun _ => h'⟩⟩

theorem emit_full {p : Nat} {v : Byte} (h : s.cfg.bMax ≤ p) {Q : Unit → State → Prop} : Cmd.wp (emit p v) Q (NoRoom s) s := by
  rw [emit, Cmd.wp_bind, Cmd.wp_csr, Cmd.wp_bind, Cmd.wp_raiseIf]
  exact ⟨fun _ => ⟨rfl, .refl _⟩, fun e => absurd h e⟩

theorem wp_emitAll {p : Nat} {l : List Byte} (h : p + l.length ≤ s.cfg.bMax) {Q : Unit → State → Prop} {E : Stop → State → Prop} :
    Cmd.wp (emitAll p l) Q E s ↔ Q () (s.withBytes p l) := by
  induction l generalizing s p with
  | nil => exact Iff.rfl
  | cons v l ih =>
    rw [List.length_cons] at h
    rw [emitAll, Cmd.wp_bind, wp_emit (by omega), ih (by rw [withBytes_cfg]; omega)]
    exact Iff.rfl

theorem emitAll_full {p : Nat} {l : List Byte} (h : s.cfg.bMax < p + l.length) (hl : l ≠ []) {Q : Unit → State → Prop} :
    Cmd.wp (emitAll p l) Q (NoRoom s) s := by
  induction l generalizing s p with
  | nil => exact absurd rfl hl
  | cons v l ih =>
    rw [List.length_cons] at h
    rw [emitAll, Cmd.wp_bind]
    by_cases hp : p < s.cfg.bMax
    · rw [wp_emit hp]
      by_cases hl' : l = []
      · subst hl'; simp at h; omega
      · exact Cmd.wp_mono (ih (by rw [withBytes_cfg]; omega) hl') (fun _ _ h => h)
          (fun _ _ h => h.from (withBytes_only (by simp; omega)))
    · exact emit_full (by omega)

/-! ### Bytes of numbers -/

theorem beBytes_length (n v : Nat) : (beBytes n v).length = n := by
  induction n generalizing v with
  | zero => rfl
  | succ n ih => rw [beBytes, List.length_cons, ih]

theorem bytes32_eq (v : Word) : bytes32 v = beBytes 4 v.toNat := by
  have e (k : Nat) : (v.extractLsb' (8 * k) 8 : Byte) = BitVec.ofNat 8 (v.toNat / 256 ^ k) := by
    apply BitVec.eq_of_toNat_eq
    rw [BitVec.extractLsb'_toNat, BitVec.toNat_ofNat, Nat.shiftRight_eq_div_pow, Nat.pow_mul]
  have e0 := e 0; have e1 := e 1; have e2 := e 2; have e3 := e 3
  simp only [Nat.mul_zero, Nat.mul_one, show 8 * 2 = 16 from rfl, show 8 * 3 = 24 from rfl] at e0 e1 e2 e3
  rw [bytes32, e0, e1, e2, e3]
  rfl

theorem symbolBytes_eq (x : Symbol) : symbolBytes x = beBytes 3 x.toNat := by
  have h2 : ((x.extractLsb' 16 5).setWidth 8 : Byte) = BitVec.ofNat 8 (x.toNat / 256 ^ 2) := by
    apply BitVec.eq_of_toNat_eq
    rw [BitVec.toNat_setWidth, BitVec.extractLsb'_toNat, BitVec.toNat_ofNat, Nat.shiftRight_eq_div_pow]
    have := x.isLt
    omega
  have h1 : (x.extractLsb' 8 8 : Byte) = BitVec.ofNat 8 (x.toNat / 256 ^ 1) := by
    apply BitVec.eq_of_toNat_eq
    rw [BitVec.extractLsb'_toNat, BitVec.toNat_ofNat, Nat.shiftRight_eq_div_pow]
    rfl
  have h0 : (x.extractLsb' 0 8 : Byte) = BitVec.ofNat 8 (x.toNat / 256 ^ 0) := by
    apply BitVec.eq_of_toNat_eq
    rw [BitVec.extractLsb'_toNat, BitVec.toNat_ofNat, Nat.shiftRight_eq_div_pow]
    rfl
  rw [symbolBytes, h2, h1, h0]
  rfl

@[simp] theorem snapshot_length (T : Tree) : T.snapshot.length = 5 * T.leaves.length - 1 := by
  induction T with
  | leaf x => simp [Tree.snapshot, Tree.leaves, beBytes_length]
  | node l r ihl ihr =>
    have h1 := l.leaves_pos
    have h2 := r.leaves_pos
    simp only [Tree.snapshot, Tree.leaves, List.length_cons, List.length_append, ihl, ihr]
    omega

theorem snapshot_ne_nil (T : Tree) : T.snapshot ≠ [] := by cases T <;> simp [Tree.snapshot]

/-! ### The walk -/

/-- The walk writes the snapshot of the tree on top of the stack and goes on with what is below it (R193). -/
theorem snapshotWalk_tree {Q : Nat → State → Prop} {E : Stop → State → Prop} {id : NodeId} {stk : List NodeId} {fuel p : Nat}
    (hT : holdsTree s.node id T) (hp : p + T.snapshot.length ≤ s.cfg.bMax)
    (hnext : Cmd.wp (snapshotWalk fuel stk (p + T.snapshot.length)) Q E (s.withBytes p T.snapshot)) :
    Cmd.wp (snapshotWalk (T.size + fuel) (id :: stk) p) Q E s := by
  induction T generalizing s id stk fuel p with
  | leaf x =>
    obtain ⟨n, hn, hl, hx⟩ := hT
    have e : Tree.snapshot (.leaf x) = 0x01#8 :: symbolBytes x := by rw [symbolBytes_eq]; rfl
    have hlen : (0x01#8 :: symbolBytes x).length = 4 := by simp [symbolBytes]
    rw [e, hlen] at hp hnext
    rw [Tree.size, Nat.add_comm, snapshotWalk, Cmd.wp_bind, Cmd.wp_readNode, nodeAt_some hn]
    rw [if_pos hl, Cmd.wp_bind, hx, wp_emitAll (by rw [hlen]; exact hp)]
    exact hnext
  | node l r ihl ihr =>
    obtain ⟨n, hn, hl, kl, kr⟩ := hT
    simp only [Tree.snapshot, List.length_cons, List.length_append] at hp hnext
    rw [Tree.size, show l.size + r.size + 1 + fuel = (l.size + (r.size + fuel)) + 1 by omega, snapshotWalk, Cmd.wp_bind, Cmd.wp_readNode,
      nodeAt_some hn]
    simp only [hl]
    rw [if_neg (by simp), Cmd.wp_bind, wp_emit (by omega)]
    refine ihl (by rw [withBytes_node]; exact kl) (by rw [withBytes_cfg]; omega) (ihr (by rw [withBytes_node, withBytes_node]; exact kr)
      (by rw [withBytes_cfg, withBytes_cfg]; omega) ?_)
    rw [show p + 1 + l.snapshot.length + r.snapshot.length = p + (l.snapshot.length + r.snapshot.length + 1) by omega]
    have e : ((s.withBytes p [0x00#8]).withBytes (p + 1) l.snapshot).withBytes (p + 1 + l.snapshot.length) r.snapshot =
        s.withBytes p (0x00#8 :: (l.snapshot ++ r.snapshot)) := by
      rw [← withBytes_append]
      rfl
    rw [e]
    exact hnext

theorem snapshotWalk_full {Q : Nat → State → Prop} {id : NodeId} {stk : List NodeId} {fuel p : Nat} (hT : holdsTree s.node id T)
    (hp : s.cfg.bMax < p + T.snapshot.length) : Cmd.wp (snapshotWalk (T.size + fuel) (id :: stk) p) Q (NoRoom s) s := by
  induction T generalizing s id stk fuel p with
  | leaf x =>
    obtain ⟨n, hn, hl, hx⟩ := hT
    have e : Tree.snapshot (.leaf x) = 0x01#8 :: symbolBytes x := by rw [symbolBytes_eq]; rfl
    rw [e] at hp
    rw [Tree.size, Nat.add_comm, snapshotWalk, Cmd.wp_bind, Cmd.wp_readNode, nodeAt_some hn]
    rw [if_pos hl, Cmd.wp_bind, hx]
    exact emitAll_full hp (by simp)
  | node l r ihl ihr =>
    obtain ⟨n, hn, hl, kl, kr⟩ := hT
    simp only [Tree.snapshot, List.length_cons, List.length_append] at hp
    rw [Tree.size, show l.size + r.size + 1 + fuel = (l.size + (r.size + fuel)) + 1 by omega, snapshotWalk, Cmd.wp_bind, Cmd.wp_readNode,
      nodeAt_some hn]
    simp only [hl]
    rw [if_neg (by simp), Cmd.wp_bind]
    by_cases h1 : p < s.cfg.bMax
    · rw [wp_emit h1]
      have o1 : BlobOnly s (s.withBytes p [0x00#8]) := withBytes_only (by simp; omega)
      by_cases h2 : p + 1 + l.snapshot.length ≤ s.cfg.bMax
      · have o2 : BlobOnly s ((s.withBytes p [0x00#8]).withBytes (p + 1) l.snapshot) := o1.trans (withBytes_only (by rw [withBytes_cfg]; exact h2))
        refine snapshotWalk_tree (by rw [withBytes_node]; exact kl) (by rw [withBytes_cfg]; exact h2) ?_
        exact Cmd.wp_mono (ihr (by rw [withBytes_node, withBytes_node]; exact kr) (by rw [withBytes_cfg, withBytes_cfg]; omega)) (fun _ _ h => h)
          (fun _ _ h => h.from o2)
      · exact Cmd.wp_mono (ihl (by rw [withBytes_node]; exact kl) (by rw [withBytes_cfg]; omega)) (fun _ _ h => h) (fun _ _ h => h.from o1)
    · exact emit_full (by omega)

/-! ### The payload -/

theorem payload_ok {payload : List Byte} {p : Nat} (hpk : s.pk.holds 0 payload) (hp : p + payload.length ≤ s.cfg.bMax) :
    Cmd.wp (Cmd.forFrom (emitPayload p) payload.length 0) (fun _ t => t = s.withBytes p payload) (fun _ _ => False) s := by
  refine Cmd.wp_mono (Cmd.wp_forFrom (I := fun i t => t = s.withBytes p (payload.take i)) payload.length 0 (fun i t h1 h2 ht => ?_) (by rfl))
    (fun _ t ht => ?_) (fun _ _ h => h)
  · subst ht
    have hi : i < payload.length := by omega
    rw [emitPayload, Cmd.wp_bind, Cmd.wp_readPk, pkAt_some (by rw [withBytes_pk]; exact hpk.getZero hi), wp_emit (by rw [withBytes_cfg]; omega)]
    have e : payload.take (i + 1) = payload.take i ++ [payload[i]] := by rw [List.take_concat_get' payload i hi]
    rw [e, withBytes_append, List.length_take, Nat.min_eq_left (by omega)]
  · rw [ht, Nat.zero_add, List.take_length]

theorem payload_full {payload : List Byte} {p : Nat} (hpk : s.pk.holds 0 payload) (h1 : p ≤ s.cfg.bMax)
    (hp : s.cfg.bMax < p + payload.length) :
    Cmd.wp (Cmd.forFrom (emitPayload p) payload.length 0) (fun _ _ => False) (NoRoom s) s := by
  refine Cmd.wp_mono (Cmd.wp_forFrom (I := fun i t => p + i ≤ s.cfg.bMax ∧ BlobOnly s t) payload.length 0 (fun i t h1 h2 ht => ?_) ⟨by omega, .refl _⟩)
    (fun _ t ht => ?_) (fun _ _ h => h)
  · have hi : i < payload.length := by omega
    have hpkt : t.pk = s.pk := by rw [ht.2.1]
    have hc : t.cfg = s.cfg := by rw [ht.2.1]
    rw [emitPayload, Cmd.wp_bind, Cmd.wp_readPk, pkAt_some (by rw [hpkt]; exact hpk.getZero hi)]
    by_cases hb : p + i < s.cfg.bMax
    · rw [wp_emit (by rw [hc]; exact hb)]
      exact ⟨by omega, ht.2.trans (withBytes_only (by rw [hc]; simp; omega))⟩
    · exact Cmd.wp_mono (emit_full (Q := fun _ _ => False) (by rw [hc]; omega)) (fun _ _ h => h.elim) (fun _ _ h => h.from ht.2)
  · omega

/-! ### SERIALIZE -/

/-- The bytes before TLEN (R190). -/
def headBytes (orig pad : Nat) : List Byte := [0x48#8, 0x55#8, 0x46#8, 0x31#8] ++ beBytes 4 orig ++ beBytes 1 pad

theorem headBytes_length (orig pad : Nat) : (headBytes orig pad).length = 9 := by simp [headBytes, beBytes_length]

theorem containerBytes_eq (orig pad : Nat) (tree : Option Tree) (payload : List Byte) :
    containerBytes orig pad tree payload =
      headBytes orig pad ++ (beBytes 4 (snapshotOf tree).length ++ (beBytes 4 payload.length ++ (snapshotOf tree ++ payload))) := by
  simp [containerBytes, headBytes]

theorem containerBytes_length (orig pad : Nat) (tree : Option Tree) (payload : List Byte) :
    (containerBytes orig pad tree payload).length = 17 + (snapshotOf tree).length + payload.length := by
  simp only [containerBytes_eq, List.length_append, headBytes_length, beBytes_length]
  omega

theorem wp_emitHeader (h : 17 ≤ s.cfg.bMax) {Q : Unit → State → Prop} {E : Stop → State → Prop} :
    Cmd.wp emitHeader Q E s ↔ Q () (s.withBytes 0 (headBytes s.origLen.toNat s.pad.toNat)) := by
  have hm : magic.length = 4 := rfl
  have hb : ∀ v : Word, (bytes32 v).length = 4 := fun _ => rfl
  rw [emitHeader, Cmd.wp_bind, wp_emitAll (by rw [hm]; omega), Cmd.wp_bind, Cmd.wp_csr, Cmd.wp_bind, put32,
    wp_emitAll (by rw [hb, withBytes_cfg]; omega), Cmd.wp_bind, Cmd.wp_csr, wp_emit (by rw [withBytes_cfg, withBytes_cfg]; omega)]
  have e1 : (s.withBytes 0 magic).origLen = s.origLen := by rw [withBytes_frame]
  have e2 : ((s.withBytes 0 magic).withBytes 4 (bytes32 s.origLen)).pad = s.pad := by rw [withBytes_frame, withBytes_frame]
  have e3 : (s.pad.setWidth 8 : Byte) = BitVec.ofNat 8 (s.pad.toNat / 256 ^ 0) := by
    apply BitVec.eq_of_toNat_eq
    rw [BitVec.toNat_setWidth, BitVec.toNat_ofNat, Nat.pow_zero, Nat.div_one]
  rw [e1, e2, e3, headBytes, withBytes_append, withBytes_append, bytes32_eq]
  exact Iff.rfl

theorem wp_emitLengths {p : Nat} (h : 17 ≤ s.cfg.bMax) (hp : p - 17 < 2 ^ 32) {Q : Unit → State → Prop} {E : Stop → State → Prop} :
    Cmd.wp (emitLengths p) Q E s ↔ Q () ((s.withBytes 9 (beBytes 4 (p - 17))).withBytes 13 (beBytes 4 s.pkLen.toNat)) := by
  have hb : ∀ v : Word, (bytes32 v).length = 4 := fun _ => rfl
  rw [emitLengths, Cmd.wp_bind, put32, wp_emitAll (by rw [hb]; omega), Cmd.wp_bind, Cmd.wp_csr, put32,
    wp_emitAll (by rw [hb, withBytes_cfg]; omega), bytes32_eq, bytes32_eq, BitVec.toNat_ofNat, Nat.mod_eq_of_lt hp]
  have e1 : (s.withBytes 9 (beBytes 4 (p - 17))).pkLen = s.pkLen := by rw [withBytes_frame]
  rw [e1]

/-- What SERIALIZE works on: a tree, or none with no payload and no length. -/
def SerialIn (s : State) : Option Tree → List Byte → Prop
  | none, payload => s.root = 0#24 ∧ payload = [] ∧ s.origLen = 0#32
  | some T, _ => s.liveTree T ∧ T.size ≤ s.cfg.nodeMax

/-- SERIALIZE writes the container (R193). -/
theorem serialize_ok {tree : Option Tree} {payload : List Byte} (hs : s.stgCnt = 0#3) (hin : SerialIn s tree payload)
    (hl : s.pkLen.toNat = payload.length) (hpk : s.pk.holds 0 payload) (hb : 17 ≤ s.cfg.bMax) (hb2 : s.cfg.bMax < 2 ^ 32)
    (hfit : 17 + (snapshotOf tree).length + payload.length ≤ s.cfg.bMax) :
    Cmd.wp serialize (fun _ t =>
        t = { s with blob := t.blob, blobLen := BitVec.ofNat 32 (17 + (snapshotOf tree).length + payload.length) } ∧
        t.blob.holds 0 (containerBytes s.origLen.toNat s.pad.toNat tree payload) ∧
        s.blob.sameFrom t.blob (17 + (snapshotOf tree).length + payload.length)) (fun _ _ => False) s := by
  rw [serialize, Cmd.wp_bind, Cmd.wp_update, Cmd.wp_bind, Cmd.wp_csr, Cmd.wp_bind, Cmd.wp_raiseIf]
  refine ⟨fun e => absurd hs e, fun _ => ?_⟩
  obtain ⟨u, hu⟩ : ∃ u : State, u = { s with blobLen := 0#32 } := ⟨_, rfl⟩
  rw [← hu]
  have uc : u.cfg = s.cfg := by rw [hu]
  have ub : u.blob = s.blob := by rw [hu]
  have ul : u.pkLen = s.pkLen := by rw [hu]
  have uo : u.origLen = s.origLen := by rw [hu]
  have up : u.pad = s.pad := by rw [hu]
  have ur : u.root = s.root := by rw [hu]
  have un : u.node = s.node := by rw [hu]
  have upk : u.pk = s.pk := by rw [hu]
  rw [Cmd.wp_bind, Cmd.wp_csr, Cmd.wp_bind, Cmd.wp_csr, Cmd.wp_bind, Cmd.wp_csr, Cmd.wp_bind, Cmd.wp_raiseIf, ul, uo, ur]
  refine ⟨fun e => ?_, fun _ => ?_⟩
  · cases tree with
    | none =>
      obtain ⟨_, rfl, ho⟩ := hin
      rcases e.2 with e | e
      · exact e (BitVec.eq_of_toNat_eq hl)
      · exact e ho
    | some T => exact hin.1.1 e.1
  rw [Cmd.wp_bind, wp_emitHeader (by rw [uc]; exact hb), Cmd.wp_bind]
  obtain ⟨v, hv⟩ : ∃ v : State, v = u.withBytes 0 (headBytes u.origLen.toNat u.pad.toNat) := ⟨_, rfl⟩
  rw [← hv]
  have vc : v.cfg = s.cfg := by rw [hv, withBytes_cfg, uc]
  have vr : v.root = s.root := by rw [hv, withBytes_frame]; exact ur
  have h0 : v.blob.holds 0 (headBytes s.origLen.toNat s.pad.toNat) := by
    rw [hv, uo, up]
    exact withBytes_holds (by rw [headBytes_length, uc]; omega)
  have hsp : (snapshotOf tree).length + 17 ≤ s.cfg.bMax := by omega
  suffices hrest : ∀ w : State, w = v.withBytes 17 (snapshotOf tree) →
      Cmd.wp (emitLengths (17 + (snapshotOf tree).length)) (fun _ x => Cmd.wp (Cmd.forFrom (emitPayload (17 + (snapshotOf tree).length)) s.pkLen.toNat 0)
        (fun _ y => Cmd.wp (Cmd.update fun s_1 => { s_1 with blobLen := BitVec.ofNat 32 (17 + (snapshotOf tree).length + s.pkLen.toNat) })
          (fun _ t => t = { s with blob := t.blob, blobLen := BitVec.ofNat 32 (17 + (snapshotOf tree).length + payload.length) } ∧
            t.blob.holds 0 (containerBytes s.origLen.toNat s.pad.toNat tree payload) ∧
            s.blob.sameFrom t.blob (17 + (snapshotOf tree).length + payload.length)) (fun _ _ => False) y) (fun _ _ => False) x)
        (fun _ _ => False) w by
    rw [emitTree, Cmd.wp_bind, Cmd.wp_csr, Cmd.wp_bind, Cmd.wp_csr, Cmd.wp_ite, vr, vc]
    refine ⟨fun hr => ?_, fun hr => ?_⟩
    · cases tree with
      | none => exact absurd hin.1 hr
      | some T =>
        obtain ⟨hT, hsize⟩ := hin
        rw [show s.cfg.nodeMax = T.size + (s.cfg.nodeMax - T.size) by omega]
        refine snapshotWalk_tree (by rw [hv, withBytes_node, un]; exact hT.2) (by rw [vc]; simp only [snapshotOf] at hsp; show 17 + _ ≤ _; omega) ?_
        have e : ∀ f : Nat, snapshotWalk f [] (hdrLen + T.snapshot.length) = pure (hdrLen + T.snapshot.length) := fun f => by cases f <;> rfl
        rw [e, Cmd.wp_pure, Cmd.wp_bind]
        refine Cmd.wp_mono (hrest _ rfl) (fun _ x hx => ?_) (fun _ _ h => h)
        rw [Cmd.wp_bind]
        exact hx
    · cases tree with
      | some T => exact absurd (fun e => hin.1.1 e) hr
      | none =>
        rw [Cmd.wp_pure, Cmd.wp_bind]
        refine Cmd.wp_mono (hrest v rfl) (fun _ x hx => ?_) (fun _ _ h => h)
        rw [Cmd.wp_bind]
        exact hx
  intro w hw
  have wc : w.cfg = s.cfg := by rw [hw, withBytes_cfg, vc]
  have wl : w.pkLen = s.pkLen := by rw [hw, withBytes_frame, hv, withBytes_frame]; exact ul
  have hfit9 : 9 + (beBytes 4 (snapshotOf tree).length).length ≤ s.cfg.bMax := by rw [beBytes_length]; omega
  have hfit13 : 13 + (beBytes 4 payload.length).length ≤ s.cfg.bMax := by rw [beBytes_length]; omega
  rw [wp_emitLengths (by rw [wc]; exact hb) (by omega), Nat.add_sub_cancel_left, wl, hl]
  obtain ⟨x, hx⟩ : ∃ x : State, x = (w.withBytes 9 (beBytes 4 (snapshotOf tree).length)).withBytes 13 (beBytes 4 payload.length) := ⟨_, rfl⟩
  rw [← hx]
  have xc : x.cfg = s.cfg := by rw [hx, withBytes_cfg, withBytes_cfg, wc]
  have xpk : x.pk = s.pk := by rw [hx, withBytes_pk, withBytes_pk, hw, withBytes_pk, hv, withBytes_pk, upk]
  refine Cmd.wp_mono (payload_ok (p := 17 + (snapshotOf tree).length) (by rw [xpk]; exact hpk) (by rw [xc]; exact hfit)) (fun _ y hy => ?_) (fun _ _ h => h)
  rw [Cmd.wp_update]
  have w9c : (w.withBytes 9 (beBytes 4 (snapshotOf tree).length)).cfg = s.cfg := by rw [withBytes_cfg, wc]
  have fr : y = { s with blobLen := 0#32, blob := y.blob } := by
    have ov : BlobOnly u v := by rw [hv]; exact withBytes_only (by rw [headBytes_length, uc]; omega)
    have ow : BlobOnly u w := by rw [hw]; exact ov.trans (withBytes_only (by rw [vc]; omega))
    have ox : BlobOnly u x := by rw [hx]; exact (ow.trans (withBytes_only (by rw [wc]; exact hfit9))).trans (withBytes_only (by rw [w9c]; exact hfit13))
    have oy : BlobOnly u y := by rw [hy]; exact ox.trans (withBytes_only (by rw [xc]; exact hfit))
    have := oy.1
    rw [hu] at this
    exact this
  have f1 : ∀ k, v.blob.get? k = if k < 9 then (headBytes s.origLen.toNat s.pad.toNat)[k]? else s.blob.get? k := fun k => by
    rw [hv, uo, up, get?_withBytes (by rw [headBytes_length, uc]; omega), headBytes_length, ub]
    simp only [Nat.zero_le, true_and, Nat.zero_add, Nat.sub_zero]
  have h1 : w.blob.holds 17 (snapshotOf tree) := by rw [hw]; exact withBytes_holds (by rw [vc]; omega)
  have h1' : w.blob.holds 0 (headBytes s.origLen.toNat s.pad.toNat) := by
    rw [hw]; exact h0.withBytes (by rw [vc]; omega) (.inl (by rw [headBytes_length]; omega))
  have h2 : x.blob.holds 0 (headBytes s.origLen.toNat s.pad.toNat) ∧ x.blob.holds 9 (beBytes 4 (snapshotOf tree).length) ∧
      x.blob.holds 13 (beBytes 4 payload.length) ∧ x.blob.holds 17 (snapshotOf tree) := by
    rw [hx]
    refine ⟨(h1'.withBytes (by rw [wc]; exact hfit9) (.inl (by rw [headBytes_length]))).withBytes (by rw [w9c]; exact hfit13)
      (.inl (by rw [headBytes_length]; omega)), ?_, withBytes_holds (by rw [w9c]; exact hfit13), ?_⟩
    · exact (withBytes_holds (by rw [wc]; exact hfit9)).withBytes (by rw [w9c]; exact hfit13) (.inl (by simp only [beBytes_length]; omega))
    · exact (h1.withBytes (by rw [wc]; exact hfit9) (.inr (by simp only [beBytes_length]; omega))).withBytes (by rw [w9c]; exact hfit13)
        (.inr (by simp only [beBytes_length]; omega))
  have h3 : y.blob.holds 0 (containerBytes s.origLen.toNat s.pad.toNat tree payload) := by
    rw [containerBytes_eq, hy]
    have hp' : 17 + (snapshotOf tree).length + payload.length ≤ x.cfg.bMax := by rw [xc]; exact hfit
    refine Memory.holds_append.mpr ⟨h2.1.withBytes hp' (.inl (by rw [headBytes_length]; omega)), ?_⟩
    rw [headBytes_length]
    refine Memory.holds_append.mpr ⟨h2.2.1.withBytes hp' (.inl (by simp only [beBytes_length]; omega)), ?_⟩
    rw [beBytes_length]
    refine Memory.holds_append.mpr ⟨h2.2.2.1.withBytes hp' (.inl (by simp only [beBytes_length]; omega)), ?_⟩
    rw [beBytes_length]
    exact Memory.holds_append.mpr ⟨h2.2.2.2.withBytes hp' (.inl (by omega)), withBytes_holds hp'⟩
  refine ⟨?_, h3, ?_⟩
  · generalize y.blob = b at fr
    subst fr
    rfl
  · intro k hk
    show y.blob.get? k = s.blob.get? k
    rw [hy, get?_withBytes (by rw [xc]; exact hfit), if_neg (by omega), hx, get?_withBytes (by rw [w9c]; exact hfit13),
      if_neg (by rw [beBytes_length]; omega), get?_withBytes (by rw [wc]; exact hfit9), if_neg (by rw [beBytes_length]; omega), hw,
      get?_withBytes (by rw [vc]; omega), if_neg (by omega), f1, if_neg (by omega)]

/-- SERIALIZE of a container that does not fit (R193). -/
theorem serialize_full {payload : List Byte} (hs : s.stgCnt = 0#3) (hT : s.liveTree T) (hsize : T.size ≤ s.cfg.nodeMax)
    (hl : s.pkLen.toNat = payload.length) (hpk : s.pk.holds 0 payload) (hb : 17 ≤ s.cfg.bMax)
    (hfull : s.cfg.bMax < 17 + T.snapshot.length + payload.length) :
    Cmd.wp serialize (fun _ _ => False) (NoRoom { s with blobLen := 0#32 }) s := by
  rw [serialize, Cmd.wp_bind, Cmd.wp_update, Cmd.wp_bind, Cmd.wp_csr, Cmd.wp_bind, Cmd.wp_raiseIf]
  refine ⟨fun e => absurd hs e, fun _ => ?_⟩
  obtain ⟨u, hu⟩ : ∃ u : State, u = { s with blobLen := 0#32 } := ⟨_, rfl⟩
  rw [← hu]
  have uc : u.cfg = s.cfg := by rw [hu]
  have ul : u.pkLen = s.pkLen := by rw [hu]
  have ur : u.root = s.root := by rw [hu]
  have un : u.node = s.node := by rw [hu]
  have upk : u.pk = s.pk := by rw [hu]
  rw [Cmd.wp_bind, Cmd.wp_csr, Cmd.wp_bind, Cmd.wp_csr, Cmd.wp_bind, Cmd.wp_csr, Cmd.wp_bind, Cmd.wp_raiseIf, ul, ur]
  refine ⟨fun e => absurd e.1 hT.1, fun _ => ?_⟩
  rw [Cmd.wp_bind, wp_emitHeader (by rw [uc]; exact hb), Cmd.wp_bind]
  have ov : BlobOnly u (u.withBytes 0 (headBytes u.origLen.toNat u.pad.toNat)) := withBytes_only (by rw [headBytes_length, uc]; omega)
  obtain ⟨v, hv⟩ : ∃ v : State, v = u.withBytes 0 (headBytes u.origLen.toNat u.pad.toNat) := ⟨_, rfl⟩
  rw [← hv] at ov ⊢
  have vc : v.cfg = s.cfg := by rw [hv, withBytes_cfg, uc]
  have vr : v.root = s.root := by rw [hv, withBytes_frame]; exact ur
  have vn : v.node = s.node := by rw [hv, withBytes_node, un]
  rw [emitTree, Cmd.wp_bind, Cmd.wp_csr, Cmd.wp_bind, Cmd.wp_csr, Cmd.wp_ite, vr, vc]
  refine ⟨fun _ => ?_, fun hr => absurd hT.1 hr⟩
  rw [show s.cfg.nodeMax = T.size + (s.cfg.nodeMax - T.size) by omega]
  by_cases hp : 17 + T.snapshot.length ≤ s.cfg.bMax
  · refine snapshotWalk_tree (by rw [vn]; exact hT.2) (by rw [vc]; exact hp) ?_
    have e : ∀ f : Nat, snapshotWalk f [] (hdrLen + T.snapshot.length) = pure (hdrLen + T.snapshot.length) := fun f => by cases f <;> rfl
    have ow : BlobOnly u (v.withBytes 17 T.snapshot) := ov.trans (withBytes_only (by rw [vc]; exact hp))
    obtain ⟨w, hw⟩ : ∃ w : State, w = v.withBytes 17 T.snapshot := ⟨_, rfl⟩
    rw [← hw] at ow
    rw [e, Cmd.wp_pure, Cmd.wp_bind, show v.withBytes hdrLen T.snapshot = w from hw.symm]
    have wc : w.cfg = s.cfg := by rw [hw, withBytes_cfg, vc]
    have wl : w.pkLen = s.pkLen := by rw [hw, withBytes_frame, hv, withBytes_frame]; exact ul
    have wpk : w.pk = s.pk := by rw [hw, withBytes_pk, hv, withBytes_pk, upk]
    rw [emitLengths, Cmd.wp_bind, put32, wp_emitAll (by rw [wc]; simp only [bytes32, List.length_cons, List.length_nil]; omega)]
    have ox : BlobOnly u (w.withBytes 9 (bytes32 (BitVec.ofNat 32 (hdrLen + T.snapshot.length - hdrLen)))) :=
      ow.trans (withBytes_only (by rw [wc]; simp only [bytes32, List.length_cons, List.length_nil]; omega))
    obtain ⟨x, hx⟩ : ∃ x : State, x = w.withBytes 9 (bytes32 (BitVec.ofNat 32 (hdrLen + T.snapshot.length - hdrLen))) := ⟨_, rfl⟩
    rw [← hx] at ox ⊢
    have xc : x.cfg = s.cfg := by rw [hx, withBytes_cfg, wc]
    have xpk : x.pk = s.pk := by rw [hx, withBytes_pk, wpk]
    rw [Cmd.wp_bind, Cmd.wp_csr, put32, wp_emitAll (by rw [xc]; simp only [bytes32, List.length_cons, List.length_nil]; omega), Cmd.wp_bind]
    have oy : BlobOnly u (x.withBytes 13 (bytes32 x.pkLen)) := ox.trans (withBytes_only (by rw [xc]; simp only [bytes32, List.length_cons, List.length_nil]; omega))
    rw [hl]
    exact Cmd.wp_mono (payload_full (p := 17 + T.snapshot.length) (by rw [withBytes_pk, xpk]; exact hpk) (by rw [withBytes_cfg, xc]; exact hp)
      (by rw [withBytes_cfg, xc]; exact hfull)) (fun _ _ h => h.elim) (fun _ _ h => h.from oy)
  · exact Cmd.wp_mono (snapshotWalk_full (Q := fun _ _ => False) (by rw [vn]; exact hT.2) (by rw [vc]; show _ < 17 + _; omega)) (fun _ _ h => h.elim)
      (fun _ _ h => h.from ov)

end Sys2Proof.Machine
end

