-- ==== Sys2Proof/Laws/Parser.lean ====
section
/-! SUPPORT. PARSE reads a tree snapshot: one record, a whole subtree, and a snapshot that begins well (44_container.md R195). -/

namespace Sys2Proof.Machine

variable {s t u : State} {T : Tree}

/-! ### One record -/

/-- What a record stands for (R191). -/
def Record.bytes : Record → List Byte
  | .leaf x => 0x01#8 :: beBytes 3 x.toNat
  | .internal => [0x00#8]

/-- A record whose symbol is one of R44. -/
def Record.legal : Record → Prop
  | .leaf x => x.toNat ≤ symMax
  | .internal => True

theorem Record.bytes_length (r : Record) : r.bytes.length = r.size := by cases r <;> rfl

theorem join24_bytes (x : Symbol) : join24 (BitVec.ofNat 8 (x.toNat / 256 ^ 2)) (BitVec.ofNat 8 (x.toNat / 256 ^ 1))
    (BitVec.ofNat 8 (x.toNat / 256 ^ 0)) = x.toNat := by
  have := x.isLt
  simp only [join24, BitVec.toNat_ofNat]
  omega

/-- Reading a whole record. -/
theorem wp_readRecord {r : Record} {p last : Nat} (hr : r.legal) (hb : s.blob.holds p r.bytes) (hl : p + r.size ≤ last)
    {Q : Record → State → Prop} {E : Stop → State → Prop} (h : Q r s) : Cmd.wp (readRecord p last) Q E s := by
  cases r with
  | internal =>
    have h0 : s.blob.get? p = some 0x00#8 := hb 0 (by simp [Record.bytes])
    have : p + 1 ≤ last := hl
    rw [readRecord, Cmd.wp_bind, Cmd.wp_raiseIf]
    refine ⟨fun e => by omega, fun _ => ?_⟩
    rw [Cmd.wp_bind, Cmd.wp_readBlob, blobAt_some h0, if_neg (by show ¬ ((0x00#8 : Byte) = 0x01#8); decide), if_pos rfl]
    exact h
  | leaf x =>
    have hlen : (Record.leaf x).bytes.length = 4 := rfl
    have h0 : s.blob.get? p = some 0x01#8 := hb 0 (by rw [hlen]; omega)
    have h1 : s.blob.get? (p + 1) = some (BitVec.ofNat 8 (x.toNat / 256 ^ 2)) := hb 1 (by rw [hlen]; omega)
    have h2 : s.blob.get? (p + 2) = some (BitVec.ofNat 8 (x.toNat / 256 ^ 1)) := hb 2 (by rw [hlen]; omega)
    have h3 : s.blob.get? (p + 3) = some (BitVec.ofNat 8 (x.toNat / 256 ^ 0)) := hb 3 (by rw [hlen]; omega)
    have : p + 4 ≤ last := hl
    rw [readRecord, Cmd.wp_bind, Cmd.wp_raiseIf]
    refine ⟨fun e => by omega, fun _ => ?_⟩
    rw [Cmd.wp_bind, Cmd.wp_readBlob, blobAt_some h0, if_pos rfl, Cmd.wp_bind, Cmd.wp_raiseIf]
    refine ⟨fun e => by omega, fun _ => ?_⟩
    rw [Cmd.wp_bind, Cmd.wp_readBlob, blobAt_some h1, Cmd.wp_bind, Cmd.wp_readBlob, blobAt_some h2, Cmd.wp_bind, Cmd.wp_readBlob,
      blobAt_some h3, Cmd.wp_bind, Cmd.wp_raiseIf, join24_bytes]
    refine ⟨fun e => absurd hr (by simpa [Record.legal] using e), fun _ => ?_⟩
    rw [Cmd.wp_pure, BitVec.ofNat_toNat, BitVec.setWidth_eq]
    exact h

/-- The node of a record. -/
def Record.node : Record → BitVec 2 → Node
  | .leaf x, st => { st := st, leaf := true, sym := x, w := 0#32, l := 0#24, r := 0#24 }
  | .internal, st => { st := st, leaf := false, sym := 0#21, w := 0#32, l := 0#24, r := 0#24 }

theorem Record.node_st (r : Record) (v w : BitVec 2) : { r.node v with st := w } = r.node w := by cases r <;> rfl

/-- The node a record allocates. -/
theorem wp_allocRecord {r : Record} (hk : s.cfg.kMax ≤ 2 ^ 23) (hroom : s.nodeCnt.toNat < s.cfg.nodeMax)
    {Q : NodeId → State → Prop} {E : Stop → State → Prop}
    (h : Q (BitVec.ofNat 24 (s.nodeCnt.toNat + 1)) { s with nodeCnt := BitVec.ofNat 32 (s.nodeCnt.toNat + 1), node := s.node.store 1 (s.cfg.nodeMax + 1) (s.nodeCnt.toNat + 1) (r.node stDetached) }) : Cmd.wp (allocRecord r) Q E s := by
  have hnm := nodeMax_lt hk
  have hc : s.nodeCnt + 1#32 = BitVec.ofNat 32 (s.nodeCnt.toNat + 1) := by
    apply BitVec.eq_of_toNat_eq; rw [BitVec.toNat_add, BitVec.toNat_ofNat]; rfl
  have hid : (BitVec.ofNat 32 (s.nodeCnt.toNat + 1)).setWidth 24 = BitVec.ofNat 24 (s.nodeCnt.toNat + 1) := by
    apply BitVec.eq_of_toNat_eq
    rw [BitVec.toNat_setWidth, BitVec.toNat_ofNat, BitVec.toNat_ofNat]; omega
  have hn : (BitVec.ofNat 24 (s.nodeCnt.toNat + 1)).toNat = s.nodeCnt.toNat + 1 := by
    rw [BitVec.toNat_ofNat]; exact Nat.mod_eq_of_lt (by omega)
  have key : ∀ leaf sym, Q (BitVec.ofNat 24 (s.nodeCnt.toNat + 1)) { s with nodeCnt := BitVec.ofNat 32 (s.nodeCnt.toNat + 1), node := s.node.store 1 (s.cfg.nodeMax + 1) (s.nodeCnt.toNat + 1) { st := stDetached, leaf := leaf, sym := sym, w := 0#32, l := 0#24, r := 0#24 } } →
      Cmd.wp (nodeAlloc leaf sym 0#32 0#24 0#24) Q E s := by
    intro leaf sym h
    simp only [nodeAlloc, Cmd.wp_bind, Cmd.wp_csr, Cmd.wp_raiseIf, Cmd.wp_update, Cmd.wp_writeNode, Cmd.wp_pure]
    refine ⟨fun e => by omega, fun _ => ?_⟩
    simp only [State.storeNode, hc, hid, hn]
    exact h
  cases r <;> exact key _ _ h

/-! ### A record in the loop -/

/-- A state of PARSE with another tree. -/
def TreeOnly (s t : State) : Prop := t = { s with node := t.node, nodeCnt := t.nodeCnt, root := t.root }

theorem TreeOnly.refl (s : State) : TreeOnly s s := rfl

theorem TreeOnly.trans (h1 : TreeOnly s t) (h2 : TreeOnly t u) : TreeOnly s u := by
  unfold TreeOnly at *
  rw [h1] at h2
  exact h2

/-- The loop after a record: it ends when no internal node is open. -/
def resume (last fuel p : Nat) : List NodeId → Cmd Nat
  | [] => pure p
  | t :: stk => parseRecords last fuel p (t :: stk)

/-- Push the id of an internal node (R195). -/
def pushed (r : Record) (id : NodeId) (stk : List NodeId) : List NodeId :=
  match r with
  | .leaf _ => stk
  | .internal => id :: stk

theorem wp_open {r : Record} {id : NodeId} {stk : List NodeId} {last fuel p : Nat} {Q : Nat → State → Prop}
    {E : Stop → State → Prop} (hd : r = .internal → stk.length = s.cfg.stkMax → E (.raise .capacity 8) s) (h : (r = .internal → stk.length ≠ s.cfg.stkMax) → Cmd.wp (resume last fuel p (pushed r id stk)) Q E s) :
    Cmd.wp (openNode r id stk >>= fun stk =>
      match stk with
      | [] => pure p
      | _ :: _ => parseRecords last fuel p stk) Q E s := by
  cases r with
  | leaf x =>
    rw [Cmd.wp_bind, openNode, Cmd.wp_pure]
    cases stk <;> exact h (fun e => nomatch e)
  | internal =>
    rw [Cmd.wp_bind, openNode, Cmd.wp_bind, Cmd.wp_csr, Cmd.wp_bind, Cmd.wp_raiseIf]
    exact ⟨hd rfl, fun e => h fun _ => e⟩

/-- The first record: node 1 is the root (R195). -/
theorem parse_first {r : Record} {p last fuel : Nat} (hk : s.cfg.kMax ≤ 2 ^ 23) (hk1 : 1 ≤ s.cfg.kMax) (hr : r.legal)
    (hb : s.blob.holds p r.bytes) (hl : p + r.size ≤ last) (hn : s.nodeCnt = 0#32) {Q : Nat → State → Prop} {E : Stop → State → Prop}
    (h : Cmd.wp (resume last fuel (p + r.size) (pushed r 1#24 [])) Q E
      { s with nodeCnt := 1#32, root := 1#24, node := s.node.store 1 (s.cfg.nodeMax + 1) 1 (r.node stDetached) }) :
    Cmd.wp (parseRecords last (fuel + 1) p []) Q E s := by
  have hm : 1 ≤ s.cfg.nodeMax := by unfold Config.nodeMax; omega
  rw [parseRecords, Cmd.wp_bind]
  refine wp_readRecord hr hb hl ?_
  rw [Cmd.wp_bind]
  refine wp_allocRecord hk (by rw [hn]; exact hm) ?_
  rw [hn, Cmd.wp_bind, attach, if_pos (by rfl), Cmd.wp_bind, Cmd.wp_update, Cmd.wp_pure]
  exact wp_open (fun _ e => absurd e (by unfold Config.stkMax; simp; omega)) fun _ => h

/-- A later record: its node is the left child of the open node on top of the stack, or else the right one (R195). -/
theorem parse_next {r : Record} {t : NodeId} {x : Node} {stk : List NodeId} {p last fuel : Nat} (hk : s.cfg.kMax ≤ 2 ^ 23) (hr : r.legal)
    (hb : s.blob.holds p r.bytes) (hl : p + r.size ≤ last) (hroom : s.nodeCnt.toNat < s.cfg.nodeMax)
    (ht1 : 1 ≤ t.toNat) (ht : t.toNat ≤ s.nodeCnt.toNat) (hx : s.node.get? t.toNat = some x)
    {Q : Nat → State → Prop} {E : Stop → State → Prop}
    (hd : r = .internal → (if x.l = 0#24 then t :: stk else stk).length = s.cfg.stkMax → ∀ u, TreeOnly s u → E (.raise .capacity 8) u)
    (h : ∀ u, u = { s with nodeCnt := BitVec.ofNat 32 (s.nodeCnt.toNat + 1), node := u.node } →
      (∀ k, u.node.get? k = if k = s.nodeCnt.toNat + 1 then some (r.node stChild)
        else if k = t.toNat then some (if x.l = 0#24 then { x with l := BitVec.ofNat 24 (s.nodeCnt.toNat + 1) }
          else { x with r := BitVec.ofNat 24 (s.nodeCnt.toNat + 1) })
        else s.node.get? k) →
      (r = .internal → (if x.l = 0#24 then t :: stk else stk).length ≠ s.cfg.stkMax) →
      Cmd.wp (resume last fuel (p + r.size) (pushed r (BitVec.ofNat 24 (s.nodeCnt.toNat + 1)) (if x.l = 0#24 then t :: stk else stk))) Q E u) :
    Cmd.wp (parseRecords last (fuel + 1) p (t :: stk)) Q E s := by
  have hnm := nodeMax_lt hk
  obtain ⟨n, en⟩ : ∃ n, n = s.nodeCnt.toNat := ⟨_, rfl⟩
  rw [← en] at h hroom ht
  have hid : (BitVec.ofNat 24 (n + 1)).toNat = n + 1 := by rw [BitVec.toNat_ofNat]; exact Nat.mod_eq_of_lt (by omega)
  rw [parseRecords, Cmd.wp_bind]
  refine wp_readRecord hr hb hl ?_
  rw [Cmd.wp_bind]
  refine wp_allocRecord hk (by rw [← en]; exact hroom) ?_
  rw [← en]
  obtain ⟨v, hv⟩ : ∃ v : State, v = { s with nodeCnt := BitVec.ofNat 32 (n + 1), node := s.node.store 1 (s.cfg.nodeMax + 1) (n + 1) (r.node stDetached) } := ⟨_, rfl⟩
  rw [← hv]
  have vc : v.cfg = s.cfg := by rw [hv]
  have vn : ∀ k, v.node.get? k = if k = n + 1 then some (r.node stDetached) else s.node.get? k := fun k => by
    rw [hv]
    show (s.node.store 1 (s.cfg.nodeMax + 1) (n + 1) (r.node stDetached)).get? k = _
    rw [Memory.get?_store]
    by_cases e : k = n + 1
    · rw [if_pos ⟨e, by omega, by omega⟩, if_pos e]
    · rw [if_neg (fun hh => e hh.1), if_neg e]
  have vt : v.node.get? t.toNat = some x := by rw [vn, if_neg (by omega)]; exact hx
  rw [Cmd.wp_bind, attach, if_neg (fun e => by rw [e] at hid; simp at hid; omega)]
  rw [Cmd.wp_bind, Cmd.wp_readNode, nodeAt_some vt]
  have store_get : ∀ (w : State) (i : NodeId) (y : Node) (k : Nat), w.cfg = s.cfg → 1 ≤ i.toNat → i.toNat ≤ s.cfg.nodeMax →
      (w.storeNode i y).node.get? k = if k = i.toNat then some y else w.node.get? k := fun w i y k hc h1 h2 => by
    show (w.node.store 1 (w.cfg.nodeMax + 1) i.toNat y).get? k = _
    rw [Memory.get?_store, hc]
    by_cases e : k = i.toNat
    · rw [if_pos ⟨e, h1, by omega⟩, if_pos e]
    · rw [if_neg (fun hh => e hh.1), if_neg e]
  have fin : ∀ (y : Node) (stk' : List NodeId), (stk' = if x.l = 0#24 then t :: stk else stk) →
      (y = if x.l = 0#24 then { x with l := BitVec.ofNat 24 (n + 1) } else { x with r := BitVec.ofNat 24 (n + 1) }) →
      Cmd.wp (setNodeSt (BitVec.ofNat 24 (n + 1)) stChild) (fun _ => Cmd.wp (pure stk') (fun b => Cmd.wp
        (openNode r (BitVec.ofNat 24 (n + 1)) b >>= fun stk =>
          match stk with
          | [] => pure (p + r.size)
          | _ :: _ => parseRecords last fuel (p + r.size) stk) Q E) E) E (v.storeNode t y) := by
    intro y stk' hs hy
    have h1 : (v.storeNode t y).node.get? (n + 1) = some (r.node stDetached) := by
      rw [store_get _ _ _ _ vc ht1 (by omega), if_neg (by omega), vn, if_pos rfl]
    rw [setNodeSt, Cmd.wp_bind, Cmd.wp_readNode, hid, nodeAt_some h1, Cmd.wp_writeNode, Record.node_st, Cmd.wp_pure]
    refine wp_open (fun e e2 => hd e ?_ _ (by unfold TreeOnly; rw [hv]; rfl)) fun hne => ?_
    · rw [hs] at e2
      rw [← vc]
      exact e2
    · rw [hs] at hne ⊢
      refine h _ (by rw [hv]; rfl) (fun k => ?_) (fun e => by rw [← vc]; exact hne e)
      show ((v.storeNode t y).storeNode (BitVec.ofNat 24 (n + 1)) (r.node stChild)).node.get? k = _
      rw [store_get (v.storeNode t y) _ _ _ vc (by omega) (by omega), hid, store_get _ _ _ _ vc ht1 (by omega), vn, hy]
      by_cases e1 : k = n + 1
      · rw [if_pos e1, if_pos e1]
      · rw [if_neg e1, if_neg e1, if_neg e1]
  by_cases e : x.l = 0#24
  · rw [if_pos e, Cmd.wp_bind, setNodeLeft, Cmd.wp_bind, Cmd.wp_readNode, nodeAt_some vt, Cmd.wp_writeNode, Cmd.wp_bind]
    exact fin _ _ (by rw [if_pos e]) (by rw [if_pos e])
  · rw [if_neg e, Cmd.wp_bind, setNodeRight, Cmd.wp_bind, Cmd.wp_readNode, nodeAt_some vt, Cmd.wp_writeNode, Cmd.wp_bind]
    exact fin _ _ (by rw [if_neg e]) (by rw [if_neg e])

/-! ### A subtree -/

/-- What a parsed subtree leaves (R195): its nodes are numbered in pre-order from `n + 1` on, CHILD and of weight 0; the open node
`t` is `y` now. -/
structure Parsed (s u : State) (n : Nat) (t : NodeId) (y : Node) (T : Tree) (ids : IdTree) : Prop where
  frame : u = { s with nodeCnt := BitVec.ofNat 32 (n + T.size), node := u.node }
  top : u.node.get? t.toNat = some y
  old : ∀ k, k ≠ t.toNat → (k ≤ n ∨ n + T.size < k) → u.node.get? k = s.node.get? k
  order : ids.ids = List.range' (n + 1) T.size
  shape : holdsShape u.node ids
  tree : ids.tree u.node = T
  fresh : ∀ k, n < k → k ≤ n + T.size → ∃ z, u.node.get? k = some z ∧ z.w = 0#32 ∧ z.st = stChild

theorem Parsed.root {n : Nat} {t : NodeId} {y : Node} {ids : IdTree} (h : Parsed s u n t y T ids) : ids.root = n + 1 := by
  have := h.order
  have hs := T.size_pos
  rw [show T.size = (T.size - 1) + 1 by omega, List.range'_succ] at this
  cases ids with
  | leaf id => simpa [IdTree.ids, IdTree.root] using (List.cons.inj this).1
  | node id l r => simpa [IdTree.ids, IdTree.root] using (List.cons.inj this).1

/-- The open node with one more child. -/
def withChild (x : Node) (id : NodeId) : Node := if x.l = 0#24 then { x with l := id } else { x with r := id }

/-- The stack after a child is given to its top (R195). -/
def stackAfter (x : Node) (t : NodeId) (stk : List NodeId) : List NodeId := if x.l = 0#24 then t :: stk else stk

/-- A whole subtree, the child of the open node on top of the stack (R195). -/
theorem parse_subtree {t : NodeId} {x : Node} {stk : List NodeId} {p last fuel : Nat} (hk : s.cfg.kMax ≤ 2 ^ 23)
    (hleg : ∀ x ∈ T.leaves, x.toNat ≤ symMax) (hb : s.blob.holds p T.snapshot) (hl : p + T.snapshot.length ≤ last)
    (hroom : s.nodeCnt.toNat + T.size ≤ s.cfg.nodeMax) (ht1 : 1 ≤ t.toNat) (ht : t.toNat ≤ s.nodeCnt.toNat)
    (hx : s.node.get? t.toNat = some x) (hd : (stackAfter x t stk).length + T.leaves.length ≤ s.cfg.kMax + 1)
    {Q : Nat → State → Prop} {E : Stop → State → Prop}
    (h : ∀ u ids, Parsed s u s.nodeCnt.toNat t (withChild x (BitVec.ofNat 24 (s.nodeCnt.toNat + 1))) T ids →
      Cmd.wp (resume last fuel (p + T.snapshot.length) (stackAfter x t stk)) Q E u) :
    Cmd.wp (parseRecords last (T.size + fuel) p (t :: stk)) Q E s := by
  have hnm := nodeMax_lt hk
  induction T generalizing s t x stk fuel p with
  | leaf v =>
    have hlen : (Tree.leaf v).snapshot.length = 4 := rfl
    rw [hlen] at hl h
    rw [Tree.size] at hroom
    rw [Tree.size, Nat.add_comm]
    refine parse_next (r := .leaf v) hk (hleg v (by simp [Tree.leaves])) hb hl (by omega) ht1 ht hx (fun e => nomatch e) fun u hu hn _ => ?_
    refine h u (.leaf (s.nodeCnt.toNat + 1)) ⟨hu, ?_, fun k hk1 hk2 => ?_, rfl, ?_, ?_, fun k h1 h2 => ?_⟩
    · rw [hn, if_neg (by omega), if_pos rfl]; rfl
    · rw [Tree.size] at hk2
      rw [hn, if_neg (by omega), if_neg hk1]
    · exact ⟨_, by rw [hn, if_pos rfl], rfl, rfl, rfl⟩
    · simp only [IdTree.tree, symAt, hn, if_true, Record.node]
    · rw [Tree.size] at h2
      exact ⟨_, by rw [hn, if_pos (by omega)], rfl, rfl⟩
  | node l r ihl ihr =>
    have hlp := l.leaves_pos
    have hrp := r.leaves_pos
    have hls := l.size_pos
    have hrs := r.size_pos
    simp only [Tree.snapshot, List.length_cons, List.length_append, Tree.size, Tree.leaves] at hl h hroom hd hb
    obtain ⟨n, en⟩ : ∃ n, n = s.nodeCnt.toNat := ⟨_, rfl⟩
    rw [← en] at h hroom ht
    obtain ⟨id, eid⟩ : ∃ id : NodeId, id = BitVec.ofNat 24 (n + 1) := ⟨_, rfl⟩
    have hid : id.toNat = n + 1 := by rw [eid, BitVec.toNat_ofNat]; exact Nat.mod_eq_of_lt (by omega)
    obtain ⟨hb0, hb12⟩ := Memory.holds_append.mp (show s.blob.holds p ([0x00#8] ++ (l.snapshot ++ r.snapshot)) from hb)
    rw [List.length_singleton] at hb12
    have hb1 := (Memory.holds_append.mp hb12).1
    have hb2 := (Memory.holds_append.mp hb12).2
    rw [Tree.size, show l.size + r.size + 1 + fuel = (l.size + (r.size + fuel)) + 1 by omega]
    refine parse_next (r := .internal) hk trivial hb0 (by show p + 1 ≤ last; omega) (by rw [← en]; omega) ht1 (by rw [← en]; exact ht) hx
      (fun _ e => absurd (show (stackAfter x t stk).length = s.cfg.kMax from e) (by omega)) fun u hu hn _ => ?_
    rw [← en, ← eid] at hn
    rw [← en] at hu
    rw [← en, ← eid]
    have uc : u.cfg = s.cfg := by rw [hu]
    have ub : u.blob = s.blob := by rw [hu]
    have un : u.nodeCnt.toNat = n + 1 := by rw [hu]; show (BitVec.ofNat 32 (n + 1)).toNat = _; rw [BitVec.toNat_ofNat]; exact Nat.mod_eq_of_lt (by omega)
    show Cmd.wp (parseRecords last (l.size + (r.size + fuel)) (p + 1) (id :: stackAfter x t stk)) Q E u
    have ux : u.node.get? id.toNat = some (Record.internal.node stChild) := by rw [hid, hn, if_pos rfl]
    have s1 : ∀ stk', stackAfter (Record.internal.node stChild) id stk' = id :: stk' := fun _ => rfl
    refine ihl (by rw [uc]; exact hk) (fun y hy => hleg y (by simp [Tree.leaves, hy])) (by rw [ub]; exact hb1) (by omega)
      (by rw [un, uc]; omega) (by omega) (by omega) ux (by rw [s1, uc, List.length_cons]; omega) (fun v ids1 h1 => ?_) (by rw [uc]; exact hnm)
    rw [un] at h1
    have vc : v.cfg = s.cfg := by rw [h1.frame, uc]
    have vb : v.blob = s.blob := by rw [h1.frame, ub]
    have vn : v.nodeCnt.toNat = n + 1 + l.size := by
      rw [h1.frame]; show (BitVec.ofNat 32 _).toNat = _; rw [BitVec.toNat_ofNat]; exact Nat.mod_eq_of_lt (by omega)
    obtain ⟨x1, ex1⟩ : ∃ x1, x1 = withChild (Record.internal.node stChild) (BitVec.ofNat 24 (n + 1 + 1)) := ⟨_, rfl⟩
    rw [← ex1] at h1
    have l1 : x1.l.toNat = n + 2 := by
      rw [ex1]; show (BitVec.ofNat 24 (n + 1 + 1)).toNat = _; rw [BitVec.toNat_ofNat]; exact Nat.mod_eq_of_lt (by omega)
    have l1' : x1.l ≠ 0#24 := fun e => by rw [e] at l1; simp at l1
    rw [s1]
    show Cmd.wp (parseRecords last (r.size + fuel) (p + 1 + l.snapshot.length) (id :: stackAfter x t stk)) Q E v
    have s2 : stackAfter x1 id (stackAfter x t stk) = stackAfter x t stk := by rw [stackAfter, if_neg l1']
    refine ihr (by rw [vc]; exact hk) (fun y hy => hleg y (by simp [Tree.leaves, hy])) (by rw [vb]; exact hb2) (by omega)
      (by rw [vn, vc]; omega) (by omega) (by omega) h1.top (by rw [s2, vc]; omega) (fun w ids2 h2 => ?_) (by rw [vc]; exact hnm)
    rw [vn] at h2
    rw [s2]
    obtain ⟨x2, ex2⟩ : ∃ x2, x2 = withChild x1 (BitVec.ofNat 24 (n + 1 + l.size + 1)) := ⟨_, rfl⟩
    rw [← ex2] at h2
    have e2 : x2 = { x1 with r := BitVec.ofNat 24 (n + 1 + l.size + 1) } := by rw [ex2, withChild, if_neg l1']
    have r2 : x2.r.toNat = n + l.size + 2 := by
      rw [e2]; show (BitVec.ofNat 24 _).toNat = _; rw [BitVec.toNat_ofNat, Nat.mod_eq_of_lt (by omega)]; omega
    have hw1 : ∀ k, n + 1 < k → k ≤ n + 1 + l.size → w.node.get? k = v.node.get? k := fun k a b => h2.old k (by omega) (.inl (by omega))
    have hids1 : ∀ k ∈ ids1.ids, w.node.get? k = v.node.get? k := fun k hk => by
      rw [h1.order, List.mem_range'_1] at hk
      exact hw1 k (by omega) (by omega)
    have hrest : p + 1 + l.snapshot.length + r.snapshot.length = p + (l.snapshot.length + r.snapshot.length + 1) := by omega
    rw [hrest]
    have root1 := h1.root
    have root2 := h2.root
    have hsz : n + 1 + l.size + r.size = n + (l.size + r.size + 1) := by omega
    refine h w (.node (n + 1) ids1 ids2) ⟨?_, ?_, fun k hk1 hk2 => ?_, ?_, ?_, ?_, fun k k1 k2 => ?_⟩
    · rw [Tree.size, ← hsz]
      have f1 := h1.frame
      have f2 := h2.frame
      rw [f1] at f2
      rw [hu] at f2
      exact f2
    · rw [h2.old _ (by omega) (.inl (by omega)), h1.old _ (by omega) (.inl (by omega)), hn, if_neg (by omega), if_pos rfl, ← eid]
      rfl
    · rw [Tree.size] at hk2
      rw [h2.old _ (by omega) (by omega), h1.old _ (by omega) (by omega), hn, if_neg (by omega), if_neg hk1]
    · rw [IdTree.ids, h1.order, h2.order, Tree.size, List.range'_succ]
      have := List.range'_append (s := n + 1 + 1) (m := l.size) (n := r.size) (step := 1)
      rw [Nat.one_mul, show n + 1 + 1 + l.size = n + 1 + l.size + 1 by omega] at this
      rw [this]
    · obtain ⟨z1, hz1, w1, c1⟩ := h1.fresh (n + 2) (by omega) (by omega)
      obtain ⟨z2, hz2, w2, c2⟩ := h2.fresh (n + 1 + l.size + 1) (by omega) (by omega)
      have et := h2.top
      rw [hid] at et
      refine ⟨x2, z1, z2, et, ?_, ?_, ?_, ?_, ?_, ?_, c1, c2, ?_, ?_, h2.shape⟩
      · rw [e2, ex1]; rfl
      · rw [e2, ex1]; rfl
      · rw [root1, e2]; show x1.l.toNat = _; rw [l1]
      · rw [root2, r2]; omega
      · rw [root1, hw1 _ (by omega) (by omega)]; exact hz1
      · rw [root2]; exact hz2
      · rw [w1, w2, e2, ex1]; rfl
      · exact h1.shape.same hids1
    · rw [IdTree.tree, IdTree.tree_same hids1, h1.tree, h2.tree]
    · rw [Tree.size] at k2
      by_cases a : k = n + 1
      · refine ⟨x2, by rw [a, ← hid]; exact h2.top, ?_, ?_⟩ <;> (rw [e2, ex1]; rfl)
      · by_cases b : k ≤ n + 1 + l.size
        · obtain ⟨z, hz, r⟩ := h1.fresh k (by omega) b
          exact ⟨z, by rw [hw1 k (by omega) b]; exact hz, r⟩
        · exact h2.fresh k (by omega) (by omega)

/-! ### A whole tree -/

/-- What a parsed tree leaves (R195): nodes 1 to its size in pre-order, of weight 0, the root DETACHED and the others CHILD. -/
structure Loaded (s u : State) (T : Tree) (ids : IdTree) : Prop where
  frame : u = { s with nodeCnt := BitVec.ofNat 32 T.size, root := 1#24, node := u.node }
  old : s.node.sameFrom u.node (T.size + 1)
  order : ids.ids = List.range' 1 T.size
  shape : holdsShape u.node ids
  tree : ids.tree u.node = T
  fresh : ∀ k, 1 ≤ k → k ≤ T.size → ∃ z, u.node.get? k = some z ∧ z.w = 0#32 ∧ z.st = (if k = 1 then stDetached else stChild)

/-- A whole snapshot (R195). -/
theorem parseRecords_tree {p last fuel : Nat} (hk : s.cfg.kMax ≤ 2 ^ 23) (hleg : ∀ x ∈ T.leaves, x.toNat ≤ symMax)
    (hb : s.blob.holds p T.snapshot) (hl : p + T.snapshot.length ≤ last) (hroom : T.leaves.length ≤ s.cfg.kMax) (hn : s.nodeCnt = 0#32)
    {E : Stop → State → Prop} :
    Cmd.wp (parseRecords last (T.size + fuel) p []) (fun q u => q = p + T.snapshot.length ∧ ∃ ids, Loaded s u T ids) E s := by
  have hnm := nodeMax_lt hk
  have hlv := T.leaves_pos
  have hsz := T.size_eq
  have hm : T.size ≤ s.cfg.nodeMax := by unfold Config.nodeMax; omega
  have hu0 : ∀ (r : Record) (k : Nat), (s.node.store 1 (s.cfg.nodeMax + 1) 1 (r.node stDetached)).get? k =
      if k = 1 then some (r.node stDetached) else s.node.get? k := fun r k => by
    rw [Memory.get?_store]
    by_cases e : k = 1
    · rw [if_pos ⟨e, by omega, by omega⟩, if_pos e]
    · rw [if_neg (fun hh => e hh.1), if_neg e]
  cases T with
  | leaf v =>
    rw [Tree.size, Nat.add_comm]
    refine parse_first (r := .leaf v) hk (by omega) (hleg v (by simp [Tree.leaves])) hb hl hn ?_
    refine ⟨rfl, .leaf 1, rfl, fun k hk => ?_, rfl, ⟨_, by rw [hu0, if_pos rfl], rfl, rfl, rfl⟩, ?_, fun k k1 k2 => ?_⟩
    · rw [Tree.size] at hk
      rw [hu0, if_neg (by omega)]
    · show Tree.leaf (symAt (s.node.store 1 (s.cfg.nodeMax + 1) 1 ((Record.leaf v).node stDetached)) 1) = _
      unfold symAt
      rw [hu0, if_pos rfl]
      rfl
    · rw [Tree.size] at k2
      obtain rfl : k = 1 := by omega
      exact ⟨_, by rw [hu0, if_pos rfl], rfl, rfl⟩
  | node l r =>
    have hlp := l.leaves_pos
    have hrp := r.leaves_pos
    have hls := l.size_pos
    have hrs := r.size_pos
    have hle := l.size_eq
    have hre := r.size_eq
    simp only [Tree.snapshot, List.length_cons, List.length_append, Tree.size, Tree.leaves] at hl hroom hb hm hsz ⊢
    obtain ⟨hb0, hb12⟩ := Memory.holds_append.mp (show s.blob.holds p ([0x00#8] ++ (l.snapshot ++ r.snapshot)) from hb)
    rw [List.length_singleton] at hb12
    obtain ⟨hb1, hb2⟩ := Memory.holds_append.mp hb12
    rw [show l.size + r.size + 1 + fuel = (l.size + (r.size + fuel)) + 1 by omega]
    refine parse_first (r := .internal) hk (by omega) trivial hb0 (by show p + 1 ≤ last; omega) hn ?_
    obtain ⟨u, hu⟩ : ∃ u : State, u = { s with nodeCnt := 1#32, root := 1#24, node := s.node.store 1 (s.cfg.nodeMax + 1) 1 (Record.internal.node stDetached) } :=
      ⟨_, rfl⟩
    rw [← hu]
    have hn : ∀ k, u.node.get? k = if k = 1 then some (Record.internal.node stDetached) else s.node.get? k := fun k => by
      rw [hu]; exact hu0 .internal k
    have uc : u.cfg = s.cfg := by rw [hu]
    have ub : u.blob = s.blob := by rw [hu]
    have un : u.nodeCnt.toNat = 1 := by rw [hu]; rfl
    have i1 : (1#24 : NodeId).toNat = 1 := rfl
    show Cmd.wp (parseRecords last (l.size + (r.size + fuel)) (p + 1) [1#24]) _ E u
    have ux : u.node.get? (1#24 : NodeId).toNat = some (Record.internal.node stDetached) := by rw [i1, hn, if_pos rfl]
    have s1 : stackAfter (Record.internal.node stDetached) 1#24 [] = [1#24] := rfl
    refine parse_subtree (by rw [uc]; exact hk) (fun y hy => hleg y (by simp [Tree.leaves, hy])) (by rw [ub]; exact hb1) (by omega)
      (by rw [un, uc]; omega) (by rw [i1]) (by rw [i1, un]) ux (by rw [s1, uc, List.length_singleton]; omega) (fun v ids1 h1 => ?_)
    rw [un] at h1
    have vc : v.cfg = s.cfg := by rw [h1.frame, uc]
    have vb : v.blob = s.blob := by rw [h1.frame, ub]
    have vn : v.nodeCnt.toNat = 1 + l.size := by
      rw [h1.frame]; show (BitVec.ofNat 32 _).toNat = _; rw [BitVec.toNat_ofNat]; exact Nat.mod_eq_of_lt (by omega)
    obtain ⟨x1, ex1⟩ : ∃ x1, x1 = withChild (Record.internal.node stDetached) (BitVec.ofNat 24 (1 + 1)) := ⟨_, rfl⟩
    rw [← ex1] at h1
    have l1' : x1.l ≠ 0#24 := by rw [ex1]; decide
    rw [s1]
    show Cmd.wp (parseRecords last (r.size + fuel) (p + 1 + l.snapshot.length) [1#24]) _ E v
    have s2 : stackAfter x1 1#24 [] = [] := by rw [stackAfter, if_neg l1']
    refine parse_subtree (by rw [vc]; exact hk) (fun y hy => hleg y (by simp [Tree.leaves, hy])) (by rw [vb]; exact hb2) (by omega)
      (by rw [vn, vc]; omega) (by rw [i1]) (by rw [i1, vn]; omega) h1.top (by rw [s2, vc, List.length_nil]; omega) (fun w ids2 h2 => ?_)
    rw [vn] at h2
    rw [s2]
    show p + 1 + l.snapshot.length + r.snapshot.length = _ ∧ _
    obtain ⟨x2, ex2⟩ : ∃ x2, x2 = withChild x1 (BitVec.ofNat 24 (1 + l.size + 1)) := ⟨_, rfl⟩
    rw [← ex2] at h2
    have e2 : x2 = { x1 with r := BitVec.ofNat 24 (1 + l.size + 1) } := by rw [ex2, withChild, if_neg l1']
    have r2 : x2.r.toNat = l.size + 2 := by
      rw [e2]; show (BitVec.ofNat 24 _).toNat = _; rw [BitVec.toNat_ofNat, Nat.mod_eq_of_lt (by omega)]; omega
    have hw1 : ∀ k, 1 < k → k ≤ 1 + l.size → w.node.get? k = v.node.get? k := fun k a b => h2.old k (by rw [i1]; omega) (.inl (by omega))
    have hids1 : ∀ k ∈ ids1.ids, w.node.get? k = v.node.get? k := fun k hk => by
      rw [h1.order, List.mem_range'_1] at hk
      exact hw1 k (by omega) (by omega)
    have root1 := h1.root
    have root2 := h2.root
    have et := h2.top
    rw [i1] at et
    refine ⟨by omega, .node 1 ids1 ids2, ?_, fun k hk => ?_, ?_, ?_, ?_, fun k k1 k2 => ?_⟩
    · rw [Tree.size]
      have f1 := h1.frame
      have f2 := h2.frame
      rw [f1] at f2
      rw [hu, show 1 + l.size + r.size = l.size + r.size + 1 by omega] at f2
      exact f2
    · rw [Tree.size] at hk
      rw [h2.old _ (by rw [i1]; omega) (by omega), h1.old _ (by rw [i1]; omega) (by omega), hn, if_neg (by omega)]
    · rw [IdTree.ids, h1.order, h2.order, Tree.size, List.range'_succ]
      have := List.range'_append (s := 1 + 1) (m := l.size) (n := r.size) (step := 1)
      rw [Nat.one_mul, show 1 + 1 + l.size = 1 + l.size + 1 by omega] at this
      rw [this]
    · obtain ⟨z1, hz1, w1, c1⟩ := h1.fresh 2 (by omega) (by omega)
      obtain ⟨z2, hz2, w2, c2⟩ := h2.fresh (1 + l.size + 1) (by omega) (by omega)
      refine ⟨x2, z1, z2, et, ?_, ?_, ?_, ?_, ?_, ?_, c1, c2, ?_, ?_, h2.shape⟩
      · rw [e2, ex1]; rfl
      · rw [e2, ex1]; rfl
      · rw [root1, e2, ex1]; rfl
      · rw [root2, r2]; omega
      · rw [root1, hw1 _ (by omega) (by omega)]; exact hz1
      · rw [root2]; exact hz2
      · rw [w1, w2, e2, ex1]; rfl
      · exact h1.shape.same hids1
    · rw [IdTree.tree, IdTree.tree_same hids1, h1.tree, h2.tree]
    · rw [Tree.size] at k2
      by_cases a : k = 1
      · refine ⟨x2, by rw [a]; exact et, ?_, ?_⟩
        · rw [e2, ex1]; rfl
        · rw [if_pos a, e2, ex1]; rfl
      · rw [if_neg a]
        by_cases b : k ≤ 1 + l.size
        · obtain ⟨z, hz, r⟩ := h1.fresh k (by omega) b
          exact ⟨z, by rw [hw1 k (by omega) b]; exact hz, r⟩
        · exact h2.fresh k (by omega) (by omega)

/-! ### A snapshot that begins well -/

/-- The record of an optional symbol. -/
def recordOf : Option Symbol → Record
  | none => .internal
  | some x => .leaf x

theorem recordOf_bytes (o : Option Symbol) : (recordOf o).bytes = recordBytes o := by cases o <;> rfl

/-- Whether a node has its left child. -/
def hasLeft (m : Memory Node) (t : NodeId) : Bool :=
  match m.get? t.toNat with
  | some x => decide (x.l ≠ 0#24)
  | none => true

/-- The stack of open nodes, with whether each has its left child. -/
structure Open (s : State) (stk : List NodeId) (os : List Bool) : Prop where
  ids : ∀ t ∈ stk, 1 ≤ t.toNat ∧ t.toNat ≤ s.nodeCnt.toNat ∧ ∃ x, s.node.get? t.toNat = some x
  nodup : stk.Nodup
  shape : os = stk.map (hasLeft s.node)

theorem Open.nil (s : State) : Open s [] [] := ⟨by simp, List.nodup_nil, rfl⟩

theorem Open.stack_nil {stk : List NodeId} (h : Open s stk []) : stk = [] := List.map_eq_nil_iff.mp h.shape.symm

/-- The open nodes after a record that the tree has room for (R195). -/
def opened (o : Option Symbol) (os : List Bool) : List Bool := if o = none then false :: childGiven os else childGiven os

theorem openAfter_cons {o : Option Symbol} {recs : List (Option Symbol)} {most : Nat} {os os' : List Bool} (hne : os ≠ []) :
    openAfter most os (o :: recs) = some os' ↔ (o = none → (childGiven os).length ≠ most) ∧ openAfter most (opened o os) recs = some os' := by
  cases os with
  | nil => exact absurd rfl hne
  | cons b os =>
    cases o with
    | some x => simp [openAfter, opened]
    | none => rw [openAfter]; split <;> simp_all [opened]

theorem openAfter_nil_cons {o : Option Symbol} {recs : List (Option Symbol)} {most : Nat} : openAfter most [] (o :: recs) = none := by
  cases o <;> rfl

/-- A record after records (R195). -/
theorem parse_one {o : Option Symbol} {t : NodeId} {stk : List NodeId} {p last fuel : Nat} {os : List Bool} (hk : s.cfg.kMax ≤ 2 ^ 23)
    (hr : (recordOf o).legal) (hb : s.blob.holds p (recordBytes o)) (hl : p + (recordBytes o).length ≤ last)
    (hroom : s.nodeCnt.toNat < s.cfg.nodeMax) (ho : Open s (t :: stk) os) {Q : Nat → State → Prop} {E : Stop → State → Prop}
    (hd : o = none → (childGiven os).length = s.cfg.kMax → ∀ u, TreeOnly s u → E (.raise .capacity 8) u)
    (h : ∀ u stk', u = { s with nodeCnt := BitVec.ofNat 32 (s.nodeCnt.toNat + 1), node := u.node } → Open u stk' (opened o os) →
      (o = none → (childGiven os).length ≠ s.cfg.kMax) → Cmd.wp (resume last fuel (p + (recordBytes o).length) stk') Q E u) :
    Cmd.wp (parseRecords last (fuel + 1) p (t :: stk)) Q E s := by
  have hnm := nodeMax_lt hk
  obtain ⟨ht1, ht2, x, hx⟩ := ho.ids t (List.mem_cons_self ..)
  have hw : hasLeft s.node t = decide (x.l ≠ 0#24) := by unfold hasLeft; rw [hx]
  have hlen : (recordOf o).size = (recordBytes o).length := by rw [← Record.bytes_length, recordOf_bytes]
  have hnd := List.nodup_cons.mp ho.nodup
  have hos := ho.shape
  rw [List.map_cons, hw] at hos
  -- the stack after the child is given
  obtain ⟨stk1, e1⟩ : ∃ stk1, stk1 = if x.l = 0#24 then t :: stk else stk := ⟨_, rfl⟩
  have hl1 : stk1.length = (childGiven os).length := by
    rw [e1, hos]
    by_cases e : x.l = 0#24 <;> simp [e, childGiven]
  have ho2 : recordOf o = .internal → o = none := fun e => by cases o <;> first | rfl | cases e
  refine parse_next hk hr (by rw [recordOf_bytes]; exact hb) (by rw [hlen]; exact hl) hroom ht1 ht2 hx
    (fun e e2 => hd (ho2 e) (by rw [← hl1, e1]; exact e2)) fun u hu hn hne => ?_
  rw [← e1] at hne ⊢
  rw [hlen]
  obtain ⟨n, en⟩ : ∃ n, n = s.nodeCnt.toNat := ⟨_, rfl⟩
  rw [← en] at ht2 hroom hn
  obtain ⟨id, eid⟩ : ∃ id : NodeId, id = BitVec.ofNat 24 (n + 1) := ⟨_, rfl⟩
  have hid : id.toNat = n + 1 := by rw [eid, BitVec.toNat_ofNat]; exact Nat.mod_eq_of_lt (by omega)
  have un : u.nodeCnt.toNat = n + 1 := by
    rw [hu, ← en]; show (BitVec.ofNat 32 (n + 1)).toNat = _; rw [BitVec.toNat_ofNat]; exact Nat.mod_eq_of_lt (by omega)
  rw [← en, ← eid]
  rw [← eid] at hn
  have hold : ∀ t' ∈ stk, u.node.get? t'.toNat = s.node.get? t'.toNat := fun t' ht' => by
    obtain ⟨a, b, _⟩ := ho.ids t' (List.mem_cons_of_mem _ ht')
    rw [hn, if_neg (by omega), if_neg (fun e => hnd.1 (by rw [← BitVec.eq_of_toNat_eq e]; exact ht'))]
  have hwold : stk.map (hasLeft u.node) = stk.map (hasLeft s.node) := List.map_congr_left fun t' ht' => by
    unfold hasLeft; rw [hold t' ht']
  have hut : u.node.get? t.toNat = some (if x.l = 0#24 then { x with l := id } else { x with r := id }) := by
    rw [hn, if_neg (by omega), if_pos rfl]
  have idne : id ≠ 0#24 := fun e => by rw [e] at hid; simp at hid
  have h1 : Open u stk1 (childGiven os) := by
    by_cases e : x.l = 0#24
    · rw [if_pos e] at e1 hut
      rw [e1, hos]
      refine ⟨fun t' ht' => ?_, ho.nodup, ?_⟩
      · obtain ⟨a, b, y, hy⟩ := ho.ids t' ht'
        refine ⟨a, by omega, ?_⟩
        rcases List.mem_cons.mp ht' with rfl | ht'
        · exact ⟨_, hut⟩
        · exact ⟨y, by rw [hold t' ht']; exact hy⟩
      · have : hasLeft u.node t = true := by unfold hasLeft; rw [hut]; simpa using idne
        rw [List.map_cons, this, hwold]; simp [e, childGiven]
    · rw [if_neg e] at e1
      rw [e1, hos]
      refine ⟨fun t' ht' => ?_, hnd.2, ?_⟩
      · obtain ⟨a, b, y, hy⟩ := ho.ids t' (List.mem_cons_of_mem _ ht')
        exact ⟨a, by omega, y, by rw [hold t' ht']; exact hy⟩
      · rw [hwold]; simp [e, childGiven]
  rw [← en] at hu
  have hne' : o = none → (childGiven os).length ≠ s.cfg.kMax := fun e => by rw [← hl1]; exact hne (by rw [e]; rfl)
  cases o with
  | some v => exact h u stk1 (by rw [← en]; exact hu) h1 hne'
  | none =>
    have huid : u.node.get? id.toNat = some (Record.internal.node stChild) := by rw [hid, hn, if_pos rfl]; rfl
    have hwid : hasLeft u.node id = false := by unfold hasLeft; rw [huid]; rfl
    refine h u (id :: stk1) (by rw [← en]; exact hu) ⟨fun t' ht' => ?_, ?_, ?_⟩ hne'
    · rcases List.mem_cons.mp ht' with rfl | ht'
      · exact ⟨by omega, by omega, _, huid⟩
      · exact h1.ids t' ht'
    · refine List.nodup_cons.mpr ⟨fun hin => ?_, h1.nodup⟩
      have : id ∈ t :: stk := by rw [e1] at hin; split at hin <;> [exact hin; exact List.mem_cons_of_mem _ hin]
      have := (ho.ids id this).2.1
      omega
    · rw [List.map_cons, hwid, ← h1.shape]; rfl

/-- Records before the rest of a snapshot (R195). -/
theorem parse_records {recs : List (Option Symbol)} {stk : List NodeId} {p last fuel : Nat} {os os' : List Bool}
    (hk : s.cfg.kMax ≤ 2 ^ 23) (hr : ∀ x, some x ∈ recs → x.toNat ≤ symMax) (hb : s.blob.holds p (recs.flatMap recordBytes))
    (hl : p + (recs.flatMap recordBytes).length ≤ last) (hroom : s.nodeCnt.toNat + recs.length ≤ s.cfg.nodeMax)
    (ho : Open s stk os) (hm : openAfter s.cfg.kMax os recs = some os') {Q : Nat → State → Prop} {E : Stop → State → Prop}
    (h : ∀ u stk', u = { s with nodeCnt := BitVec.ofNat 32 (s.nodeCnt.toNat + recs.length), node := u.node } → Open u stk' os' →
      Cmd.wp (resume last fuel (p + (recs.flatMap recordBytes).length) stk') Q E u) :
    Cmd.wp (resume last (recs.length + fuel) p stk) Q E s := by
  have hnm := nodeMax_lt hk
  induction recs generalizing s stk p os with
  | nil =>
    have e : os = os' := by cases os <;> exact Option.some.inj hm
    rw [e] at ho
    rw [List.length_nil, Nat.zero_add]
    exact h s stk (by rw [List.length_nil, Nat.add_zero, BitVec.ofNat_toNat, BitVec.setWidth_eq]) ho
  | cons o recs ih =>
    cases stk with
    | nil =>
      obtain rfl : os = [] := ho.shape
      rw [openAfter_nil_cons] at hm
      cases hm
    | cons t stk =>
      rw [List.flatMap_cons] at hb hl h
      rw [List.length_append] at hl h
      rw [List.length_cons] at hroom
      obtain ⟨hb1, hb2⟩ := Memory.holds_append.mp hb
      obtain ⟨hm1, hm2⟩ := (openAfter_cons (by rw [ho.shape]; simp)).mp hm
      rw [List.length_cons, show recs.length + 1 + fuel = (recs.length + fuel) + 1 by omega]
      refine parse_one hk (by cases o with | none => trivial | some x => exact hr x (by simp)) hb1 (by omega) (by omega) ho
        (fun e e2 => absurd e2 (hm1 e)) fun u stk' hu ho' _ => ?_
      have uc : u.cfg = s.cfg := by rw [hu]
      have ub : u.blob = s.blob := by rw [hu]
      have un : u.nodeCnt.toNat = s.nodeCnt.toNat + 1 := by
        rw [hu]; show (BitVec.ofNat 32 _).toNat = _; rw [BitVec.toNat_ofNat]; exact Nat.mod_eq_of_lt (by omega)
      refine ih (by rw [uc]; exact hk) (fun x hx => hr x (List.mem_cons_of_mem _ hx)) (by rw [ub]; exact hb2) (by omega)
        (by rw [un, uc]; omega) ho' (by rw [uc]; exact hm2) (fun v stk2 hv ho2 => ?_) (by rw [uc]; exact hnm)
      rw [Nat.add_assoc]
      refine h v stk2 ?_ ho2
      rw [un] at hv
      rw [hu] at hv
      rw [List.length_cons, show s.nodeCnt.toNat + (recs.length + 1) = s.nodeCnt.toNat + 1 + recs.length by omega]
      exact hv

theorem get?_first {r : Record} (hm : 1 ≤ s.cfg.nodeMax) (k : Nat) : (s.node.store 1 (s.cfg.nodeMax + 1) 1 (r.node stDetached)).get? k =
    if k = 1 then some (r.node stDetached) else s.node.get? k := by
  rw [Memory.get?_store]
  by_cases e : k = 1
  · rw [if_pos ⟨e, by omega, by omega⟩, if_pos e]
  · rw [if_neg (fun hh => e hh.1), if_neg e]

/-- The first record of a snapshot: the root, open when it is internal (R195). -/
theorem parse_root {o : Option Symbol} {p last fuel : Nat} (hk : s.cfg.kMax ≤ 2 ^ 23) (hk1 : 1 ≤ s.cfg.kMax) (hr : (recordOf o).legal)
    (hb : s.blob.holds p (recordBytes o)) (hl : p + (recordBytes o).length ≤ last) (hn : s.nodeCnt = 0#32) {Q : Nat → State → Prop}
    {E : Stop → State → Prop}
    (h : ∀ u stk, u = { s with nodeCnt := 1#32, root := 1#24, node := u.node } → Open u stk (opened o [true]) →
      Cmd.wp (resume last fuel (p + (recordBytes o).length) stk) Q E u) :
    Cmd.wp (parseRecords last (fuel + 1) p []) Q E s := by
  have hm : 1 ≤ s.cfg.nodeMax := by unfold Config.nodeMax; omega
  have hlen : (recordOf o).size = (recordBytes o).length := by rw [← Record.bytes_length, recordOf_bytes]
  refine parse_first hk hk1 hr (by rw [recordOf_bytes]; exact hb) (by rw [hlen]; exact hl) hn ?_
  rw [hlen]
  obtain ⟨u, hu⟩ : ∃ u : State, u = { s with nodeCnt := 1#32, root := 1#24, node := s.node.store 1 (s.cfg.nodeMax + 1) 1 ((recordOf o).node stDetached) } :=
    ⟨_, rfl⟩
  rw [← hu]
  have ux : u.node.get? 1 = some ((recordOf o).node stDetached) := by rw [hu]; exact (get?_first hm 1).trans (if_pos rfl)
  cases o with
  | some v => exact h u [] (by rw [hu]) (.nil u)
  | none =>
    refine h u [1#24] (by rw [hu]) ⟨fun t ht => ?_, by simp, ?_⟩
    · obtain rfl : t = 1#24 := by simpa using ht
      exact ⟨Nat.le_refl 1, by rw [hu]; exact Nat.le_refl 1, _, ux⟩
    · have : hasLeft u.node 1#24 = false := by unfold hasLeft; rw [show (1#24 : NodeId).toNat = 1 from rfl, ux]; rfl
      rw [List.map_cons, this]; rfl

/-- The first records of a snapshot (R195). -/
theorem parse_begin {recs : List (Option Symbol)} {p last fuel : Nat} {os : List Bool} (hk : s.cfg.kMax ≤ 2 ^ 23) (hk1 : 1 ≤ s.cfg.kMax)
    (hr : ∀ x, some x ∈ recs → x.toNat ≤ symMax) (hb : s.blob.holds p (recs.flatMap recordBytes))
    (hl : p + (recs.flatMap recordBytes).length ≤ last) (hroom : recs.length ≤ s.cfg.nodeMax) (hn : s.nodeCnt = 0#32) (hne : recs ≠ [])
    (hm : openAfter s.cfg.kMax [true] recs = some os) {Q : Nat → State → Prop} {E : Stop → State → Prop}
    (h : ∀ u stk, u = { s with nodeCnt := BitVec.ofNat 32 recs.length, root := 1#24, node := u.node } → Open u stk os →
      Cmd.wp (resume last fuel (p + (recs.flatMap recordBytes).length) stk) Q E u) :
    Cmd.wp (parseRecords last (recs.length + fuel) p []) Q E s := by
  cases recs with
  | nil => exact absurd rfl hne
  | cons o recs =>
    rw [List.flatMap_cons] at hb hl h
    rw [List.length_append] at hl h
    rw [List.length_cons] at hroom
    obtain ⟨hb1, hb2⟩ := Memory.holds_append.mp hb
    obtain ⟨_, hm2⟩ := (openAfter_cons (by simp)).mp hm
    rw [List.length_cons, show recs.length + 1 + fuel = (recs.length + fuel) + 1 by omega]
    refine parse_root hk hk1 (by cases o with | none => trivial | some x => exact hr x (by simp)) hb1 (by omega) hn fun u stk hu ho => ?_
    have uc : u.cfg = s.cfg := by rw [hu]
    have ub : u.blob = s.blob := by rw [hu]
    have un : u.nodeCnt.toNat = 1 := by rw [hu]; rfl
    refine parse_records (by rw [uc]; exact hk) (fun x hx => hr x (List.mem_cons_of_mem _ hx)) (by rw [ub]; exact hb2) (by omega)
      (by rw [un, uc]; omega) ho (by rw [uc]; exact hm2) fun v stk2 hv ho2 => ?_
    rw [Nat.add_assoc]
    refine h v stk2 ?_ ho2
    rw [un] at hv
    rw [hu] at hv
    rw [List.length_cons, Nat.add_comm]
    exact hv

/-! ### Snapshots that stop the parser -/

/-- A record that cannot be read (R195). -/
inductive BadRecord (left : Nat) : List Byte → Nat → Prop where
  | ended : left = 0 → BadRecord left [] 0
  | tag (v : Byte) (more : List Byte) : v ≠ 0x00#8 → v ≠ 0x01#8 → 0 < left → BadRecord left (v :: more) 0
  | short (more : List Byte) : 0 < left → left < 4 → BadRecord left (0x01#8 :: more) 0
  | symbol (a b c : Byte) (more : List Byte) : 4 ≤ left → symMax < join24 a b c → BadRecord left (0x01#8 :: a :: b :: c :: more) 1

theorem readRecord_bad {rest : List Byte} {p last off : Nat} (h : BadRecord (last - p) rest off) (hp : p ≤ last) (hb : s.blob.holds p rest)
    {Q : Record → State → Prop} : Cmd.wp (readRecord p last) Q (fun e t => e = .raise .corruptTree (p + off) ∧ t = s) s := by
  rw [readRecord, Cmd.wp_bind, Cmd.wp_raiseIf]
  cases h with
  | ended h => exact ⟨fun _ => ⟨rfl, rfl⟩, fun e => absurd (by omega) e⟩
  | tag v more h0 h1 hl =>
    have b0 : s.blob.get? p = some v := hb 0 (by simp)
    refine ⟨fun e => by omega, fun _ => ?_⟩
    rw [Cmd.wp_bind, Cmd.wp_readBlob, blobAt_some b0, if_neg h1, if_neg h0]
    exact ⟨rfl, rfl⟩
  | short more hl h4 =>
    have b0 : s.blob.get? p = some 0x01#8 := hb 0 (by simp)
    refine ⟨fun e => by omega, fun _ => ?_⟩
    rw [Cmd.wp_bind, Cmd.wp_readBlob, blobAt_some b0, if_pos rfl, Cmd.wp_bind, Cmd.wp_raiseIf]
    exact ⟨fun _ => ⟨rfl, rfl⟩, fun e => absurd (by omega) e⟩
  | symbol a b c more h4 hs =>
    have b0 : s.blob.get? p = some 0x01#8 := hb 0 (by simp)
    have b1 : s.blob.get? (p + 1) = some a := hb 1 (by simp)
    have b2 : s.blob.get? (p + 2) = some b := hb 2 (by simp)
    have b3 : s.blob.get? (p + 3) = some c := hb 3 (by simp)
    refine ⟨fun e => by omega, fun _ => ?_⟩
    rw [Cmd.wp_bind, Cmd.wp_readBlob, blobAt_some b0, if_pos rfl, Cmd.wp_bind, Cmd.wp_raiseIf]
    refine ⟨fun e => by omega, fun _ => ?_⟩
    rw [Cmd.wp_bind, Cmd.wp_readBlob, blobAt_some b1, Cmd.wp_bind, Cmd.wp_readBlob, blobAt_some b2, Cmd.wp_bind, Cmd.wp_readBlob,
      blobAt_some b3, Cmd.wp_bind, Cmd.wp_raiseIf]
    exact ⟨fun _ => ⟨rfl, rfl⟩, fun e => absurd hs e⟩

/-- What stops the loop after `n` records that leave `os` open (R195): a record that cannot be read, no node left, no room on the
stack. -/
inductive StopsAt (c : Config) (n : Nat) (os : List Bool) (left : Nat) (rest : List Byte) : FaultCode → Nat → Nat → Prop where
  | bad (off p : Nat) : BadRecord left rest off → StopsAt c n os left rest .corruptTree (p + off) p
  | nodes (o : Option Symbol) (more : List Byte) (p : Nat) : n = c.nodeMax → rest = recordBytes o ++ more → (recordOf o).legal →
      (recordBytes o).length ≤ left → StopsAt c n os left rest .capacity 4 p
  | stack (more : List Byte) (p : Nat) : (childGiven os).length = c.kMax → n < c.nodeMax → rest = 0x00#8 :: more → 0 < left →
      StopsAt c n os left rest .capacity 8 p

theorem parse_stop_now {os : List Bool} {rest : List Byte} {code : FaultCode} {info p last fuel : Nat} {stk : List NodeId}
    (h : StopsAt s.cfg s.nodeCnt.toNat os (last - p) rest code info p) (hk : s.cfg.kMax ≤ 2 ^ 23) (hk1 : 1 ≤ s.cfg.kMax) (hp : p ≤ last)
    (hb : s.blob.holds p rest) (ho : os = [true] ∨ (Open s stk os ∧ stk ≠ [])) {Q : Nat → State → Prop} :
    Cmd.wp (parseRecords last (fuel + 1) p stk) Q (fun e t => e = .raise code info ∧ TreeOnly s t) s := by
  cases h with
  | bad off p h =>
    rw [parseRecords, Cmd.wp_bind]
    exact Cmd.wp_mono (readRecord_bad h hp hb) (fun _ _ h => h) (fun e t h => ⟨h.1, by rw [h.2]; exact .refl _⟩)
  | nodes o more p hfull hrest hleg hlen =>
    have hsz : (recordOf o).size = (recordBytes o).length := by rw [← Record.bytes_length, recordOf_bytes]
    subst hrest
    rw [parseRecords, Cmd.wp_bind]
    refine wp_readRecord (r := recordOf o) hleg (by rw [recordOf_bytes]; exact (Memory.holds_append.mp hb).1) (by rw [hsz]; omega) ?_
    rw [Cmd.wp_bind]
    have key : ∀ (leaf : Bool) (sym : Symbol) (Q : NodeId → State → Prop), Cmd.wp (nodeAlloc leaf sym 0#32 0#24 0#24) Q
        (fun e t => e = .raise .capacity 4 ∧ TreeOnly s t) s := by
      intro leaf sym Q
      rw [nodeAlloc, Cmd.wp_bind, Cmd.wp_csr, Cmd.wp_bind, Cmd.wp_csr, Cmd.wp_bind, Cmd.wp_raiseIf]
      exact ⟨fun _ => ⟨rfl, .refl _⟩, fun e => absurd hfull e⟩
    cases o with
    | none => exact key _ _ _
    | some x => exact key _ _ _
  | stack more p hfull hroom hrest hleft =>
    subst hrest
    rcases ho with rfl | ⟨ho, hne⟩
    · exact absurd hfull (show 0 ≠ s.cfg.kMax by omega)
    · obtain ⟨t, stk', rfl⟩ := List.exists_cons_of_ne_nil hne
      exact parse_one (o := none) hk trivial ((Memory.holds_append (l := [0x00#8]) (l' := more)).mp hb).1 (by show p + 1 ≤ last; omega) hroom ho
        (fun _ _ u hu => ⟨rfl, hu⟩) fun _ _ _ _ h => absurd hfull (h rfl)

/-- ParseTree on a snapshot that begins with records and stops it there (R195). -/
theorem parseTree_stop {recs : List (Option Symbol)} {rest : List Byte} {code : FaultCode} {info p last : Nat} {os : List Bool}
    (hk : s.cfg.kMax ≤ 2 ^ 23) (hk1 : 1 ≤ s.cfg.kMax) (hr : ∀ x, some x ∈ recs → x.toNat ≤ symMax)
    (hb : s.blob.holds p (recs.flatMap recordBytes ++ rest)) (hl : p + (recs.flatMap recordBytes).length ≤ last)
    (hroom : recs.length ≤ s.cfg.nodeMax) (hn : s.nodeCnt = 0#32) (hm : openAfter s.cfg.kMax [true] recs = some os)
    (h : (os ≠ [] ∧ StopsAt s.cfg recs.length os (last - (p + (recs.flatMap recordBytes).length)) rest code info (p + (recs.flatMap recordBytes).length)) ∨
      (os = [] ∧ p + (recs.flatMap recordBytes).length ≠ last ∧ code = .corruptTree ∧ info = p + (recs.flatMap recordBytes).length)) :
    Cmd.wp (parseTree p last) (fun _ _ => False) (fun e t => e = .raise code info ∧ TreeOnly s t) s := by
  obtain ⟨hb1, hb2⟩ := Memory.holds_append.mp hb
  have hfuel : recs.length ≤ (recs.flatMap recordBytes).length := by
    clear hm hr hb hl hroom h hb1 hb2
    induction recs with
    | nil => simp
    | cons o recs ih =>
      rw [List.flatMap_cons, List.length_append, List.length_cons]
      have : 1 ≤ (recordBytes o).length := by cases o <;> simp [recordBytes]
      omega
  rw [parseTree, Cmd.wp_bind]
  by_cases hne : recs = []
  · subst hne
    cases hm
    rcases h with ⟨_, h⟩ | ⟨h, _⟩
    · exact parse_stop_now (by rw [hn]; exact h) hk hk1 hl hb2 (.inl rfl)
    · cases h
  rw [show last - p + 1 = recs.length + (last - p - recs.length + 1) by omega]
  refine parse_begin hk hk1 hr hb1 hl hroom hn hne hm fun u stk hu ho => ?_
  have uo : TreeOnly s u := by unfold TreeOnly; rw [hu]
  have uc : u.cfg = s.cfg := by rw [hu]
  have ub : u.blob = s.blob := by rw [hu]
  have hnm := nodeMax_lt hk
  have un : u.nodeCnt.toNat = recs.length := by
    rw [hu]; show (BitVec.ofNat 32 _).toNat = _; rw [BitVec.toNat_ofNat]; exact Nat.mod_eq_of_lt (by omega)
  rcases h with ⟨hpos, h⟩ | ⟨h0, hq, rfl, rfl⟩
  · cases stk with
    | nil => exact absurd ho.shape hpos
    | cons t stk =>
      exact Cmd.wp_mono (parse_stop_now (s := u) (os := os) (rest := rest) (code := code) (info := info) (by rw [uc, un]; exact h) (by rw [uc]; exact hk)
        (by rw [uc]; exact hk1) hl (by rw [ub]; exact hb2) (.inr ⟨ho, by simp⟩)) (fun _ _ h => h) (fun e t ht => ⟨ht.1, uo.trans ht.2⟩)
  · rw [h0] at ho
    rw [ho.stack_nil]
    show Cmd.wp (Cmd.raiseIf _ _ _) _ _ u
    rw [Cmd.wp_raiseIf]
    exact ⟨fun _ => ⟨rfl, uo⟩, fun e => absurd hq e⟩

/-! ### Snapshots that do not stop the parser -/

/-- The record that a reader of the bytes answers, if it answers one (R195). -/
theorem readRecord_sound {rest : List Byte} {p last : Nat} (hb : s.blob.holds p rest) (hl : rest.length = last - p) :
    Cmd.wp (readRecord p last) (fun r t => t = s ∧ ∃ o more, r = recordOf o ∧ (recordOf o).legal ∧ rest = recordBytes o ++ more) (fun _ _ => True) s := by
  rw [readRecord, Cmd.wp_bind, Cmd.wp_raiseIf]
  refine ⟨fun _ => trivial, fun hp => ?_⟩
  cases rest with
  | nil => simp at hl; omega
  | cons v more =>
    have b0 : s.blob.get? p = some v := hb 0 (by simp)
    rw [List.length_cons] at hl
    rw [Cmd.wp_bind, Cmd.wp_readBlob, blobAt_some b0, Cmd.wp_ite]
    refine ⟨fun e => ?_, fun _ => ?_⟩
    · replace e : v = 0x01#8 := e
      rw [Cmd.wp_bind, Cmd.wp_raiseIf]
      refine ⟨fun _ => trivial, fun h4 => ?_⟩
      obtain ⟨a, b, c, more', rfl⟩ : ∃ a b c more', more = a :: b :: c :: more' := by
        match more, hl with
        | [], h => simp at h; omega
        | [a], h => simp at h; omega
        | [a, b], h => simp at h; omega
        | a :: b :: c :: more', _ => exact ⟨a, b, c, more', rfl⟩
      have b1 : s.blob.get? (p + 1) = some a := hb 1 (by simp)
      have b2 : s.blob.get? (p + 2) = some b := hb 2 (by simp)
      have b3 : s.blob.get? (p + 3) = some c := hb 3 (by simp)
      rw [Cmd.wp_bind, Cmd.wp_readBlob, blobAt_some b1, Cmd.wp_bind, Cmd.wp_readBlob, blobAt_some b2, Cmd.wp_bind, Cmd.wp_readBlob,
        blobAt_some b3, Cmd.wp_bind, Cmd.wp_raiseIf]
      refine ⟨fun _ => trivial, fun hs => ⟨rfl, some (BitVec.ofNat 21 (join24 a b c)), more', rfl, ?_, ?_⟩⟩
      · show (BitVec.ofNat 21 (join24 a b c)).toNat ≤ symMax
        rw [BitVec.toNat_ofNat]
        exact Nat.le_trans (Nat.mod_le _ _) (Nat.le_of_not_lt hs)
      · have hj : (BitVec.ofNat 21 (join24 a b c)).toNat = join24 a b c := by
          rw [BitVec.toNat_ofNat]
          exact Nat.mod_eq_of_lt (by have : ¬ symMax < join24 a b c := hs; unfold symMax at this; omega)
        have ha := a.isLt
        have hb := b.isLt
        have hc := c.isLt
        have h2 : BitVec.ofNat 8 (join24 a b c / 256 ^ 2) = a := by
          apply BitVec.eq_of_toNat_eq; rw [BitVec.toNat_ofNat]; unfold join24; omega
        have h1 : BitVec.ofNat 8 (join24 a b c / 256 ^ 1) = b := by
          apply BitVec.eq_of_toNat_eq; rw [BitVec.toNat_ofNat]; unfold join24; omega
        have h0 : BitVec.ofNat 8 (join24 a b c / 256 ^ 0) = c := by
          apply BitVec.eq_of_toNat_eq; rw [BitVec.toNat_ofNat]; unfold join24; omega
        rw [recordBytes, hj, beBytes, beBytes, beBytes, beBytes, h2, h1, h0, e]
        rfl
    · rw [Cmd.wp_ite]
      refine ⟨fun e => ⟨rfl, none, more, rfl, trivial, ?_⟩, fun _ => trivial⟩
      replace e : v = 0x00#8 := e
      rw [e]
      rfl

/-- A loop that ends has read the records that close every open node, and NODE has room for them (R195). -/
theorem parse_sound {rest : List Byte} {stk : List NodeId} {p last fuel : Nat} {os : List Bool} (hk : s.cfg.kMax ≤ 2 ^ 23)
    (hb : s.blob.holds p rest) (hl : rest.length = last - p) (ho : Open s stk os) (hn : s.nodeCnt.toNat ≤ s.cfg.nodeMax) :
    Cmd.wp (resume last fuel p stk) (fun q _ => ∃ recs more, rest = recs.flatMap recordBytes ++ more ∧
      q = p + (recs.flatMap recordBytes).length ∧ (∀ x, some x ∈ recs → x.toNat ≤ symMax) ∧ openAfter s.cfg.kMax os recs = some [] ∧
      s.nodeCnt.toNat + recs.length ≤ s.cfg.nodeMax) (fun _ _ => True) s := by
  have hnm := nodeMax_lt hk
  induction fuel generalizing s rest stk p os with
  | zero =>
    cases stk with
    | nil =>
      obtain rfl : os = [] := ho.shape
      exact ⟨[], rest, rfl, rfl, by simp, rfl, hn⟩
    | cons t stk => trivial
  | succ fuel ih =>
    cases stk with
    | nil =>
      obtain rfl : os = [] := ho.shape
      exact ⟨[], rest, rfl, rfl, by simp, rfl, hn⟩
    | cons t stk =>
      show Cmd.wp (parseRecords last (fuel + 1) p (t :: stk)) _ _ s
      by_cases hroom : s.nodeCnt.toNat < s.cfg.nodeMax
      · by_cases hgood : ∃ o more, (recordOf o).legal ∧ rest = recordBytes o ++ more ∧ p ≤ last
        · obtain ⟨o, more, hleg, rfl, hp⟩ := hgood
          obtain ⟨hb1, hb2⟩ := Memory.holds_append.mp hb
          rw [List.length_append] at hl
          have h1 : 1 ≤ (recordBytes o).length := by cases o <;> simp [recordBytes]
          refine parse_one hk hleg hb1 (by omega) hroom ho (fun _ _ _ _ => trivial) fun u stk' hu ho' hne => ?_
          have uc : u.cfg = s.cfg := by rw [hu]
          have ub : u.blob = s.blob := by rw [hu]
          have un : u.nodeCnt.toNat = s.nodeCnt.toNat + 1 := by
            rw [hu]; show (BitVec.ofNat 32 _).toNat = _; rw [BitVec.toNat_ofNat]; exact Nat.mod_eq_of_lt (by omega)
          refine Cmd.wp_mono (ih (s := u) (rest := more) (by rw [uc]; exact hk) (by rw [ub]; exact hb2) (by omega) ho' (by rw [un, uc]; omega) (by rw [uc]; exact hnm))
            (fun q _ hq => ?_) (fun _ _ h => h)
          obtain ⟨recs, more', rfl, rfl, h2, h3, h4⟩ := hq
          rw [uc] at h3
          refine ⟨o :: recs, more', by simp, by simp; omega, fun x hx => ?_, (openAfter_cons (by rw [ho.shape]; simp)).mpr ⟨hne, h3⟩,
            by rw [un, uc] at h4; rw [List.length_cons]; omega⟩
          rcases List.mem_cons.mp hx with e | hx
          · rw [← e] at hleg; exact hleg
          · exact h2 x hx
        · rw [parseRecords, Cmd.wp_bind]
          by_cases hp : p ≤ last
          · refine Cmd.wp_mono (readRecord_sound hb hl) (fun r _ hr => ?_) (fun _ _ h => h)
            obtain ⟨_, o, more, _, hleg, hrest⟩ := hr
            exact absurd ⟨o, more, hleg, hrest, hp⟩ hgood
          · rw [readRecord, Cmd.wp_bind, Cmd.wp_raiseIf]
            exact ⟨fun _ => trivial, fun e => absurd (by omega) e⟩
      · rw [parseRecords, Cmd.wp_bind]
        refine Cmd.wp_mono (readRecord_sound hb hl) (fun r u hr => ?_) (fun _ _ h => h)
        obtain ⟨rfl, o, more, rfl, _, _⟩ := hr
        rw [Cmd.wp_bind]
        have key : ∀ (leaf : Bool) (sym : Symbol) (Q : NodeId → State → Prop), Cmd.wp (nodeAlloc leaf sym 0#32 0#24 0#24) Q (fun _ _ => True) u := by
          intro leaf sym Q
          rw [nodeAlloc, Cmd.wp_bind, Cmd.wp_csr, Cmd.wp_bind, Cmd.wp_csr, Cmd.wp_bind, Cmd.wp_raiseIf]
          exact ⟨fun _ => trivial, fun h => absurd (show u.nodeCnt.toNat = u.cfg.nodeMax by omega) h⟩
        cases o with
        | none => exact key _ _ _
        | some x => exact key _ _ _

/-- How many subtrees the open nodes wait for. -/
def awaited : List Bool → Nat
  | [] => 0
  | false :: os => awaited os + 2
  | true :: os => awaited os + 1

theorem awaited_childGiven {b : Bool} {os : List Bool} : awaited (b :: os) = awaited (childGiven (b :: os)) + 1 := by cases b <;> rfl

/-- The trees of records that close every open node (R191). -/
theorem trees_of_records {recs : List (Option Symbol)} {most : Nat} {os : List Bool} (h : openAfter most os recs = some []) :
    ∃ trees : List Tree, trees.length = awaited os ∧ recs.flatMap recordBytes = trees.flatMap Tree.snapshot ∧
      recs.length = (trees.map Tree.size).sum ∧ ∀ x, x ∈ trees.flatMap Tree.leaves → some x ∈ recs := by
  induction recs generalizing os with
  | nil =>
    obtain rfl : os = [] := by cases os <;> exact Option.some.inj h
    exact ⟨[], rfl, rfl, rfl, by simp⟩
  | cons o recs ih =>
    cases os with
    | nil => rw [openAfter_nil_cons] at h; cases h
    | cons b os =>
      have h' := ((openAfter_cons (by simp)).mp h).2
      rw [awaited_childGiven]
      cases o with
      | some x =>
        obtain ⟨trees, h1, h2, h3, h4⟩ := ih h'
        refine ⟨.leaf x :: trees, by rw [List.length_cons, h1]; rfl, by simp [h2, recordBytes, Tree.snapshot], by simp [h3, Tree.size]; omega, fun y hy => ?_⟩
        rw [List.flatMap_cons, List.mem_append] at hy
        rcases hy with hy | hy
        · obtain rfl : y = x := by simpa [Tree.leaves] using hy
          exact List.mem_cons_self ..
        · exact List.mem_cons_of_mem _ (h4 y hy)
      | none =>
        obtain ⟨trees, h1, h2, h3, h4⟩ := ih h'
        replace h1 : trees.length = awaited (childGiven (b :: os)) + 2 := h1
        match trees, h1 with
        | l :: r :: trees, h1 =>
          refine ⟨.node l r :: trees, by simpa using h1, by simp [h2, recordBytes, Tree.snapshot], by simp [h3, Tree.size]; omega, fun y hy => ?_⟩
          refine List.mem_cons_of_mem _ (h4 y ?_)
          simpa [Tree.leaves] using hy

/-- ParseTree ends only on the snapshot of a tree that NODE has room for, with legal symbols (R195). -/
theorem parseTree_sound {rest : List Byte} {p last : Nat} (hk : s.cfg.kMax ≤ 2 ^ 23) (hk1 : 1 ≤ s.cfg.kMax) (hb : s.blob.holds p rest)
    (hl : rest.length = last - p) (hp : p ≤ last) (hn : s.nodeCnt = 0#32) :
    Cmd.wp (parseTree p last) (fun _ _ => ∃ T : Tree, rest = T.snapshot ∧ T.leaves.length ≤ s.cfg.kMax ∧ ∀ x ∈ T.leaves, x.toNat ≤ symMax)
      (fun _ _ => True) s := by
  have hm : 1 ≤ s.cfg.nodeMax := by unfold Config.nodeMax; omega
  rw [parseTree, Cmd.wp_bind]
  by_cases hgood : ∃ o more, (recordOf o).legal ∧ rest = recordBytes o ++ more
  · obtain ⟨o, more, hleg, rfl⟩ := hgood
    obtain ⟨hb1, hb2⟩ := Memory.holds_append.mp hb
    rw [List.length_append] at hl
    have h1 : 1 ≤ (recordBytes o).length := by cases o <;> simp [recordBytes]
    refine parse_root hk hk1 hleg hb1 (by omega) hn fun u stk hu ho => ?_
    have uc : u.cfg = s.cfg := by rw [hu]
    have ub : u.blob = s.blob := by rw [hu]
    have un : u.nodeCnt.toNat = 1 := by rw [hu]; rfl
    refine Cmd.wp_mono (parse_sound (s := u) (rest := more) (by rw [uc]; exact hk) (by rw [ub]; exact hb2) (by omega) ho (by rw [un, uc]; exact hm))
      (fun q v hq => ?_) (fun _ _ h => h)
    obtain ⟨recs, more', rfl, rfl, h2, h3, h4⟩ := hq
    rw [un, uc] at h4
    rw [uc] at h3
    rw [Cmd.wp_raiseIf]
    refine ⟨fun _ => trivial, fun e => ?_⟩
    replace e : p + (recordBytes o).length + (recs.flatMap recordBytes).length = last := not_not.mp e
    obtain ⟨trees, t1, t2, t3, t4⟩ := trees_of_records (recs := o :: recs) (os := [true])
      ((openAfter_cons (by simp)).mpr ⟨fun _ => by show 0 ≠ s.cfg.kMax; omega, h3⟩)
    match trees, t1 with
    | [T], _ =>
      have hm0 : more' = [] := by
        apply List.eq_nil_of_length_eq_zero
        rw [List.length_append] at hl
        omega
      rw [hm0, List.append_nil]
      refine ⟨T, by simpa using t2, ?_, fun x hx => ?_⟩
      · have hs := T.size_eq
        have : recs.length + 1 = T.size := by simpa using t3
        unfold Config.nodeMax at h4
        omega
      · rcases List.mem_cons.mp (t4 x (by simpa using hx)) with e | e
        · rw [← e] at hleg; exact hleg
        · exact h2 x e
  · rw [parseRecords, Cmd.wp_bind]
    refine Cmd.wp_mono (readRecord_sound hb hl) (fun r _ hr => ?_) (fun _ _ h => h)
    obtain ⟨_, o, more, _, hleg, hrest⟩ := hr
    exact absurd ⟨o, more, hleg, hrest⟩ hgood

end Sys2Proof.Machine
end

