-- ==== Sys2Proof/Laws/Container.lean ====
section
/-! SUPPORT. PARSE as a whole: the header, its checks, the tree and the payload (44_container.md R194). -/

namespace Sys2Proof.Machine

variable {s t u : State} {T : Tree}

/-! ### The header -/

theorem wp_get32 {p v : Nat} (hb : s.blob.holds p (beBytes 4 v)) (hv : v < 2 ^ 32) {Q : Nat → State → Prop} {E : Stop → State → Prop} :
    Cmd.wp (get32 p) Q E s ↔ Q v s := by
  have h0 : s.blob.get? p = some (BitVec.ofNat 8 (v / 256 ^ 3)) := hb 0 (by rw [beBytes_length]; omega)
  have h1 : s.blob.get? (p + 1) = some (BitVec.ofNat 8 (v / 256 ^ 2)) := hb 1 (by rw [beBytes_length]; omega)
  have h2 : s.blob.get? (p + 2) = some (BitVec.ofNat 8 (v / 256 ^ 1)) := hb 2 (by rw [beBytes_length]; omega)
  have h3 : s.blob.get? (p + 3) = some (BitVec.ofNat 8 (v / 256 ^ 0)) := hb 3 (by rw [beBytes_length]; omega)
  have e : join32 (BitVec.ofNat 8 (v / 256 ^ 3)) (BitVec.ofNat 8 (v / 256 ^ 2)) (BitVec.ofNat 8 (v / 256 ^ 1)) (BitVec.ofNat 8 (v / 256 ^ 0)) = v := by
    simp only [join32, BitVec.toNat_ofNat]
    omega
  rw [get32, Cmd.wp_bind, Cmd.wp_readBlob, blobAt_some h0, Cmd.wp_bind, Cmd.wp_readBlob, blobAt_some h1, Cmd.wp_bind, Cmd.wp_readBlob,
    blobAt_some h2, Cmd.wp_bind, Cmd.wp_readBlob, blobAt_some h3, Cmd.wp_pure, e]

/-- MAGIC checked where it stands (R194). -/
theorem magic_ok (hb : s.blob.holds 0 magic) {E : Stop → State → Prop} : Cmd.wp (Cmd.forFrom checkMagic 4 0) (fun _ t => t = s) E s := by
  refine Cmd.wp_mono (Cmd.wp_forFrom (I := fun _ t => t = s) 4 0 (fun i t _ h2 ht => ?_) rfl) (fun _ _ h => h) (fun _ _ h => h)
  subst ht
  have hi : i < magic.length := by simpa [magic] using h2
  rw [checkMagic, Cmd.wp_bind, Cmd.wp_readBlob, blobAt_some (hb.getZero hi), Cmd.wp_raiseIf]
  exact ⟨fun e => absurd (List.getElem?_eq_getElem hi).symm e, fun _ => rfl⟩

/-- The first byte that is not MAGIC's (R194). -/
theorem magic_bad {k : Nat} {v : Byte} (hk : k < 4) (hb : s.blob.holds 0 (magic.take k)) (hv : s.blob.get? k = some v) (hne : some v ≠ magic[k]?)
    {Q : Unit → State → Prop} : Cmd.wp (Cmd.forFrom checkMagic 4 0) Q (fun e t => e = .raise .malformed k ∧ t = s) s := by
  rw [show 4 = k + (4 - k) by omega, Cmd.wp_forFrom_add]
  refine Cmd.wp_mono (Cmd.wp_forFrom (I := fun _ t => t = s) k 0 (fun i t _ h2 ht => ?_) rfl) (fun _ t ht => ?_) (fun _ _ h => h)
  · subst ht
    have hi : i < (magic.take k).length := by simp [magic]; omega
    have hi' : i < magic.length := by simp [magic]; omega
    have hg := hb.getZero hi
    rw [List.getElem_take] at hg
    rw [checkMagic, Cmd.wp_bind, Cmd.wp_readBlob, blobAt_some hg, Cmd.wp_raiseIf]
    exact ⟨fun e => absurd (List.getElem?_eq_getElem hi').symm e, fun _ => rfl⟩
  · subst ht
    rw [show 4 - k = (4 - k - 1) + 1 by omega, Cmd.wp_forFrom_succ, checkMagic, Cmd.wp_bind, Cmd.wp_readBlob, Nat.zero_add, blobAt_some hv,
      Cmd.wp_raiseIf]
    exact ⟨fun _ => ⟨rfl, rfl⟩, fun e => absurd hne e⟩

theorem headerBytes_eq (orig pad tlen plen : Nat) :
    headerBytes orig pad tlen plen = magic ++ (beBytes 4 orig ++ (beBytes 1 pad ++ (beBytes 4 tlen ++ beBytes 4 plen))) := by
  simp [headerBytes, magic]

theorem headerBytes_length (orig pad tlen plen : Nat) : (headerBytes orig pad tlen plen).length = 17 := by
  simp [headerBytes, beBytes_length]

/-- The header read where it stands (R194). -/
theorem readHeader_ok {orig padb tlen plen : Nat} (ho : orig < 2 ^ 32) (ht : tlen < 2 ^ 32) (hp : plen < 2 ^ 32) (hlen : s.blobLen.toNat ≤ s.cfg.bMax)
    (h17 : 17 ≤ s.blobLen.toNat) (hb : s.blob.holds 0 (headerBytes orig padb tlen plen)) {Q : Header → State → Prop} {E : Stop → State → Prop}
    (h : Q { orig := orig, padb := BitVec.ofNat 8 padb, tlen := tlen, plen := plen } s) : Cmd.wp readHeader Q E s := by
  rw [headerBytes_eq, Memory.holds_append, Memory.holds_append, Memory.holds_append, Memory.holds_append] at hb
  simp only [beBytes_length, show magic.length = 4 from rfl, Nat.zero_add, Nat.reduceAdd] at hb
  obtain ⟨b0, b4, b8, b9, b13⟩ := hb
  have b8' : s.blob.get? 8 = some (BitVec.ofNat 8 padb) := by
    have := b8 0 (by rw [beBytes_length]; omega)
    rw [Nat.add_zero] at this
    rw [this]
    simp [beBytes]
  rw [readHeader, Cmd.wp_bind, Cmd.wp_csr, Cmd.wp_bind, Cmd.wp_csr, Cmd.wp_bind, Cmd.wp_raiseIf]
  refine ⟨fun e => by omega, fun _ => ?_⟩
  rw [Cmd.wp_bind, Cmd.wp_raiseIf]
  refine ⟨fun e => by have : s.blobLen.toNat < 17 := e; omega, fun _ => Cmd.wp_then (magic_ok b0) (fun _ t ht => ?_) (fun _ _ h => h)⟩
  subst ht
  rw [Cmd.wp_bind, wp_get32 b4 ho, Cmd.wp_bind, Cmd.wp_readBlob, blobAt_some b8', Cmd.wp_bind, wp_get32 b9 ht, Cmd.wp_bind, wp_get32 b13 hp]
  exact h

/-- The field checks (R194). -/
theorem checkHeader_eq {orig padb tlen plen : Nat} (hp : padb < 2 ^ 8) {Q : Unit → State → Prop} {E : Stop → State → Prop}
    (hok : headerFault s.cfg orig padb tlen plen s.blobLen.toNat = none → Q () s)
    (hbad : ∀ code info, headerFault s.cfg orig padb tlen plen s.blobLen.toNat = some (code, info) →
      ∀ fc : FaultCode, fc.number = BitVec.ofNat 8 code → E (.raise fc info) s) :
    Cmd.wp (checkHeader { orig := orig, padb := BitVec.ofNat 8 padb, tlen := tlen, plen := plen }) Q E s := by
  have hp' : (BitVec.ofNat 8 padb).toNat = padb := by rw [BitVec.toNat_ofNat]; exact Nat.mod_eq_of_lt hp
  unfold headerFault at hok hbad
  rw [checkHeader, Cmd.wp_bind, Cmd.wp_csr, Cmd.wp_bind, Cmd.wp_raiseIf, hp']
  refine ⟨fun e => hbad 1 8 (by rw [if_pos e]) _ rfl, fun e => ?_⟩
  rw [if_neg e] at hok hbad
  rw [Cmd.wp_bind, Cmd.wp_raiseIf]
  refine ⟨fun e => hbad 1 9 (by rw [if_pos e]) _ rfl, fun e => ?_⟩
  rw [if_neg e] at hok hbad
  rw [Cmd.wp_bind, Cmd.wp_raiseIf]
  refine ⟨fun e => hbad 3 13 (by rw [if_pos e]) _ rfl, fun e => ?_⟩
  rw [if_neg e] at hok hbad
  rw [Cmd.wp_bind, Cmd.wp_raiseIf]
  refine ⟨fun e => hbad 1 _ (by rw [if_pos e]) _ rfl, fun e => ?_⟩
  rw [if_neg e] at hok hbad
  rw [Cmd.wp_bind, Cmd.wp_raiseIf]
  refine ⟨fun e => hbad 1 8 (by rw [if_pos e]) _ rfl, fun e => ?_⟩
  rw [if_neg e] at hok hbad
  rw [Cmd.wp_bind, Cmd.wp_raiseIf]
  refine ⟨fun e => hbad 1 9 (by rw [if_pos e]) _ rfl, fun e => ?_⟩
  rw [if_neg e] at hok hbad
  rw [Cmd.wp_bind, Cmd.wp_csr, Cmd.wp_raiseIf]
  refine ⟨fun e => hbad 5 7 (by rw [if_pos e]) _ rfl, fun e => ?_⟩
  rw [if_neg e] at hok
  exact hok rfl

/-! ### The payload -/

/-- The payload goes to PK (R194). -/
theorem copyPayload_ok {payload : List Byte} {p : Nat} (hb : s.blob.holds p payload) (hp : payload.length ≤ s.cfg.pMax) {E : Stop → State → Prop} :
    Cmd.wp (Cmd.forFrom (copyPayload p) payload.length 0)
      (fun _ t => t = { s with pk := t.pk } ∧ t.pk.holds 0 payload ∧ s.pk.sameFrom t.pk payload.length) E s := by
  refine Cmd.wp_mono (Cmd.wp_forFrom (I := fun i t => t = { s with pk := t.pk } ∧ t.pk.holds 0 (payload.take i) ∧ s.pk.sameFrom t.pk payload.length)
    payload.length 0 (fun i t _ h2 ht => ?_) ⟨rfl, fun k hk => by simp at hk, .refl _ _⟩) (fun _ t ht => ?_) (fun _ _ h => h)
  · obtain ⟨hf, hpk, hsame⟩ := ht
    have hi : i < payload.length := by omega
    have tb : t.blob = s.blob := by rw [hf]
    have tc : t.cfg = s.cfg := by rw [hf]
    rw [copyPayload, Cmd.wp_bind, Cmd.wp_readBlob, blobAt_some (by rw [tb, hb i hi]; exact List.getElem?_eq_getElem hi), Cmd.wp_writePk]
    refine ⟨?_, ?_, hsame.trans (Memory.sameFrom_store (by omega))⟩
    · rw [hf]; rfl
    · rw [← List.take_concat_get' payload i hi]
      have := hpk.storeNext (a := payload[i]) (lo := 0) (hi := t.cfg.pMax) (by omega) (by rw [List.length_take, tc]; omega)
      rw [List.length_take, Nat.min_eq_left (by omega), Nat.zero_add] at this
      exact this
  · rw [Nat.zero_add, List.take_length] at ht
    exact ht

/-! ### PARSE -/

/-- PARSE past its header (R194): what the tree and the payload leave. -/
theorem wp_parse_header {orig padb tlen plen : Nat} {more : List Byte} (ho : orig < 2 ^ 32) (hpb : padb < 2 ^ 8) (ht : tlen < 2 ^ 32) (hp : plen < 2 ^ 32)
    (hb : s.holdsBlob (headerBytes orig padb tlen plen ++ more)) {Q : Unit → State → Prop} {E : Stop → State → Prop}
    (hbad : ∀ code info, headerFault s.cfg orig padb tlen plen (17 + more.length) = some (code, info) →
      ∀ fc : FaultCode, fc.number = BitVec.ofNat 8 code → E (.raise fc info) s.artifactZero)
    (hok : headerFault s.cfg orig padb tlen plen (17 + more.length) = none → Cmd.wp (parseSnapshot tlen) (fun _ u =>
      Cmd.wp (Cmd.forFrom (copyPayload (17 + tlen)) plen 0) (fun _ v => Q () { v with pkLen := BitVec.ofNat 32 plen, pad := (BitVec.ofNat 8 padb).setWidth 3, origLen := BitVec.ofNat 32 orig }) E u) E s.artifactZero) :
    Cmd.wp parse Q E s := by
  obtain ⟨hl, hfit, hblob⟩ := hb
  rw [List.length_append, headerBytes_length] at hl hfit
  rw [parse, Cmd.wp_bind, dropArtifact, Cmd.wp_bind, Cmd.wp_update, Cmd.wp_bind, pkInit, Cmd.wp_update, Cmd.wp_bind, Cmd.wp_update, upInit, Cmd.wp_update]
  show Cmd.wp _ Q E s.artifactZero
  rw [Cmd.wp_bind]
  refine readHeader_ok (s := s.artifactZero) ho ht hp (by show s.blobLen.toNat ≤ s.cfg.bMax; omega) (by show 17 ≤ s.blobLen.toNat; omega) ((Memory.holds_append.mp hblob).1) ?_
  rw [Cmd.wp_bind]
  have e : s.artifactZero.blobLen.toNat = 17 + more.length := hl
  refine checkHeader_eq hpb (fun h => ?_) (fun code info h => ?_)
  · rw [e] at h
    rw [Cmd.wp_bind]
    refine Cmd.wp_mono (hok h) (fun _ u hu => ?_) (fun _ _ h => h)
    rw [Cmd.wp_bind]
    refine Cmd.wp_mono hu (fun _ v hv => ?_) (fun _ _ h => h)
    rw [Cmd.wp_update]
    exact hv
  · rw [e] at h
    exact hbad code info h

theorem containerBytes_header (orig pad : Nat) (tree : Option Tree) (payload : List Byte) :
    containerBytes orig pad tree payload = headerBytes orig pad (snapshotOf tree).length payload.length ++ (snapshotOf tree ++ payload) := by
  simp [containerBytes, headerBytes]

/-- PARSE of a container with a tree (R194, R195). -/
theorem parse_ok {payload : List Byte} {orig pad : Nat} (hL : s.cfg.Legal) (hb : s.holdsBlob (containerBytes orig pad (some T) payload))
    (ho : orig < 2 ^ 32) (hp : pad ≤ 7) (hpp : payload = [] → pad = 0) (hpm : payload.length ≤ s.cfg.pMax) (hk : T.leaves.length ≤ s.cfg.kMax)
    (hleg : ∀ x ∈ T.leaves, x.toNat ≤ symMax) {E : Stop → State → Prop} :
    Cmd.wp parse (fun _ t => ∃ ids u, Loaded s.artifactZero u T ids ∧
      t = { u with pkLen := BitVec.ofNat 32 payload.length, pad := BitVec.ofNat 3 pad, origLen := BitVec.ofNat 32 orig, pk := t.pk } ∧
      t.pk.holds 0 payload ∧ s.pk.sameFrom t.pk payload.length) E s := by
  obtain ⟨⟨hk1, hk2, _⟩, _, ⟨_, hp2⟩, _, hb2⟩ := hL
  have hfit := hb.2.1
  rw [containerBytes_header] at hb hfit
  have hblob := (Memory.holds_append.mp hb.2.2).2
  rw [headerBytes_length, Memory.holds_append] at hblob
  obtain ⟨hsnap, hpay⟩ := hblob
  rw [List.length_append, headerBytes_length, List.length_append] at hfit
  have hsp : 0 < (snapshotOf (some T)).length := List.length_pos_of_ne_nil (snapshot_ne_nil T)
  have hnone : headerFault s.cfg orig pad (snapshotOf (some T)).length payload.length (17 + (snapshotOf (some T) ++ payload).length) = none := by
    unfold headerFault
    rw [List.length_append, if_neg (by omega), if_neg (by omega), if_neg (by omega), if_neg (by omega),
      if_neg (fun e => e.2 (hpp (List.eq_nil_of_length_eq_zero e.1))), if_neg (fun e => by omega), if_neg (by omega)]
  refine wp_parse_header ho (by omega) (by omega) (by omega) hb (fun code info h => by rw [hnone] at h; cases h) (fun _ => ?_)
  rw [parseSnapshot, if_pos hsp, parseTree, Cmd.wp_bind]
  have hfuel : T.size ≤ (snapshotOf (some T)).length := by
    have := T.size_eq
    have h5 := snapshot_length T
    show T.size ≤ T.snapshot.length
    omega
  rw [show hdrLen + (snapshotOf (some T)).length - hdrLen + 1 = T.size + ((snapshotOf (some T)).length - T.size + 1) by omega]
  refine Cmd.wp_mono (parseRecords_tree (s := s.artifactZero) (p := hdrLen) hk2 hleg hsnap (Nat.le_refl _) hk rfl) (fun q u hu => ?_) (fun _ _ h => h)
  obtain ⟨rfl, ids, hu⟩ := hu
  rw [Cmd.wp_raiseIf]
  refine ⟨fun e => absurd rfl e, fun _ => ?_⟩
  have ub : u.blob = s.blob := by rw [hu.frame]; rfl
  have uc : u.cfg = s.cfg := by rw [hu.frame]; rfl
  have upk : u.pk = s.pk := by rw [hu.frame]; rfl
  refine Cmd.wp_mono (copyPayload_ok (by rw [ub]; exact hpay) (by rw [uc]; exact hpm)) (fun _ v hv => ?_) (fun _ _ h => h)
  obtain ⟨hf, hpk, hsame⟩ := hv
  rw [upk] at hsame
  refine ⟨ids, u, hu, ?_, hpk, hsame⟩
  have e3 : (BitVec.ofNat 8 pad).setWidth 3 = BitVec.ofNat 3 pad := by
    apply BitVec.eq_of_toNat_eq; rw [BitVec.toNat_setWidth, BitVec.toNat_ofNat, BitVec.toNat_ofNat]; omega
  rw [e3]
  generalize v.pk = m at hf
  rw [hf]

/-- PARSE of the header-only container (R194). -/
theorem parse_empty (hL : s.cfg.Legal) (hb : s.holdsBlob (containerBytes 0 0 none [])) {E : Stop → State → Prop} :
    Cmd.wp parse (fun _ t => t = s.artifactZero) E s := by
  rw [containerBytes_header] at hb
  have hnone : headerFault s.cfg 0 0 (snapshotOf none).length ([] : List Byte).length (17 + (snapshotOf none ++ []).length) = none := by
    have := hL.2.2.1.1
    simp [headerFault, snapshotOf]
  refine wp_parse_header (by omega) (by omega) (by simp [snapshotOf]) (by simp) hb (fun code info h => by rw [hnone] at h; cases h) (fun _ => ?_)
  rfl

/-! ### PARSE takes nothing but containers -/

theorem beBytes_join32 (a b c d : Byte) : beBytes 4 (join32 a b c d) = [a, b, c, d] := by
  have ha := a.isLt
  have hb := b.isLt
  have hc := c.isLt
  have hd := d.isLt
  have h3 : BitVec.ofNat 8 (join32 a b c d / 256 ^ 3) = a := by
    apply BitVec.eq_of_toNat_eq; rw [BitVec.toNat_ofNat]; unfold join32; omega
  have h2 : BitVec.ofNat 8 (join32 a b c d / 256 ^ 2) = b := by
    apply BitVec.eq_of_toNat_eq; rw [BitVec.toNat_ofNat]; unfold join32; omega
  have h1 : BitVec.ofNat 8 (join32 a b c d / 256 ^ 1) = c := by
    apply BitVec.eq_of_toNat_eq; rw [BitVec.toNat_ofNat]; unfold join32; omega
  have h0 : BitVec.ofNat 8 (join32 a b c d / 256 ^ 0) = d := by
    apply BitVec.eq_of_toNat_eq; rw [BitVec.toNat_ofNat]; unfold join32; omega
  rw [beBytes, beBytes, beBytes, beBytes, beBytes, h3, h2, h1, h0]

theorem join32_lt (a b c d : Byte) : join32 a b c d < 2 ^ 32 := by
  have ha := a.isLt
  have hb := b.isLt
  have hc := c.isLt
  have hd := d.isLt
  unfold join32
  omega

/-- Bytes that begin with MAGIC and are long enough begin with a header (R190). -/
theorem header_of_bytes {bytes : List Byte} (h17 : 17 ≤ bytes.length) (hm : bytes.take 4 = magic) :
    ∃ orig padb tlen plen more, orig < 2 ^ 32 ∧ padb < 2 ^ 8 ∧ tlen < 2 ^ 32 ∧ plen < 2 ^ 32 ∧ bytes = headerBytes orig padb tlen plen ++ more := by
  match bytes, h17, hm with
  | m0 :: m1 :: m2 :: m3 :: a :: b :: c :: d :: e :: f :: g :: h :: i :: j :: k :: l :: m :: more, _, hm =>
    refine ⟨join32 a b c d, e.toNat, join32 f g h i, join32 j k l m, more, join32_lt .., e.isLt, join32_lt .., join32_lt .., ?_⟩
    have he : beBytes 1 e.toNat = [e] := by simp [beBytes]
    have hm' : [m0, m1, m2, m3] = magic := by simpa using hm
    rw [headerBytes_eq, beBytes_join32, beBytes_join32, beBytes_join32, he, ← hm']
    rfl
  | [_, _, _, _, _, _, _, _, _, _, _, _, _, _, _, _], h, _ => exact absurd h (by simp)

theorem magic_sound {bytes : List Byte} (hb : s.blob.holds 0 bytes) (h4 : 4 ≤ bytes.length) :
    Cmd.wp (Cmd.forFrom checkMagic 4 0) (fun _ _ => bytes.take 4 = magic) (fun _ _ => True) s := by
  refine Cmd.wp_mono (Cmd.wp_forFrom (I := fun i t => t = s ∧ bytes.take i = magic.take i) 4 0 (fun i t _ h2 ht => ?_) ⟨rfl, by simp⟩)
    (fun _ _ h => h.2) (fun _ _ h => h)
  obtain ⟨rfl, ht⟩ := ht
  have hi : i < bytes.length := by omega
  have hi' : i < magic.length := by simpa [magic] using h2
  rw [checkMagic, Cmd.wp_bind, Cmd.wp_readBlob, blobAt_some (hb.getZero hi), Cmd.wp_raiseIf]
  refine ⟨fun _ => trivial, fun e => ⟨rfl, ?_⟩⟩
  replace e : some bytes[i] = magic[i]? := not_not.mp e
  rw [List.getElem?_eq_getElem hi'] at e
  rw [← List.take_concat_get' bytes i hi, ← List.take_concat_get' magic i hi', ht, Option.some.inj e]

/-- The parts of a container that PARSE takes (R194, R195). -/
structure Accepted (c : Config) (orig pad : Nat) (tree : Option Tree) (payload : List Byte) : Prop where
  origLt : orig < 2 ^ 32
  padLe : pad ≤ 7
  noPad : payload = [] → pad = 0
  fits : payload.length ≤ c.pMax
  bare : tree = none → payload = [] ∧ orig = 0
  leaves : ∀ T, tree = some T → T.leaves.length ≤ c.kMax ∧ ∀ x ∈ T.leaves, x.toNat ≤ symMax

/-- PARSE ends with no fault only on a container (R194, R195). -/
theorem parse_only {bytes : List Byte} (hL : s.cfg.Legal) (hb : s.holdsBlob bytes) :
    Cmd.wp parse (fun _ _ => ∃ orig pad tree payload, Accepted s.cfg orig pad tree payload ∧ bytes = containerBytes orig pad tree payload)
      (fun _ _ => True) s := by
  obtain ⟨⟨hk1, hk2, _⟩, _, ⟨_, hp2⟩, hb1, hb2⟩ := hL
  by_cases hgood : 17 ≤ bytes.length ∧ bytes.take 4 = magic
  · obtain ⟨orig, padb, tlen, plen, more, h1, h2, h3, h4, rfl⟩ := header_of_bytes hgood.1 hgood.2
    have hfit := hb.2.1
    rw [List.length_append, headerBytes_length] at hfit
    refine wp_parse_header h1 h2 h3 h4 hb (fun _ _ _ _ _ => trivial) (fun hnone => ?_)
    unfold headerFault at hnone
    split at hnone; · cases hnone
    split at hnone; · cases hnone
    split at hnone; · cases hnone
    split at hnone; · cases hnone
    split at hnone; · cases hnone
    split at hnone; · cases hnone
    split at hnone; · cases hnone
    rename_i g1 g2 g3 g4 g5 g6 g7
    have hmore : more = more.take tlen ++ more.drop tlen := (List.take_append_drop ..).symm
    have ltree : (more.take tlen).length = tlen := by rw [List.length_take]; omega
    have lpay : (more.drop tlen).length = plen := by rw [List.length_drop]; omega
    have hblob := (Memory.holds_append.mp hb.2.2).2
    rw [headerBytes_length, hmore, Memory.holds_append] at hblob
    have fin : ∀ (tree : Option Tree) (u : State), more.take tlen = snapshotOf tree → (tree = none → tlen = 0) →
        (∀ T, tree = some T → T.leaves.length ≤ s.cfg.kMax ∧ ∀ x ∈ T.leaves, x.toNat ≤ symMax) →
        Cmd.wp (Cmd.forFrom (copyPayload (17 + tlen)) plen 0) (fun _ _ => ∃ orig' pad' tree payload, Accepted s.cfg orig' pad' tree payload ∧
          headerBytes orig padb tlen plen ++ more = containerBytes orig' pad' tree payload) (fun _ _ => True) u := by
      intro tree u ht hn hT
      refine Cmd.wp_mono (Cmd.wp_any _ u) (fun _ _ _ => ⟨orig, padb, tree, more.drop tlen, ⟨h1, by omega, fun e => ?_, by omega, fun e => ?_, hT⟩, ?_⟩) (fun _ _ h => h)
      · by_contra hp
        rw [e] at lpay
        exact g5 ⟨lpay.symm, hp⟩
      · have t0 := hn e
        refine ⟨List.eq_nil_of_length_eq_zero ?_, ?_⟩
        · rw [lpay]; by_contra hh; exact g6 ⟨t0, .inl hh⟩
        · by_contra hh; exact g6 ⟨t0, .inr hh⟩
      · rw [containerBytes_header, ← ht, ltree, lpay, ← hmore]
    rw [parseSnapshot]
    by_cases ht0 : 0 < tlen
    · rw [if_pos ht0]
      refine Cmd.wp_mono (parseTree_sound (s := s.artifactZero) (rest := more.take tlen) hk2 hk1 hblob.1 (by rw [ltree]; omega) (by omega) rfl)
        (fun _ u hu => ?_) (fun _ _ h => h)
      obtain ⟨T, h5, h6, h7⟩ := hu
      exact fin (some T) u h5 (fun e => nomatch e) (fun T' e => by cases e; exact ⟨h6, h7⟩)
    · rw [if_neg ht0]
      have t0 : tlen = 0 := by omega
      exact fin none _ (by rw [t0]; rfl) (fun _ => t0) (fun T e => nomatch e)
  · rw [parse, Cmd.wp_bind, dropArtifact, Cmd.wp_bind, Cmd.wp_update, Cmd.wp_bind, pkInit, Cmd.wp_update, Cmd.wp_bind, Cmd.wp_update, upInit, Cmd.wp_update]
    rw [Cmd.wp_bind, readHeader, Cmd.wp_bind, Cmd.wp_csr, Cmd.wp_bind, Cmd.wp_csr, Cmd.wp_bind, Cmd.wp_raiseIf]
    refine ⟨fun _ => trivial, fun _ => ?_⟩
    rw [Cmd.wp_bind, Cmd.wp_raiseIf]
    refine ⟨fun _ => trivial, fun h17 => ?_⟩
    replace h17 : ¬ s.blobLen.toNat < 17 := h17
    rw [hb.1] at h17
    rw [Cmd.wp_bind]
    refine Cmd.wp_mono (magic_sound (s := s.artifactZero) hb.2.2 (by omega)) (fun _ u hm => absurd ⟨by omega, hm⟩ hgood) (fun _ _ h => h)

end Sys2Proof.Machine
end

