-- ==== Sys2Proof/Laws/Encoding.lean ====
section
/-! SUPPORT. The fields of an encoded word, and what the decoder answers on one (30_encoding.md R90 to R95). -/

namespace Sys2Proof

theorem low_of_append (op : BitVec 8) (n : BitVec 24) : (op ++ n).extractLsb' 0 24 = n := by
  ext i hi
  simp only [BitVec.getElem_extractLsb', Nat.zero_add, BitVec.getLsbD_append, if_pos hi]
  exact BitVec.getLsbD_eq_getElem hi

theorem high_of_append (op : BitVec 8) (n : BitVec 24) : (op ++ n).extractLsb' 24 8 = op := by
  ext i hi
  simp only [BitVec.getElem_extractLsb', BitVec.getLsbD_append, if_neg (by omega : ¬24 + i < 24), Nat.add_sub_cancel_left]
  exact BitVec.getLsbD_eq_getElem hi

@[simp] theorem opcodeField_encodeZ (op : BitVec 8) : opcodeField (encodeZ op) = op := high_of_append op 0#24
@[simp] theorem lowField_encodeZ (op : BitVec 8) : lowField (encodeZ op) = 0#24 := low_of_append op 0#24
@[simp] theorem opcodeField_encodeN (op : BitVec 8) (n : NodeId) : opcodeField (encodeN op n) = op := high_of_append op n
@[simp] theorem lowField_encodeN (op : BitVec 8) (n : NodeId) : lowField (encodeN op n) = n := low_of_append op n

/-- The value of a word of format B. -/
theorem encodeB_toNat (op : BitVec 8) (len : BitVec 5) (bits : BitVec 16) :
    (encodeB op len bits).toNat = op.toNat * 2 ^ 24 + len.toNat * 2 ^ 16 + bits.toNat := by
  have hl := len.isLt
  have hb := bits.isLt
  have h1 : op.toNat <<< 3 ||| 0 = op.toNat * 8 := by simp [Nat.shiftLeft_eq]
  have h2 : (op.toNat * 8) <<< 5 ||| len.toNat = op.toNat * 8 * 32 + len.toNat := by
    rw [← Nat.shiftLeft_add_eq_or_of_lt (by simpa using hl), Nat.shiftLeft_eq]
  have h3 : (op.toNat * 8 * 32 + len.toNat) <<< 16 ||| bits.toNat = (op.toNat * 8 * 32 + len.toNat) * 65536 + bits.toNat := by
    rw [← Nat.shiftLeft_add_eq_or_of_lt (by simpa using hb), Nat.shiftLeft_eq]
  unfold encodeB
  rw [BitVec.toNat_append, BitVec.toNat_append, BitVec.toNat_append, BitVec.toNat_ofNat, Nat.zero_mod, h1, h2, h3]
  omega

theorem opcodeField_toNat (w : Word) : (opcodeField w).toNat = w.toNat / 2 ^ 24 := by
  have := w.isLt
  unfold opcodeField
  rw [BitVec.extractLsb'_toNat, Nat.shiftRight_eq_div_pow]
  omega

theorem lowField_toNat (w : Word) : (lowField w).toNat = w.toNat % 2 ^ 24 := by
  unfold lowField
  rw [BitVec.extractLsb'_toNat, Nat.shiftRight_zero]

theorem zeroFieldB_toNat (w : Word) : (zeroFieldB w).toNat = w.toNat / 2 ^ 21 % 8 := by
  unfold zeroFieldB
  rw [BitVec.extractLsb'_toNat, Nat.shiftRight_eq_div_pow]

theorem lenField_toNat (w : Word) : (lenField w).toNat = w.toNat / 2 ^ 16 % 32 := by
  unfold lenField
  rw [BitVec.extractLsb'_toNat, Nat.shiftRight_eq_div_pow]

theorem bitsField_toNat (w : Word) : (bitsField w).toNat = w.toNat % 2 ^ 16 := by
  unfold bitsField
  rw [BitVec.extractLsb'_toNat, Nat.shiftRight_zero]

@[simp] theorem opcodeField_encodeB (op : BitVec 8) (len : BitVec 5) (bits : BitVec 16) :
    opcodeField (encodeB op len bits) = op := by
  apply BitVec.eq_of_toNat_eq
  rw [opcodeField_toNat, encodeB_toNat]
  omega

@[simp] theorem zeroFieldB_encodeB (op : BitVec 8) (len : BitVec 5) (bits : BitVec 16) :
    zeroFieldB (encodeB op len bits) = 0#3 := by
  apply BitVec.eq_of_toNat_eq
  rw [zeroFieldB_toNat, encodeB_toNat, BitVec.toNat_ofNat]
  omega

@[simp] theorem lenField_encodeB (op : BitVec 8) (len : BitVec 5) (bits : BitVec 16) :
    lenField (encodeB op len bits) = len := by
  apply BitVec.eq_of_toNat_eq
  rw [lenField_toNat, encodeB_toNat]
  omega

@[simp] theorem bitsField_encodeB (op : BitVec 8) (len : BitVec 5) (bits : BitVec 16) :
    bitsField (encodeB op len bits) = bits := by
  apply BitVec.eq_of_toNat_eq
  rw [bitsField_toNat, encodeB_toNat]
  omega

/-- A word of format Z decodes to the command of its opcode. -/
theorem decodeWord_encodeZ {op : BitVec 8} {i : Instr} (h : lookupZ op = some i) : decodeWord (encodeZ op) = .command i := by
  unfold decodeWord
  rw [opcodeField_encodeZ, h, lowField_encodeZ]
  rfl

/-- The three words that are no format Z: `lookupZ` knows none of their opcodes. -/
theorem decodeWord_pqInsert (n : NodeId) : decodeWord (encodeN 0x10#8 n) = .command (.pqInsert n) := by
  unfold decodeWord
  rw [opcodeField_encodeN, lowField_encodeN]
  rfl

theorem decodeWord_setRoot (n : NodeId) : decodeWord (encodeN 0x24#8 n) = .command (.setRoot n) := by
  unfold decodeWord
  rw [opcodeField_encodeN, lowField_encodeN]
  rfl

theorem decodeWord_pkPush {len : BitVec 5} {bits : BitVec 16} (h : formatBOk len bits = true) :
    decodeWord (encodeB 0x41#8 len bits) = .command (.pkPush len bits) := by
  unfold formatBOk at h
  simp only [Bool.and_eq_true, decide_eq_true_eq] at h
  obtain ⟨⟨h1, h2⟩, h3⟩ := h
  unfold decodeWord
  rw [opcodeField_encodeB]
  show decodeB _ = _
  unfold decodeB
  rw [zeroFieldB_encodeB, lenField_encodeB, bitsField_encodeB, if_neg (fun h => h rfl), if_neg (by omega),
    if_neg (fun h => h h3)]

/-- A word is its opcode and its low field side by side. -/
theorem encodeN_fields (w : Word) : encodeN (opcodeField w) (lowField w) = w := by
  apply BitVec.eq_of_toNat_eq
  have h1 := opcodeField_toNat w
  have h2 := lowField_toNat w
  have h3 := (lowField w).isLt
  unfold encodeN
  rw [BitVec.toNat_append, ← Nat.shiftLeft_add_eq_or_of_lt h3, Nat.shiftLeft_eq, h1, h2]
  omega

/-- A word is its opcode and its three fields of format B side by side, when the zero field is zero. -/
theorem encodeB_fields {w : Word} (h : zeroFieldB w = 0#3) : encodeB (opcodeField w) (lenField w) (bitsField w) = w := by
  have hz := zeroFieldB_toNat w
  rw [h, BitVec.toNat_ofNat, Nat.zero_mod] at hz
  apply BitVec.eq_of_toNat_eq
  rw [encodeB_toNat, opcodeField_toNat, lenField_toNat, bitsField_toNat]
  omega

theorem mem_of_lookup {l : List (BitVec 8 × Instr)} {op : BitVec 8} {i : Instr} (h : l.lookup op = some i) : (op, i) ∈ l := by
  induction l with
  | nil => cases h
  | cons p l ih =>
    obtain ⟨k, j⟩ := p
    rw [List.lookup_cons] at h
    split at h
    · rename_i hk
      cases h
      rw [eq_of_beq hk]
      exact List.mem_cons_self
    · exact List.mem_cons_of_mem _ (ih h)

/-- The rows of format Z, each with the word of its command. -/
theorem lookupZ_some {op : BitVec 8} {i : Instr} (h : lookupZ op = some i) : i.wf = true ∧ encodeInstr i = encodeZ op := by
  have hm : (op, i) ∈ formatZ := mem_of_lookup h
  have hall : ∀ p ∈ formatZ, p.2.wf = true ∧ encodeInstr p.2 = encodeZ p.1 := by decide
  exact hall (op, i) hm

/-- What the decoder accepts, by format. -/
theorem decodeWord_command {w : Word} {i : Instr} (h : decodeWord w = .command i) :
    (lookupZ (opcodeField w) = some i ∧ lowField w = 0#24) ∨ (opcodeField w = 0x10#8 ∧ i = .pqInsert (lowField w)) ∨
      (opcodeField w = 0x24#8 ∧ i = .setRoot (lowField w)) ∨
      (opcodeField w = 0x41#8 ∧ zeroFieldB w = 0#3 ∧ formatBOk (lenField w) (bitsField w) = true ∧
        i = .pkPush (lenField w) (bitsField w)) := by
  unfold decodeWord at h
  cases hz : lookupZ (opcodeField w) with
  | some j =>
    rw [hz] at h
    dsimp only at h
    split at h
    · cases h
    · rename_i hl
      cases h
      exact .inl ⟨rfl, not_not.mp hl⟩
  | none =>
    rw [hz] at h
    dsimp only at h
    split at h
    · rename_i ho
      cases h
      exact .inr (.inl ⟨ho, rfl⟩)
    · split at h
      · rename_i ho
        cases h
        exact .inr (.inr (.inl ⟨ho, rfl⟩))
      · split at h
        · rename_i ho
          unfold decodeB at h
          split at h
          · cases h
          · rename_i hzero
            split at h
            · cases h
            · rename_i hlen
              split at h
              · cases h
              · rename_i hbits
                cases h
                refine .inr (.inr (.inr ⟨ho, not_not.mp hzero, ?_, rfl⟩))
                unfold formatBOk
                simp only [Bool.and_eq_true, decide_eq_true_eq]
                exact ⟨⟨by omega, by omega⟩, not_not.mp hbits⟩
        · cases h

end Sys2Proof
end

