-- ==== Sys2Proof/Laws/Engine.lean ====
section
/-! SUPPORT. DECODE walks the live tree over the packed bits (45_codec_engine.md R214). -/

namespace Sys2Proof.Machine

variable {s t u : State} {T U : Tree} {B rest : BitString} {syms : List Symbol}

/-! ### The state of the walk -/

/-- Only TEXT and the unpacker have changed. -/
def TextOnly (s t : State) : Prop := t = { s with text := t.text, upByte := t.upByte, upBit := t.upBit }

theorem TextOnly.refl (s : State) : TextOnly s s := rfl

theorem TextOnly.trans (h1 : TextOnly s t) (h2 : TextOnly t u) : TextOnly s u := by
  unfold TextOnly at *
  rw [h1] at h2
  exact h2

/-- The bits the packer holds are `B` (43_bit_packer.md R178). -/
def Unpacks (s : State) (B : BitString) : Prop :=
  ∃ bytes pad, s.pkLen.toNat = bytes.length ∧ s.pk.holds 0 bytes ∧ s.pad.toNat = pad ∧ B = unpackBits bytes pad ∧ 8 * bytes.length < 2 ^ 32

/-- From `s`, the walk has written `syms` to TEXT, and the bits still to come are `rest`. -/
structure Decoded (s t : State) (B : BitString) (syms : List Symbol) (rest : BitString) : Prop where
  frame : TextOnly s t
  text : t.text.holds 0 (syms.map (·.setWidth 32))
  same : s.text.sameFrom t.text syms.length
  left : B.drop t.upPos = rest
  pos : t.upPos ≤ B.length

theorem Decoded.cfg (h : Decoded s t B syms rest) : t.cfg = s.cfg := by rw [show t = _ from h.frame]
theorem Decoded.node (h : Decoded s t B syms rest) : t.node = s.node := by rw [show t = _ from h.frame]
theorem Decoded.root (h : Decoded s t B syms rest) : t.root = s.root := by rw [show t = _ from h.frame]

theorem Decoded.length (h : Decoded s t B syms rest) : t.upPos + rest.length = B.length := by
  have := congrArg List.length h.left
  rw [List.length_drop] at this
  have := h.pos
  omega

theorem Unpacks.bits (h : Unpacks s B) : s.bitLen = B.length := by
  obtain ⟨bytes, pad, h1, _, h3, rfl, _⟩ := h
  rw [unpackBits_length, State.bitLen, h1, h3]

theorem Unpacks.lt (h : Unpacks s B) : B.length < 2 ^ 32 := by
  obtain ⟨bytes, pad, h1, _, h3, rfl, _⟩ := h
  rw [unpackBits_length]
  omega

/-- A turn with a bit to come (R214). -/
theorem decode_turn {b : Bool} {cur : NodeId} {n fuel : Nat} (hB : Unpacks s B) (h : Decoded s t B syms (b :: rest))
    {Q : NodeId × Nat → State → Prop} {E : Stop → State → Prop}
    (hn : ∀ u, Decoded s u B syms rest → Cmd.wp (decodeBit cur n b) (fun x v => Cmd.wp (decodeLoop fuel x.1 x.2) Q E v) E u) :
    Cmd.wp (decodeLoop (fuel + 1) cur n) Q E t := by
  have hlt := hB.lt
  have hlen := h.length
  rw [List.length_cons] at hlen
  obtain ⟨bytes, pad, h1, h2, h3, rfl, _⟩ := hB
  have e1 : t.pkLen = s.pkLen := by rw [show t = _ from h.frame]
  have e2 : t.pk = s.pk := by rw [show t = _ from h.frame]
  have e3 : t.pad = s.pad := by rw [show t = _ from h.frame]
  have hb : (unpackBits bytes pad)[t.upPos]? = some b := by
    have := congrArg (·[0]?) h.left
    simpa using this
  have hp := upPos_upNext (s := t) (by omega)
  have hf := upNext_frame (s := t)
  have hd : Decoded s t.upNext (unpackBits bytes pad) syms rest := by
    have ht : t.upNext.text = t.text := by rw [hf]
    refine ⟨h.frame.trans ?_, by rw [ht]; exact h.text, by rw [ht]; exact h.same, ?_, by rw [hp]; omega⟩
    · unfold TextOnly
      rw [ht]
      exact hf
    · rw [hp, ← List.drop_drop, h.left]
      rfl
  rw [decodeLoop, Cmd.wp_bind, upPop_bit (bytes := bytes) (pad := pad) (by rw [e1]; exact h1) (by rw [e2]; exact h2) (by rw [e3]; exact h3) hb]
  show Cmd.wp (decodeBit cur n b >>= fun x => decodeLoop fuel x.1 x.2) Q E t.upNext
  rw [Cmd.wp_bind]
  exact hn _ hd

/-- The turn after the last bit (R214). -/
theorem decode_end {cur : NodeId} {n fuel : Nat} (hB : Unpacks s B) (h : Decoded s t B syms []) {Q : NodeId × Nat → State → Prop} {E : Stop → State → Prop}
    (hn : Q (cur, n) t) : Cmd.wp (decodeLoop fuel cur n) Q E t := by
  cases fuel with
  | zero => exact hn
  | succ fuel =>
    have hlen := h.length
    have e1 : t.bitLen = s.bitLen := by rw [show t = _ from h.frame]; rfl
    rw [decodeLoop, Cmd.wp_bind, upPop_exhausted (by rw [e1, hB.bits, List.length_nil] at *; omega)]
    exact hn

/-- A symbol is written (R214). -/
theorem emitSymbol_ok {x : Symbol} {n : Nat} (h : Decoded s t B syms rest) (hn : n = syms.length) (hlt : n < s.cfg.nMax) {Q : Nat → State → Prop}
    {E : Stop → State → Prop} (hq : ∀ u, Decoded s u B (syms ++ [x]) rest → Q (n + 1) u) : Cmd.wp (emitSymbol n x) Q E t := by
  have hc := h.cfg
  rw [emitSymbol, Cmd.wp_bind, Cmd.wp_csr, Cmd.wp_bind, Cmd.wp_raiseIf]
  refine ⟨fun e => by rw [hc] at e; omega, fun _ => ?_⟩
  rw [Cmd.wp_bind, Cmd.wp_writeText, Cmd.wp_pure]
  refine hq _ ⟨h.frame.trans rfl, ?_, ?_, h.left, h.pos⟩
  · have := h.text.storeNext (a := x.setWidth 32) (lo := 0) (hi := t.cfg.nMax) (by omega) (by rw [List.length_map, hc]; omega)
    rw [List.length_map, Nat.zero_add, ← hn] at this
    rw [List.map_append]
    exact this
  · rw [List.length_append, List.length_singleton]
    exact (h.same.mono (by omega)).trans (Memory.sameFrom_store (by omega))

/-- No room for a symbol (R214). -/
theorem emitSymbol_full {x : Symbol} {n : Nat} (hn : n = t.cfg.nMax) {Q : Nat → State → Prop} {E : Stop → State → Prop} (he : E (.raise .capacity 1) t) :
    Cmd.wp (emitSymbol n x) Q E t := by
  rw [emitSymbol, Cmd.wp_bind, Cmd.wp_csr, Cmd.wp_bind, Cmd.wp_raiseIf]
  exact ⟨fun _ => he, fun e => absurd hn e⟩

/-- A bit below an internal root (R214). -/
theorem decode_bit {b : Bool} {cur : NodeId} {n : Nat} {l r l' r' : Tree} (h : Decoded s t B syms rest) (hT : s.liveTree (.node l r))
    (hcur : holdsTree s.node cur (.node l' r')) {Q : NodeId × Nat → State → Prop} {E : Stop → State → Prop}
    (hleaf : ∀ x, (if b then r' else l') = .leaf x → Cmd.wp (emitSymbol n x) (fun m v => Q (s.root, m) v) E t)
    (hnode : ∀ next l2 r2, (if b then r' else l') = .node l2 r2 → holdsTree s.node next (.node l2 r2) → Q (next, n) t) :
    Cmd.wp (decodeBit cur n b) Q E t := by
  obtain ⟨hr, x, hx, hxl, _⟩ := hT
  obtain ⟨y, hy, hyl, kl, kr⟩ := hcur
  have key : holdsTree s.node (if b then y.r else y.l) (if b then r' else l') := by cases b <;> [exact kl; exact kr]
  rw [decodeBit, Cmd.wp_bind, Cmd.wp_csr, Cmd.wp_bind, Cmd.wp_raiseIf, h.root]
  refine ⟨fun e => absurd e hr, fun _ => ?_⟩
  rw [Cmd.wp_bind, Cmd.wp_readNode, nodeAt_some (by rw [h.node]; exact hx)]
  simp only [hxl]
  rw [if_neg (by simp), Cmd.wp_bind, Cmd.wp_readNode, nodeAt_some (by rw [h.node]; exact hy), Cmd.wp_bind, Cmd.wp_readNode]
  cases hc : (if b then r' else l') with
  | leaf v =>
    rw [hc] at key
    obtain ⟨z, hz, hzl, hzs⟩ := key
    rw [nodeAt_some (by rw [h.node]; exact hz)]
    simp only [hzl]
    rw [if_pos trivial, Cmd.wp_bind, hzs]
    exact hleaf v hc
  | node l2 r2 =>
    rw [hc] at key
    have key' := key
    obtain ⟨z, hz, hzl, _⟩ := key
    rw [nodeAt_some (by rw [h.node]; exact hz)]
    simp only [hzl]
    rw [if_neg (by simp)]
    exact hnode _ l2 r2 hc key'

/-! ### Codes -/

/-- The bits of a path from a node to a leaf below it: they emit the leaf's symbol (R214). -/
theorem decode_path {p : Symbol × BitString} {cur : NodeId} {n fuel : Nat} {l r : Tree} (hB : Unpacks s B) (hT : s.liveTree (.node l r))
    (hU : ∃ l' r', U = .node l' r') (hcur : holdsTree s.node cur U) (hp : p ∈ U.paths) (h : Decoded s t B syms (p.2 ++ rest))
    {Q : NodeId × Nat → State → Prop} {E : Stop → State → Prop}
    (hn : ∀ u, Decoded s u B syms rest → Cmd.wp (emitSymbol n p.1) (fun m v => Cmd.wp (decodeLoop fuel s.root m) Q E v) E u) :
    Cmd.wp (decodeLoop (p.2.length + fuel) cur n) Q E t := by
  induction U generalizing t cur p with
  | leaf x => obtain ⟨_, _, e⟩ := hU; cases e
  | node l' r' ihl ihr =>
    have step : ∀ (d : Bool) (q : Symbol × BitString), q ∈ (if d then r' else l').paths → p = (q.1, d :: q.2) →
        Cmd.wp (decodeLoop (p.2.length + fuel) cur n) Q E t := by
      rintro d q hq rfl
      show Cmd.wp (decodeLoop (q.2.length + 1 + fuel) cur n) Q E t
      rw [show q.2.length + 1 + fuel = (q.2.length + fuel) + 1 by omega]
      refine decode_turn hB (rest := q.2 ++ rest) h fun u hu => decode_bit hu hT hcur (fun x hx => ?_) (fun next l2 r2 e2 hnext => ?_)
      · rw [hx] at hq
        obtain rfl : q = (x, []) := by simpa [Tree.paths] using hq
        rw [List.length_nil, Nat.zero_add]
        exact hn u hu
      · cases d with
        | false => exact ihl ⟨l2, r2, e2⟩ (by rw [show l' = _ from e2]; exact hnext) hq hu hn
        | true => exact ihr ⟨l2, r2, e2⟩ (by rw [show r' = _ from e2]; exact hnext) hq hu hn
    rcases List.mem_append.mp hp with hp | hp
    · obtain ⟨q, hq, rfl⟩ := List.mem_map.mp hp
      exact step false q hq rfl
    · obtain ⟨q, hq, rfl⟩ := List.mem_map.mp hp
      exact step true q hq rfl

/-- The bits of a proper part of a path: the walk stands below where it started (R214). -/
theorem decode_part {p : Symbol × BitString} {more : BitString} {cur : NodeId} {n fuel : Nat} {l r : Tree} (hB : Unpacks s B)
    (hT : s.liveTree (.node l r)) (hU : ∃ l' r', U = .node l' r') (hcur : holdsTree s.node cur U) (hp : p ∈ U.paths) (hm : more <+: p.2)
    (hne : more ≠ p.2) (h : Decoded s t B syms (more ++ rest)) {Q : NodeId × Nat → State → Prop} {E : Stop → State → Prop}
    (hn : ∀ u cur' V, Decoded s u B syms rest → holdsTree s.node cur' V → V.size + more.length ≤ U.size →
      Cmd.wp (decodeLoop fuel cur' n) Q E u) :
    Cmd.wp (decodeLoop (more.length + fuel) cur n) Q E t := by
  induction U generalizing t cur p more with
  | leaf x => obtain ⟨_, _, e⟩ := hU; cases e
  | node l' r' ihl ihr =>
    cases more with
    | nil => rw [List.length_nil, Nat.zero_add]; exact hn t cur _ h hcur (by simp)
    | cons b more =>
      have step : ∀ (d : Bool) (q : Symbol × BitString), q ∈ (if d then r' else l').paths → p = (q.1, d :: q.2) →
          Cmd.wp (decodeLoop ((b :: more).length + fuel) cur n) Q E t := by
        rintro d q hq rfl
        obtain ⟨rfl, hm'⟩ : b = d ∧ more <+: q.2 := by simpa using hm
        have hne' : more ≠ q.2 := fun e => hne (by rw [e])
        rw [List.length_cons, show more.length + 1 + fuel = (more.length + fuel) + 1 by omega]
        refine decode_turn hB (rest := more ++ rest) h fun u hu => decode_bit hu hT hcur (fun x hx => ?_) (fun next l2 r2 e2 hnext => ?_)
        · rw [hx] at hq
          obtain rfl : q = (x, []) := by simpa [Tree.paths] using hq
          exact absurd (List.prefix_nil.mp hm') hne'
        · cases b with
          | false =>
            exact ihl ⟨l2, r2, e2⟩ (by rw [show l' = _ from e2]; exact hnext) hq hm' hne' hu fun u cur' V h1 h2 h3 =>
              hn u cur' V h1 h2 (by rw [Tree.size, List.length_cons]; omega)
          | true =>
            exact ihr ⟨l2, r2, e2⟩ (by rw [show r' = _ from e2]; exact hnext) hq hm' hne' hu fun u cur' V h1 h2 h3 =>
              hn u cur' V h1 h2 (by rw [Tree.size, List.length_cons]; omega)
      rcases List.mem_append.mp hp with hp | hp
      · obtain ⟨q, hq, rfl⟩ := List.mem_map.mp hp
        exact step false q hq rfl
      · obtain ⟨q, hq, rfl⟩ := List.mem_map.mp hp
        exact step true q hq rfl

/-- A bit of a bare leaf (R214). -/
theorem decode_bare {b : Bool} {x : Symbol} {cur : NodeId} {n : Nat} (h : Decoded s t B syms rest) (hT : s.liveTree (.leaf x))
    {Q : NodeId × Nat → State → Prop} {E : Stop → State → Prop} (ht : b = true → E (.raise .corruptTree (t.upPos - 1)) t)
    (hn : b = false → Cmd.wp (emitSymbol n x) (fun m v => Q (cur, m) v) E t) : Cmd.wp (decodeBit cur n b) Q E t := by
  obtain ⟨hr, z, hz, hzl, hzs⟩ := hT
  rw [decodeBit, Cmd.wp_bind, Cmd.wp_csr, Cmd.wp_bind, Cmd.wp_raiseIf, h.root]
  refine ⟨fun e => absurd e hr, fun _ => ?_⟩
  rw [Cmd.wp_bind, Cmd.wp_readNode, nodeAt_some (by rw [h.node]; exact hz)]
  simp only [hzl]
  rw [if_pos trivial, Cmd.wp_bind, Cmd.wp_csr, Cmd.wp_bind, Cmd.wp_raiseIf]
  refine ⟨ht, fun e => ?_⟩
  rw [Cmd.wp_bind, hzs]
  exact hn (by cases b <;> [rfl; exact absurd rfl e])

/-- A whole code (R214). -/
theorem decode_code {p : Symbol × BitString} {n fuel : Nat} (hB : Unpacks s B) (hT : s.liveTree T) (hp : p ∈ T.codes)
    (h : Decoded s t B syms (p.2 ++ rest)) {Q : NodeId × Nat → State → Prop} {E : Stop → State → Prop}
    (hn : ∀ u, Decoded s u B syms rest → Cmd.wp (emitSymbol n p.1) (fun m v => Cmd.wp (decodeLoop fuel s.root m) Q E v) E u) :
    Cmd.wp (decodeLoop (p.2.length + fuel) s.root n) Q E t := by
  cases T with
  | leaf x =>
    obtain rfl : p = (x, [false]) := by simpa [Tree.codes] using hp
    show Cmd.wp (decodeLoop (1 + fuel) s.root n) Q E t
    rw [Nat.add_comm]
    exact decode_turn hB h fun u hu => decode_bare hu hT (fun e => nomatch e) (fun _ => hn u hu)
  | node l r => exact decode_path hB hT ⟨l, r, rfl⟩ hT.2 hp h hn

/-- A sequence of codes (R214). -/
theorem decode_codes {ps : List (Symbol × BitString)} {fuel : Nat} (hB : Unpacks s B) (hT : s.liveTree T) (hp : ∀ p ∈ ps, p ∈ T.codes)
    (h : Decoded s t B syms ((spelled ps).2 ++ rest)) (hfit : syms.length + ps.length ≤ s.cfg.nMax) {Q : NodeId × Nat → State → Prop}
    {E : Stop → State → Prop} (hn : ∀ u, Decoded s u B (syms ++ (spelled ps).1) rest →
      Cmd.wp (decodeLoop fuel s.root (syms.length + ps.length)) Q E u) :
    Cmd.wp (decodeLoop ((spelled ps).2.length + fuel) s.root syms.length) Q E t := by
  induction ps generalizing t syms with
  | nil =>
    have := hn t (by simpa [spelled] using h)
    simpa [spelled] using this
  | cons p ps ih =>
    have e1 : (spelled (p :: ps)).1 = p.1 :: (spelled ps).1 := rfl
    have e2 : (spelled (p :: ps)).2 = p.2 ++ (spelled ps).2 := by simp [spelled]
    rw [e2] at h ⊢
    rw [e1, List.length_cons] at hn
    rw [List.length_cons] at hfit
    rw [List.append_assoc] at h
    rw [List.length_append, Nat.add_assoc]
    refine decode_code hB hT (hp p (List.mem_cons_self ..)) h fun u hu => emitSymbol_ok hu rfl (by omega) fun v hv => ?_
    have := ih (t := v) (syms := syms ++ [p.1]) (fun q hq => hp q (List.mem_cons_of_mem _ hq)) hv (by rw [List.length_append, List.length_singleton]; omega)
      (fun w hw => by
        rw [List.length_append, List.length_singleton, show syms.length + 1 + ps.length = syms.length + (ps.length + 1) by omega]
        exact hn w (by rw [List.append_assoc] at hw; exact hw))
    rw [List.length_append, List.length_singleton] at this
    exact this

/-! ### DECODE -/

/-- The state the walk starts in (R214). -/
def State.decoding (s : State) : State := { s with textLen := 0#32, upByte := 0#32, upBit := 0#3 }

theorem decoding_start (B : BitString) : Decoded s.decoding s.decoding B [] B :=
  ⟨rfl, fun k hk => by simp at hk, .refl _ _, rfl, Nat.zero_le _⟩

theorem decoding_unpacks (h : Unpacks s B) : Unpacks s.decoding B := h

/-- The end of DECODE (R214). -/
def decodeDone (cur : NodeId) (n : Nat) (root : NodeId) (bits : Nat) : Cmd Unit := do
  Cmd.raiseIf (cur ≠ root) .corruptTree bits
  let orig ← Cmd.csr (·.origLen.toNat)
  Cmd.raiseIf (n < orig) .truncated n
  Cmd.raiseIf (orig < n) .malformed n
  Cmd.update fun s => { s with textLen := BitVec.ofNat 32 n }

theorem wp_decodeText (hB : Unpacks s B) {Q : Unit → State → Prop} {E : Stop → State → Prop} :
    Cmd.wp decodeText Q E s ↔
      Cmd.wp (decodeLoop (B.length + 1) s.root 0) (fun x t => Cmd.wp (decodeDone x.1 x.2 s.root B.length) Q E t) E s.decoding := by
  rw [decodeText, Cmd.wp_bind, Cmd.wp_update, Cmd.wp_bind, upInit, Cmd.wp_update, Cmd.wp_bind, Cmd.wp_csr, Cmd.wp_bind, Cmd.wp_csr, Cmd.wp_bind]
  show Cmd.wp (decodeLoop (s.bitLen + 1) s.root 0) (fun x t => Cmd.wp (decodeDone x.1 x.2 s.root s.bitLen) Q E t) E s.decoding ↔ _
  rw [hB.bits]

/-- DECODE of codes and nothing else (R214). -/
theorem decodeText_ok {ps : List (Symbol × BitString)} (hB : Unpacks s B) (hT : s.liveTree T) (hp : ∀ p ∈ ps, p ∈ T.codes) (hb : B = (spelled ps).2)
    (ho : s.origLen.toNat = ps.length) (hfit : ps.length ≤ s.cfg.nMax) {E : Stop → State → Prop} :
    Cmd.wp decodeText (fun _ t => ∃ u, Decoded s.decoding u B (spelled ps).1 [] ∧ t = { u with textLen := s.origLen }) E s := by
  have h0 := decoding_start (s := s) B
  rw [wp_decodeText hB]
  have hl : B.length = (spelled ps).2.length := by rw [hb]
  rw [hl]
  refine decode_codes (s := s.decoding) (syms := []) (rest := []) hB hT hp (by rw [List.append_nil, ← hb]; exact h0) (by rw [List.length_nil, Nat.zero_add]; exact hfit)
    fun u hu => ?_
  rw [List.nil_append] at hu
  rw [List.length_nil, Nat.zero_add]
  refine decode_end (s := s.decoding) hB hu ?_
  have uo : u.origLen = s.origLen := by rw [show u = _ from hu.frame]; rfl
  rw [decodeDone, Cmd.wp_bind, Cmd.wp_raiseIf]
  refine ⟨fun e => absurd rfl e, fun _ => ?_⟩
  rw [Cmd.wp_bind, Cmd.wp_csr, Cmd.wp_bind, Cmd.wp_raiseIf, uo, ho]
  refine ⟨fun e => by simp at e, fun _ => ?_⟩
  rw [Cmd.wp_bind, Cmd.wp_raiseIf]
  refine ⟨fun e => by simp at e, fun _ => ?_⟩
  rw [Cmd.wp_update, ← ho, BitVec.ofNat_toNat, BitVec.setWidth_eq]
  exact ⟨u, hu, rfl⟩

/-- How DECODE of codes and some more bits stops (R214). -/
inductive DecodeStops (s : State) (T : Tree) (n : Nat) (more : BitString) (total : Nat) : FaultCode → Nat → Prop where
  | inside (q : Symbol × BitString) : n ≤ s.cfg.nMax → more ≠ [] → q ∈ T.codes → more <+: q.2 → more ≠ q.2 → DecodeStops s T n more total .corruptTree total
  | few : n ≤ s.cfg.nMax → more = [] → n < s.origLen.toNat → DecodeStops s T n more total .truncated n
  | many : n ≤ s.cfg.nMax → more = [] → s.origLen.toNat < n → DecodeStops s T n more total .malformed n
  | bare (x : Symbol) (l : BitString) : n ≤ s.cfg.nMax → T = .leaf x → more = true :: l → DecodeStops s T n more total .corruptTree n
  | full : n = s.cfg.nMax + 1 → DecodeStops s T n more total .capacity 1

theorem decodeText_stop {ps : List (Symbol × BitString)} {more : BitString} {code : FaultCode} {info : Nat} (hB : Unpacks s B) (hT : s.liveTree T)
    (hp : ∀ p ∈ ps, p ∈ T.codes) (hb : B = (spelled ps).2 ++ more) (h : DecodeStops s T ps.length more B.length code info) :
    Cmd.wp decodeText (fun _ _ => False) (fun e t => e = .raise code info ∧ TextOnly s.decoding t) s := by
  have h0 := decoding_start (s := s) B
  rw [wp_decodeText hB]
  obtain ⟨L, eL⟩ : ∃ L, L = B.length := ⟨_, rfl⟩
  rw [← eL] at h ⊢
  have hl : L = (spelled ps).2.length + more.length := by rw [eL, hb, List.length_append]
  have main : ps.length ≤ s.cfg.nMax → (∀ u, Decoded s.decoding u B (spelled ps).1 more → Cmd.wp (decodeLoop (more.length + 1) s.root ps.length)
      (fun x t => Cmd.wp (decodeDone x.1 x.2 s.root L) (fun _ _ => False) (fun e t => e = .raise code info ∧ TextOnly s.decoding t) t)
      (fun e t => e = .raise code info ∧ TextOnly s.decoding t) u) →
      Cmd.wp (decodeLoop (L + 1) s.root 0) (fun x t => Cmd.wp (decodeDone x.1 x.2 s.root L) (fun _ _ => False)
        (fun e t => e = .raise code info ∧ TextOnly s.decoding t) t) (fun e t => e = .raise code info ∧ TextOnly s.decoding t) s.decoding := by
    intro hfit hn
    rw [hl, Nat.add_assoc, ← hl]
    refine decode_codes (s := s.decoding) (syms := []) (rest := more) hB hT hp (by rw [← hb]; exact h0) (by rw [List.length_nil, Nat.zero_add]; exact hfit)
      fun u hu => ?_
    rw [List.nil_append] at hu
    rw [List.length_nil, Nat.zero_add]
    exact hn u hu
  cases h with
  | inside q hfit hne hq hm hne2 =>
    refine main hfit fun u hu => ?_
    cases T with
    | leaf x =>
      obtain rfl : q = (x, [false]) := by simpa [Tree.codes] using hq
      cases more with
      | nil => exact absurd rfl hne
      | cons b l =>
        have : b = false ∧ l = [] := by simpa using hm
        exact absurd (by rw [this.1, this.2]) hne2
    | node l r =>
      have := decode_part (s := s.decoding) (fuel := 1) (n := ps.length) (rest := []) hB hT ⟨l, r, rfl⟩ hT.2 hq hm hne2 (by rw [List.append_nil]; exact hu)
        (Q := fun x t => Cmd.wp (decodeDone x.1 x.2 s.root info) (fun _ _ => False) (fun e t => e = .raise .corruptTree info ∧ TextOnly s.decoding t) t)
        (E := fun e t => e = .raise .corruptTree info ∧ TextOnly s.decoding t) (fun v cur' V hv hV hsz => ?_)
      · exact this
      · refine decode_end (s := s.decoding) hB hv ?_
        rw [decodeDone, Cmd.wp_bind, Cmd.wp_raiseIf]
        refine ⟨fun _ => ⟨rfl, hv.frame⟩, fun e => ?_⟩
        replace e : cur' = s.root := not_not.mp e
        rw [e] at hV
        have := holdsTree.unique hV hT.2
        rw [this] at hsz
        have := List.length_pos_of_ne_nil hne
        omega
  | few hfit hmore ho =>
    subst hmore
    refine main hfit fun u hu => decode_end (s := s.decoding) hB hu ?_
    have uo : u.origLen = s.origLen := by rw [show u = _ from hu.frame]; rfl
    rw [decodeDone, Cmd.wp_bind, Cmd.wp_raiseIf]
    refine ⟨fun e => absurd rfl e, fun _ => ?_⟩
    rw [Cmd.wp_bind, Cmd.wp_csr, Cmd.wp_bind, Cmd.wp_raiseIf, uo]
    exact ⟨fun _ => ⟨rfl, hu.frame⟩, fun e => absurd ho e⟩
  | many hfit hmore ho =>
    subst hmore
    refine main hfit fun u hu => decode_end (s := s.decoding) hB hu ?_
    have uo : u.origLen = s.origLen := by rw [show u = _ from hu.frame]; rfl
    rw [decodeDone, Cmd.wp_bind, Cmd.wp_raiseIf]
    refine ⟨fun e => absurd rfl e, fun _ => ?_⟩
    rw [Cmd.wp_bind, Cmd.wp_csr, Cmd.wp_bind, Cmd.wp_raiseIf, uo]
    refine ⟨fun e => absurd (show ps.length < _ from e) (by omega), fun _ => ?_⟩
    rw [Cmd.wp_bind, Cmd.wp_raiseIf]
    exact ⟨fun _ => ⟨rfl, hu.frame⟩, fun e => absurd ho e⟩
  | bare x l hfit hTx hmore =>
    subst hTx hmore
    refine main hfit fun u hu => ?_
    have hpos := hu.length
    refine decode_turn (s := s.decoding) hB hu fun v hv => decode_bare hv hT (fun _ => ⟨?_, hv.frame⟩) (fun e => nomatch e)
    have hv' := hv.length
    rw [List.length_cons] at hl hpos
    have hsp : (spelled ps).2.length = ps.length := by
      clear hb hl main hfit hu hpos hv hv'
      induction ps with
      | nil => rfl
      | cons p ps ih =>
        have : p = (x, [false]) := by simpa [Tree.codes] using hp p (List.mem_cons_self ..)
        have := ih (fun q hq => hp q (List.mem_cons_of_mem _ hq))
        have e2 : (spelled (p :: ps)).2 = p.2 ++ (spelled ps).2 := by simp [spelled]
        rw [e2, List.length_append, List.length_cons, ‹p = _›]
        simp only [List.length_singleton]
        omega
    congr 1
    omega
  | full hfull =>
    obtain ⟨qs, q, rfl⟩ : ∃ qs q, ps = qs ++ [q] := ⟨ps.dropLast, ps.getLast (fun e => by rw [e] at hfull; simp at hfull), (List.dropLast_append_getLast _).symm⟩
    rw [List.length_append, List.length_singleton] at hfull
    have hsp : (spelled (qs ++ [q])).2 = (spelled qs).2 ++ q.2 := by simp [spelled]
    rw [hsp, List.length_append] at hl
    rw [hsp, List.append_assoc] at hb
    rw [show L + 1 = (spelled qs).2.length + (q.2.length + (more.length + 1)) by omega]
    refine decode_codes (s := s.decoding) (syms := []) (rest := q.2 ++ more) hB hT (fun p h => hp p (by simp [h])) (by rw [← hb]; exact h0)
      (by rw [List.length_nil, Nat.zero_add]; show qs.length ≤ s.cfg.nMax; omega) fun u hu => ?_
    rw [List.nil_append] at hu
    rw [List.length_nil, Nat.zero_add]
    refine decode_code (s := s.decoding) hB hT (hp q (by simp)) hu fun v hv => emitSymbol_full ?_ ⟨rfl, hv.frame⟩
    rw [hv.cfg]
    show qs.length = s.cfg.nMax
    omega

end Sys2Proof.Machine
end

