-- ==== Sys2Proof/Laws/Inv.lean ====
section
/-! SUPPORT. What a rule can write, said once for each helper: a property of the state that is closed under the writes a helper makes holds after the helper, however the helper ends. A frame is the property "this part of the state is what it was"; the canonical form of the memories is another. -/

namespace Sys2Proof.Machine

variable {α β : Type} {P : State → Prop}

/-- The rule keeps `P`, whether it ends normally or stops. -/
def Cmd.Inv (P : State → Prop) (c : Cmd α) : Prop := ∀ s, P s → Cmd.wp c (fun _ t => P t) (fun _ t => P t) s

theorem Cmd.Inv.pure (a : α) : Cmd.Inv P (pure a : Cmd α) := fun _ h => h

theorem Cmd.Inv.bind {c : Cmd β} {f : β → Cmd α} (hc : Cmd.Inv P c) (hf : ∀ b, Cmd.Inv P (f b)) :
    Cmd.Inv P (c >>= f) := by
  intro s h
  rw [Cmd.wp_bind]
  exact Cmd.wp_mono (hc s h) (fun b t ht => hf b t ht) (fun _ _ h => h)

theorem Cmd.Inv.csr (f : State → α) : Cmd.Inv P (Cmd.csr f) := fun _ h => h

theorem Cmd.Inv.update {f : State → State} (hf : ∀ s, P s → P (f s)) : Cmd.Inv P (Cmd.update f) := fun s h => hf s h

theorem Cmd.Inv.raise (code : FaultCode) (info : Nat) : Cmd.Inv P (Cmd.raise code info : Cmd α) := fun _ h => h

theorem Cmd.Inv.stuck (reason : Fault) : Cmd.Inv P (Cmd.stuck reason : Cmd α) := fun _ h => h

theorem Cmd.Inv.raiseIf (c : Prop) [Decidable c] (code : FaultCode) (info : Nat) : Cmd.Inv P (Cmd.raiseIf c code info) :=
  fun s h => by rw [Cmd.wp_raiseIf]; exact ⟨fun _ => h, fun _ => h⟩

theorem Cmd.Inv.ite (c : Prop) [Decidable c] {x y : Cmd α} (hx : Cmd.Inv P x) (hy : Cmd.Inv P y) :
    Cmd.Inv P (if c then x else y) := by
  split
  · exact hx
  · exact hy

theorem Cmd.Inv.forFrom {body : Nat → Cmd Unit} (hb : ∀ i, Cmd.Inv P (body i)) (n a : Nat) :
    Cmd.Inv P (Cmd.forFrom body n a) := by
  induction n generalizing a with
  | zero => exact .pure ()
  | succ n ih => exact .bind (hb a) fun _ => ih (a + 1)

theorem Cmd.Inv.forBits {body : Bool → Cmd Unit} (hb : ∀ b, Cmd.Inv P (body b)) (bs : BitString) :
    Cmd.Inv P (Cmd.forBits body bs) := by
  induction bs with
  | nil => exact .pure ()
  | cons b bs ih => exact .bind (hb b) fun _ => ih

theorem Cmd.Inv.findFrom {test : Nat → Cmd Bool} (ht : ∀ i, Cmd.Inv P (test i)) (n a : Nat) :
    Cmd.Inv P (Cmd.findFrom test n a) := by
  induction n generalizing a with
  | zero => exact .pure none
  | succ n ih => exact .bind (ht a) fun _ => .ite _ (.pure _) (ih (a + 1))

/-- What a rule kept is so in the next state of the command, if the fault entry keeps it too. -/
theorem Cmd.Inv.next {c : Cmd Unit} {w : Word} {s t : State} (hc : Cmd.Inv P c)
    (hf : ∀ s code info, P s → P (takeFault code info w s)) (hs : P s) (h : runCommand w c s = .next t) : P t :=
  runCommand_next (Cmd.wp_mono (hc s hs) (fun _ _ h => h) fun _ u hu code info _ => hf u code info hu) h

/-! ### The writes a property can be closed under -/

/-- The state the property is closed under changes of: the number of free values drawn (a read of an unwritten element). -/
abbrev State.onDraws (P : State → Prop) : Prop := ∀ s n, P s → P { s with draws := n }
/-- TEXT[i] <- v. -/
abbrev State.onText (P : State → Prop) : Prop := ∀ s i v, P s → P (s.storeText i v)
/-- BLOB[i] <- v. -/
abbrev State.onBlob (P : State → Prop) : Prop := ∀ s i v, P s → P (s.storeBlob i v)
/-- FT[j] <- e, FT_CNT <- n. -/
abbrev State.onTable (P : State → Prop) : Prop := (∀ s j e, P s → P (s.storeFt j e)) ∧ ∀ s n, P s → P { s with ftCnt := n }
/-- NODE[id] <- n. -/
abbrev State.onNode (P : State → Prop) : Prop := ∀ s id n, P s → P (s.storeNode id n)
/-- NODE_CNT <- n. -/
abbrev State.onNodeCnt (P : State → Prop) : Prop := ∀ s n, P s → P { s with nodeCnt := n }
/-- HEAP[i] <- id, PQ_CNT <- n. -/
abbrev State.onHeap (P : State → Prop) : Prop := (∀ s i id, P s → P (s.storeHeap i id)) ∧ ∀ s n, P s → P { s with pqCnt := n }
/-- PQ_CNT <- n. -/
abbrev State.onPqCnt (P : State → Prop) : Prop := ∀ s n, P s → P { s with pqCnt := n }
/-- WorkClear. -/
abbrev State.onWork (P : State → Prop) : Prop := ∀ s, P s → P s.workCleared
/-- ROOT <- id, CT_CNT <- n. -/
abbrev State.onRoot (P : State → Prop) : Prop := (∀ s id, P s → P { s with root := id }) ∧ ∀ s n, P s → P { s with ctCnt := n }
/-- CT[j] <- e, CT_CNT <- n. -/
abbrev State.onCodes (P : State → Prop) : Prop := (∀ s j e, P s → P (s.storeCt j e)) ∧ ∀ s n, P s → P { s with ctCnt := n }
/-- PK[i] <- v, PK_LEN <- n, PAD <- p, STG <- b, c. -/
abbrev State.onPacker (P : State → Prop) : Prop :=
  (∀ s i v, P s → P (s.storePk i v)) ∧ ∀ s n p b c, P s → P { s with pkLen := n, pad := p, stgBits := b, stgCnt := c }
/-- UP_BYTE <- n, UP_BIT <- b. -/
abbrev State.onUnpacker (P : State → Prop) : Prop := ∀ s n b, P s → P { s with upByte := n, upBit := b }
/-- ORIG_LEN <- n. -/
abbrev State.onOrigLen (P : State → Prop) : Prop := ∀ s n, P s → P { s with origLen := n }
/-- RES <- v. -/
abbrev State.onRes (P : State → Prop) : Prop := ∀ s v, P s → P { s with res := v }
/-- FLAGS.QE <- b. -/
abbrev State.onQe (P : State → Prop) : Prop := ∀ s b, P s → P { s with qe := b }
/-- FLAGS.BE <- b. -/
abbrev State.onBe (P : State → Prop) : Prop := ∀ s b, P s → P { s with be := b }
/-- TEXT_LEN <- n. -/
abbrev State.onTextLen (P : State → Prop) : Prop := ∀ s n, P s → P { s with textLen := n }
/-- BLOB_LEN <- n. -/
abbrev State.onBlobLen (P : State → Prop) : Prop := ∀ s n, P s → P { s with blobLen := n }
/-- ERR, ERR_INFO, ERR_CMD. -/
abbrev State.onErr (P : State → Prop) : Prop := ∀ s e i w, P s → P { s with err := e, errInfo := i, errCmd := w }

/-! ### Reads -/

theorem readElem_inv {mem : State → Memory α} {free : State → α} {i : Nat} {s : State} (hd : State.onDraws P) (h : P s) :
    P (readElem mem free i s).2 := by
  rw [readElem_state]
  exact hd s _ h

theorem readText_inv (hd : State.onDraws P) (i : Nat) : Cmd.Inv P (readText i) := fun _ h => readElem_inv hd h
theorem readBlob_inv (hd : State.onDraws P) (i : Nat) : Cmd.Inv P (readBlob i) := fun _ h => readElem_inv hd h
theorem readFt_inv (hd : State.onDraws P) (j : Nat) : Cmd.Inv P (readFt j) := fun _ h => readElem_inv hd h
theorem readNode_inv (hd : State.onDraws P) (id : NodeId) : Cmd.Inv P (readNode id) := fun _ h => readElem_inv hd h
theorem readHeap_inv (hd : State.onDraws P) (i : Nat) : Cmd.Inv P (readHeap i) := fun _ h => readElem_inv hd h
theorem readCt_inv (hd : State.onDraws P) (j : Nat) : Cmd.Inv P (readCt j) := fun _ h => readElem_inv hd h
theorem readPk_inv (hd : State.onDraws P) (i : Nat) : Cmd.Inv P (readPk i) := fun _ h => readElem_inv hd h

/-! ### The queue (40_priority_queue.md) -/

theorem setNodeSt_inv (hd : State.onDraws P) (hn : State.onNode P) (id : NodeId) (v : BitVec 2) : Cmd.Inv P (setNodeSt id v) :=
  .bind (readNode_inv hd id) fun _ => .update fun s => hn s _ _

theorem setNodeLeft_inv (hd : State.onDraws P) (hn : State.onNode P) (id v : NodeId) : Cmd.Inv P (setNodeLeft id v) :=
  .bind (readNode_inv hd id) fun _ => .update fun s => hn s _ _

theorem setNodeRight_inv (hd : State.onDraws P) (hn : State.onNode P) (id v : NodeId) : Cmd.Inv P (setNodeRight id v) :=
  .bind (readNode_inv hd id) fun _ => .update fun s => hn s _ _

theorem heapWeight_inv (hd : State.onDraws P) (i : Nat) : Cmd.Inv P (heapWeight i) :=
  .bind (readHeap_inv hd i) fun _ => .bind (readNode_inv hd _) fun _ => .pure _

theorem swapHeap_inv (hd : State.onDraws P) (hh : State.onHeap P) (i j : Nat) : Cmd.Inv P (swapHeap i j) :=
  .bind (readHeap_inv hd i) fun _ => .bind (readHeap_inv hd j) fun _ =>
    .bind (.update fun s => hh.1 s _ _) fun _ => .update fun s => hh.1 s _ _

theorem siftUp_inv (hd : State.onDraws P) (hh : State.onHeap P) (fuel i : Nat) : Cmd.Inv P (siftUp fuel i) := by
  induction fuel generalizing i with
  | zero => exact .pure ()
  | succ fuel ih =>
    exact .ite _ (.pure ()) (.bind (heapWeight_inv hd _) fun _ => .bind (heapWeight_inv hd _) fun _ =>
      .ite _ (.bind (swapHeap_inv hd hh _ _) fun _ => ih _) (.pure ()))

theorem pqInsert_inv (hd : State.onDraws P) (hh : State.onHeap P) (hn : State.onNode P) (id : NodeId) :
    Cmd.Inv P (pqInsert id) :=
  .bind (.csr _) fun _ => .bind (.csr _) fun _ => .bind (.raiseIf _ _ _) fun _ => .bind (.update fun s => hh.1 s _ _) fun _ =>
    .bind (.update fun s => hh.2 s _) fun _ => .bind (setNodeSt_inv hd hn _ _) fun _ => siftUp_inv hd hh _ _

theorem smallerAt_inv (hd : State.onDraws P) (n c i : Nat) : Cmd.Inv P (smallerAt n c i) :=
  .ite _ (.bind (heapWeight_inv hd _) fun _ => .bind (heapWeight_inv hd _) fun _ => .pure _) (.pure _)

theorem siftDown_inv (hd : State.onDraws P) (hh : State.onHeap P) (n fuel i : Nat) : Cmd.Inv P (siftDown n fuel i) := by
  induction fuel generalizing i with
  | zero => exact .pure ()
  | succ fuel ih =>
    exact .bind (smallerAt_inv hd _ _ _) fun _ => .bind (smallerAt_inv hd _ _ _) fun _ =>
      .ite _ (.pure ()) (.bind (swapHeap_inv hd hh _ _) fun _ => ih _)

theorem refill_inv (hd : State.onDraws P) (hh : State.onHeap P) (n : Nat) : Cmd.Inv P (refill n) :=
  .ite _ (.bind (readHeap_inv hd _) fun _ => .bind (.update fun s => hh.1 s _ _) fun _ => siftDown_inv hd hh _ _ _) (.pure ())

theorem pqExtract_inv (hd : State.onDraws P) (hh : State.onHeap P) (hn : State.onNode P) : Cmd.Inv P pqExtract :=
  .bind (readHeap_inv hd 0) fun _ => .bind (.update fun s => hh.2 s _) fun _ => .bind (.csr _) fun _ =>
    .bind (refill_inv hd hh _) fun _ => .bind (setNodeSt_inv hd hn _ _) fun _ => .pure _

theorem pqInsertRule_inv (hd : State.onDraws P) (hh : State.onHeap P) (hn : State.onNode P) (n : NodeId) :
    Cmd.Inv P (pqInsertRule n) :=
  .bind (.csr _) fun _ => .bind (.raiseIf _ _ _) fun _ => .bind (readNode_inv hd n) fun _ => .bind (.raiseIf _ _ _) fun _ =>
    .bind (.csr _) fun _ => .bind (.raiseIf _ _ _) fun _ => pqInsert_inv hd hh hn n

theorem pqExtractRule_inv (hd : State.onDraws P) (hh : State.onHeap P) (hn : State.onNode P) (hq : State.onQe P)
    (hr : State.onRes P) : Cmd.Inv P pqExtractRule :=
  have set : ∀ b v, Cmd.Inv P (setQueueResult b v) := fun b v => .update fun s h => hr { s with qe := b } v (hq s b h)
  .bind (.csr _) fun _ => .ite _ (set _ _) (.bind (pqExtract_inv hd hh hn) fun _ => set _ _)

/-! ### The builder (41_tree_builder.md) -/

theorem nodeAlloc_inv (hn : State.onNode P) (hc : State.onNodeCnt P) (leaf : Bool) (sym : Symbol) (w : Word) (l r : NodeId) :
    Cmd.Inv P (nodeAlloc leaf sym w l r) :=
  .bind (.csr _) fun _ => .bind (.csr _) fun _ => .bind (.raiseIf _ _ _) fun _ => .bind (.update fun s => hc s _) fun _ =>
    .bind (.csr _) fun _ => .bind (.update fun s => hn s _ _) fun _ => .pure _

theorem freqStep_inv (hd : State.onDraws P) (ht : State.onTable P) (i : Nat) : Cmd.Inv P (freqStep i) := by
  refine .bind (readText_inv hd i) fun v => .bind (.raiseIf _ _ _) fun _ => .bind (.csr _) fun _ =>
    .bind (.findFrom (fun j => .bind (readFt_inv hd j) fun _ => .pure _) _ _) fun found => ?_
  cases found with
  | some j => exact .bind (readFt_inv hd j) fun _ => .update fun s => ht.1 s _ _
  | none =>
    exact .bind (.csr _) fun _ => .bind (.raiseIf _ _ _) fun _ => .bind (.update fun s => ht.1 s _ _) fun _ =>
      .update fun s => ht.2 s _

theorem freq_inv (hd : State.onDraws P) (ht : State.onTable P) : Cmd.Inv P freq :=
  .bind (.csr _) fun _ => .bind (.csr _) fun _ => .bind (.raiseIf _ _ _) fun _ => .bind (.update fun s => ht.2 s _) fun _ =>
    .forFrom (freqStep_inv hd ht) _ _

theorem leafStep_inv (hd : State.onDraws P) (hh : State.onHeap P) (hn : State.onNode P) (hc : State.onNodeCnt P) (j : Nat) :
    Cmd.Inv P (leafStep j) :=
  .bind (readFt_inv hd j) fun _ => .bind (nodeAlloc_inv hn hc _ _ _ _ _) fun _ => pqInsert_inv hd hh hn _

/-- NODE_CNT, PQ_CNT, ROOT and CT_CNT set to 0, as LEAVES and PARSE do at their start. -/
theorem dropTree_inv (hq : State.onPqCnt P) (hc : State.onNodeCnt P) (hr : State.onRoot P) (s : State) (h : P s) :
    P { s with nodeCnt := 0#32, pqCnt := 0#32, root := 0#24, ctCnt := 0#32 } :=
  hr.2 { s with nodeCnt := 0#32, pqCnt := 0#32, root := 0#24 } _
    (hr.1 { s with nodeCnt := 0#32, pqCnt := 0#32 } _ (hq { s with nodeCnt := 0#32 } _ (hc s _ h)))

theorem leaves_inv (hd : State.onDraws P) (hh : State.onHeap P) (hn : State.onNode P) (hc : State.onNodeCnt P)
    (hr : State.onRoot P) : Cmd.Inv P leaves :=
  .bind (.update fun s h => dropTree_inv hh.2 hc hr s h) fun _ => .bind (.csr _) fun _ =>
    .forFrom (leafStep_inv hd hh hn hc) _ _

theorem combine_inv (hd : State.onDraws P) (hh : State.onHeap P) (hn : State.onNode P) (hc : State.onNodeCnt P)
    (hv : State.onRes P) : Cmd.Inv P combine :=
  .bind (.csr _) fun _ => .bind (.raiseIf _ _ _) fun _ => .bind (.csr _) fun _ => .bind (.csr _) fun _ =>
    .bind (.raiseIf _ _ _) fun _ => .bind (pqExtract_inv hd hh hn) fun _ => .bind (pqExtract_inv hd hh hn) fun _ =>
    .bind (readNode_inv hd _) fun _ => .bind (readNode_inv hd _) fun _ => .bind (nodeAlloc_inv hn hc _ _ _ _ _) fun _ =>
    .bind (setNodeSt_inv hd hn _ _) fun _ => .bind (setNodeSt_inv hd hn _ _) fun _ =>
    .bind (pqInsert_inv hd hh hn _) fun _ => .update fun s => hv s _

theorem combineAll_inv (hd : State.onDraws P) (hh : State.onHeap P) (hn : State.onNode P) (hc : State.onNodeCnt P)
    (hv : State.onRes P) (fuel : Nat) : Cmd.Inv P (combineAll fuel) := by
  induction fuel with
  | zero => exact .pure ()
  | succ fuel ih => exact .bind (.csr _) fun _ => .ite _ (.bind (combine_inv hd hh hn hc hv) fun _ => ih) (.pure ())

theorem build_inv (hd : State.onDraws P) (hh : State.onHeap P) (hn : State.onNode P) (hc : State.onNodeCnt P)
    (hr : State.onRoot P) (hv : State.onRes P) : Cmd.Inv P build :=
  .bind (.csr _) fun _ => .bind (.raiseIf _ _ _) fun _ => .bind (leaves_inv hd hh hn hc hr) fun _ => .bind (.csr _) fun _ =>
    .bind (combineAll_inv hd hh hn hc hv _) fun _ => .bind (pqExtract_inv hd hh hn) fun root =>
    .update fun s h => hv { s with root := root, ctCnt := 0#32 } _ (hr.2 { s with root := root } _ (hr.1 s root h))

theorem setRootRule_inv (hd : State.onDraws P) (hr : State.onRoot P) (n : NodeId) : Cmd.Inv P (setRootRule n) :=
  .bind (.csr _) fun _ => .bind (.raiseIf _ _ _) fun _ => .bind (readNode_inv hd n) fun _ => .bind (.raiseIf _ _ _) fun _ =>
    .update fun s h => hr.2 { s with root := n } _ (hr.1 s n h)

/-! ### The packer and unpacker (43_bit_packer.md) -/

theorem pkInit_inv (hp : State.onPacker P) : Cmd.Inv P pkInit := .update fun s => hp.2 s _ _ _ _

theorem pkPushBit_inv (hp : State.onPacker P) (b : Bool) : Cmd.Inv P (pkPushBit b) :=
  .bind (.csr _) fun _ => .bind (.csr _) fun _ => .bind (.csr _) fun _ => .bind (.raiseIf _ _ _) fun _ => .bind (.csr _) fun _ =>
    .ite _ (.bind (.update fun s => hp.1 s _ _) fun _ => .update fun s => hp.2 s _ s.pad _ _)
      (.update fun s => hp.2 s s.pkLen s.pad _ _)

theorem pkPushRule_inv (hp : State.onPacker P) (len : BitVec 5) (bits : BitVec 16) : Cmd.Inv P (pkPushRule len bits) :=
  .bind (.csr _) fun _ => .bind (.raiseIf _ _ _) fun _ => .forBits (pkPushBit_inv hp) _

theorem pkFlush_inv (hp : State.onPacker P) : Cmd.Inv P pkFlush :=
  .bind (.csr _) fun _ => .ite _
    (.bind (.csr _) fun _ => .bind (.csr _) fun _ => .bind (.raiseIf _ _ _) fun _ => .bind (.csr _) fun _ =>
      .bind (.update fun s => hp.2 s s.pkLen _ s.stgBits s.stgCnt) fun _ => .bind (.update fun s => hp.1 s _ _) fun _ =>
      .update fun s => hp.2 s _ s.pad _ _)
    (.update fun s => hp.2 s s.pkLen _ s.stgBits s.stgCnt)

theorem pkFlushRule_inv (hp : State.onPacker P) : Cmd.Inv P pkFlushRule :=
  .bind (.csr _) fun _ => .bind (.raiseIf _ _ _) fun _ => pkFlush_inv hp

theorem upInit_inv (hu : State.onUnpacker P) : Cmd.Inv P upInit := .update fun s => hu s _ _

theorem upPop_inv (hd : State.onDraws P) (hu : State.onUnpacker P) : Cmd.Inv P upPop := by
  refine .bind (.csr _) fun _ => .bind (.csr _) fun _ => .ite _ (.pure _) (.bind (.csr _) fun _ => .bind (.csr _) fun _ =>
    .bind (readPk_inv hd _) fun _ => .bind (.update fun s h => ?_) fun _ => .pure _)
  unfold State.upNext
  split
  · exact hu s _ _ h
  · exact hu s s.upByte _ h

theorem upPopRule_inv (hd : State.onDraws P) (hu : State.onUnpacker P) (hb : State.onBe P) (hr : State.onRes P) :
    Cmd.Inv P upPopRule := by
  refine .bind (upPop_inv hd hu) fun b => ?_
  cases b
  · exact .update fun s h => hr { s with be := true } _ (hb s true h)
  · exact .update fun s h => hr { s with be := false } _ (hb s false h)

/-! ### The code table and the encoder (42_code_table.md) -/

theorem appendCt_inv (hc : State.onCodes P) (e : CtEntry) : Cmd.Inv P (appendCt e) :=
  .bind (.csr _) fun _ => .bind (.update fun s => hc.1 s _ _) fun _ => .update fun s => hc.2 s _

theorem codeWalk_inv (hd : State.onDraws P) (hc : State.onCodes P) (fuel : Nat) (stk : List (NodeId × Nat × Bool))
    (path : BitString) : Cmd.Inv P (codeWalk fuel stk path) := by
  induction fuel generalizing stk path with
  | zero =>
    cases stk with
    | nil => exact .pure ()
    | cons e stk => exact .stuck _
  | succ fuel ih =>
    cases stk with
    | nil => exact .pure ()
    | cons e stk =>
      exact .bind (readNode_inv hd _) fun _ => .ite _ (.bind (appendCt_inv hc _) fun _ => ih _ _) (ih _ _)

theorem codeGen_inv (hd : State.onDraws P) (hc : State.onCodes P) : Cmd.Inv P codeGen :=
  .bind (.csr _) fun _ => .bind (.raiseIf _ _ _) fun _ => .bind (.update fun s => hc.2 s _) fun _ =>
    .bind (readNode_inv hd _) fun _ => .ite _ (appendCt_inv hc _) (.bind (.csr _) fun _ => codeWalk_inv hd hc _ _ _)

theorem encodeStep_inv (hd : State.onDraws P) (hp : State.onPacker P) (i : Nat) : Cmd.Inv P (encodeStep i) := by
  refine .bind (readText_inv hd i) fun v => .bind (.csr _) fun _ =>
    .bind (.findFrom (fun j => .bind (readCt_inv hd j) fun _ => .pure _) _ _) fun found => ?_
  cases found with
  | none => exact .raise _ _
  | some j => exact .bind (readCt_inv hd j) fun _ => .forBits (pkPushBit_inv hp) _

theorem encodeText_inv (hd : State.onDraws P) (hp : State.onPacker P) (ho : State.onOrigLen P) : Cmd.Inv P encodeText :=
  .bind (.csr _) fun _ => .bind (.csr _) fun _ => .bind (.raiseIf _ _ _) fun _ => .bind (pkInit_inv hp) fun _ =>
    .bind (.update fun s => ho s _) fun _ => .bind (.forFrom (encodeStep_inv hd hp) _ _) fun _ => .bind (pkFlush_inv hp) fun _ =>
    .update fun s => ho s _

/-! ### The container (44_container.md) -/

theorem emit_inv (hb : State.onBlob P) (p : Nat) (v : Byte) : Cmd.Inv P (emit p v) :=
  .bind (.csr _) fun _ => .bind (.raiseIf _ _ _) fun _ => .update fun s => hb s _ _

theorem emitAll_inv (hb : State.onBlob P) (p : Nat) (vs : List Byte) : Cmd.Inv P (emitAll p vs) := by
  induction vs generalizing p with
  | nil => exact .pure ()
  | cons v vs ih => exact .bind (emit_inv hb p v) fun _ => ih _

theorem snapshotWalk_inv (hd : State.onDraws P) (hb : State.onBlob P) (fuel : Nat) (stk : List NodeId) (p : Nat) :
    Cmd.Inv P (snapshotWalk fuel stk p) := by
  induction fuel generalizing stk p with
  | zero =>
    cases stk with
    | nil => exact .pure _
    | cons e stk => exact .stuck _
  | succ fuel ih =>
    cases stk with
    | nil => exact .pure _
    | cons e stk =>
      exact .bind (readNode_inv hd _) fun _ => .ite _ (.bind (emitAll_inv hb _ _) fun _ => ih _ _)
        (.bind (emit_inv hb _ _) fun _ => ih _ _)

theorem serialize_inv (hd : State.onDraws P) (hb : State.onBlob P) (hl : State.onBlobLen P) : Cmd.Inv P serialize :=
  have header : Cmd.Inv P emitHeader := .bind (emitAll_inv hb _ _) fun _ => .bind (.csr _) fun _ =>
    .bind (emitAll_inv hb _ _) fun _ => .bind (.csr _) fun _ => emit_inv hb _ _
  have tree : Cmd.Inv P emitTree := .bind (.csr _) fun _ => .bind (.csr _) fun _ => .ite _ (snapshotWalk_inv hd hb _ _ _) (.pure _)
  have lengths : ∀ p, Cmd.Inv P (emitLengths p) := fun _ => .bind (emitAll_inv hb _ _) fun _ => .bind (.csr _) fun _ =>
    emitAll_inv hb _ _
  .bind (.update fun s => hl s _) fun _ => .bind (.csr _) fun _ => .bind (.raiseIf _ _ _) fun _ => .bind (.csr _) fun _ =>
    .bind (.csr _) fun _ => .bind (.csr _) fun _ => .bind (.raiseIf _ _ _) fun _ => .bind header fun _ => .bind tree fun _ =>
    .bind (lengths _) fun _ => .bind (.forFrom (fun i => .bind (readPk_inv hd i) fun _ => emit_inv hb _ _) _ _) fun _ =>
    .update fun s => hl s _

theorem get32_inv (hd : State.onDraws P) (p : Nat) : Cmd.Inv P (get32 p) :=
  .bind (readBlob_inv hd _) fun _ => .bind (readBlob_inv hd _) fun _ => .bind (readBlob_inv hd _) fun _ =>
    .bind (readBlob_inv hd _) fun _ => .pure _

theorem readRecord_inv (hd : State.onDraws P) (p last : Nat) : Cmd.Inv P (readRecord p last) :=
  .bind (.raiseIf _ _ _) fun _ => .bind (readBlob_inv hd _) fun _ => .ite _
    (.bind (.raiseIf _ _ _) fun _ => .bind (readBlob_inv hd _) fun _ => .bind (readBlob_inv hd _) fun _ =>
      .bind (readBlob_inv hd _) fun _ => .bind (.raiseIf _ _ _) fun _ => .pure _)
    (.ite _ (.pure _) (.raise _ _))

theorem allocRecord_inv (hn : State.onNode P) (hc : State.onNodeCnt P) (r : Record) : Cmd.Inv P (allocRecord r) := by
  cases r <;> exact nodeAlloc_inv hn hc _ _ _ _ _

theorem attach_inv (hd : State.onDraws P) (hn : State.onNode P) (hr : State.onRoot P) (n : NodeId) (stk : List NodeId) :
    Cmd.Inv P (attach n stk) := by
  refine .ite _ (.bind (.update fun s => hr.1 s _) fun _ => .pure _) ?_
  cases stk with
  | nil => exact .pure _
  | cons t stk =>
    exact .bind (readNode_inv hd _) fun _ => .ite _
      (.bind (setNodeLeft_inv hd hn _ _) fun _ => .bind (setNodeSt_inv hd hn _ _) fun _ => .pure _)
      (.bind (setNodeRight_inv hd hn _ _) fun _ => .bind (setNodeSt_inv hd hn _ _) fun _ => .pure _)

theorem openNode_inv (r : Record) (n : NodeId) (stk : List NodeId) : Cmd.Inv P (openNode r n stk) := by
  cases r
  · exact .pure _
  · exact .bind (.csr _) fun _ => .bind (.raiseIf _ _ _) fun _ => .pure _

theorem parseRecords_inv (hd : State.onDraws P) (hn : State.onNode P) (hc : State.onNodeCnt P) (hr : State.onRoot P)
    (last fuel p : Nat) (stk : List NodeId) : Cmd.Inv P (parseRecords last fuel p stk) := by
  induction fuel generalizing p stk with
  | zero => exact .raise _ _
  | succ fuel ih =>
    refine .bind (readRecord_inv hd _ _) fun r => .bind (allocRecord_inv hn hc r) fun n =>
      .bind (attach_inv hd hn hr _ _) fun stk => .bind (openNode_inv _ _ _) fun stk => ?_
    cases stk with
    | nil => exact .pure _
    | cons t stk => exact ih _ _

theorem readHeader_inv (hd : State.onDraws P) : Cmd.Inv P readHeader :=
  .bind (.csr _) fun _ => .bind (.csr _) fun _ => .bind (.raiseIf _ _ _) fun _ => .bind (.raiseIf _ _ _) fun _ =>
    .bind (.forFrom (fun k => .bind (readBlob_inv hd k) fun _ => .raiseIf _ _ _) _ _) fun _ =>
    .bind (get32_inv hd _) fun _ => .bind (readBlob_inv hd _) fun _ => .bind (get32_inv hd _) fun _ =>
    .bind (get32_inv hd _) fun _ => .pure _

theorem checkHeader_inv (h : Header) : Cmd.Inv P (checkHeader h) :=
  .bind (.csr _) fun _ => .bind (.raiseIf _ _ _) fun _ => .bind (.raiseIf _ _ _) fun _ => .bind (.raiseIf _ _ _) fun _ =>
    .bind (.raiseIf _ _ _) fun _ => .bind (.raiseIf _ _ _) fun _ => .bind (.raiseIf _ _ _) fun _ => .bind (.csr _) fun _ =>
    .raiseIf _ _ _

theorem parse_inv (hd : State.onDraws P) (hq : State.onPqCnt P) (hn : State.onNode P) (hc : State.onNodeCnt P)
    (hr : State.onRoot P) (hp : State.onPacker P) (hu : State.onUnpacker P) (ho : State.onOrigLen P) : Cmd.Inv P parse :=
  have drop : Cmd.Inv P dropArtifact := .bind (.update fun s h => dropTree_inv hq hc hr s h) fun _ => .bind (pkInit_inv hp) fun _ =>
    .bind (.update fun s => ho s _) fun _ => upInit_inv hu
  have snapshot : ∀ n, Cmd.Inv P (parseSnapshot n) := fun _ =>
    .ite _ (.bind (parseRecords_inv hd hn hc hr _ _ _ _) fun _ => .raiseIf _ _ _) (.pure ())
  .bind drop fun _ => .bind (readHeader_inv hd) fun h => .bind (checkHeader_inv h) fun _ => .bind (snapshot _) fun _ =>
    .bind (.forFrom (fun _ => .bind (readBlob_inv hd _) fun _ => .update fun s => hp.1 s _ _) _ _) fun _ =>
    .update fun s hs => ho { s with pkLen := BitVec.ofNat 32 h.plen, pad := h.padb.setWidth 3 } _
      (hp.2 s _ _ s.stgBits s.stgCnt hs)

/-! ### The engine (45_codec_engine.md) -/

theorem emitSymbol_inv (ht : State.onText P) (n : Nat) (sym : Symbol) : Cmd.Inv P (emitSymbol n sym) :=
  .bind (.csr _) fun _ => .bind (.raiseIf _ _ _) fun _ => .bind (.update fun s => ht s _ _) fun _ => .pure _

theorem decodeBit_inv (hd : State.onDraws P) (ht : State.onText P) (cur : NodeId) (n : Nat) (b : Bool) :
    Cmd.Inv P (decodeBit cur n b) :=
  .bind (.csr _) fun _ => .bind (.raiseIf _ _ _) fun _ => .bind (readNode_inv hd _) fun _ => .ite _
    (.bind (.csr _) fun _ => .bind (.raiseIf _ _ _) fun _ => .bind (emitSymbol_inv ht _ _) fun _ => .pure _)
    (.bind (readNode_inv hd _) fun _ => .bind (readNode_inv hd _) fun _ => .ite _
      (.bind (emitSymbol_inv ht _ _) fun _ => .pure _) (.pure _))

theorem decodeLoop_inv (hd : State.onDraws P) (ht : State.onText P) (hu : State.onUnpacker P) (fuel : Nat) (cur : NodeId)
    (n : Nat) : Cmd.Inv P (decodeLoop fuel cur n) := by
  induction fuel generalizing cur n with
  | zero => exact .pure _
  | succ fuel ih =>
    refine .bind (upPop_inv hd hu) fun b => ?_
    cases b with
    | none => exact .pure _
    | some b => exact .bind (decodeBit_inv hd ht _ _ _) fun _ => ih _ _

theorem decodeText_inv (hd : State.onDraws P) (ht : State.onText P) (hl : State.onTextLen P) (hu : State.onUnpacker P) :
    Cmd.Inv P decodeText :=
  .bind (.update fun s => hl s _) fun _ => .bind (upInit_inv hu) fun _ => .bind (.csr _) fun _ => .bind (.csr _) fun _ =>
    .bind (decodeLoop_inv hd ht hu _ _ _) fun _ => .bind (.raiseIf _ _ _) fun _ => .bind (.csr _) fun _ =>
    .bind (.raiseIf _ _ _) fun _ => .bind (.raiseIf _ _ _) fun _ => .update fun s => hl s _

end Sys2Proof.Machine
end

