-- ==== Sys2Proof/Laws/Frames.lean ====
section
/-! SUPPORT. What each command can write: a property closed under a command's writes and under the fault entry holds of its next state. -/

namespace Sys2Proof.Machine

variable {P : State → Prop} {s t : State}

theorem takeFault_inv (he : State.onErr P) (w : Word) (s : State) (code : FaultCode) (info : Nat) (h : P s) :
    P (takeFault code info w s) := he s _ _ _ h

theorem execNop_inv (hs : P s) (h : exec .nop s = .next t) : P t := by
  cases h
  exact hs

theorem execClear_inv (hw : State.onWork P) (he : State.onErr P) (ht : State.onTextLen P) (hb : State.onBlobLen P) (hs : P s)
    (h : exec .clear s = .next t) : P t := by
  cases h
  exact hb { s.workCleared with err := 0#8, errInfo := 0#32, errCmd := 0#32, textLen := 0#32 } _
    (ht { s.workCleared with err := 0#8, errInfo := 0#32, errCmd := 0#32 } _ (he s.workCleared _ _ _ (hw s hs)))

theorem execPqInsert_inv {n : NodeId} (hd : State.onDraws P) (hh : State.onHeap P) (hn : State.onNode P) (he : State.onErr P)
    (hs : P s) (h : exec (.pqInsert n) s = .next t) : P t :=
  (pqInsertRule_inv hd hh hn n).next (takeFault_inv he _) hs h

theorem execPqExtract_inv (hd : State.onDraws P) (hh : State.onHeap P) (hn : State.onNode P) (hq : State.onQe P)
    (hr : State.onRes P) (he : State.onErr P) (hs : P s) (h : exec .pqExtract s = .next t) : P t :=
  (pqExtractRule_inv hd hh hn hq hr).next (takeFault_inv he _) hs h

theorem execFreq_inv (hd : State.onDraws P) (ht : State.onTable P) (he : State.onErr P) (hs : P s)
    (h : exec .freq s = .next t) : P t :=
  (freq_inv hd ht).next (takeFault_inv he _) hs h

theorem execLeaves_inv (hd : State.onDraws P) (hh : State.onHeap P) (hn : State.onNode P) (hc : State.onNodeCnt P)
    (hr : State.onRoot P) (he : State.onErr P) (hs : P s) (h : exec .leaves s = .next t) : P t :=
  (leaves_inv hd hh hn hc hr).next (takeFault_inv he _) hs h

theorem execCombine_inv (hd : State.onDraws P) (hh : State.onHeap P) (hn : State.onNode P) (hc : State.onNodeCnt P)
    (hv : State.onRes P) (he : State.onErr P) (hs : P s) (h : exec .combine s = .next t) : P t :=
  (combine_inv hd hh hn hc hv).next (takeFault_inv he _) hs h

theorem execBuild_inv (hd : State.onDraws P) (hh : State.onHeap P) (hn : State.onNode P) (hc : State.onNodeCnt P)
    (hr : State.onRoot P) (hv : State.onRes P) (he : State.onErr P) (hs : P s) (h : exec .build s = .next t) : P t :=
  (build_inv hd hh hn hc hr hv).next (takeFault_inv he _) hs h

theorem execSetRoot_inv {n : NodeId} (hd : State.onDraws P) (hr : State.onRoot P) (he : State.onErr P) (hs : P s)
    (h : exec (.setRoot n) s = .next t) : P t :=
  (setRootRule_inv hd hr n).next (takeFault_inv he _) hs h

theorem execCodegen_inv (hd : State.onDraws P) (hc : State.onCodes P) (he : State.onErr P) (hs : P s)
    (h : exec .codegen s = .next t) : P t :=
  (codeGen_inv hd hc).next (takeFault_inv he _) hs h

theorem execEncode_inv (hd : State.onDraws P) (hp : State.onPacker P) (ho : State.onOrigLen P) (he : State.onErr P) (hs : P s)
    (h : exec .encode s = .next t) : P t :=
  (encodeText_inv hd hp ho).next (takeFault_inv he _) hs h

theorem execPkInit_inv (hp : State.onPacker P) (he : State.onErr P) (hs : P s) (h : exec .pkInit s = .next t) : P t :=
  (pkInit_inv hp).next (takeFault_inv he (encodeInstr .pkInit)) hs h

theorem execPkPush_inv {len : BitVec 5} {bits : BitVec 16} (hp : State.onPacker P) (he : State.onErr P) (hs : P s)
    (h : exec (.pkPush len bits) s = .next t) : P t :=
  (pkPushRule_inv hp len bits).next (takeFault_inv he _) hs h

theorem execPkFlush_inv (hp : State.onPacker P) (he : State.onErr P) (hs : P s) (h : exec .pkFlush s = .next t) : P t :=
  (pkFlushRule_inv hp).next (takeFault_inv he _) hs h

theorem execUpInit_inv (hu : State.onUnpacker P) (he : State.onErr P) (hs : P s) (h : exec .upInit s = .next t) : P t :=
  (upInit_inv hu).next (takeFault_inv he (encodeInstr .upInit)) hs h

theorem execUpPop_inv (hd : State.onDraws P) (hu : State.onUnpacker P) (hb : State.onBe P) (hr : State.onRes P)
    (he : State.onErr P) (hs : P s) (h : exec .upPop s = .next t) : P t :=
  (upPopRule_inv hd hu hb hr).next (takeFault_inv he _) hs h

theorem execDecode_inv (hd : State.onDraws P) (ht : State.onText P) (hl : State.onTextLen P) (hu : State.onUnpacker P)
    (he : State.onErr P) (hs : P s) (h : exec .decode s = .next t) : P t :=
  (decodeText_inv hd ht hl hu).next (takeFault_inv he _) hs h

theorem execSerialize_inv (hd : State.onDraws P) (hb : State.onBlob P) (hl : State.onBlobLen P) (he : State.onErr P) (hs : P s)
    (h : exec .serialize s = .next t) : P t :=
  (serialize_inv hd hb hl).next (takeFault_inv he _) hs h

theorem execParse_inv (hd : State.onDraws P) (hq : State.onPqCnt P) (hn : State.onNode P) (hc : State.onNodeCnt P)
    (hr : State.onRoot P) (hp : State.onPacker P) (hu : State.onUnpacker P) (ho : State.onOrigLen P) (he : State.onErr P)
    (hs : P s) (h : exec .parse s = .next t) : P t :=
  (parse_inv hd hq hn hc hr hp hu ho).next (takeFault_inv he _) hs h

theorem compressRule_inv (hd : State.onDraws P) (hw : State.onWork P) (ht : State.onTable P) (hh : State.onHeap P)
    (hn : State.onNode P) (hc : State.onNodeCnt P) (hr : State.onRoot P) (hv : State.onRes P) (hk : State.onCodes P)
    (hp : State.onPacker P) (ho : State.onOrigLen P) (hb : State.onBlob P) (hl : State.onBlobLen P) : Cmd.Inv P compressRule :=
  .bind (.update fun s => hw s) fun _ => .bind (.update fun s => hl s _) fun _ => .bind (.csr _) fun _ => .bind (.csr _) fun _ =>
    .bind (.raiseIf _ _ _) fun _ => .ite _ (serialize_inv hd hb hl)
      (.bind (freq_inv hd ht) fun _ => .bind (build_inv hd hh hn hc hr hv) fun _ => .bind (codeGen_inv hd hk) fun _ =>
        .bind (encodeText_inv hd hp ho) fun _ => serialize_inv hd hb hl)

theorem execCompress_inv (hd : State.onDraws P) (hw : State.onWork P) (ht : State.onTable P) (hh : State.onHeap P)
    (hn : State.onNode P) (hc : State.onNodeCnt P) (hr : State.onRoot P) (hv : State.onRes P) (hk : State.onCodes P)
    (hp : State.onPacker P) (ho : State.onOrigLen P) (hb : State.onBlob P) (hl : State.onBlobLen P) (he : State.onErr P)
    (hs : P s) (h : exec .compress s = .next t) : P t :=
  (compressRule_inv hd hw ht hh hn hc hr hv hk hp ho hb hl).next (takeFault_inv he _) hs h

theorem decompressRule_inv (hd : State.onDraws P) (hw : State.onWork P) (hq : State.onPqCnt P) (hn : State.onNode P)
    (hc : State.onNodeCnt P) (hr : State.onRoot P) (hp : State.onPacker P) (hu : State.onUnpacker P) (ho : State.onOrigLen P)
    (ht : State.onText P) (hl : State.onTextLen P) : Cmd.Inv P decompressRule :=
  .bind (.update fun s => hw s) fun _ => .bind (.update fun s => hl s _) fun _ =>
    .bind (parse_inv hd hq hn hc hr hp hu ho) fun _ => decodeText_inv hd ht hl hu

theorem execDecompress_inv (hd : State.onDraws P) (hw : State.onWork P) (hq : State.onPqCnt P) (hn : State.onNode P)
    (hc : State.onNodeCnt P) (hr : State.onRoot P) (hp : State.onPacker P) (hu : State.onUnpacker P) (ho : State.onOrigLen P)
    (ht : State.onText P) (hl : State.onTextLen P) (he : State.onErr P) (hs : P s) (h : exec .decompress s = .next t) : P t :=
  (decompressRule_inv hd hw hq hn hc hr hp hu ho ht hl).next (takeFault_inv he _) hs h

/-- A property closed under every write of every command. -/
structure State.Closed (P : State → Prop) : Prop where
  draws : State.onDraws P
  work : State.onWork P
  text : State.onText P
  blob : State.onBlob P
  table : State.onTable P
  node : State.onNode P
  nodeCnt : State.onNodeCnt P
  heap : State.onHeap P
  root : State.onRoot P
  codes : State.onCodes P
  packer : State.onPacker P
  unpacker : State.onUnpacker P
  origLen : State.onOrigLen P
  res : State.onRes P
  qe : State.onQe P
  be : State.onBe P
  textLen : State.onTextLen P
  blobLen : State.onBlobLen P
  err : State.onErr P

/-- Such a property holds after every command. -/
theorem exec_inv (c : State.Closed P) {i : Instr} (hs : P s) (h : exec i s = .next t) : P t := by
  cases i with
  | nop => exact execNop_inv hs h
  | clear => exact execClear_inv c.work c.err c.textLen c.blobLen hs h
  | pqInsert n => exact execPqInsert_inv c.draws c.heap c.node c.err hs h
  | pqExtract => exact execPqExtract_inv c.draws c.heap c.node c.qe c.res c.err hs h
  | freq => exact execFreq_inv c.draws c.table c.err hs h
  | leaves => exact execLeaves_inv c.draws c.heap c.node c.nodeCnt c.root c.err hs h
  | combine => exact execCombine_inv c.draws c.heap c.node c.nodeCnt c.res c.err hs h
  | build => exact execBuild_inv c.draws c.heap c.node c.nodeCnt c.root c.res c.err hs h
  | setRoot n => exact execSetRoot_inv c.draws c.root c.err hs h
  | codegen => exact execCodegen_inv c.draws c.codes c.err hs h
  | encode => exact execEncode_inv c.draws c.packer c.origLen c.err hs h
  | pkInit => exact execPkInit_inv c.packer c.err hs h
  | pkPush len bits => exact execPkPush_inv c.packer c.err hs h
  | pkFlush => exact execPkFlush_inv c.packer c.err hs h
  | upInit => exact execUpInit_inv c.unpacker c.err hs h
  | upPop => exact execUpPop_inv c.draws c.unpacker c.be c.res c.err hs h
  | decode => exact execDecode_inv c.draws c.text c.textLen c.unpacker c.err hs h
  | serialize => exact execSerialize_inv c.draws c.blob c.blobLen c.err hs h
  | parse => exact execParse_inv c.draws c.heap.2 c.node c.nodeCnt c.root c.packer c.unpacker c.origLen c.err hs h
  | compress =>
    exact execCompress_inv c.draws c.work c.table c.heap c.node c.nodeCnt c.root c.res c.codes c.packer c.origLen c.blob c.blobLen
      c.err hs h
  | decompress =>
    exact execDecompress_inv c.draws c.work c.heap.2 c.node c.nodeCnt c.root c.packer c.unpacker c.origLen c.text c.textLen c.err hs h

end Sys2Proof.Machine
end

