-- ==== Sys2Proof/Laws/MemoryForm.lean ====
section
/-! SUPPORT. Every write of every command keeps the memories in canonical form and within their bounds (10_state.md R43). -/

namespace Sys2Proof.Machine

theorem store_form {α : Type} {m : Memory α} {lo hi : Nat} (h : m.wf ∧ m.within lo hi) (i : Nat) (a : α) :
    (m.store lo hi i a).wf ∧ (m.store lo hi i a).within lo hi :=
  ⟨Memory.store_wf h.1 lo hi i a, Memory.store_within h.2 i a⟩

/-- The form is closed under every write of a command. -/
theorem memoryForm_closed : State.Closed State.memoryForm where
  draws := fun _ _ h => h
  work := fun _ h => h
  text := fun _ i v ⟨a, b⟩ => ⟨store_form a i v, b⟩
  blob := fun _ i v ⟨a, b, c⟩ => ⟨a, store_form b i v, c⟩
  table := ⟨fun _ i v ⟨a, b, c, d⟩ => ⟨a, b, store_form c i v, d⟩, fun _ _ h => h⟩
  node := fun _ id n ⟨a, b, c, d, e⟩ => ⟨a, b, c, store_form d id.toNat n, e⟩
  nodeCnt := fun _ _ h => h
  heap := ⟨fun _ i v ⟨a, b, c, d, e, f⟩ => ⟨a, b, c, d, store_form e i v, f⟩, fun _ _ h => h⟩
  root := ⟨fun _ _ h => h, fun _ _ h => h⟩
  codes := ⟨fun _ i v ⟨a, b, c, d, e, f, g⟩ => ⟨a, b, c, d, e, store_form f i v, g⟩, fun _ _ h => h⟩
  packer := ⟨fun _ i v ⟨a, b, c, d, e, f, g⟩ => ⟨a, b, c, d, e, f, store_form g i v⟩, fun _ _ _ _ _ h => h⟩
  unpacker := fun _ _ _ h => h
  origLen := fun _ _ h => h
  res := fun _ _ h => h
  qe := fun _ _ h => h
  be := fun _ _ h => h
  textLen := fun _ _ h => h
  blobLen := fun _ _ h => h
  err := fun _ _ _ _ h => h

end Sys2Proof.Machine
end

