-- ==== Sys2Proof/Laws/PerInstr.lean ====
section
/-! SUPPORT. What holds of each command as syntax, one lemma per constructor (30_encoding.md R91 to R95). -/

namespace Sys2Proof.Laws.RoundTrip

/-- The decoder reads a well-formed command back from its own word (R95: the encoding is canonical). -/
def Statement (i : Instr) : Prop := i.wf = true → decodeWord (encodeInstr i) = .command i

theorem nop : Statement .nop := fun _ => decodeWord_encodeZ rfl
theorem clear : Statement .clear := fun _ => decodeWord_encodeZ rfl
theorem pqInsert (n : NodeId) : Statement (.pqInsert n) := fun _ => decodeWord_pqInsert n
theorem pqExtract : Statement .pqExtract := fun _ => decodeWord_encodeZ rfl
theorem freq : Statement .freq := fun _ => decodeWord_encodeZ rfl
theorem leaves : Statement .leaves := fun _ => decodeWord_encodeZ rfl
theorem combine : Statement .combine := fun _ => decodeWord_encodeZ rfl
theorem build : Statement .build := fun _ => decodeWord_encodeZ rfl
theorem setRoot (n : NodeId) : Statement (.setRoot n) := fun _ => decodeWord_setRoot n
theorem codegen : Statement .codegen := fun _ => decodeWord_encodeZ rfl
theorem encode : Statement .encode := fun _ => decodeWord_encodeZ rfl
theorem pkInit : Statement .pkInit := fun _ => decodeWord_encodeZ rfl
theorem pkPush (len : BitVec 5) (bits : BitVec 16) : Statement (.pkPush len bits) := fun h => decodeWord_pkPush h
theorem pkFlush : Statement .pkFlush := fun _ => decodeWord_encodeZ rfl
theorem upInit : Statement .upInit := fun _ => decodeWord_encodeZ rfl
theorem upPop : Statement .upPop := fun _ => decodeWord_encodeZ rfl
theorem decode : Statement .decode := fun _ => decodeWord_encodeZ rfl
theorem serialize : Statement .serialize := fun _ => decodeWord_encodeZ rfl
theorem parse : Statement .parse := fun _ => decodeWord_encodeZ rfl
theorem compress : Statement .compress := fun _ => decodeWord_encodeZ rfl
theorem decompress : Statement .decompress := fun _ => decodeWord_encodeZ rfl

end Sys2Proof.Laws.RoundTrip
end

