-- ==== Sys2Proof/Laws/Port.lean ====
section
/-! SUPPORT. The host port: what a step takes, the two halves of an address, and the words of the views (20_memory.md R61 to R71). -/

namespace Sys2Proof.Machine

variable {s : State} {rest : List HostTx}

/-! ### What a step takes -/

theorem step_idle (h : s.inbox = []) : step s = .next s := by
  unfold step acceptNext
  rw [h]

theorem step_read {addr : Word} (h : s.inbox = .read addr :: rest) :
    step s = .next { (hostRead addr { s with inbox := rest }).2 with reply := some (hostRead addr { s with inbox := rest }).1 } := by
  unfold step acceptNext
  rw [h]
  rfl

theorem step_write {addr v : Word} (h : s.inbox = .write addr v :: rest) : step s = hostWrite addr v { s with inbox := rest } := by
  unfold step acceptNext
  rw [h]
  rfl

theorem step_reset (h : s.inbox = .reset :: rest) : step s = .next (State.afterReset { s with inbox := rest }) := by
  unfold step acceptNext
  rw [h]
  rfl

/-! ### Addresses -/

theorem spaceOf_toNat (addr : Word) : spaceOf addr = addr.toNat / 2 ^ 28 := by
  have := addr.isLt
  unfold spaceOf
  rw [BitVec.extractLsb'_toNat, Nat.shiftRight_eq_div_pow]
  omega

theorem offsetOf_toNat (addr : Word) : offsetOf addr = addr.toNat % 2 ^ 28 := by
  unfold offsetOf
  rw [BitVec.extractLsb'_toNat, Nat.shiftRight_zero]

/-- The space and the offset of an address put together from them. -/
theorem address_parts (space : BitVec 4) {offset : Nat} (h : offset < 2 ^ 28) :
    spaceOf (space ++ BitVec.ofNat 28 offset) = space.toNat ∧ offsetOf (space ++ BitVec.ofNat 28 offset) = offset := by
  have e : (space ++ BitVec.ofNat 28 offset).toNat = space.toNat * 2 ^ 28 + offset := by
    rw [BitVec.toNat_append, ← Nat.shiftLeft_add_eq_or_of_lt (BitVec.isLt _), Nat.shiftLeft_eq, BitVec.toNat_ofNat,
      Nat.mod_eq_of_lt h]
  rw [spaceOf_toNat, offsetOf_toNat, e]
  omega

/-! ### Words -/

/-- A fold of bits into a word is the number the bits stand for. -/
theorem foldBits_toNat (bs : BitString) (v : Word) (h : v.toNat * 2 ^ bs.length + bitsValue bs < 2 ^ 32) :
    (bs.foldl (fun (v : Word) b => (v <<< 1) ||| (BitVec.ofBool b).setWidth 32) v).toNat = v.toNat * 2 ^ bs.length + bitsValue bs := by
  induction bs using List.reverseRecOn generalizing v with
  | nil => simp [bitsValue]
  | append_singleton bs b ih =>
    rw [bitsValue_snoc, List.length_append, List.length_singleton] at h ⊢
    rw [List.foldl_append, List.foldl_cons, List.foldl_nil]
    have hlt : v.toNat * 2 ^ bs.length + bitsValue bs < 2 ^ 32 := by
      rw [pow_succ] at h
      have : 0 ≤ b.toNat := Nat.zero_le _
      nlinarith
    have hb : ((BitVec.ofBool b).setWidth 32).toNat = b.toNat := by cases b <;> rfl
    have hb1 : b.toNat < 2 ^ 1 := by cases b <;> decide
    rw [BitVec.toNat_or, BitVec.toNat_shiftLeft, ih v hlt, hb]
    generalize hx : v.toNat * 2 ^ bs.length + bitsValue bs = x at *
    have hx2 : v.toNat * 2 ^ (bs.length + 1) + (2 * bitsValue bs + b.toNat) = 2 * x + b.toNat := by
      rw [pow_succ, ← hx]
      ring
    rw [hx2] at h ⊢
    rw [Nat.shiftLeft_eq, Nat.mod_eq_of_lt (by omega), ← Nat.shiftLeft_eq, ← Nat.shiftLeft_add_eq_or_of_lt hb1, Nat.shiftLeft_eq]
    omega

/-- The bits of a word of a code: code bit `32q + k` is bit `31 - k` (R70). -/
theorem codeWord_bit (e : CtEntry) (q : Nat) {k : Nat} (hk : k < 32) :
    (codeWord e q).getLsbD (31 - k) = (decide (32 * q + k < e.len.toNat) && e.code.getD (32 * q + k) false) := by
  have hfold : codeWord e q = ((List.range 32).map fun j => decide (32 * q + j < e.len.toNat) && e.code.getD (32 * q + j) false).foldl
      (fun (v : Word) b => (v <<< 1) ||| (BitVec.ofBool b).setWidth 32) 0#32 := by
    rw [List.foldl_map]
    rfl
  generalize hbs : ((List.range 32).map fun j => decide (32 * q + j < e.len.toNat) && e.code.getD (32 * q + j) false) = bs at hfold
  have hlen : bs.length = 32 := by rw [← hbs]; simp
  have hlt := bitsValue_lt bs
  rw [hlen] at hlt
  have hval := foldBits_toNat bs 0#32 (by simpa using hlt)
  rw [← hfold] at hval
  rw [← BitVec.testBit_toNat, hval]
  have hz : (0#32).toNat * 2 ^ bs.length + bitsValue bs = bitsValue bs := by simp
  rw [hz, bitsValue_testBit bs (31 - k) (by omega)]
  simp only [← hbs, List.getElem_map, List.getElem_range, List.length_map, List.length_range]
  congr 2 <;> congr 2 <;> omega

end Sys2Proof.Machine
end

