-- ==== Sys2Proof/Laws/Raises.lean ====
section
/-! SUPPORT. Which faults a rule can raise, said once for each helper (60_exceptions.md R231), and those that the helpers of COMPRESS and DECOMPRESS do not raise inside them (45_codec_engine.md R212, R213). -/

namespace Sys2Proof.Machine

variable {α β : Type} {F G : List FaultCode} {s t : State}

/-- The rule raises none but these faults, from any state. -/
def Cmd.Raises (F : List FaultCode) (c : Cmd α) : Prop :=
  ∀ s, Cmd.wp c (fun _ _ => True) (fun e _ => ∀ code info, e = .raise code info → code ∈ F) s

theorem Cmd.Raises.pure (a : α) : Cmd.Raises F (pure a : Cmd α) := fun _ => trivial
theorem Cmd.Raises.csr (f : State → α) : Cmd.Raises F (Cmd.csr f) := fun _ => trivial
theorem Cmd.Raises.update (f : State → State) : Cmd.Raises F (Cmd.update f) := fun _ => trivial
theorem Cmd.Raises.stuck (reason : Fault) : Cmd.Raises F (Cmd.stuck reason : Cmd α) := fun _ _ _ h => nomatch h

theorem Cmd.Raises.raise {code : FaultCode} (h : code ∈ F) (info : Nat) : Cmd.Raises F (Cmd.raise code info : Cmd α) := by
  rintro s _ _ ⟨⟩
  exact h

theorem Cmd.Raises.bind {c : Cmd β} {f : β → Cmd α} (hc : Cmd.Raises F c) (hf : ∀ b, Cmd.Raises F (f b)) : Cmd.Raises F (c >>= f) := by
  intro s
  rw [Cmd.wp_bind]
  exact Cmd.wp_mono (hc s) (fun b t _ => hf b t) (fun _ _ h => h)

theorem Cmd.Raises.ite (c : Prop) [Decidable c] {x y : Cmd α} (hx : Cmd.Raises F x) (hy : Cmd.Raises F y) :
    Cmd.Raises F (if c then x else y) := by
  split
  · exact hx
  · exact hy

theorem Cmd.Raises.raiseIf (c : Prop) [Decidable c] {code : FaultCode} (h : code ∈ F) (info : Nat) :
    Cmd.Raises F (Cmd.raiseIf c code info) := .ite _ (.raise h _) (.pure _)

theorem Cmd.Raises.forFrom {body : Nat → Cmd Unit} (hb : ∀ i, Cmd.Raises F (body i)) (n a : Nat) : Cmd.Raises F (Cmd.forFrom body n a) := by
  induction n generalizing a with
  | zero => exact .pure ()
  | succ n ih => exact .bind (hb a) fun _ => ih (a + 1)

theorem Cmd.Raises.forBits {body : Bool → Cmd Unit} (hb : ∀ b, Cmd.Raises F (body b)) (bs : BitString) : Cmd.Raises F (Cmd.forBits body bs) := by
  induction bs with
  | nil => exact .pure ()
  | cons b bs ih => exact .bind (hb b) fun _ => ih

theorem Cmd.Raises.findFrom {test : Nat → Cmd Bool} (ht : ∀ i, Cmd.Raises F (test i)) (n a : Nat) : Cmd.Raises F (Cmd.findFrom test n a) := by
  induction n generalizing a with
  | zero => exact .pure none
  | succ n ih => exact .bind (ht a) fun _ => .ite _ (.pure _) (ih (a + 1))

/-- A rule that raises none but these raises none but more. -/
theorem Cmd.Raises.mono {c : Cmd α} (h : Cmd.Raises F c) (hFG : ∀ code ∈ F, code ∈ G) : Cmd.Raises G c :=
  fun s => Cmd.wp_mono (h s) (fun _ _ h => h) fun _ _ h code info e => hFG code (h code info e)

theorem readText_raises (i : Nat) : Cmd.Raises F (readText i) := fun _ => trivial
theorem readBlob_raises (i : Nat) : Cmd.Raises F (readBlob i) := fun _ => trivial
theorem readFt_raises (j : Nat) : Cmd.Raises F (readFt j) := fun _ => trivial
theorem readNode_raises (id : NodeId) : Cmd.Raises F (readNode id) := fun _ => trivial
theorem readHeap_raises (i : Nat) : Cmd.Raises F (readHeap i) := fun _ => trivial
theorem readCt_raises (j : Nat) : Cmd.Raises F (readCt j) := fun _ => trivial
theorem readPk_raises (i : Nat) : Cmd.Raises F (readPk i) := fun _ => trivial

/-! ### The queue, the builder and the codes -/

theorem heapWeight_raises (i : Nat) : Cmd.Raises F (heapWeight i) := .bind (readHeap_raises _) fun _ => .bind (readNode_raises _) fun _ => .pure _

theorem swapHeap_raises (i j : Nat) : Cmd.Raises F (swapHeap i j) :=
  .bind (readHeap_raises _) fun _ => .bind (readHeap_raises _) fun _ => .bind (.update _) fun _ => .update _

theorem siftUp_raises (fuel i : Nat) : Cmd.Raises F (siftUp fuel i) := by
  induction fuel generalizing i with
  | zero => exact .pure ()
  | succ fuel ih =>
    exact .ite _ (.pure ()) (.bind (heapWeight_raises _) fun _ => .bind (heapWeight_raises _) fun _ =>
      .ite _ (.bind (swapHeap_raises _ _) fun _ => ih _) (.pure ()))

theorem setNodeSt_raises (id : NodeId) (v : BitVec 2) : Cmd.Raises F (setNodeSt id v) := .bind (readNode_raises _) fun _ => .update _

theorem pqInsert_raises (hF : .capacity ∈ F) (id : NodeId) : Cmd.Raises F (pqInsert id) :=
  .bind (.csr _) fun _ => .bind (.csr _) fun _ => .bind (.raiseIf _ hF _) fun _ => .bind (.update _) fun _ =>
    .bind (.update _) fun _ => .bind (setNodeSt_raises _ _) fun _ => siftUp_raises _ _

theorem smallerAt_raises (n c i : Nat) : Cmd.Raises F (smallerAt n c i) :=
  .ite _ (.bind (heapWeight_raises _) fun _ => .bind (heapWeight_raises _) fun _ => .pure _) (.pure _)

theorem siftDown_raises (n fuel i : Nat) : Cmd.Raises F (siftDown n fuel i) := by
  induction fuel generalizing i with
  | zero => exact .pure ()
  | succ fuel ih =>
    exact .bind (smallerAt_raises _ _ _) fun _ => .bind (smallerAt_raises _ _ _) fun _ =>
      .ite _ (.pure ()) (.bind (swapHeap_raises _ _) fun _ => ih _)

theorem pqExtract_raises : Cmd.Raises F pqExtract :=
  .bind (readHeap_raises _) fun _ => .bind (.update _) fun _ => .bind (.csr _) fun _ =>
    .bind (.ite _ (.bind (readHeap_raises _) fun _ => .bind (.update _) fun _ => siftDown_raises _ _ _) (.pure ())) fun _ =>
    .bind (setNodeSt_raises _ _) fun _ => .pure _

theorem nodeAlloc_raises (hF : .capacity ∈ F) (leaf : Bool) (sym : Symbol) (w : Word) (l r : NodeId) :
    Cmd.Raises F (nodeAlloc leaf sym w l r) :=
  .bind (.csr _) fun _ => .bind (.csr _) fun _ => .bind (.raiseIf _ hF _) fun _ => .bind (.update _) fun _ =>
    .bind (.csr _) fun _ => .bind (.update _) fun _ => .pure _

theorem freqStep_raises (hF : .capacity ∈ F) (hS : .badSymbol ∈ F) (i : Nat) : Cmd.Raises F (freqStep i) := by
  refine .bind (readText_raises _) fun v => .bind (.raiseIf _ hS _) fun _ => .bind (.csr _) fun _ =>
    .bind (.findFrom (fun j => .bind (readFt_raises _) fun _ => .pure _) _ _) fun found => ?_
  cases found with
  | some j => exact .bind (readFt_raises _) fun _ => .update _
  | none => exact .bind (.csr _) fun _ => .bind (.raiseIf _ hF _) fun _ => .bind (.update _) fun _ => .update _

theorem freq_raises (hF : .capacity ∈ F) (hS : .badSymbol ∈ F) : Cmd.Raises F freq :=
  .bind (.csr _) fun _ => .bind (.csr _) fun _ => .bind (.raiseIf _ hF _) fun _ => .bind (.update _) fun _ =>
    .forFrom (freqStep_raises hF hS) _ _

theorem leaves_raises (hF : .capacity ∈ F) : Cmd.Raises F leaves :=
  .bind (.update _) fun _ => .bind (.csr _) fun _ => .forFrom (fun _ => .bind (readFt_raises _) fun _ =>
    .bind (nodeAlloc_raises hF _ _ _ _ _) fun _ => pqInsert_raises hF _) _ _

theorem combine_raises (hF : .capacity ∈ F) (hE : .empty ∈ F) : Cmd.Raises F combine :=
  .bind (.csr _) fun _ => .bind (.raiseIf _ hE _) fun _ => .bind (.csr _) fun _ => .bind (.csr _) fun _ => .bind (.raiseIf _ hF _) fun _ =>
    .bind pqExtract_raises fun _ => .bind pqExtract_raises fun _ => .bind (readNode_raises _) fun _ => .bind (readNode_raises _) fun _ =>
    .bind (nodeAlloc_raises hF _ _ _ _ _) fun _ => .bind (setNodeSt_raises _ _) fun _ => .bind (setNodeSt_raises _ _) fun _ =>
    .bind (pqInsert_raises hF _) fun _ => .update _

theorem combineAll_raises (hF : .capacity ∈ F) (hE : .empty ∈ F) (fuel : Nat) : Cmd.Raises F (combineAll fuel) := by
  induction fuel with
  | zero => exact .pure ()
  | succ fuel ih => exact .bind (.csr _) fun _ => .ite _ (.bind (combine_raises hF hE) fun _ => ih) (.pure ())

theorem build_raises (hF : .capacity ∈ F) (hE : .empty ∈ F) : Cmd.Raises F build :=
  .bind (.csr _) fun _ => .bind (.raiseIf _ hE _) fun _ => .bind (leaves_raises hF) fun _ => .bind (.csr _) fun _ =>
    .bind (combineAll_raises hF hE _) fun _ => .bind pqExtract_raises fun _ => .update _

theorem appendCt_raises (e : CtEntry) : Cmd.Raises F (appendCt e) := .bind (.csr _) fun _ => .bind (.update _) fun _ => .update _

theorem codeWalk_raises (fuel : Nat) (stk : List (NodeId × Nat × Bool)) (path : BitString) : Cmd.Raises F (codeWalk fuel stk path) := by
  induction fuel generalizing stk path with
  | zero =>
    cases stk with
    | nil => exact .pure ()
    | cons e stk => exact .stuck _
  | succ fuel ih =>
    cases stk with
    | nil => exact .pure ()
    | cons e stk => exact .bind (readNode_raises _) fun _ => .ite _ (.bind (appendCt_raises _) fun _ => ih _ _) (ih _ _)

theorem codeGen_raises (hE : .empty ∈ F) : Cmd.Raises F codeGen :=
  .bind (.csr _) fun _ => .bind (.raiseIf _ hE _) fun _ => .bind (.update _) fun _ => .bind (readNode_raises _) fun _ =>
    .ite _ (appendCt_raises _) (.bind (.csr _) fun _ => codeWalk_raises _ _ _)

/-! ### The packer -/

theorem pkPushBit_raises (hF : .capacity ∈ F) (b : Bool) : Cmd.Raises F (pkPushBit b) :=
  .bind (.csr _) fun _ => .bind (.csr _) fun _ => .bind (.csr _) fun _ => .bind (.raiseIf _ hF _) fun _ => .bind (.csr _) fun _ =>
    .ite _ (.bind (.update _) fun _ => .update _) (.update _)

theorem pkFlush_raises (hF : .capacity ∈ F) : Cmd.Raises F pkFlush :=
  .bind (.csr _) fun _ => .ite _ (.bind (.csr _) fun _ => .bind (.csr _) fun _ => .bind (.raiseIf _ hF _) fun _ => .bind (.csr _) fun _ =>
    .bind (.update _) fun _ => .bind (.update _) fun _ => .update _) (.update _)

theorem encodeStep_raises (hF : .capacity ∈ F) (hN : .noCode ∈ F) (i : Nat) : Cmd.Raises F (encodeStep i) := by
  refine .bind (readText_raises _) fun v => .bind (.csr _) fun _ =>
    .bind (.findFrom (fun j => .bind (readCt_raises _) fun _ => .pure _) _ _) fun found => ?_
  cases found with
  | none => exact .raise hN _
  | some j => exact .bind (readCt_raises _) fun _ => .forBits (pkPushBit_raises hF) _

theorem encodeText_raises (hF : .capacity ∈ F) (hN : .noCode ∈ F) : Cmd.Raises F encodeText :=
  .bind (.csr _) fun _ => .bind (.csr _) fun _ => .bind (.raiseIf _ hF _) fun _ => .bind (.update _) fun _ =>
    .bind (.update _) fun _ => .bind (.forFrom (encodeStep_raises hF hN) _ _) fun _ => .bind (pkFlush_raises hF) fun _ => .update _

theorem upPop_raises : Cmd.Raises F upPop :=
  .bind (.csr _) fun _ => .bind (.csr _) fun _ => .ite _ (.pure _) (.bind (.csr _) fun _ => .bind (.csr _) fun _ =>
    .bind (readPk_raises _) fun _ => .bind (.update _) fun _ => .pure _)

/-! ### The container -/

theorem emit_raises (hF : .capacity ∈ F) (p : Nat) (v : Byte) : Cmd.Raises F (emit p v) :=
  .bind (.csr _) fun _ => .bind (.raiseIf _ hF _) fun _ => .update _

theorem emitAll_raises (hF : .capacity ∈ F) (p : Nat) (vs : List Byte) : Cmd.Raises F (emitAll p vs) := by
  induction vs generalizing p with
  | nil => exact .pure ()
  | cons v vs ih => exact .bind (emit_raises hF p v) fun _ => ih _

theorem snapshotWalk_raises (hF : .capacity ∈ F) (fuel : Nat) (stk : List NodeId) (p : Nat) : Cmd.Raises F (snapshotWalk fuel stk p) := by
  induction fuel generalizing stk p with
  | zero =>
    cases stk with
    | nil => exact .pure _
    | cons e stk => exact .stuck _
  | succ fuel ih =>
    cases stk with
    | nil => exact .pure _
    | cons e stk =>
      exact .bind (readNode_raises _) fun _ => .ite _ (.bind (emitAll_raises hF _ _) fun _ => ih _ _)
        (.bind (emit_raises hF _ _) fun _ => ih _ _)

/-- What SERIALIZE does after its checks raises E_CAPACITY alone (R193). -/
theorem writeContainer_raises (hF : .capacity ∈ F) (len : Word) : Cmd.Raises F (do
    emitHeader
    let p ← emitTree
    emitLengths p
    Cmd.forFrom (emitPayload p) len.toNat 0
    Cmd.update fun s => { s with blobLen := BitVec.ofNat 32 (p + len.toNat) }) :=
  .bind (.bind (emitAll_raises hF _ _) fun _ => .bind (.csr _) fun _ => .bind (emitAll_raises hF _ _) fun _ => .bind (.csr _) fun _ =>
      emit_raises hF _ _) fun _ =>
    .bind (.bind (.csr _) fun _ => .bind (.csr _) fun _ => .ite _ (snapshotWalk_raises hF _ _ _) (.pure _)) fun _ =>
    .bind (.bind (emitAll_raises hF _ _) fun _ => .bind (.csr _) fun _ => emitAll_raises hF _ _) fun _ =>
    .bind (.forFrom (fun _ => .bind (readPk_raises _) fun _ => emit_raises hF _ _) _ _) fun _ => .update _

theorem serialize_raises (hF : .capacity ∈ F) (hE : .empty ∈ F) (hS : .seq ∈ F) : Cmd.Raises F serialize :=
  .bind (.update _) fun _ => .bind (.csr _) fun _ => .bind (.raiseIf _ hS _) fun _ => .bind (.csr _) fun _ =>
    .bind (.csr _) fun _ => .bind (.csr _) fun _ => .bind (.raiseIf _ hE _) fun _ => writeContainer_raises hF _

/-- SERIALIZE where its checks hold raises E_CAPACITY alone (R193). -/
theorem serialize_checked (hs : s.stgCnt = 0#3) (hr : s.root ≠ 0#24 ∨ (s.pkLen = 0#32 ∧ s.origLen = 0#32)) (hF : .capacity ∈ F) :
    Cmd.wp serialize (fun _ _ => True) (fun e _ => ∀ code info, e = .raise code info → code ∈ F) s := by
  rw [serialize, Cmd.wp_bind, Cmd.wp_update, Cmd.wp_bind, Cmd.wp_csr, Cmd.wp_bind, Cmd.wp_raiseIf]
  refine ⟨fun e => absurd hs e, fun _ => ?_⟩
  rw [Cmd.wp_bind, Cmd.wp_csr, Cmd.wp_bind, Cmd.wp_csr, Cmd.wp_bind, Cmd.wp_csr, Cmd.wp_bind, Cmd.wp_raiseIf]
  refine ⟨fun e => ?_, fun _ => writeContainer_raises hF _ _⟩
  rcases hr with hr | hr
  · exact absurd e.1 hr
  · exact absurd e.2 (by rintro (h | h) <;> [exact h hr.1; exact h hr.2])

/-! ### The parser and the decoder -/

theorem get32_raises (p : Nat) : Cmd.Raises F (get32 p) :=
  .bind (readBlob_raises _) fun _ => .bind (readBlob_raises _) fun _ => .bind (readBlob_raises _) fun _ =>
    .bind (readBlob_raises _) fun _ => .pure _

theorem readRecord_raises (hT : .corruptTree ∈ F) (p last : Nat) : Cmd.Raises F (readRecord p last) :=
  .bind (.raiseIf _ hT _) fun _ => .bind (readBlob_raises _) fun _ => .ite _
    (.bind (.raiseIf _ hT _) fun _ => .bind (readBlob_raises _) fun _ => .bind (readBlob_raises _) fun _ =>
      .bind (readBlob_raises _) fun _ => .bind (.raiseIf _ hT _) fun _ => .pure _)
    (.ite _ (.pure _) (.raise hT _))

theorem allocRecord_raises (hF : .capacity ∈ F) (r : Record) : Cmd.Raises F (allocRecord r) := by
  cases r <;> exact nodeAlloc_raises hF _ _ _ _ _

theorem attach_raises (n : NodeId) (stk : List NodeId) : Cmd.Raises F (attach n stk) := by
  refine .ite _ (.bind (.update _) fun _ => .pure _) ?_
  cases stk with
  | nil => exact .pure _
  | cons t stk =>
    exact .bind (readNode_raises _) fun _ => .ite _
      (.bind (.bind (readNode_raises _) fun _ => .update _) fun _ => .bind (setNodeSt_raises _ _) fun _ => .pure _)
      (.bind (.bind (readNode_raises _) fun _ => .update _) fun _ => .bind (setNodeSt_raises _ _) fun _ => .pure _)

theorem openNode_raises (hF : .capacity ∈ F) (r : Record) (n : NodeId) (stk : List NodeId) : Cmd.Raises F (openNode r n stk) := by
  cases r
  · exact .pure _
  · exact .bind (.csr _) fun _ => .bind (.raiseIf _ hF _) fun _ => .pure _

theorem parseRecords_raises (hF : .capacity ∈ F) (hT : .corruptTree ∈ F) (last fuel p : Nat) (stk : List NodeId) :
    Cmd.Raises F (parseRecords last fuel p stk) := by
  induction fuel generalizing p stk with
  | zero => exact .raise hT _
  | succ fuel ih =>
    refine .bind (readRecord_raises hT _ _) fun r => .bind (allocRecord_raises hF r) fun n =>
      .bind (attach_raises _ _) fun stk => .bind (openNode_raises hF _ _ _) fun stk => ?_
    cases stk with
    | nil => exact .pure _
    | cons t stk => exact ih _ _

theorem readHeader_raises (hF : .capacity ∈ F) (hM : .malformed ∈ F) : Cmd.Raises F readHeader :=
  .bind (.csr _) fun _ => .bind (.csr _) fun _ => .bind (.raiseIf _ hF _) fun _ => .bind (.raiseIf _ hM _) fun _ =>
    .bind (.forFrom (fun _ => .bind (readBlob_raises _) fun _ => .raiseIf _ hM _) _ _) fun _ =>
    .bind (get32_raises _) fun _ => .bind (readBlob_raises _) fun _ => .bind (get32_raises _) fun _ =>
    .bind (get32_raises _) fun _ => .pure _

theorem checkHeader_raises (hF : .capacity ∈ F) (hM : .malformed ∈ F) (hT : .truncated ∈ F) (h : Header) : Cmd.Raises F (checkHeader h) :=
  .bind (.csr _) fun _ => .bind (.raiseIf _ hM _) fun _ => .bind (.raiseIf _ hM _) fun _ => .bind (.raiseIf _ hT _) fun _ =>
    .bind (.raiseIf _ hM _) fun _ => .bind (.raiseIf _ hM _) fun _ => .bind (.raiseIf _ hM _) fun _ => .bind (.csr _) fun _ =>
    .raiseIf _ hF _

theorem parse_raises (hF : .capacity ∈ F) (hM : .malformed ∈ F) (hT : .truncated ∈ F) (hC : .corruptTree ∈ F) : Cmd.Raises F parse :=
  .bind (.bind (.update _) fun _ => .bind (.update _) fun _ => .bind (.update _) fun _ => .update _) fun _ =>
    .bind (readHeader_raises hF hM) fun _ => .bind (checkHeader_raises hF hM hT _) fun _ =>
    .bind (.ite _ (.bind (parseRecords_raises hF hC _ _ _ _) fun _ => .raiseIf _ hC _) (.pure ())) fun _ =>
    .bind (.forFrom (fun _ => .bind (readBlob_raises _) fun _ => .update _) _ _) fun _ => .update _

theorem emitSymbol_raises (hF : .capacity ∈ F) (n : Nat) (sym : Symbol) : Cmd.Raises F (emitSymbol n sym) :=
  .bind (.csr _) fun _ => .bind (.raiseIf _ hF _) fun _ => .bind (.update _) fun _ => .pure _

theorem decodeBit_raises (hF : .capacity ∈ F) (hC : .corruptTree ∈ F) (hE : .empty ∈ F) (cur : NodeId) (n : Nat) (b : Bool) :
    Cmd.Raises F (decodeBit cur n b) :=
  .bind (.csr _) fun _ => .bind (.raiseIf _ hE _) fun _ => .bind (readNode_raises _) fun _ => .ite _
    (.bind (.csr _) fun _ => .bind (.raiseIf _ hC _) fun _ => .bind (emitSymbol_raises hF _ _) fun _ => .pure _)
    (.bind (readNode_raises _) fun _ => .bind (readNode_raises _) fun _ => .ite _
      (.bind (emitSymbol_raises hF _ _) fun _ => .pure _) (.pure _))

theorem decodeLoop_raises (hF : .capacity ∈ F) (hC : .corruptTree ∈ F) (hE : .empty ∈ F) (fuel : Nat) (cur : NodeId) (n : Nat) :
    Cmd.Raises F (decodeLoop fuel cur n) := by
  induction fuel generalizing cur n with
  | zero => exact .pure _
  | succ fuel ih =>
    refine .bind upPop_raises fun b => ?_
    cases b with
    | none => exact .pure _
    | some b => exact .bind (decodeBit_raises hF hC hE _ _ _) fun _ => ih _ _

theorem decodeText_raises (hF : .capacity ∈ F) (hC : .corruptTree ∈ F) (hE : .empty ∈ F) (hT : .truncated ∈ F) (hM : .malformed ∈ F) :
    Cmd.Raises F decodeText :=
  .bind (.update _) fun _ => .bind (.update _) fun _ => .bind (.csr _) fun _ => .bind (.csr _) fun _ =>
    .bind (decodeLoop_raises hF hC hE _ _ _) fun _ => .bind (.raiseIf _ hC _) fun _ => .bind (.csr _) fun _ =>
    .bind (.raiseIf _ hT _) fun _ => .bind (.raiseIf _ hM _) fun _ => .update _

/-! ### Inside COMPRESS -/

theorem freqTable_syms (txt : List Symbol) : (freqTable txt).map (·.sym) = firstSeen txt := by
  unfold freqTable
  rw [List.map_map]
  exact List.map_id _

/-- Every leaf's symbol has an entry in the code table (R150). -/
theorem mem_codeTable {T : Tree} {x : Symbol} (h : x ∈ T.leaves) : ∃ e ∈ codeTable T, e.sym = x := by
  have : x ∈ T.codes.map (·.1) := by
    cases T with
    | leaf y => exact h
    | node l r => rw [Tree.codes, Tree.paths_fst]; exact h
  obtain ⟨p, hp, rfl⟩ := List.mem_map.mp this
  exact ⟨_, List.mem_map.mpr ⟨p, hp, rfl⟩, rfl⟩

/-- The counts of a text's table sum to its length (10_state.md R46). -/
theorem freqTable_sum {txt : List Symbol} (h : txt.length < 2 ^ 32) : ((freqTable txt).map (·.cnt.toNat)).sum = txt.length := by
  have e : (freqTable txt).map (·.cnt.toNat) = (firstSeen txt).map fun x => txt.count x := by
    unfold freqTable
    rw [List.map_map]
    refine List.map_congr_left fun x _ => ?_
    show (BitVec.ofNat 32 (txt.count x)).toNat = _
    rw [BitVec.toNat_ofNat]
    exact Nat.mod_eq_of_lt (Nat.lt_of_le_of_lt List.count_le_length h)
  have p : (firstSeen txt).Perm txt.dedup :=
    (List.perm_ext_iff_of_nodup (nodup_firstSeen txt) (List.nodup_dedup txt)).mpr fun x => by rw [mem_firstSeen, List.mem_dedup]
  rw [e, (p.map _).sum_eq, List.sum_map_count_dedup_eq_length]

/-- BUILD leaves a live tree over the table's symbols (R134). -/
theorem build_live {l : List FtEntry} (hL : s.cfg.Legal) (hl : s.holdsTable l) (hne : l ≠ []) (hfit : l.length ≤ s.cfg.kMax)
    (hsum : (l.map (·.cnt.toNat)).sum ≤ s.cfg.nMax) :
    Cmd.wp build (fun _ t => ∃ T, t.liveTree T ∧ T.leaves.Perm (l.map (·.sym)) ∧ T.size = 2 * l.length - 1 ∧
      t = { s with nodeCnt := t.nodeCnt, pqCnt := t.pqCnt, root := t.root, ctCnt := 0#32, res := t.res, node := t.node, heap := t.heap })
      (fun _ _ => False) s := by
  obtain ⟨⟨hk1, hk2, _⟩, ⟨_, hn2⟩, _⟩ := hL
  have hpos := List.length_pos_of_ne_nil hne
  refine Cmd.wp_mono (build_forest hl hne hfit hk2) (fun _ t h => ?_) (fun _ _ h => h)
  obtain ⟨e, k, _, _⟩ := h
  obtain ⟨tree, g, _, hlen, hroot, h4, h5, _, h7⟩ := builtForest_ok (c := s.cfg) hne hsum hfit hk2 (by omega)
  have g' : Grove s.cfg t.node (2 * l.length - 1) [] [tree] := g.same fun i hi1 hi2 => holds_nodeMemory k.held hi1 (by omega)
  have hr : t.root = BitVec.ofNat 24 (2 * l.length - 1) := by rw [e]; exact hroot
  have hrn : t.root.toNat = 2 * l.length - 1 := by rw [hr, BitVec.toNat_ofNat, Nat.mod_eq_of_lt (by omega)]
  have hlive := g'.liveTree (id := t.root) (List.mem_singleton.mpr rfl) (by omega)
  refine ⟨tree.tree t.node, ⟨fun h => ?_, hlive.1⟩, ?_, ?_, ?_⟩
  · rw [h] at hrn
    simp at hrn
    omega
  · rw [IdTree.tree_leaves]
    refine (h5.map _).trans (List.Perm.of_eq (List.ext_getElem (by simp) fun j j1 j2 => ?_))
    rw [List.getElem_map, List.getElem_map, List.getElem_range']
    rw [List.length_map] at j2
    obtain ⟨x, hx, _, hs, _⟩ := h7 j l[j] (List.getElem?_eq_getElem j2)
    have := k.held j (by omega)
    rw [hx] at this
    rw [symAt, show 1 + 1 * j = 1 + j by omega, this]
    exact hs
  · rw [IdTree.tree_size]
    simpa using g'.ids.length_eq
  · generalize t.node = a, t.heap = b, t.nodeCnt = c, t.pqCnt = d at e
    rw [e]
    rfl

/-- The turn of ENCODE over a table with an entry for every symbol the text may hold there: without a code only for an element
that nothing has written (R151). -/
theorem encodeStep_any {l : List CtEntry} {i : Nat} (h : s.holdsCodes l) (hc : ∀ v, s.text.get? i = some v → ∃ e ∈ l, e.sym.setWidth 32 = v) :
    Cmd.wp (encodeStep i) (fun _ _ => True)
      (fun e _ => ∀ code info, e = .raise code info → code = .capacity ∨ (code = .noCode ∧ s.text.get? i = none)) s := by
  have hu : (textAt i s).2.holdsCodes l := by rw [show (textAt i s).2 = _ from readElem_state _ _ _ _]; exact h
  rw [encodeStep, Cmd.wp_bind, Cmd.wp_readText, Cmd.wp_bind, Cmd.wp_csr, hu.1, Cmd.wp_bind, wp_findCt hu]
  cases hf : l.findIdx? fun e => decide (e.sym.setWidth 32 = (textAt i s).1) with
  | none =>
    rintro _ _ ⟨⟩
    refine .inr ⟨rfl, ?_⟩
    cases hg : s.text.get? i with
    | none => rfl
    | some v =>
      obtain ⟨e, he, hv⟩ := hc v hg
      have := List.findIdx?_eq_none_iff.mp hf e he
      rw [textAt_some hg] at this
      simp [hv] at this
  | some j =>
    refine Cmd.wp_mono (Cmd.Raises.bind (F := [.capacity]) (readCt_raises j)
      (fun e => .forBits (pkPushBit_raises (List.mem_singleton.mpr rfl)) (entryBits e)) _) (fun _ _ h => h) fun e t he code info h => .inl ?_
    exact List.mem_singleton.mp (he code info h)

/-- ENCODE over such a table (R151): the stager is empty at its end, and it keeps the root. -/
theorem encodeText_any {l : List CtEntry} (h : s.holdsCodes l) (hn : s.textLen.toNat ≤ s.cfg.nMax)
    (hc : ∀ i v, i < s.textLen.toNat → s.text.get? i = some v → ∃ e ∈ l, e.sym.setWidth 32 = v) :
    Cmd.wp encodeText (fun _ t => t.stgCnt = 0#3 ∧ t.root = s.root)
      (fun e _ => ∀ code info, e = .raise code info → code = .capacity ∨ (code = .noCode ∧ ∃ k, k < s.textLen.toNat ∧ s.text.get? k = none)) s := by
  refine wp_encodeText hn ?_
  have keep : ∀ i, Cmd.Inv (fun t => t.text = s.text ∧ t.holdsCodes l ∧ t.root = s.root) (encodeStep i) := fun i =>
    encodeStep_inv (fun _ _ h => h) ⟨fun _ _ _ h => h, fun _ _ _ _ _ h => h⟩ i
  have loop : ∀ n a t, a + n ≤ s.textLen.toNat → (t.text = s.text ∧ t.holdsCodes l ∧ t.root = s.root) →
      Cmd.wp (Cmd.forFrom encodeStep n a) (fun _ u => u.text = s.text ∧ u.holdsCodes l ∧ u.root = s.root)
        (fun e _ => ∀ code info, e = .raise code info → code = .capacity ∨ (code = .noCode ∧ ∃ k, k < s.textLen.toNat ∧ s.text.get? k = none)) t := by
    intro n
    induction n with
    | zero => exact fun a t _ ht => ht
    | succ n ih =>
      intro a t ha ht
      rw [Cmd.wp_forFrom_succ]
      refine Cmd.wp_mono (Cmd.wp_and (keep a t ht) (encodeStep_any ht.2.1 (fun v hv => hc a v (by omega) (by rw [← ht.1]; exact hv))))
        (fun _ u hu => ih (a + 1) u (by omega) hu.1) (fun e u he code info hr => ?_)
      refine (he.2 code info hr).imp id fun h => ⟨h.1, a, by omega, by rw [← ht.1]; exact h.2⟩
  refine Cmd.wp_mono (loop _ 0 s.encoding (by omega) ⟨rfl, h, rfl⟩) (fun _ t ht => ?_) (fun _ _ h => h)
  refine Cmd.wp_mono (Cmd.wp_and (pkFlush_raises (F := [.capacity]) (List.mem_singleton.mpr rfl) t)
    (show Cmd.wp pkFlush (fun _ u => u.stgCnt = 0#3 ∧ u.root = s.root) (fun _ _ => True) t from ?_)) (fun _ u hu => hu.2)
    (fun e u he code info hr => .inl (List.mem_singleton.mp (he.1 code info hr)))
  simp only [pkFlush, Cmd.wp_bind, Cmd.wp_csr, Cmd.wp_ite, Cmd.wp_raiseIf, Cmd.wp_writePk, Cmd.wp_update]
  exact ⟨fun _ => ⟨fun _ => trivial, fun _ => ⟨trivial, ht.2.2⟩⟩, fun e => ⟨not_not.mp e, ht.2.2⟩⟩

/-- COMPRESS raises E_CAPACITY and E_BAD_SYMBOL alone, and E_NO_CODE where an element of its text has not been written (R212; log 2). -/
theorem compressRule_raises (hL : s.cfg.Legal) :
    Cmd.wp compressRule (fun _ _ => True) (fun e _ => ∀ code info, e = .raise code info →
      code ∈ [FaultCode.capacity, .badSymbol] ∨ (code = .noCode ∧ ∃ k, k < s.textLen.toNat ∧ s.text.get? k = none)) s := by
  have hL' := hL
  obtain ⟨⟨hk1, hk2, _⟩, ⟨_, hn2⟩, _⟩ := hL
  rw [compressRule, Cmd.wp_bind, workClear, Cmd.wp_update, Cmd.wp_bind, Cmd.wp_update, Cmd.wp_bind, Cmd.wp_csr, Cmd.wp_bind, Cmd.wp_csr,
    Cmd.wp_bind, Cmd.wp_raiseIf]
  obtain ⟨u, hu⟩ : ∃ u : State, u = { s.workCleared with blobLen := 0#32 } := ⟨_, rfl⟩
  rw [← hu]
  have uc : u.cfg = s.cfg := by rw [hu]; rfl
  have ut : u.text = s.text := by rw [hu]; rfl
  have ul : u.textLen = s.textLen := by rw [hu]; rfl
  refine ⟨fun _ code info e => .inl ?_, fun hlen => ?_⟩
  · cases e
    simp
  rw [Cmd.wp_ite]
  refine ⟨fun _ => ?_, fun h0 => ?_⟩
  · exact Cmd.wp_mono (serialize_checked (F := [.capacity, .badSymbol]) (by rw [hu]; rfl) (.inr ⟨by rw [hu]; rfl, by rw [hu]; rfl⟩) (by simp))
      (fun _ _ h => h) fun e t he code info hr => .inl (he code info hr)
  rw [uc] at hlen
  rw [Cmd.wp_bind]
  refine Cmd.wp_mono (freq_any (by rw [uc]; omega) (by rw [uc]; omega)) (fun _ t ht => ?_) (fun e _ he code info hr => .inl ?_)
  swap
  · rcases he with ⟨k, he⟩ | he <;> (rw [he] at hr; cases hr; simp)
  obtain ⟨txt, tl, ⟨_, hread⟩, hfit, ho, hf⟩ := ht
  have tc : t.cfg = s.cfg := by rw [ho.cfg, uc]
  have hne : freqTable txt ≠ [] := by
    intro e
    have := congrArg List.length e
    rw [freqTable_length] at this
    have hnil : firstSeen txt = [] := List.length_eq_zero_iff.mp this
    have : txt = [] := List.eq_nil_iff_forall_not_mem.mpr fun x hx => by
      have := mem_firstSeen.mpr hx
      rw [hnil] at this
      exact absurd this List.not_mem_nil
    rw [this] at tl
    exact h0 tl.symm
  rw [Cmd.wp_bind]
  refine Cmd.wp_mono (build_live (by rw [tc]; exact hL') hf hne (by rw [freqTable_length, ho.cfg]; exact hfit)
    (by rw [freqTable_sum (by omega), tc]; omega)) (fun _ v hv => ?_) (fun _ _ h => h.elim)
  obtain ⟨T, hT, hleaves, hsize, hv⟩ := hv
  have vc : v.cfg = s.cfg := by rw [hv]; exact tc
  rw [uc] at hfit
  rw [freqTable_length] at hsize
  have hlv : T.leaves.length = (firstSeen txt).length := by rw [hleaves.length_eq, List.length_map, freqTable_length]
  rw [Cmd.wp_bind]
  refine Cmd.wp_mono (codeGen_ok hT (by rw [vc, hsize]; unfold Config.nodeMax; omega)) (fun _ w hw => ?_) (fun _ _ h => h.elim)
  obtain ⟨z, hz⟩ : ∃ z : State, z = { v with ctCnt := 0#32 } := ⟨_, rfl⟩
  rw [← hz] at hw
  have wf := withCodes_frame z (codeTable T)
  rw [← hw] at wf
  have wc : w.cfg = s.cfg := by rw [wf, hz]; exact vc
  have wt : w.text = s.text := by rw [wf, hz, hv]; show t.text = _; rw [ho.text, ut]
  have wl : w.textLen = s.textLen := by rw [wf, hz, hv]; show t.textLen = _; rw [show t = _ from ho]; exact ul
  have wr : w.root = v.root := by rw [wf, hz]
  have hcw : w.holdsCodes (codeTable T) := by
    have := withCodes_holds (s := z) (l := []) (l' := codeTable T) (by rw [hz]; rfl) (Memory.holds_nil _ _)
      (by rw [hz, codeTable_length, hlv, List.length_nil, Nat.zero_add]; show _ ≤ v.cfg.kMax; rw [vc]; exact hfit)
      (by rw [hz]; show v.cfg.kMax < _; rw [vc]; omega)
    rw [← hw, List.length_nil, Nat.zero_add, List.nil_append] at this
    exact ⟨this.1, this.2.1⟩
  rw [Cmd.wp_bind]
  refine Cmd.wp_mono (encodeText_any hcw (by rw [wl, wc, ← ul]; omega) fun i x hi hx => ?_) (fun _ y hy => ?_) (fun e _ he code info hr => ?_)
  · rw [wt, ← ut] at hx
    have hi' : i < txt.length := by rw [tl, ul, ← wl]; exact hi
    have hxe := hread i txt[i] x (List.getElem?_eq_getElem hi') (by rw [Nat.zero_add]; exact hx)
    have hmem : txt[i] ∈ T.leaves := hleaves.mem_iff.mpr (by
      rw [freqTable_syms]
      exact mem_firstSeen.mpr (List.getElem_mem hi'))
    obtain ⟨e, he, hs⟩ := mem_codeTable hmem
    exact ⟨e, he, by rw [hs, hxe]⟩
  · exact Cmd.wp_mono (serialize_checked (F := [.capacity, .badSymbol]) hy.1 (.inl (by rw [hy.2, wr]; exact hT.1)) (by simp))
      (fun _ _ h => h) fun e t he code info hr => .inl (he code info hr)
  · rw [wl, wt] at he
    exact (he code info hr).imp (fun e => by rw [e]; simp) id

/-! ### Inside DECOMPRESS -/

/-- Once the root is node 1, the loop of ParseTree keeps it (R195). -/
theorem parseRecords_root (last fuel p : Nat) (stk : List NodeId) : Cmd.Inv (fun t => t.root = 1#24) (parseRecords last fuel p stk) := by
  induction fuel generalizing p stk with
  | zero => exact .raise _ _
  | succ fuel ih =>
    refine .bind (readRecord_inv (fun _ _ h => h) _ _) fun r => .bind (allocRecord_inv (fun _ _ _ h => h) (fun _ _ h => h) r) fun n =>
      .bind (.ite _ (.bind (.update fun _ _ => rfl) fun _ => .pure _) ?_) fun stk => .bind (openNode_inv _ _ _) fun stk => ?_
    · cases stk with
      | nil => exact .pure _
      | cons t stk =>
        exact .bind (readNode_inv (fun _ _ h => h) _) fun _ => .ite _
          (.bind (setNodeLeft_inv (fun _ _ h => h) (fun _ _ _ h => h) _ _) fun _ =>
            .bind (setNodeSt_inv (fun _ _ h => h) (fun _ _ _ h => h) _ _) fun _ => .pure _)
          (.bind (setNodeRight_inv (fun _ _ h => h) (fun _ _ _ h => h) _ _) fun _ =>
            .bind (setNodeSt_inv (fun _ _ h => h) (fun _ _ _ h => h) _ _) fun _ => .pure _)
    · cases stk with
      | nil => exact .pure _
      | cons t stk => exact ih _ _

/-- A tree that ParseTree reads is live: the first record is node 1 (R195). -/
theorem parseTree_root {p last : Nat} (hn : s.nodeCnt = 0#32) :
    Cmd.wp (parseTree p last) (fun _ t => t.root = 1#24) (fun _ _ => True) s := by
  rw [parseTree, Cmd.wp_bind, parseRecords, Cmd.wp_bind]
  refine Cmd.wp_mono (readRecord_inv (P := fun t => t.nodeCnt = 0#32) (fun _ _ h => h) p last s hn) (fun r u hu => ?_) (fun _ _ _ => trivial)
  have first : Cmd.wp (allocRecord r) (fun n _ => n = 1#24) (fun _ _ => True) u := by
    have key : ∀ leaf sym, Cmd.wp (nodeAlloc leaf sym 0#32 0#24 0#24) (fun n _ => n = 1#24) (fun _ _ => True) u := by
      intro leaf sym
      simp only [nodeAlloc, Cmd.wp_bind, Cmd.wp_csr, Cmd.wp_raiseIf, Cmd.wp_update, Cmd.wp_writeNode, Cmd.wp_pure]
      refine ⟨fun _ => trivial, fun _ => ?_⟩
      rw [hu]
      rfl
    cases r <;> exact key _ _
  rw [Cmd.wp_bind]
  refine Cmd.wp_mono first (fun n v hn => ?_) (fun _ _ h => h)
  rw [Cmd.wp_bind, attach, if_pos hn, Cmd.wp_bind, Cmd.wp_update, Cmd.wp_pure]
  have rest : ∀ (c : Cmd Nat), Cmd.Inv (fun t => t.root = 1#24) c → ∀ w : State, w.root = 1#24 →
      Cmd.wp c (fun q t => Cmd.wp (Cmd.raiseIf (q ≠ last) .corruptTree q) (fun _ t => t.root = 1#24) (fun _ _ => True) t) (fun _ _ => True) w :=
    fun c hc w hw => Cmd.wp_mono (hc w hw) (fun q t ht => by rw [Cmd.wp_raiseIf]; exact ⟨fun _ => trivial, fun _ => ht⟩) (fun _ _ _ => trivial)
  refine rest _ (.bind (openNode_inv _ _ _) fun stk => ?_) _ rfl
  cases stk with
  | nil => exact .pure _
  | cons t stk => exact parseRecords_root _ _ _ _

theorem copyPayload_inv {P : State → Prop} (hd : State.onDraws P) (hp : ∀ s i v, P s → P (s.storePk i v)) (base i : Nat) :
    Cmd.Inv P (copyPayload base i) := .bind (readBlob_inv hd _) fun _ => .update fun s => hp s _ _

/-- PARSE loads a payload only with a tree (R194). -/
theorem parse_bits_need_tree : Cmd.wp parse (fun _ t => t.root ≠ 0#24 ∨ t.pkLen = 0#32) (fun _ _ => True) s := by
  rw [parse, Cmd.wp_bind, dropArtifact, Cmd.wp_bind, Cmd.wp_update, Cmd.wp_bind, pkInit, Cmd.wp_update, Cmd.wp_bind, Cmd.wp_update, upInit,
    Cmd.wp_update, Cmd.wp_bind]
  refine Cmd.wp_mono (readHeader_inv (P := fun t => t.nodeCnt = 0#32) (fun _ _ h => h) _ rfl) (fun h u hu => ?_) (fun _ _ _ => trivial)
  rw [Cmd.wp_bind]
  refine Cmd.wp_mono (Cmd.wp_and (checkHeader_inv (P := fun t => t.nodeCnt = 0#32) h u hu)
    (show Cmd.wp (checkHeader h) (fun _ _ => h.tlen = 0 → h.plen = 0) (fun _ _ => True) u from ?_)) (fun _ v hv => ?_) (fun _ _ _ => trivial)
  · simp only [checkHeader, Cmd.wp_bind, Cmd.wp_csr, Cmd.wp_raiseIf]
    refine ⟨fun _ => trivial, fun _ => ⟨fun _ => trivial, fun _ => ⟨fun _ => trivial, fun _ => ⟨fun _ => trivial, fun _ => ⟨fun _ => trivial,
      fun _ => ⟨fun _ => trivial, fun e => ⟨fun _ => trivial, fun _ h0 => ?_⟩⟩⟩⟩⟩⟩⟩
    by_contra hp
    exact e ⟨h0, .inl hp⟩
  obtain ⟨hn, hp⟩ := hv
  rw [Cmd.wp_bind]
  by_cases h0 : 0 < h.tlen
  · rw [parseSnapshot, if_pos h0]
    refine Cmd.wp_mono (parseTree_root hn) (fun _ w hw => ?_) (fun _ _ h => h)
    rw [Cmd.wp_bind]
    refine Cmd.wp_mono (Cmd.Inv.forFrom (copyPayload_inv (P := fun t => t.root = 1#24) (fun _ _ h => h) (fun _ _ _ h => h) _) _ _ w hw)
      (fun _ x hx => ?_) (fun _ _ _ => trivial)
    exact .inl (show x.root ≠ 0#24 by rw [show x.root = 1#24 from hx]; decide)
  · rw [parseSnapshot, if_neg h0, Cmd.wp_pure, Cmd.wp_bind]
    refine Cmd.wp_mono (Cmd.wp_any _ v)
      (fun _ x _ => .inr ?_) (fun _ _ h => h)
    show BitVec.ofNat 32 h.plen = 0#32
    rw [hp (by omega)]

/-- DECODE raises E_EMPTY only with bits and no tree (R214). -/
theorem decodeText_checked (h : s.root ≠ 0#24 ∨ s.pkLen = 0#32) (hF : .capacity ∈ F) (hC : .corruptTree ∈ F) (hT : .truncated ∈ F)
    (hM : .malformed ∈ F) :
    Cmd.wp decodeText (fun _ _ => True) (fun e _ => ∀ code info, e = .raise code info → code ∈ F) s := by
  rw [decodeText, Cmd.wp_bind, Cmd.wp_update, Cmd.wp_bind, upInit, Cmd.wp_update, Cmd.wp_bind, Cmd.wp_csr, Cmd.wp_bind, Cmd.wp_csr,
    Cmd.wp_bind]
  have tail : ∀ (bits : Nat) (root : NodeId) (fin : NodeId × Nat), Cmd.Raises F (do
      Cmd.raiseIf (fin.1 ≠ root) .corruptTree bits
      let orig ← Cmd.csr (·.origLen.toNat)
      Cmd.raiseIf (fin.2 < orig) .truncated fin.2
      Cmd.raiseIf (orig < fin.2) .malformed fin.2
      Cmd.update fun s => { s with textLen := BitVec.ofNat 32 fin.2 }) := fun _ _ _ =>
    .bind (.raiseIf _ hC _) fun _ => .bind (.csr _) fun _ => .bind (.raiseIf _ hT _) fun _ => .bind (.raiseIf _ hM _) fun _ => .update _
  refine Cmd.wp_mono (Q := fun _ _ => True) (E := fun e _ => ∀ code info, e = .raise code info → code ∈ F) ?_ (fun fin t _ => tail _ _ fin t)
    (fun _ _ h => h)
  rcases h with h | h
  · have loop : ∀ fuel cur n (t : State), t.root ≠ 0#24 →
        Cmd.wp (decodeLoop fuel cur n) (fun _ _ => True) (fun e _ => ∀ code info, e = .raise code info → code ∈ F) t := by
      intro fuel
      induction fuel with
      | zero => exact fun _ _ _ _ => trivial
      | succ fuel ih =>
        intro cur n t ht
        rw [decodeLoop, Cmd.wp_bind]
        refine Cmd.wp_mono (Cmd.wp_and (upPop_raises (F := F) t) (upPop_inv (P := fun t => t.root ≠ 0#24) (fun _ _ h => h) (fun _ _ _ h => h) t ht))
          (fun b u hu => ?_) (fun _ _ h => h.1)
        cases b with
        | none => trivial
        | some b =>
          rw [Cmd.wp_bind]
          refine Cmd.wp_mono (Cmd.wp_and (show Cmd.wp (decodeBit cur n b) (fun _ _ => True) (fun e _ => ∀ code info, e = .raise code info → code ∈ F) u from ?_)
            (decodeBit_inv (P := fun t => t.root ≠ 0#24) (fun _ _ h => h) (fun _ _ _ h => h) cur n b u hu.2)) (fun x v hv => ih _ _ v hv.2) (fun _ _ h => h.1)
          rw [decodeBit, Cmd.wp_bind, Cmd.wp_csr, Cmd.wp_bind, Cmd.wp_raiseIf]
          refine ⟨fun e => absurd e hu.2, fun _ => ?_⟩
          exact (Cmd.Raises.bind (readNode_raises _) fun _ => .ite _
            (.bind (.csr _) fun _ => .bind (.raiseIf _ hC _) fun _ => .bind (emitSymbol_raises hF _ _) fun _ => .pure _)
            (.bind (readNode_raises _) fun _ => .bind (readNode_raises _) fun _ => .ite _
              (.bind (emitSymbol_raises hF _ _) fun _ => .pure _) (.pure _))) u
    exact loop _ _ _ _ h
  · have dead : ∀ (u : State) (root : NodeId), u.bitLen = 0 →
        Cmd.wp (decodeLoop (u.bitLen + 1) root 0) (fun _ _ => True) (fun e _ => ∀ code info, e = .raise code info → code ∈ F) u := by
      intro u root hb
      rw [decodeLoop, Cmd.wp_bind, upPop, Cmd.wp_bind, Cmd.wp_csr, Cmd.wp_bind, Cmd.wp_csr, Cmd.wp_ite]
      exact ⟨fun _ => trivial, fun e => absurd (show u.bitLen ≤ u.upPos by omega) e⟩
    exact dead _ _ (show 8 * s.pkLen.toNat - s.pad.toNat = 0 by rw [h]; simp)

/-- DECOMPRESS raises none of E_EMPTY, E_NO_CODE and E_SEQ (R213). -/
theorem decompressRule_raises : Cmd.Raises [.malformed, .corruptTree, .truncated, .capacity] decompressRule := by
  intro s
  rw [decompressRule, Cmd.wp_bind, workClear, Cmd.wp_update, Cmd.wp_bind, Cmd.wp_update, Cmd.wp_bind]
  exact Cmd.wp_mono (Cmd.wp_and (parse_raises (by simp) (by simp) (by simp) (by simp) _) parse_bits_need_tree)
    (fun _ t ht => decodeText_checked ht.2 (by simp) (by simp) (by simp) (by simp)) (fun _ _ h => h.1)

end Sys2Proof.Machine
end

