-- ==== Sys2Proof/Tests/Slice0.lean ====
section
/-! SUPPORT. Checks on small states: the encodings written out from 30_encoding.md, one or two steps per command with results
from the spec's examples, and for each claim with hypotheses a state that meets them (test_meets_...). -/

namespace Sys2Proof.Machine.Tests

set_option Elab.async false

/-! ### Helpers -/

/-- What a step leaves; the reset state where it stops. -/
def left : Host.Outcome State Fault Refusal → State
  | .next t => t
  | .fault _ => State.reset
  | .refused _ => State.reset

/-- Whether a step answers a next state. -/
def goes : Host.Outcome State Fault Refusal → Bool
  | .next _ => true
  | .fault _ => false
  | .refused _ => false

theorem next_left {o : Host.Outcome State Fault Refusal} (h : goes o = true) : o = .next (left o) := by
  cases o with
  | next t => rfl
  | fault r => cases h
  | refused r => cases h

/-- A legal configuration of 4 symbols, 16 text words, 2 packed bytes and 40 container bytes. -/
def tiny : Config := { kMax := 4, nMax := 16, pMax := 2, bMax := 40 }

def zero : State := State.resetIn tiny

def listed {α : Type} (base : Nat) (l : List α) : Memory α := l.zipIdx.map fun p => (base + p.2, p.1)

/-- TEXT = "aabbc" (41_tree_builder.md's running example). -/
def textState : State := { zero with textLen := 5#32, text := listed 0 [0x61#32, 0x61#32, 0x62#32, 0x62#32, 0x63#32] }

def table : List FtEntry := [⟨0x61#21, 2#32⟩, ⟨0x62#21, 2#32⟩, ⟨0x63#21, 1#32⟩]

def tableState : State := { zero with ftCnt := 3#32, ft := listed 0 table }

def leafNode (st : BitVec 2) (sym : Symbol) (w : Word) : Node := { st := st, leaf := true, sym := sym, w := w, l := 0#24, r := 0#24 }

def innerNode (st : BitVec 2) (w : Word) (l r : NodeId) : Node := { st := st, leaf := false, sym := 0#21, w := w, l := l, r := r }

def queued : List Node := [leafNode stQueued 0x61#21 2#32, leafNode stQueued 0x62#21 2#32, leafNode stQueued 0x63#21 1#32]

/-- What LEAVES leaves of the table: HEAP = [3, 2, 1]. -/
def queueState : State :=
  { tableState with nodeCnt := 3#32, pqCnt := 3#32, node := listed 1 queued, heap := listed 0 [3#24, 2#24, 1#24] }

def looseNodes : List Node := [leafNode stQueued 0x61#21 2#32, leafNode stDetached 0x62#21 2#32]

/-- Two nodes, 1 queued and 2 not. -/
def looseState : State := { zero with nodeCnt := 2#32, pqCnt := 1#32, node := listed 1 looseNodes, heap := listed 0 [1#24] }

def treeNodes : List Node :=
  [leafNode stChild 0x61#21 2#32, leafNode stChild 0x62#21 2#32, leafNode stChild 0x63#21 1#32, innerNode stChild 3#32 3#24 1#24,
   innerNode stDetached 5#32 2#24 4#24]

/-- The tree of "aabbc": b, then c and a. -/
def tree : Tree := .node (.leaf 0x62#21) (.node (.leaf 0x63#21) (.leaf 0x61#21))

/-- What BUILD leaves of the table, but for HEAP and RES. -/
def treeState : State := { tableState with nodeCnt := 5#32, root := 5#24, node := listed 1 treeNodes }

/-- The one-leaf tree of "zzzz". -/
def bareState : State := { zero with nodeCnt := 1#32, root := 1#24, node := listed 1 [leafNode stDetached 0x7A#21 4#32] }

def codesState : State :=
  { treeState with ctCnt := 3#32, ct := listed 0 (codeTable tree), textLen := 5#32, text := textState.text }

def packedState : State := { treeState with pkLen := 1#32, pk := [(0, 0xF2#8)], origLen := 5#32 }

/-- The container of "aabbc". -/
def blob : List Byte :=
  [0x48#8, 0x55#8, 0x46#8, 0x31#8, 0x00#8, 0x00#8, 0x00#8, 0x05#8, 0x00#8, 0x00#8, 0x00#8, 0x00#8, 0x0E#8, 0x00#8, 0x00#8, 0x00#8,
   0x01#8, 0x00#8, 0x01#8, 0x00#8, 0x00#8, 0x62#8, 0x00#8, 0x01#8, 0x00#8, 0x00#8, 0x63#8, 0x01#8, 0x00#8, 0x00#8, 0x61#8, 0xF2#8]

def withBlob (bytes : List Byte) : State := { zero with blobLen := BitVec.ofNat 32 bytes.length, blob := listed 0 bytes }

def emptyBlob : List Byte := [0x48#8, 0x55#8, 0x46#8, 0x31#8] ++ List.replicate 13 0x00#8

theorem tree_live : treeState.liveTree tree :=
  ⟨by decide, _, rfl, rfl, ⟨_, rfl, rfl, rfl⟩, _, rfl, rfl, ⟨_, rfl, rfl, rfl⟩, _, rfl, rfl, rfl⟩

theorem bare_live : bareState.liveTree (.leaf 0x7A#21) := ⟨by decide, _, rfl, rfl, rfl⟩

/-! ### Encoding -/

theorem test_wf_len_zero : (Instr.pkPush 0#5 0#16).wf = false := by decide
theorem test_wf_len_seventeen : (Instr.pkPush 17#5 0#16).wf = false := by decide
theorem test_wf_bits_above_len : (Instr.pkPush 5#5 0x20#16).wf = false := by decide
theorem test_wf_len_one : (Instr.pkPush 1#5 1#16).wf = true := by decide
theorem test_wf_len_sixteen : (Instr.pkPush 16#5 0xFFFF#16).wf = true := by decide

theorem test_word_nop : decodeWord 0b00000000000000000000000000000000#32 = .command .nop := by decide
theorem test_word_clear : decodeWord 0b00000001000000000000000000000000#32 = .command .clear := by decide
theorem test_word_pqInsert : decodeWord 0b00010000100000000000000000000011#32 = .command (.pqInsert 0x800003#24) := by decide
theorem test_word_pqExtract : decodeWord 0b00010001000000000000000000000000#32 = .command .pqExtract := by decide
theorem test_word_freq : decodeWord 0b00100000000000000000000000000000#32 = .command .freq := by decide
theorem test_word_leaves : decodeWord 0b00100001000000000000000000000000#32 = .command .leaves := by decide
theorem test_word_combine : decodeWord 0b00100010000000000000000000000000#32 = .command .combine := by decide
theorem test_word_build : decodeWord 0b00100011000000000000000000000000#32 = .command .build := by decide
theorem test_word_setRoot : decodeWord 0b00100100000000000000000000000101#32 = .command (.setRoot 5#24) := by decide
theorem test_word_codegen : decodeWord 0b00110000000000000000000000000000#32 = .command .codegen := by decide
theorem test_word_encode : decodeWord 0b00110001000000000000000000000000#32 = .command .encode := by decide
theorem test_word_pkInit : decodeWord 0b01000000000000000000000000000000#32 = .command .pkInit := by decide
theorem test_word_pkPush : decodeWord 0b01000001000001010000000000010110#32 = .command (.pkPush 5#5 0x16#16) := by decide
theorem test_word_pkFlush : decodeWord 0b01000010000000000000000000000000#32 = .command .pkFlush := by decide
theorem test_word_upInit : decodeWord 0b01001000000000000000000000000000#32 = .command .upInit := by decide
theorem test_word_upPop : decodeWord 0b01001001000000000000000000000000#32 = .command .upPop := by decide
theorem test_word_decode : decodeWord 0b01001010000000000000000000000000#32 = .command .decode := by decide
theorem test_word_serialize : decodeWord 0b01010000000000000000000000000000#32 = .command .serialize := by decide
theorem test_word_parse : decodeWord 0b01010001000000000000000000000000#32 = .command .parse := by decide
theorem test_word_compress : decodeWord 0b01100000000000000000000000000000#32 = .command .compress := by decide
theorem test_word_decompress : decodeWord 0b01100001000000000000000000000000#32 = .command .decompress := by decide

theorem test_word_unassigned : decodeWord 0x02000000#32 = .illegal .unassignedOpcode := by decide
theorem test_word_all_ones : decodeWord 0xFFFFFFFF#32 = .illegal .unassignedOpcode := by decide
theorem test_word_zero_field : decodeWord 0x00000001#32 = .illegal .nonzeroField := by decide
theorem test_word_zero_field_b : decodeWord 0x41250016#32 = .illegal .nonzeroField := by decide
theorem test_word_len_zero : decodeWord 0x41000000#32 = .illegal .badLength := by decide
theorem test_word_len_seventeen : decodeWord 0x41110000#32 = .illegal .badLength := by decide
theorem test_word_bits : decodeWord 0x41050020#32 = .illegal .badBits := by decide

theorem test_table_word : decodeTableWord 32 0x41100000 = some (.pkPush 16#5 0#16) := by decide
theorem test_operand_bits : operandBits 5#5 0x16#16 = [true, false, true, true, false] := by decide

/-! ### Steps (the examples of 40_priority_queue.md to 45_codec_engine.md) -/

theorem test_step_runs_word : (left (step (zero.withFetchWord 32 0x42000000))).reply = some .done := by decide +kernel
theorem test_step_illegal : (left (step (zero.present 0x02000000#32))).err = 4#8 := by decide +kernel
theorem test_nop : left (exec .nop packedState) = packedState := by decide +kernel
theorem test_clear : (left (exec .clear { packedState with err := 5#8 })).err = 0#8 ∧
    (left (exec .clear packedState)).node = packedState.node := by decide +kernel
theorem test_pqInsert : (left (exec (.pqInsert 2#24) looseState)).heap = [(0, 1#24), (1, 2#24)] := by decide +kernel
theorem test_pqInsert_bad_node : (left (exec (.pqInsert 1#24) looseState)).err = 7#8 := by decide +kernel
theorem test_pqExtract : (left (exec .pqExtract queueState)).res = 3#32 ∧
    (left (exec .pqExtract queueState)).heap.take 2 = [(0, 1#24), (1, 2#24)] := by decide +kernel
theorem test_pqExtract_empty : (left (exec .pqExtract zero)).qe = true := by decide +kernel
theorem test_freq : (left (exec .freq textState)).ft = listed 0 table := by decide +kernel
theorem test_freq_bad_symbol : (left (exec .freq { zero with textLen := 1#32, text := [(0, 0x110000#32)] })).err = 6#8 := by decide +kernel
theorem test_leaves : (left (exec .leaves tableState)).heap = [(0, 3#24), (1, 2#24), (2, 1#24)] := by decide +kernel
theorem test_combine : (left (exec .combine queueState)).node.get? 4 = some (innerNode stQueued 3#32 3#24 1#24) := by decide +kernel
theorem test_combine_empty : (left (exec .combine looseState)).errInfo = 1#32 := by decide +kernel
theorem test_build : (left (exec .build tableState)).node = listed 1 treeNodes := by decide +kernel
theorem test_build_root : (left (exec .build tableState)).root = 5#24 ∧ (left (exec .build tableState)).res = 5#32 := by decide +kernel
theorem test_setRoot : (left (exec (.setRoot 2#24) looseState)).root = 2#24 := by decide +kernel
theorem test_setRoot_bad_node : (left (exec (.setRoot 3#24) looseState)).errInfo = 3#32 := by decide +kernel
theorem test_codegen : (left (exec .codegen treeState)).ct =
    [(0, ⟨0x62#21, 1#24, [false]⟩), (1, ⟨0x63#21, 2#24, [true, false]⟩), (2, ⟨0x61#21, 2#24, [true, true]⟩)] := by decide +kernel
theorem test_codegen_bare : (left (exec .codegen bareState)).ct = [(0, ⟨0x7A#21, 1#24, [false]⟩)] := by decide +kernel
theorem test_encode : (left (exec .encode codesState)).pk = [(0, 0xF2#8)] := by decide +kernel
theorem test_encode_no_code : (left (exec .encode { codesState with text := codesState.text.put 3 0x7A#32 })).errInfo = 3#32 := by decide +kernel
theorem test_pkInit : (left (exec .pkInit { packedState with pad := 3#3 })).pad = 0#3 := by decide +kernel
theorem test_pkPush : (left (exec (.pkPush 5#5 0x16#16) zero)).stgBits = 0x16#8 ∧
    (left (exec (.pkPush 5#5 0x16#16) zero)).stgCnt = 5#3 := by decide +kernel
theorem test_pkPush_two_bytes : (left (exec (.pkPush 16#5 0xA5C3#16) zero)).pk = [(0, 0xA5#8), (1, 0xC3#8)] := by decide +kernel
theorem test_pkFlush : (left (exec .pkFlush { zero with stgBits := 0x16#8, stgCnt := 5#3 })).pk = [(0, 0xB0#8)] ∧
    (left (exec .pkFlush { zero with stgBits := 0x16#8, stgCnt := 5#3 })).pad = 3#3 := by decide +kernel
theorem test_pkFlush_seq : (left (exec .pkFlush { packedState with pad := 3#3 })).err = 10#8 := by decide +kernel
theorem test_upInit : (left (exec .upInit { zero with upByte := 7#32, upBit := 7#3 })).upByte = 0#32 := by decide +kernel
theorem test_upPop : (left (exec .upPop { packedState with upBit := 7#3 })).upByte = 1#32 ∧
    (left (exec .upPop packedState)).res = 1#32 := by decide +kernel
theorem test_upPop_end : (left (exec .upPop { packedState with upByte := 1#32 })).be = true := by decide +kernel
theorem test_decode : (left (exec .decode packedState)).text = textState.text := by decide +kernel
theorem test_decode_truncated : (left (exec .decode { packedState with origLen := 6#32 })).err = 3#8 := by decide +kernel
theorem test_serialize : (left (exec .serialize packedState)).blob = listed 0 blob := by decide +kernel
theorem test_serialize_staged : (left (exec .serialize { packedState with stgCnt := 5#3 })).errInfo = 5#32 := by decide +kernel
theorem test_parse : (left (exec .parse (withBlob blob))).pk = [(0, 0xF2#8)] ∧
    (left (exec .parse (withBlob blob))).nodeCnt = 5#32 := by decide +kernel
theorem test_parse_magic : (left (exec .parse (withBlob (blob.set 2 0x47#8)))).errInfo = 2#32 := by decide +kernel
theorem test_compress : (left (exec .compress textState)).blob = listed 0 blob := by decide +kernel
theorem test_compress_empty : (left (exec .compress zero)).blob = listed 0 emptyBlob := by decide +kernel
theorem test_decompress : (left (exec .decompress (withBlob blob))).text = textState.text := by decide +kernel
theorem test_decompress_bits_end : (left (exec .decompress (withBlob (blob.set 8 0x01#8)))).errInfo = 7#32 := by decide +kernel
theorem test_read_node : (hostRead 0x40000004#32 treeState).1 = .data 0xE0000061#32 := by decide +kernel
theorem test_read_hole : (hostRead 0x00000013#32 treeState).1 = .busError := by decide +kernel

/-! ### States that meet the hypotheses of the claims -/

theorem tiny_legal : tiny.Legal := by decide +kernel

/-- A list held in a memory, checked element by element. -/
theorem holds_of {α : Type} [DecidableEq α] {m : Memory α} {base : Nat} {l : List α}
    (h : (List.range l.length).all (fun k => decide (m.get? (base + k) = l[k]?)) = true) : m.holds base l := fun k hk => by
  have := List.all_eq_true.mp h k (List.mem_range.mpr hk)
  simpa using this

/-- A property of every element of a list, checked element by element. -/
theorem all_of {α : Type} {l : List α} {p : α → Prop} [DecidablePred p] (h : l.all (fun x => decide (p x)) = true) : ∀ x ∈ l, p x :=
  fun x hx => by simpa using List.all_eq_true.mp h x hx

theorem test_meets_DecodeOfEncode : (Instr.pkPush 16#5 0xFFFF#16).wf = true ∧ (Instr.setRoot 0xFFFFFF#24).wf = true := by decide +kernel

theorem test_meets_EncodingIsCanonical : decodeWord 0x4110FFFF#32 = .command (.pkPush 16#5 0xFFFF#16) := by decide +kernel

theorem test_meets_StepIssuesTheWord (s : State) (hs : s = { zero with inbox := [.write 0x00000000#32 0x00000000#32], err := 8#8 }) :
    s.inbox = .write 0x00000000#32 0x00000000#32 :: [] ∧ s.err ≠ 0#8 ∧ (0x00000000#32 : Word) ≠ 0x01000000#32 ∧
      decodeWord 0x01000000#32 = .command .clear ∧ decodeWord 0x01000001#32 = .illegal .nonzeroField := by
  subst hs; decide +kernel

theorem test_meets_ResetLeavesZeroAndIdles : State.reset.inbox = [] := by decide +kernel

theorem test_meets_ResetEvent : { treeState with inbox := [.reset] }.inbox = .reset :: [] := by decide +kernel

/-- In the fault state: a discarded command, a host write to each place the host writes, CLEAR and a reset. -/
theorem test_meets_FaultStateKeepsTheEvidence (tx : HostTx)
    (h : tx ∈ [HostTx.write 0x00000000#32 0x20000000#32, .write 0x00000006#32 7#32, .write 0x00000007#32 7#32, .write 0x1000000F#32 7#32,
      .write 0x20000027#32 7#32, .write 0x00000000#32 0x01000000#32, .reset]) :
    { zero with err := 8#8, inbox := [tx] }.err ≠ 0#8 ∧
      ∃ t, step { zero with err := 8#8, inbox := [tx] } = .next t := by
  refine ⟨show (8#8 : BitVec 8) ≠ 0#8 by decide, _, next_left ?_⟩
  revert tx
  decide +kernel

theorem test_meets_FaultRegistersWrittenTogether :
    Instr.freq ≠ .clear ∧ exec .freq textState = .next (left (exec .freq textState)) := ⟨by decide +kernel, next_left (by decide +kernel)⟩

theorem test_meets_FaultsOfEachCommand (i : Instr) (h : i ∈ [Instr.combine, .build, .codegen, .setRoot 0#24, .pqInsert 1#24, .parse]) :
    zero.cfg.Legal ∧ zero.err = 0#8 ∧ exec i zero = .next (left (exec i zero)) ∧ (left (exec i zero)).err ≠ 0#8 := by
  refine ⟨tiny_legal, by decide +kernel, next_left ?_, ?_⟩ <;> revert i <;> decide +kernel

/-- A container that does not fit, bits that end inside a code, a container cut short, a symbol with no code. -/
theorem test_meets_NoPartialOutputAfterAFault (p : Instr × State)
    (h : p ∈ [(Instr.serialize, { packedState with cfg := { tiny with bMax := 31 } }), (.compress, { textState with cfg := { tiny with bMax := 31 } }),
      (.decode, { packedState with pad := 1#3 }), (.decompress, withBlob (blob.take 31)), (.parse, withBlob (blob.take 31)),
      (.encode, { codesState with text := codesState.text.put 3 0x7A#32 })]) :
    p.2.err = 0#8 ∧ exec p.1 p.2 = .next (left (exec p.1 p.2)) ∧ (left (exec p.1 p.2)).err ≠ 0#8 ∧ p.2.textLen.toNat ≤ p.2.cfg.nMax := by
  refine ⟨?_, next_left ?_, ?_, ?_⟩ <;> revert p <;> decide +kernel

theorem test_meets_ConfigurationIsConstant (tx : HostTx) (h : tx ∈ [HostTx.write 0x00000018#32 9#32, .reset]) :
    step { zero with inbox := [tx] } = .next (left (step { zero with inbox := [tx] })) := by
  refine next_left ?_; revert tx; decide +kernel

theorem test_meets_FlagsAndResWriters :
    exec .pqExtract queueState = .next (left (exec .pqExtract queueState)) ∧
      (left (exec .pqExtract zero)).qe ≠ zero.qe ∧ (left (exec .upPop zero)).be ≠ zero.be ∧
      (left (exec .pqExtract queueState)).res ≠ queueState.res := ⟨next_left (by decide +kernel), by decide +kernel⟩

/-- One command that writes each memory. -/
theorem test_meets_MemoryWriters :
    (left (exec .decode packedState)).text ≠ packedState.text ∧ (left (exec .serialize packedState)).blob ≠ packedState.blob ∧
      (left (exec .freq textState)).ft ≠ textState.ft ∧ (left (exec (.pqInsert 2#24) looseState)).node ≠ looseState.node ∧
      (left (exec (.pqInsert 2#24) looseState)).heap ≠ looseState.heap ∧ (left (exec .codegen treeState)).ct ≠ treeState.ct ∧
      (left (exec (.pkPush 16#5 0#16) zero)).pk ≠ zero.pk := by decide +kernel

theorem tree_shape : holdsShape treeState.node (.node 5 (.leaf 2) (.node 4 (.leaf 3) (.leaf 1))) :=
  ⟨_, _, _, rfl, rfl, rfl, rfl, rfl, rfl, rfl, rfl, rfl, rfl, ⟨_, rfl, rfl, rfl, rfl⟩, _, _, _, rfl, rfl, rfl, rfl, rfl, rfl, rfl,
    rfl, rfl, rfl, ⟨_, rfl, rfl, rfl, rfl⟩, _, rfl, rfl, rfl, rfl⟩

theorem tree_grove : Grove tiny treeState.node 5 [] [.node 5 (.leaf 2) (.node 4 (.leaf 3) (.leaf 1))] where
  ids := by decide +kernel
  shapes := by simpa using tree_shape
  roots := by decide +kernel
  queued := by simp
  total := by decide +kernel
  bounded := by decide +kernel
  leaves := by decide +kernel

/-- A sound state with a table, a tree and its codes. -/
theorem codes_sound : codesState.sound := by
  refine ⟨by unfold State.countsOk; decide +kernel, ⟨table, ⟨by decide +kernel, holds_of (by decide +kernel)⟩, by unfold tableOk; decide +kernel⟩,
    ⟨[], _, ⟨rfl, by decide +kernel, Memory.holds_nil _ _, List.nodup_nil, ?_, by simp⟩, tree_grove⟩, .inr ⟨by decide +kernel, by decide +kernel, by decide +kernel⟩,
    fun _ => ⟨tree, tree_live, rfl, holds_of (by decide +kernel)⟩, fun h => absurd rfl h, by decide +kernel⟩
  exact fun _ _ h => absurd h (Nat.not_lt_zero _)

theorem codes_legal : codesState.leavesLegal := by
  intro id x h1 h2 hx hl
  have : id ∈ [1, 2, 3, 4, 5] := by
    have : id ≤ 5 := h2
    simp; omega
  fin_cases this <;> cases hx <;> decide +kernel

theorem test_meets_EveryCommandCompletes :
    Instr.decompress ∉ [Instr.codegen, .serialize, .compress] ∧ codesState.cfg.Legal ∧ codesState.sound :=
  ⟨by decide +kernel, tiny_legal, codes_sound⟩

theorem test_meets_HostReadAnswers (s : State) (hs : s = { zero with inbox := [.read 0x4000001F#32] }) :
    s.inbox = .read 0x4000001F#32 :: [] ∧ hostReadable s.cfg 0x4000001F#32 ∧ ¬ hostReadable s.cfg 0x80000000#32 := by
  subst hs
  refine ⟨rfl, ⟨4, 31, by decide +kernel, by decide +kernel, by decide +kernel⟩, ?_⟩
  rintro ⟨space, offset, e, h1, h2⟩
  rw [show (0x80000000#32).toNat = 2147483648 from rfl] at e
  omega

theorem test_meets_HostViewOfRegisters : ((0x1B, BitVec.ofNat 32 zero.cfg.bMax) : Nat × Word) ∈
      [(0x00, 0#32), (0x1B, BitVec.ofNat 32 zero.cfg.bMax)] ∧
    { zero with inbox := [.read (portAddr 0#4 0x1B)] }.inbox = .read (portAddr 0#4 0x1B) :: [] := by decide +kernel

/-- A last element of each memory. -/
theorem test_meets_HostViewOfMemories :
    zero.cfg.Legal ∧ (15 < tiny.nMax ∧ (listed 15 [7#32]).get? 15 = some 7#32) ∧ (39 < tiny.bMax ∧ (listed 39 [7#8]).get? 39 = some 7#8) ∧
      (3 < tiny.kMax ∧ (listed 3 [table.getD 0 ⟨0#21, 0#32⟩]).get? 3 = some ⟨0x61#21, 2#32⟩) ∧
      (7 ≤ tiny.nodeMax ∧ (listed 7 [innerNode stChild 5#32 1#24 2#24]).get? 7 = some (innerNode stChild 5#32 1#24 2#24)) ∧
      (listed 3 [7#24]).get? 3 = some 7#24 ∧ (codesState.ct.get? 2 = some ⟨0x61#21, 2#24, [true, true]⟩ ∧ 0 + 2 < tiny.ctStride) ∧
      (1 < tiny.pMax ∧ (listed 1 [7#8]).get? 1 = some 7#8) ∧
      { zero with inbox := [.read (portAddr 7#4 1)] }.inbox = .read (portAddr 7#4 1) :: [] := by
  refine ⟨tiny_legal, ?_⟩; decide +kernel

theorem test_meets_HostWriteAnswers (s : State) (hs : s = { zero with inbox := [.write 0x2000001F#32 7#32] }) :
    s.inbox = .write 0x2000001F#32 7#32 :: [] ∧ ¬ hostWritable s.cfg 0x00000001#32 ∧ (0x00000006#32 : Word) = portAddr 0#4 0x06 ∧
      (0x00000007#32 : Word) = portAddr 0#4 0x07 ∧ (15 < s.cfg.nMax ∧ (0x1000000F#32 : Word) = portAddr 1#4 15) ∧
      (31 < s.cfg.bMax ∧ (0x2000001F#32 : Word) = portAddr 2#4 31) := by
  subst hs
  refine ⟨rfl, ?_, by decide +kernel, by decide +kernel, by decide +kernel, by decide +kernel⟩
  rintro ⟨space, offset, e, h1, h2⟩
  rw [show (0x00000001#32).toNat = 1 from rfl] at e
  omega

theorem loose_arena : looseState.arena looseNodes := ⟨by decide +kernel, by decide +kernel, holds_of (by decide +kernel)⟩

theorem loose_queue : looseState.queue [1#24] :=
  ⟨by decide +kernel, by decide +kernel, holds_of (by decide +kernel), by decide +kernel, fun i h1 h2 => by simp at h2; omega, all_of (by decide +kernel)⟩

theorem queue_arena : queueState.arena queued := ⟨by decide +kernel, by decide +kernel, holds_of (by decide +kernel)⟩

theorem queue_queue : queueState.queue [3#24, 2#24, 1#24] := by
  refine ⟨by decide +kernel, by decide +kernel, holds_of (by decide +kernel), by decide +kernel, fun i h1 h2 => ?_, all_of (by decide +kernel)⟩
  have : i ∈ [1, 2] := by simp at h2 ⊢; omega
  fin_cases this <;> decide +kernel

theorem test_meets_PqInsertQueuesTheNode :
    looseState.cfg.Legal ∧ looseState.arena looseNodes ∧ looseState.queue [1#24] ∧ [1#24].length < looseState.cfg.kMax ∧
      1 ≤ (2#24).toNat ∧ (2#24).toNat ≤ looseState.nodeCnt.toNat ∧
      looseState.node.get? (2#24).toNat = some (leafNode stDetached 0x62#21 2#32) ∧ 2#24 ≠ looseState.root ∧ 2#24 ∉ [1#24] :=
  ⟨tiny_legal, loose_arena, loose_queue, by decide +kernel⟩

/-- A node that is not allocated, one that is queued, the live root, a full queue. -/
theorem test_meets_PqInsertFaults :
    (looseState.nodeCnt.toNat < (3#24).toNat) ∧
      (looseState.node.get? (1#24).toNat = some (leafNode stQueued 0x61#21 2#32) ∧ stQueued ≠ stDetached) ∧
      (treeState.node.get? treeState.root.toNat = some (innerNode stDetached 5#32 2#24 4#24) ∧ treeState.root ≠ 0#24) ∧
      (2#24 ≠ looseState.root ∧ (2#24).toNat ≤ looseState.nodeCnt.toNat ∧
        looseState.node.get? (2#24).toNat = some (leafNode stDetached 0x62#21 2#32) ∧
        { looseState with pqCnt := 4#32 }.pqCnt.toNat = looseState.cfg.kMax) := by decide +kernel

theorem test_meets_PqExtractTakesTheMinimum :
    zero.pqCnt = 0#32 ∧ queueState.cfg.Legal ∧ queueState.arena queued ∧ queueState.queue [3#24, 2#24, 1#24] ∧ [3#24, 2#24, 1#24] ≠ [] :=
  ⟨by decide +kernel, tiny_legal, queue_arena, queue_queue, by decide +kernel⟩

def aabbc : List Symbol := [0x61#21, 0x61#21, 0x62#21, 0x62#21, 0x63#21]

theorem text_held : textState.holdsText aabbc := ⟨by decide +kernel, by decide +kernel, holds_of (by decide +kernel), all_of (by decide +kernel)⟩

/-- Four distinct symbols, as many as K_MAX. -/
def four : List Symbol := [0x61#21, 0x10FFFF#21, 0x63#21, 0x00#21]

def fourState (v : Word) : State :=
  { zero with textLen := 5#32, text := listed 0 (four.map (·.setWidth 32) ++ [v]) }

theorem test_meets_FreqCountsTheText :
    (textState.cfg.Legal ∧ textState.holdsText aabbc ∧ (firstSeen aabbc).length ≤ textState.cfg.kMax) ∧
      { fourState 0#32 with textLen := 4#32 }.holdsText four ∧ (firstSeen four).length = tiny.kMax :=
  ⟨⟨tiny_legal, text_held, by decide +kernel⟩, ⟨by decide +kernel, by decide +kernel, holds_of (by decide +kernel), all_of (by decide +kernel)⟩, by decide +kernel⟩

theorem test_meets_FreqFaults :
    { zero with textLen := 17#32 }.cfg.nMax < { zero with textLen := 17#32 }.textLen.toNat ∧ (fourState 0x110000#32).cfg.Legal ∧
      four.length < (fourState 0x110000#32).textLen.toNat ∧ (fourState 0x110000#32).textLen.toNat ≤ (fourState 0x110000#32).cfg.nMax ∧
      (fourState 0x110000#32).text.holds 0 (four.map (·.setWidth 32)) ∧ (∀ x ∈ four, x.toNat ≤ symMax) ∧
      (fourState 0x110000#32).text.get? four.length = some 0x110000#32 ∧ symMax < (0x110000#32).toNat ∧
      (fourState 0x62#32).text.holds 0 (four.map (·.setWidth 32)) ∧ (fourState 0x62#32).text.get? four.length = some 0x62#32 ∧
      (∀ x ∈ four, x.setWidth 32 ≠ 0x62#32) ∧ (firstSeen four).length = (fourState 0x62#32).cfg.kMax :=
  ⟨by decide +kernel, tiny_legal, by decide +kernel, by decide +kernel, holds_of (by decide +kernel), all_of (by decide +kernel),
    by decide +kernel, by decide +kernel, holds_of (by decide +kernel), by decide +kernel, all_of (by decide +kernel), by decide +kernel⟩

theorem table_held : tableState.holdsTable table := ⟨by decide +kernel, holds_of (by decide +kernel)⟩

theorem test_meets_LeavesQueueTheTable :
    tableState.cfg.Legal ∧ tableState.holdsTable table ∧ table.length ≤ tableState.cfg.kMax := ⟨tiny_legal, table_held, by decide +kernel⟩

theorem test_meets_CombineJoinsTheTwoLightest :
    queueState.cfg.Legal ∧ queueState.arena queued ∧ queueState.queue [3#24, 2#24, 1#24] ∧ 2 ≤ [3#24, 2#24, 1#24].length ∧
      queued.length < queueState.cfg.nodeMax := ⟨tiny_legal, queue_arena, queue_queue, by decide +kernel, by decide +kernel⟩

theorem test_meets_NothingToWorkOn :
    looseState.pqCnt.toNat < 2 ∧ (2 ≤ queueState.pqCnt.toNat ∧ { queueState with nodeCnt := 7#32 }.nodeCnt.toNat = queueState.cfg.nodeMax) ∧
      zero.ftCnt = 0#32 ∧ zero.root = 0#24 := by decide +kernel

theorem test_meets_BuildMakesOneTree :
    tableState.cfg.Legal ∧ tableState.holdsTable table ∧ table ≠ [] ∧ table.length ≤ tableState.cfg.kMax ∧
      (table.map (·.cnt.toNat)).sum ≤ tableState.cfg.nMax := ⟨tiny_legal, table_held, by decide +kernel, by decide +kernel, by decide +kernel⟩

theorem test_meets_BuildStepByStep :
    tableState.cfg.Legal ∧ tableState.err = 0#8 ∧ tableState.holdsTable table ∧ table ≠ [] ∧ table.length ≤ tableState.cfg.kMax ∧
      exec .build tableState = .next (left (exec .build tableState)) :=
  ⟨tiny_legal, rfl, table_held, by decide +kernel, by decide +kernel, next_left (by decide +kernel)⟩

theorem test_meets_SetRootNamesADetachedNode :
    looseState.nodeCnt.toNat < (3#24).toNat ∧ looseState.node.get? (1#24).toNat = some (leafNode stQueued 0x61#21 2#32) ∧
      looseState.node.get? (2#24).toNat = some (leafNode stDetached 0x62#21 2#32) ∧ (2#24).toNat ≤ looseState.nodeCnt.toNat := by decide +kernel

theorem test_meets_CodegenListsTheCodes :
    treeState.cfg.Legal ∧ treeState.liveTree tree ∧ tree.leaves.length ≤ treeState.cfg.kMax ∧ bareState.liveTree (.leaf 0x7A#21) :=
  ⟨tiny_legal, tree_live, by decide +kernel, bare_live⟩

theorem test_meets_NoCodeIsAPrefixOfAnother :
    treeState.liveTree tree ∧ tree.leaves.length ≤ treeState.cfg.kMax ∧ tree.leaves.Nodup ∧
      exec .codegen treeState = .next (left (exec .codegen treeState)) ∧ 2 < (left (exec .codegen treeState)).ctCnt.toNat ∧
      (left (exec .codegen treeState)).ct.get? 0 = some ⟨0x62#21, 1#24, [false]⟩ ∧
      (left (exec .codegen treeState)).ct.get? 2 = some ⟨0x61#21, 2#24, [true, true]⟩ :=
  ⟨tree_live, by decide +kernel, by decide +kernel, next_left (by decide +kernel), by decide +kernel⟩

def aabbcBits : BitString := [true, true, true, true, false, false, true, false]

theorem codes_held : codesState.holdsCodes (codeTable tree) := ⟨by decide +kernel, holds_of (by decide +kernel)⟩

theorem test_meets_EncodePacksTheCodes :
    codesState.cfg.Legal ∧ codesState.holdsCodes (codeTable tree) ∧ codesState.textLen.toNat = aabbc.length ∧
      aabbc.length ≤ codesState.cfg.nMax ∧ codesState.text.holds 0 (aabbc.map (·.setWidth 32)) ∧
      textBits (codeTable tree) aabbc = some aabbcBits ∧ (aabbcBits.length + 7) / 8 ≤ codesState.cfg.pMax :=
  ⟨tiny_legal, codes_held, by decide +kernel, by decide +kernel, holds_of (by decide +kernel), by decide +kernel, by decide +kernel⟩

/-- A length above N_MAX, a symbol with no code after "aab", a text of 17 bits for 2 bytes, and 24 bits before a symbol with no
code. -/
theorem test_meets_EncodeFaults (l : List CtEntry) (hl : l = codeTable tree) (s : State)
    (hs : s = { codesState with text := codesState.text.put 3 0x7A#32 }) (txt : List Symbol)
    (htxt : txt = List.replicate 8 0x61#21 ++ [0x62#21]) (u : State)
    (hu : u = { codesState with textLen := 9#32, text := listed 0 (txt.map (·.setWidth 32)) }) (as : List Symbol)
    (has : as = List.replicate 12 0x61#21) (n : State)
    (hn : n = { codesState with textLen := 13#32, text := listed 0 (as.map (·.setWidth 32) ++ [0x7A#32]) }) :
    { codesState with textLen := 17#32 }.cfg.nMax < { codesState with textLen := 17#32 }.textLen.toNat ∧
      (s.cfg.Legal ∧ s.holdsCodes l ∧ (aabbc.take 3).length < s.textLen.toNat ∧ s.textLen.toNat ≤ s.cfg.nMax ∧
        s.text.holds 0 ((aabbc.take 3).map (·.setWidth 32)) ∧ s.text.get? (aabbc.take 3).length = some 0x7A#32 ∧
        textBits l (aabbc.take 3) = some (aabbcBits.take 5) ∧ (∀ e ∈ l, e.sym.setWidth 32 ≠ 0x7A#32) ∧
        (aabbcBits.take 5).length / 8 ≤ s.cfg.pMax) ∧
      (u.holdsCodes l ∧ txt.length = u.textLen.toNat ∧ u.textLen.toNat ≤ u.cfg.nMax ∧ u.text.holds 0 (txt.map (·.setWidth 32)) ∧
        textBits l txt = some (List.replicate 16 true ++ [false]) ∧
        u.cfg.pMax < ((List.replicate 16 true ++ [false]).length + 7) / 8) ∧
      n.holdsCodes l ∧ as.length ≤ n.textLen.toNat ∧ n.textLen.toNat ≤ n.cfg.nMax ∧ n.text.holds 0 (as.map (·.setWidth 32)) ∧
      textBits l as = some (List.replicate 24 true) ∧ 8 * n.cfg.pMax + 7 < (List.replicate 24 true).length := by
  subst hl hs htxt hu has hn
  refine ⟨by decide +kernel, ⟨tiny_legal, codes_held, by decide +kernel, by decide +kernel, holds_of (by decide +kernel), by decide +kernel, by decide +kernel, by decide +kernel, by decide +kernel⟩,
    ⟨codes_held, by decide +kernel, by decide +kernel, holds_of (by decide +kernel), by decide +kernel, by decide +kernel⟩,
    codes_held, by decide +kernel, by decide +kernel, holds_of (by decide +kernel), by decide +kernel, by decide +kernel⟩

/-- Five bits staged. -/
def stagedState : State := { zero with stgBits := 0x16#8, stgCnt := 5#3 }

theorem staged : stagedState.packs [true, false, true, true, false] := ⟨by decide +kernel, by decide +kernel, Memory.holds_nil _ _, by decide +kernel, by decide +kernel⟩

theorem test_meets_PkPushAppendsTheBits :
    stagedState.cfg.Legal ∧ stagedState.packs [true, false, true, true, false] ∧
      ((16#5).toNat = (List.replicate 16 true).length ∧ (0xFFFF#16).toNat = bitsValue (List.replicate 16 true) ∧
        (5 + 16) / 8 ≤ stagedState.cfg.pMax) ∧ (1#5).toNat = [true].length ∧ (1#16).toNat = bitsValue [true] :=
  ⟨tiny_legal, staged, by decide +kernel, by decide +kernel, by decide +kernel⟩

theorem test_meets_PkFlushClosesTheString :
    stagedState.cfg.Legal ∧ stagedState.packs [true, false, true, true, false] ∧ (5 + 7) / 8 ≤ stagedState.cfg.pMax ∧
      zero.packs [] ∧ (0 + 7) / 8 ≤ zero.cfg.pMax :=
  ⟨tiny_legal, staged, by decide +kernel, ⟨by decide +kernel, by decide +kernel, Memory.holds_nil _ _, by decide +kernel, by decide +kernel⟩, by decide +kernel⟩

/-- Padding, and a string of 8 P_MAX + 7 bits, which takes no further bit and cannot be closed. -/
theorem test_meets_PackerFaults (s : State) (hs : s = { zero with pkLen := 2#32, pk := listed 0 [0x00#8, 0x00#8], stgCnt := 7#3 })
    (bs : BitString) (hb : bs = List.replicate 23 false) :
    { packedState with pad := 7#3 }.pad ≠ 0#3 ∧
      (s.cfg.Legal ∧ s.packs bs ∧ (1#5).toNat = [true].length ∧ (1#16).toNat = bitsValue [true] ∧ bs.length ≤ 8 * s.cfg.pMax + 7 ∧
        8 * s.cfg.pMax + 7 < bs.length + [true].length) ∧ bs.length / 8 = s.cfg.pMax ∧ bs.length % 8 ≠ 0 := by
  subst hs hb
  exact ⟨by decide +kernel, ⟨tiny_legal, ⟨by decide +kernel, by decide +kernel, holds_of (by decide +kernel), by decide +kernel, by decide +kernel⟩, by decide +kernel, by decide +kernel, by decide +kernel, by decide +kernel⟩,
    by decide +kernel, by decide +kernel⟩

theorem test_meets_UpPopTakesTheNextBit (s : State) (hs : s = { packedState with upBit := 7#3 }) :
    8 * zero.pkLen.toNat - zero.pad.toNat ≤ 8 * zero.upByte.toNat + zero.upBit.toNat ∧
      8 * s.upByte.toNat + s.upBit.toNat < 8 * s.pkLen.toNat - s.pad.toNat ∧ s.pk.get? s.upByte.toNat = some 0xF2#8 := by
  subst hs; decide +kernel

theorem packed_held : packedState.holdsPacked [0xF2#8] 0 := ⟨by decide +kernel, holds_of (by decide +kernel), rfl, fun h => absurd rfl h⟩

theorem test_meets_UpPopReadsTheUnpackedString (s : State) (hs : s = { packedState with upBit := 7#3 }) :
    s.cfg.Legal ∧ s.holdsPacked [0xF2#8] 0 ∧ [0xF2#8].length ≤ s.cfg.pMax ∧ 8 * s.upByte.toNat + s.upBit.toNat = 7 ∧
      7 < (unpackBits [0xF2#8] 0).length := by
  subst hs; exact ⟨tiny_legal, packed_held, by decide +kernel, by decide +kernel, by decide +kernel⟩

def aabbcCodes : List (Symbol × BitString) :=
  [(0x61#21, [true, true]), (0x61#21, [true, true]), (0x62#21, [false]), (0x62#21, [false]), (0x63#21, [true, false])]

theorem test_meets_DecodeWritesTheText :
    (packedState.cfg.Legal ∧ packedState.liveTree tree ∧ packedState.holdsPacked [0xF2#8] 0 ∧ [0xF2#8].length ≤ packedState.cfg.pMax ∧
      (∀ p ∈ aabbcCodes, p ∈ tree.codes) ∧ unpackBits [0xF2#8] 0 = (spelled aabbcCodes).2 ∧
      packedState.origLen.toNat = aabbcCodes.length ∧ aabbcCodes.length ≤ packedState.cfg.nMax) ∧
      zero.pkLen = 0#32 ∧ zero.origLen = 0#32 :=
  ⟨⟨tiny_legal, tree_live, packed_held, by decide +kernel, all_of (by decide +kernel), by decide +kernel, by decide +kernel,
    by decide +kernel⟩, by decide +kernel⟩

/-- Bits that end inside a code; fewer and more symbols than ORIG_LEN; a 1 bit for a bare leaf; one symbol more than N_MAX; bits and
no tree. -/
theorem test_meets_DecodeFaults (s : State) (hs : s = { packedState with pad := 1#3 }) (b : State)
    (hb : b = { bareState with pkLen := 1#32, pk := [(0, 0x40#8)], pad := 4#3 }) (c : State)
    (hc : c = { bareState with cfg := { tiny with nMax := 3 }, pkLen := 1#32, pk := [(0, 0x00#8)], pad := 4#3 }) (n : State)
    (hn : n = { packedState with root := 0#24 }) :
    (s.holdsPacked [0xF2#8] 1 ∧ unpackBits [0xF2#8] 1 = (spelled (aabbcCodes.take 4)).2 ++ [true] ∧
        (∃ q ∈ tree.codes, [true] <+: q.2 ∧ [true] ≠ q.2)) ∧
      (unpackBits [0xF2#8] 0 = (spelled aabbcCodes).2 ++ [] ∧ aabbcCodes.length < { packedState with origLen := 6#32 }.origLen.toNat ∧
        { packedState with origLen := 4#32 }.origLen.toNat < aabbcCodes.length) ∧
      (b.liveTree (.leaf 0x7A#21) ∧ b.holdsPacked [0x40#8] 4 ∧
        unpackBits [0x40#8] 4 = (spelled [((0x7A#21 : Symbol), [false])]).2 ++ [true, false, false]) ∧
      (c.cfg.Legal ∧ c.liveTree (.leaf 0x7A#21) ∧ c.holdsPacked [0x00#8] 4 ∧
        (List.replicate 4 ((0x7A#21 : Symbol), [false])).length = c.cfg.nMax + 1 ∧
        unpackBits [0x00#8] 4 = (spelled (List.replicate 4 ((0x7A#21 : Symbol), [false]))).2 ++ []) ∧
      n.holdsPacked [0xF2#8] 0 ∧ n.root = 0#24 ∧ 0 < 8 * [0xF2#8].length - 0 := by
  subst hs hb hc hn
  exact ⟨⟨⟨by decide +kernel, holds_of (by decide +kernel), rfl, by decide +kernel⟩, by decide +kernel, (0x63#21, [true, false]), by decide +kernel, by decide +kernel, by decide +kernel⟩, by decide +kernel,
    ⟨bare_live, ⟨by decide +kernel, holds_of (by decide +kernel), rfl, by decide +kernel⟩, by decide +kernel⟩,
    ⟨by decide +kernel, bare_live, ⟨by decide +kernel, holds_of (by decide +kernel), rfl, by decide +kernel⟩, by decide +kernel, by decide +kernel⟩,
    ⟨by decide +kernel, holds_of (by decide +kernel), rfl, fun h => absurd rfl h⟩, by decide +kernel, by decide +kernel⟩

theorem test_meets_SerializeWritesTheContainer :
    (packedState.cfg.Legal ∧ packedState.stgCnt = 0#3 ∧ packedState.liveTree tree ∧ tree.leaves.length ≤ packedState.cfg.kMax ∧
      packedState.holdsPacked [0xF2#8] 0 ∧ 17 + tree.snapshot.length + [0xF2#8].length ≤ packedState.cfg.bMax) ∧
      zero.stgCnt = 0#3 ∧ zero.root = 0#24 ∧ zero.pkLen = 0#32 ∧ zero.origLen = 0#32 ∧ zero.pad = 0#3 :=
  ⟨⟨tiny_legal, by decide +kernel, tree_live, by decide +kernel, packed_held, by decide +kernel⟩, by decide +kernel⟩

theorem test_meets_SerializeFaults (s : State) (hs : s = { packedState with cfg := { tiny with bMax := 31 } }) :
    stagedState.stgCnt ≠ 0#3 ∧ ({ zero with origLen := 1#32 }.root = 0#24 ∧ { zero with origLen := 1#32 }.origLen ≠ 0#32) ∧ s.cfg.Legal ∧
      s.stgCnt = 0#3 ∧ s.liveTree tree ∧ tree.leaves.length ≤ s.cfg.kMax ∧ s.holdsPacked [0xF2#8] 0 ∧
      s.cfg.bMax < 17 + tree.snapshot.length + [0xF2#8].length := by
  subst hs
  exact ⟨by decide +kernel, by decide +kernel, by decide +kernel, by decide +kernel, tree_live, by decide +kernel, packed_held, by decide +kernel⟩

theorem blob_is : containerBytes 5 0 (some tree) [0xF2#8] = blob := by decide +kernel

theorem blob_held : (withBlob blob).holdsBlob blob := ⟨by decide +kernel, by decide +kernel, holds_of (by decide +kernel)⟩

theorem empty_held : (withBlob emptyBlob).holdsBlob (containerBytes 0 0 none []) := ⟨by decide +kernel, by decide +kernel, holds_of (by decide +kernel)⟩

theorem test_meets_ParseLoadsTheContainer :
    ((withBlob blob).cfg.Legal ∧ (withBlob blob).holdsBlob (containerBytes 5 0 (some tree) [0xF2#8]) ∧ [0xF2#8].length ≤ tiny.pMax ∧
      tree.leaves.length ≤ tiny.kMax ∧ (∀ x ∈ tree.leaves, x.toNat ≤ symMax)) ∧
      (withBlob emptyBlob).holdsBlob (containerBytes 0 0 none []) :=
  ⟨⟨tiny_legal, by rw [blob_is]; exact blob_held, by decide +kernel, by decide +kernel, all_of (by decide +kernel)⟩, empty_held⟩

/-- A length above B_MAX, one below 17, a wrong third byte, and each field check. -/
theorem test_meets_ParseFieldFaults :
    { zero with blobLen := 41#32 }.cfg.bMax < { zero with blobLen := 41#32 }.blobLen.toNat ∧
      { zero with blobLen := 16#32 }.blobLen.toNat < 17 ∧
      ((withBlob (blob.set 2 0x47#8)).holdsBlob (blob.set 2 0x47#8) ∧ 17 ≤ (blob.set 2 0x47#8).length ∧
        (blob.set 2 0x47#8).take 2 = [0x48#8, 0x55#8] ∧ (blob.set 2 0x47#8)[2]? = some 0x47#8) ∧
      ((withBlob (blob.take 31)).holdsBlob (headerBytes 5 0 14 1 ++ (blob.take 31).drop 17) ∧ ((blob.take 31).drop 17).length = 14 ∧
        headerFault tiny 5 0 14 1 (17 + 14) = some (3, 13)) ∧
      headerFault tiny 0 8 0 0 17 = some (1, 8) ∧ headerFault tiny 0 0 1 0 17 = some (1, 9) ∧
      headerFault tiny 0 0 0 0 18 = some (1, 17) ∧ headerFault tiny 0 1 0 0 17 = some (1, 8) ∧
      headerFault tiny 1 0 0 0 17 = some (1, 9) ∧ headerFault tiny 1 0 4 3 24 = some (5, 7) :=
  ⟨by decide +kernel, by decide +kernel, ⟨⟨by decide +kernel, by decide +kernel, holds_of (by decide +kernel)⟩, by decide +kernel, by decide +kernel, by decide +kernel⟩,
    ⟨⟨by decide +kernel, by decide +kernel, holds_of (by decide +kernel)⟩, by decide +kernel, by decide +kernel⟩, by decide +kernel, by decide +kernel, by decide +kernel, by decide +kernel, by decide +kernel, by decide +kernel⟩

/-- The blob with these records, this rest and no payload. -/
def snapBlob (recs : List (Option Symbol)) (rest : List Byte) : List Byte :=
  headerBytes 0 0 ((recs.flatMap recordBytes).length + rest.length) 0 ++ recs.flatMap recordBytes ++ rest ++ []

def snapOk (c : Config) (recs : List (Option Symbol)) (rest : List Byte) (os : List Bool) : Prop :=
  headerFault c 0 0 ((recs.flatMap recordBytes).length + rest.length) 0 (17 + ((recs.flatMap recordBytes).length + rest.length) + 0) = none ∧
    0 < (recs.flatMap recordBytes).length + rest.length ∧ openAfter c.kMax [true] recs = some os ∧
    recs.length ≤ c.nodeMax

theorem snap_held {recs : List (Option Symbol)} {rest : List Byte} (h : (snapBlob recs rest).length ≤ 40)
    (hm : (List.range (snapBlob recs rest).length).all (fun k =>
      decide ((withBlob (snapBlob recs rest)).blob.get? (0 + k) = (snapBlob recs rest)[k]?)) = true) :
    (withBlob (snapBlob recs rest)).holdsBlob (snapBlob recs rest) := by
  refine ⟨?_, h, holds_of hm⟩
  show (BitVec.ofNat 32 _).toNat = _
  rw [BitVec.toNat_ofNat, Nat.mod_eq_of_lt (by omega)]

/-- Each way a snapshot is refused, at its record: in turn the end, an unknown tag, a leaf cut short, no symbol, bytes left over,
a record too many, an open node too many after none, and after more internal records than K_MAX. -/
theorem test_meets_ParseTreeFaults :
    (snapOk tiny [none] [] [false] ∧ (withBlob (snapBlob [none] [])).holdsBlob (snapBlob [none] [])) ∧
      (snapOk tiny [none] [0x02#8] [false] ∧ (withBlob (snapBlob [none] [0x02#8])).holdsBlob (snapBlob [none] [0x02#8])) ∧
      (snapOk tiny [none] [0x01#8, 0x00#8, 0x00#8] [false] ∧
        (withBlob (snapBlob [none] [0x01#8, 0x00#8, 0x00#8])).holdsBlob (snapBlob [none] [0x01#8, 0x00#8, 0x00#8])) ∧
      (snapOk tiny [] [0x01#8, 0x11#8, 0x00#8, 0x00#8] [true] ∧ symMax < 0x11 * 2 ^ 16 ∧
        (withBlob (snapBlob [] [0x01#8, 0x11#8, 0x00#8, 0x00#8])).holdsBlob (snapBlob [] [0x01#8, 0x11#8, 0x00#8, 0x00#8])) ∧
      (snapOk tiny [some 0x61#21] [0x00#8] [] ∧ (withBlob (snapBlob [some 0x61#21] [0x00#8])).holdsBlob (snapBlob [some 0x61#21] [0x00#8])) ∧
      (snapOk tiny [none, some 0#21, none, some 0#21, none, some 0#21, none] [0x01#8, 0x00#8, 0x00#8, 0x00#8] [false] ∧
        [none, some (0#21 : Symbol), none, some 0#21, none, some 0#21, none].length = tiny.nodeMax ∧
        [0x01#8, 0x00#8, 0x00#8, 0x00#8] = recordBytes (some 0#21) ++ [] ∧
        (withBlob (snapBlob [none, some 0#21, none, some 0#21, none, some 0#21, none] [0x01#8, 0x00#8, 0x00#8, 0x00#8])).holdsBlob
          (snapBlob [none, some 0#21, none, some 0#21, none, some 0#21, none] [0x01#8, 0x00#8, 0x00#8, 0x00#8])) ∧
      (snapOk tiny (List.replicate 4 none) [0x00#8] [false, true, true, true] ∧ (childGiven [false, true, true, true]).length = tiny.kMax ∧
        4 < tiny.nodeMax ∧ (withBlob (snapBlob (List.replicate 4 none) [0x00#8])).holdsBlob (snapBlob (List.replicate 4 none) [0x00#8])) ∧
      (snapOk tiny [none, some 0#21, none, none, none, none] [0x00#8] [false, true, true, true] ∧
        [none, some (0#21 : Symbol), none, none, none, none].length < tiny.nodeMax ∧
        (withBlob (snapBlob [none, some 0#21, none, none, none, none] [0x00#8])).holdsBlob
          (snapBlob [none, some 0#21, none, none, none, none] [0x00#8])) :=
  ⟨⟨by unfold snapOk; decide +kernel, snap_held (by decide +kernel) (by decide +kernel)⟩, ⟨by unfold snapOk; decide +kernel, snap_held (by decide +kernel) (by decide +kernel)⟩,
    ⟨by unfold snapOk; decide +kernel, snap_held (by decide +kernel) (by decide +kernel)⟩, ⟨by unfold snapOk; decide +kernel, by decide +kernel, snap_held (by decide +kernel) (by decide +kernel)⟩,
    ⟨by unfold snapOk; decide +kernel, snap_held (by decide +kernel) (by decide +kernel)⟩,
    ⟨by unfold snapOk; decide +kernel, by decide +kernel, by decide +kernel, snap_held (by decide +kernel) (by decide +kernel)⟩,
    ⟨by unfold snapOk; decide +kernel, by decide +kernel, by decide +kernel, snap_held (by decide +kernel) (by decide +kernel)⟩,
    by unfold snapOk; decide +kernel, by decide +kernel, snap_held (by decide +kernel) (by decide +kernel)⟩

theorem test_meets_ParseAcceptsOnlyContainers :
    (withBlob blob).cfg.Legal ∧ (withBlob blob).err = 0#8 ∧ (withBlob blob).holdsBlob blob ∧
      exec .parse (withBlob blob) = .next (left (exec .parse (withBlob blob))) ∧ (left (exec .parse (withBlob blob))).err = 0#8 :=
  ⟨tiny_legal, rfl, blob_held, next_left (by decide +kernel), by decide +kernel⟩

theorem packed_sound : packedState.sound := by
  obtain ⟨_, h2, h3, h4, _, _⟩ := codes_sound
  exact ⟨by unfold State.countsOk; decide +kernel, h2, h3, h4, fun h => absurd rfl h, fun h => absurd rfl h, by decide +kernel⟩

theorem packed_written : packedState.payloadWritten := fun k hk => by
  have : k < 1 := hk
  obtain rfl : k = 0 := by omega
  exact ⟨_, rfl⟩

theorem serialize_left : (left (exec .serialize packedState)).blob = (withBlob blob).blob ∧
    (left (exec .serialize packedState)).blobLen = (withBlob blob).blobLen ∧ (left (exec .serialize packedState)).err = 0#8 ∧
    (left (exec .serialize packedState)).cfg = (withBlob blob).cfg := by decide +kernel

theorem test_meets_ContainerRoundTrip (t : State) (ht : t = left (exec .serialize packedState)) :
    (packedState.cfg.Legal ∧ packedState.err = 0#8 ∧ packedState.sound ∧ packedState.leavesLegal ∧ packedState.payloadWritten ∧
      exec .serialize packedState = .next t ∧ t.err = 0#8 ∧ (withBlob blob).cfg = t.cfg ∧ (withBlob blob).err = 0#8 ∧
      (withBlob blob).blobLen = t.blobLen ∧ ∀ k, k < t.blobLen.toNat → (withBlob blob).blob.get? k = t.blob.get? k) ∧
      (withBlob blob).holdsBlob blob ∧ exec .parse (withBlob blob) = .next (left (exec .parse (withBlob blob))) ∧
      (left (exec .parse (withBlob blob))).err = 0#8 := by
  have e := serialize_left
  rw [← ht] at e
  have hn : exec .serialize packedState = .next t := by rw [ht]; exact next_left (by decide +kernel)
  refine ⟨⟨tiny_legal, rfl, packed_sound, codes_legal, packed_written, hn, e.2.2.1, e.2.2.2.symm, rfl, e.2.1.symm, fun k _ => by rw [e.1]⟩,
    blob_held, next_left (by decide +kernel), by decide +kernel⟩

theorem test_meets_CompressRunsTheStages :
    zero.err = 0#8 ∧ { zero with textLen := 17#32 }.cfg.nMax < { zero with textLen := 17#32 }.textLen.toNat ∧ zero.textLen = 0#32 ∧
      inTurn [.serialize] { zero.workZero with blobLen := 0#32 } = .next (left (inTurn [.serialize] { zero.workZero with blobLen := 0#32 })) ∧
      textState.textLen ≠ 0#32 ∧ textState.textLen.toNat ≤ textState.cfg.nMax ∧
      inTurn [.freq, .build, .codegen, .encode, .serialize] { textState.workZero with blobLen := 0#32 } =
        .next (left (inTurn [.freq, .build, .codegen, .encode, .serialize] { textState.workZero with blobLen := 0#32 })) :=
  ⟨rfl, by decide +kernel, rfl, next_left (by decide +kernel), by decide +kernel, by decide +kernel, next_left (by decide +kernel)⟩

/-- The same text in three configurations: it fits, its container does not, and eight equal symbols with a PK of no spare byte. -/
theorem test_meets_CompressMakesTheContainer (s : State) (hs : s = { textState with cfg := { tiny with bMax := 31 } }) (n : State)
    (hn : n = { zero with cfg := { tiny with pMax := 1 }, textLen := 9#32, text := listed 0 (List.replicate 9 0x7A#32) }) :
    (textState.cfg.Legal ∧ textState.err = 0#8 ∧ textState.holdsText aabbc ∧ aabbc ≠ [] ∧ (firstSeen aabbc).length ≤ textState.cfg.kMax ∧
      17 + (5 * (firstSeen aabbc).length - 1) + (8 + 7) / 8 ≤ textState.cfg.bMax) ∧
      (s.cfg.Legal ∧ s.holdsText aabbc ∧ s.cfg.bMax < 17 + (5 * (firstSeen aabbc).length - 1) + (8 + 7) / 8) ∧
      n.cfg.Legal ∧ n.holdsText (List.replicate 9 0x7A#21) ∧ n.cfg.pMax < (9 + 7) / 8 := by
  subst hs hn
  exact ⟨⟨tiny_legal, rfl, text_held, by decide +kernel, by decide +kernel, by decide +kernel⟩, ⟨by decide +kernel, text_held, by decide +kernel⟩, by decide +kernel,
    ⟨by decide +kernel, by decide +kernel, holds_of (by decide +kernel), all_of (by decide +kernel)⟩, by decide +kernel⟩

theorem test_meets_DecompressRunsTheStages :
    (withBlob blob).err = 0#8 ∧ inTurn [.parse, .decode] { (withBlob blob).workZero with textLen := 0#32 } =
      .next (left (inTurn [.parse, .decode] { (withBlob blob).workZero with textLen := 0#32 })) := ⟨rfl, next_left (by decide +kernel)⟩

theorem test_meets_DecompressRecoversTheText :
    ((withBlob blob).cfg.Legal ∧ (withBlob blob).err = 0#8 ∧ (withBlob blob).holdsBlob (containerBytes aabbcCodes.length 0 (some tree) [0xF2#8]) ∧
      [0xF2#8].length ≤ tiny.pMax ∧ tree.leaves.length ≤ tiny.kMax ∧ (∀ x ∈ tree.leaves, x.toNat ≤ symMax) ∧
      (∀ p ∈ aabbcCodes, p ∈ tree.codes) ∧ unpackBits [0xF2#8] 0 = (spelled aabbcCodes).2 ∧ aabbcCodes.length ≤ tiny.nMax) ∧
      (withBlob emptyBlob).holdsBlob (containerBytes 0 0 none []) :=
  ⟨⟨tiny_legal, rfl, by rw [show aabbcCodes.length = 5 from rfl, blob_is]; exact blob_held, by decide +kernel, by decide +kernel,
    all_of (by decide +kernel), all_of (by decide +kernel), by decide +kernel, by decide +kernel⟩, empty_held⟩

theorem compress_left : (left (exec .compress textState)).blob = (withBlob blob).blob ∧
    (left (exec .compress textState)).blobLen = (withBlob blob).blobLen ∧ (left (exec .compress textState)).err = 0#8 := by decide +kernel

theorem test_meets_DecompressAfterCompressIsTheText (t : State) (ht : t = left (exec .compress textState)) :
    textState.cfg.Legal ∧ textState.err = 0#8 ∧ textState.holdsText aabbc ∧ (firstSeen aabbc).length ≤ textState.cfg.kMax ∧
      exec .compress textState = .next t ∧ t.err = 0#8 ∧ (withBlob blob).cfg = textState.cfg ∧ (withBlob blob).err = 0#8 ∧
      (withBlob blob).blobLen = t.blobLen ∧ ∀ k, k < t.blobLen.toNat → (withBlob blob).blob.get? k = t.blob.get? k := by
  have e := compress_left
  rw [← ht] at e
  have hn : exec .compress textState = .next t := by rw [ht]; exact next_left (by decide +kernel)
  exact ⟨tiny_legal, rfl, text_held, by decide +kernel, hn, e.2.2, rfl, rfl, e.2.1.symm, fun k _ => by rw [e.1]⟩

/-- The container of "aabbc" cut to 31, to 30 and to 16 bytes, and without its payload byte; and that of "zzzz" without its payload
byte, whose padding is 4; and that of nine z without the last of its two payload bytes. -/
theorem test_meets_TruncationIsDetected (payload : List Byte) (hp : payload = packBytes (padded (spelled aabbcCodes).2)) (pad : Nat)
    (hpad : pad = padCount (spelled aabbcCodes).2.length) (full : List Byte)
    (hf : full = containerBytes aabbcCodes.length pad (some tree) payload) (zs : List (Symbol × BitString))
    (hz : zs = List.replicate 4 (0x7A#21, [false])) (nine : List (Symbol × BitString)) (hn : nine = List.replicate 9 (0x7A#21, [false])) :
    (withBlob (full.take 31)).cfg.Legal ∧ aabbcCodes ≠ [] ∧ (∀ p ∈ aabbcCodes, p ∈ tree.codes) ∧ payload.length ≤ tiny.pMax ∧
      (17 + tree.snapshot.length ≤ 31 ∧ 31 < 17 + tree.snapshot.length + payload.length ∧
        (withBlob (full.take 31)).holdsBlob (full.take 31)) ∧
      (17 ≤ 30 ∧ 30 < 17 + tree.snapshot.length ∧ (withBlob (full.take 30)).holdsBlob (full.take 30)) ∧
      (withBlob (full.take 16)).holdsBlob (full.take 16) ∧
      (1 ≤ payload.length ∧ pad = 0 ∧ (withBlob (containerBytes 5 0 (some tree) [])).holdsBlob
        (containerBytes aabbcCodes.length pad (some tree) (payload.take (payload.length - 1)))) ∧
      (∀ p ∈ zs, p ∈ (Tree.leaf 0x7A#21).codes) ∧ packBytes (padded (spelled zs).2) = [0x00#8] ∧
      padCount (spelled zs).2.length = 4 ∧ (withBlob (containerBytes 4 4 (some (.leaf 0x7A#21)) [])).holdsBlob
        (containerBytes zs.length 4 (some (.leaf 0x7A#21)) ([0x00#8].take (1 - 1))) ∧
      (∀ p ∈ nine, p ∈ (Tree.leaf 0x7A#21).codes) ∧ nine.length ≤ tiny.nMax ∧ packBytes (padded (spelled nine).2) = [0x00#8, 0x00#8] ∧
      padCount (spelled nine).2.length = 7 ∧ 1 < [0x00#8, 0x00#8].length ∧
      (withBlob (containerBytes 9 7 (some (.leaf 0x7A#21)) [0x00#8])).holdsBlob
        (containerBytes nine.length 7 (some (.leaf 0x7A#21)) ([0x00#8, 0x00#8].take (2 - 1))) := by
  subst hf hp hpad hz hn
  exact ⟨tiny_legal, by decide +kernel, all_of (by decide +kernel), by decide +kernel,
    ⟨by decide +kernel, by decide +kernel, ⟨by decide +kernel, by decide +kernel, holds_of (by decide +kernel)⟩⟩,
    ⟨by decide +kernel, by decide +kernel, ⟨by decide +kernel, by decide +kernel, holds_of (by decide +kernel)⟩⟩,
    ⟨by decide +kernel, by decide +kernel, holds_of (by decide +kernel)⟩,
    ⟨by decide +kernel, by decide +kernel, ⟨by decide +kernel, by decide +kernel, holds_of (by decide +kernel)⟩⟩, all_of (by decide +kernel),
    by decide +kernel, by decide +kernel, ⟨by decide +kernel, by decide +kernel, holds_of (by decide +kernel)⟩, all_of (by decide +kernel),
    by decide +kernel, by decide +kernel, by decide +kernel, by decide +kernel,
    ⟨by decide +kernel, by decide +kernel, holds_of (by decide +kernel)⟩⟩

theorem test_meets_CallsDependOnTheirInputAlone (s : State) (hs : s = { codesState with pkLen := 1#32, pk := [(0, 0x99#8)] })
    (b : State) (hb : b = { s with blobLen := (withBlob blob).blobLen, blob := (withBlob blob).blob }) :
    (textState.cfg.Legal ∧ s.cfg = textState.cfg ∧ textState.err = 0#8 ∧ s.err = 0#8 ∧ s.errInfo = textState.errInfo ∧
      s.errCmd = textState.errCmd ∧ s.textLen = textState.textLen ∧
      (∀ k, k < textState.textLen.toNat → ∃ v, textState.text.get? k = some v ∧ s.text.get? k = some v) ∧
      exec .compress textState = .next (left (exec .compress textState)) ∧ exec .compress s = .next (left (exec .compress s))) ∧
      b.blobLen = (withBlob blob).blobLen ∧
      (∀ k, k < (withBlob blob).blobLen.toNat → ∃ v, (withBlob blob).blob.get? k = some v ∧ b.blob.get? k = some v) ∧
      exec .decompress (withBlob blob) = .next (left (exec .decompress (withBlob blob))) ∧
      exec .decompress b = .next (left (exec .decompress b)) := by
  subst hs hb
  refine ⟨⟨tiny_legal, rfl, rfl, rfl, rfl, rfl, rfl, fun k hk => ?_, next_left (by decide +kernel), next_left (by decide +kernel)⟩,
    rfl, fun k hk => ?_, next_left (by decide +kernel), next_left (by decide +kernel)⟩
  · have hk : k < 5 := hk
    have : k ∈ [0, 1, 2, 3, 4] := by simp; omega
    fin_cases this <;> exact ⟨_, rfl, rfl⟩
  · have := blob_held.2.2.getZero (k := k) (by rw [← blob_held.1]; exact hk)
    exact ⟨_, this, this⟩

/-- The next transaction runs DECODE. -/
def nextStep : State := { packedState with inbox := [.write 0x00000000#32 0x4A000000#32] }

theorem test_meets_StepKeepsMemoryForm : nextStep.memoryForm ∧ step nextStep = .next (left (step nextStep)) :=
  ⟨by unfold State.memoryForm; decide +kernel, next_left (by decide +kernel)⟩

theorem test_meets_StepKeepsSoundness :
    nextStep.cfg.Legal ∧ (nextStep.err = 0#8 → nextStep.sound ∧ nextStep.leavesLegal ∧ nextStep.payloadWritten) ∧ step nextStep = .next (left (step nextStep)) ∧
      (left (step nextStep)).err = 0#8 :=
  ⟨tiny_legal, fun _ => ⟨packed_sound, codes_legal, packed_written⟩, next_left (by decide +kernel), by decide +kernel⟩

end Sys2Proof.Machine.Tests
end

/-! # Proofs of the family 10_state.md -/

/-! ## What a command's rule and a step can write -/

namespace Sys2Proof.Machine

variable {P : State → Prop} {s t : State}

/-- The rule that a command runs (30_encoding.md R94). -/
def ruleOf : Instr → Cmd Unit
  | .nop => pure ()
  | .clear => clearRule
  | .pqInsert n => pqInsertRule n
  | .pqExtract => pqExtractRule
  | .freq => freq
  | .leaves => leaves
  | .combine => combine
  | .build => build
  | .setRoot n => setRootRule n
  | .codegen => codeGen
  | .encode => encodeText
  | .pkInit => pkInit
  | .pkPush len bits => pkPushRule len bits
  | .pkFlush => pkFlushRule
  | .upInit => upInit
  | .upPop => upPopRule
  | .decode => decodeText
  | .serialize => serialize
  | .parse => parse
  | .compress => compressRule
  | .decompress => decompressRule

theorem exec_eq_runCommand (i : Instr) (s : State) : exec i s = runCommand (encodeInstr i) (ruleOf i) s := by
  cases i <;> rfl

/-- A property closed under the writes of one command: as `State.Closed`, but the flags, RES, WorkClear and the fault registers
count only for the commands that write them. -/
structure State.ClosedFor (i : Instr) (P : State → Prop) : Prop where
  draws : State.onDraws P
  text : State.onText P
  blob : State.onBlob P
  table : State.onTable P
  node : State.onNode P
  nodeCnt : State.onNodeCnt P
  heap : State.onHeap P
  root : State.onRoot P
  codes : State.onCodes P
  packer : State.onPacker P
  unpacker : State.onUnpacker P
  origLen : State.onOrigLen P
  textLen : State.onTextLen P
  blobLen : State.onBlobLen P
  work : i ∈ [.clear, .compress, .decompress] → State.onWork P
  res : i ∈ [.pqExtract, .combine, .build, .upPop, .compress] → State.onRes P
  qe : i = .pqExtract → State.onQe P
  be : i = .upPop → State.onBe P
  err : i = .clear → State.onErr P

/-- CLEAR keeps what WorkClear, the fault registers' and the lengths' writes keep (45_codec_engine.md R211). -/
theorem clearRule_inv (hw : State.onWork P) (he : State.onErr P) (ht : State.onTextLen P) (hb : State.onBlobLen P) :
    Cmd.Inv P clearRule :=
  .update fun s hs => hb { s.workCleared with err := 0#8, errInfo := 0#32, errCmd := 0#32, textLen := 0#32 } _
    (ht { s.workCleared with err := 0#8, errInfo := 0#32, errCmd := 0#32 } _ (he s.workCleared _ _ _ (hw s hs)))

theorem ruleOf_inv {i : Instr} (c : State.ClosedFor i P) : Cmd.Inv P (ruleOf i) := by
  cases i with
  | nop => exact .pure ()
  | clear => exact clearRule_inv (c.work (by simp)) (c.err rfl) c.textLen c.blobLen
  | pqInsert n => exact pqInsertRule_inv c.draws c.heap c.node n
  | pqExtract => exact pqExtractRule_inv c.draws c.heap c.node (c.qe rfl) (c.res (by simp))
  | freq => exact freq_inv c.draws c.table
  | leaves => exact leaves_inv c.draws c.heap c.node c.nodeCnt c.root
  | combine => exact combine_inv c.draws c.heap c.node c.nodeCnt (c.res (by simp))
  | build => exact build_inv c.draws c.heap c.node c.nodeCnt c.root (c.res (by simp))
  | setRoot n => exact setRootRule_inv c.draws c.root n
  | codegen => exact codeGen_inv c.draws c.codes
  | encode => exact encodeText_inv c.draws c.packer c.origLen
  | pkInit => exact pkInit_inv c.packer
  | pkPush len bits => exact pkPushRule_inv c.packer len bits
  | pkFlush => exact pkFlushRule_inv c.packer
  | upInit => exact upInit_inv c.unpacker
  | upPop => exact upPopRule_inv c.draws c.unpacker (c.be rfl) (c.res (by simp))
  | decode => exact decodeText_inv c.draws c.text c.textLen c.unpacker
  | serialize => exact serialize_inv c.draws c.blob c.blobLen
  | parse => exact parse_inv c.draws c.heap.2 c.node c.nodeCnt c.root c.packer c.unpacker c.origLen
  | compress =>
    exact compressRule_inv c.draws (c.work (by simp)) c.table c.heap c.node c.nodeCnt c.root (c.res (by simp)) c.codes c.packer
      c.origLen c.blob c.blobLen
  | decompress =>
    exact decompressRule_inv c.draws (c.work (by simp)) c.heap.2 c.node c.nodeCnt c.root c.packer c.unpacker c.origLen c.text
      c.textLen

/-- A property that a command's rule and the fault entry keep holds in the command's next state. -/
theorem exec_keeps_of_closedFor {i : Instr} (c : State.ClosedFor i P) (he : State.onErr P) (hs : P s) (h : exec i s = .next t) : P t :=
  (ruleOf_inv c).next (takeFault_inv he (encodeInstr i)) hs (exec_eq_runCommand i s ▸ h)

/-- A property closed under what the host port and the reset event do to the state, the run of a command aside
(20_memory.md R62, R63; 70_reset_and_hazards.md R260). -/
structure State.HostClosed (P : State → Prop) : Prop where
  draws : State.onDraws P
  text : State.onText P
  blob : State.onBlob P
  textLen : State.onTextLen P
  blobLen : State.onBlobLen P
  port : ∀ s i r, P s → P { s with inbox := i, reply := r }
  reset : ∀ s, P s → P s.afterReset

/-- An answer made of a read element has changed nothing but the number of free values. -/
theorem answer_inv {α : Type} (hd : State.onDraws P) (view : α → Word) (mem : State → Memory α) (free : State → α) (i : Nat)
    (hs : P s) : P (answer view (readElem mem free i s)).2 := readElem_inv (mem := mem) (free := free) (i := i) hd hs

/-- A host read changes nothing but the number of free values (20_memory.md R62). -/
theorem hostRead_inv (hd : State.onDraws P) (addr : Word) (hs : P s) : P (hostRead addr s).2 := by
  unfold hostRead
  split
  case h_1 => split <;> exact hs
  case h_9 => exact hs
  all_goals
    split
    · exact answer_inv hd _ _ _ _ hs
    · exact hs

/-- A host write is a store in TEXT_LEN, BLOB_LEN, TEXT or BLOB, a refused write, or the issue of a command (20_memory.md R63). -/
theorem hostWrite_inv (c : State.HostClosed P) (hi : ∀ w s t, P s → issue w s = .next t → P t) {addr v : Word} (hs : P s)
    (h : hostWrite addr v s = .next t) : P t := by
  have reply : ∀ u r, P u → P { u with reply := r } := fun u r hu => c.port u u.inbox r hu
  unfold hostWrite at h
  split at h
  · split at h
    · exact hi _ _ _ (reply s _ hs) h
    · cases h; exact reply { s with textLen := v } _ (c.textLen s v hs)
    · cases h; exact reply { s with blobLen := v } _ (c.blobLen s v hs)
    · cases h; exact reply s _ hs
  · split at h
    · cases h; exact reply _ _ (c.text s _ v hs)
    · cases h; exact reply s _ hs
  · split at h
    · cases h; exact reply _ _ (c.blob s _ _ hs)
    · cases h; exact reply s _ hs
  · cases h; exact reply s _ hs

/-- A property that the host port, the reset event and the issue of a word keep is kept by every step (20_memory.md R75). -/
theorem step_inv (c : State.HostClosed P) (hi : ∀ w s t, P s → issue w s = .next t → P t) (hs : P s) (h : step s = .next t) : P t := by
  have taken : ∀ rest, P { s with inbox := rest } := fun rest => c.port s rest s.reply hs
  cases e : s.inbox with
  | nil => rw [step_idle e] at h; cases h; exact hs
  | cons tx rest =>
    cases tx with
    | read addr =>
      rw [step_read e] at h
      cases h
      exact c.port (hostRead addr { s with inbox := rest }).2 _ _ (hostRead_inv c.draws addr (taken rest))
    | write addr v => rw [step_write e] at h; exact hostWrite_inv c hi (taken rest) h
    | reset => rw [step_reset e] at h; cases h; exact c.reset _ (taken rest)

/-- What `Issue` does with a word (30_encoding.md R97): the state stays, a fault is taken, or a command runs, in the fault state CLEAR
alone. -/
theorem issue_cases {w : Word} (h : issue w s = .next t) :
    t = s ∨ t = takeFault .illegal 0 w s ∨ ∃ i, exec i s = .next t ∧ (s.err = 0#8 ∨ i = .clear) := by
  unfold issue issueCheck at h
  by_cases hd : s.err ≠ 0#8 ∧ w ≠ encodeInstr .clear
  · rw [if_pos hd] at h
    cases h
    exact .inl rfl
  · rw [if_neg hd] at h
    cases e : decodeWord w with
    | illegal why =>
      rw [e] at h
      cases h
      exact .inr (.inl rfl)
    | command i =>
      rw [e] at h
      refine .inr (.inr ⟨i, h, ?_⟩)
      by_cases h0 : s.err = 0#8
      · exact .inl h0
      · have hw : w = encodeInstr .clear := by_contra fun hw => hd ⟨h0, hw⟩
        rw [hw, Laws.RoundTrip.clear rfl] at e
        exact .inr (Decoded.command.inj e).symm

/-- A property that every command and the fault entry keep is kept by the issue of a word. -/
theorem issue_inv (he : State.onErr P) (hx : ∀ i s t, P s → exec i s = .next t → P t) (w : Word) (s t : State) (hs : P s)
    (h : issue w s = .next t) : P t := by
  rcases issue_cases h with rfl | rfl | ⟨i, hi, -⟩
  · exact hs
  · exact he s _ _ _ hs
  · exact hx i s t hs hi

/-- The memories after reset are empty, and the form does not look at the port's fields. -/
theorem memoryForm_empty (s : State) (ht : s.text = []) (hb : s.blob = []) (hf : s.ft = []) (hn : s.node = []) (hh : s.heap = [])
    (hc : s.ct = []) (hp : s.pk = []) : s.memoryForm := by
  simp [State.memoryForm, ht, hb, hf, hn, hh, hc, hp]

theorem memoryForm_hostClosed : State.HostClosed State.memoryForm where
  draws := memoryForm_closed.draws
  text := memoryForm_closed.text
  blob := memoryForm_closed.blob
  textLen := memoryForm_closed.textLen
  blobLen := memoryForm_closed.blobLen
  port := fun _ _ _ h => h
  reset := fun _ _ => memoryForm_empty _ rfl rfl rfl rfl rfl rfl rfl

/-- Settles O57: every write stores through `Memory.store`, which keeps the form, and a reset leaves no element. -/
theorem stepKeepsMemoryForm : Obligations.StepKeepsMemoryForm := fun _ _ hs h =>
  step_inv memoryForm_hostClosed (issue_inv memoryForm_closed.err fun _ _ _ => exec_inv memoryForm_closed) hs h

/-! ### The configuration, the fault registers, FLAGS and RES (10_state.md R24 to R28, R42) -/

/-- A property of the configuration, the fault registers, the two flags and RES alone. -/
def State.onControl (R : Config → BitVec 8 → Word → Word → Bool → Bool → Word → Prop) (s : State) : Prop :=
  R s.cfg s.err s.errInfo s.errCmd s.qe s.be s.res

/-- Such a property is closed under a command's writes when it is so under those of WorkClear, the flags, RES and the fault registers
that the command makes. -/
theorem onControl_closedFor {i : Instr} {R : Config → BitVec 8 → Word → Word → Bool → Bool → Word → Prop}
    (work : i ∈ [.clear, .compress, .decompress] → State.onWork (State.onControl R))
    (res : i ∈ [.pqExtract, .combine, .build, .upPop, .compress] → State.onRes (State.onControl R))
    (qe : i = .pqExtract → State.onQe (State.onControl R)) (be : i = .upPop → State.onBe (State.onControl R))
    (err : i = .clear → State.onErr (State.onControl R)) : State.ClosedFor i (State.onControl R) where
  draws := fun _ _ h => h
  text := fun _ _ _ h => h
  blob := fun _ _ _ h => h
  table := ⟨fun _ _ _ h => h, fun _ _ h => h⟩
  node := fun _ _ _ h => h
  nodeCnt := fun _ _ h => h
  heap := ⟨fun _ _ _ h => h, fun _ _ h => h⟩
  root := ⟨fun _ _ h => h, fun _ _ h => h⟩
  codes := ⟨fun _ _ _ h => h, fun _ _ h => h⟩
  packer := ⟨fun _ _ _ h => h, fun _ _ _ _ _ h => h⟩
  unpacker := fun _ _ _ h => h
  origLen := fun _ _ h => h
  textLen := fun _ _ h => h
  blobLen := fun _ _ h => h
  work := work
  res := res
  qe := qe
  be := be
  err := err

/-- No command writes the configuration. -/
theorem exec_cfg {i : Instr} (h : exec i s = .next t) : t.cfg = s.cfg :=
  exec_keeps_of_closedFor (P := State.onControl fun c _ _ _ _ _ _ => c = s.cfg)
    (onControl_closedFor (fun _ _ h => h) (fun _ _ _ h => h) (fun _ _ _ h => h) (fun _ _ _ h => h) fun _ _ _ _ _ h => h)
    (fun _ _ _ _ h => h) rfl h

theorem cfg_hostClosed (c : Config) : State.HostClosed (fun s => s.cfg = c) where
  draws := fun _ _ h => h
  text := fun _ _ _ h => h
  blob := fun _ _ _ h => h
  textLen := fun _ _ h => h
  blobLen := fun _ _ h => h
  port := fun _ _ _ h => h
  reset := fun _ h => h

/-- Settles O12: no write of a command, of the port or of a reset touches the configuration. -/
theorem configurationIsConstant : Obligations.ConfigurationIsConstant := fun s _ h =>
  step_inv (cfg_hostClosed s.cfg) (issue_inv (fun _ _ _ _ h => h) fun _ _ _ hs h => (exec_cfg h).trans hs) rfl h

/-- The fault registers are those of `s`. -/
def SameFault (s u : State) : Prop := u.err = s.err ∧ u.errInfo = s.errInfo ∧ u.errCmd = s.errCmd

/-- No command but CLEAR writes the fault registers in its rule. -/
theorem ruleOf_sameFault {i : Instr} (hi : i ≠ .clear) (s : State) : Cmd.Inv (SameFault s) (ruleOf i) :=
  ruleOf_inv (P := State.onControl fun _ e n w _ _ _ => e = s.err ∧ n = s.errInfo ∧ w = s.errCmd)
    (onControl_closedFor (fun _ _ h => h) (fun _ _ _ h => h) (fun _ _ _ h => h) (fun _ _ _ h => h) fun e => absurd e hi)

theorem faultCode_range (code : FaultCode) : 1 ≤ code.number.toNat ∧ code.number.toNat ≤ 10 := by
  cases code <;> decide

/-- Settles O9: the rule leaves the fault registers alone, and only the fault entry after it writes them. -/
theorem faultRegistersWrittenTogether : Obligations.FaultRegistersWrittenTogether := by
  intro i s t hi h
  rw [exec_eq_runCommand] at h
  refine runCommand_next (P := fun u => SameFault s u ∨ (1 ≤ u.err.toNat ∧ u.err.toNat ≤ 10 ∧ u.errCmd = encodeInstr i))
    (Cmd.wp_mono (ruleOf_sameFault hi s s ⟨rfl, rfl, rfl⟩) (fun _ _ hu => .inl hu) fun _ _ _ code _ _ => .inr ?_) h
  exact ⟨(faultCode_range code).1, (faultCode_range code).2, rfl⟩

/-- Only PQ_EXTRACT and WorkClear write QE. -/
theorem exec_qe {i : Instr} (hi : i ∉ [.pqExtract, .clear, .compress, .decompress]) (h : exec i s = .next t) : t.qe = s.qe :=
  exec_keeps_of_closedFor (P := State.onControl fun _ _ _ _ q _ _ => q = s.qe)
    (onControl_closedFor (fun e => absurd (List.mem_cons_of_mem _ e) hi) (fun _ _ _ h => h)
      (fun e => absurd (by simp [e]) hi) (fun _ _ _ h => h) fun _ _ _ _ _ h => h)
    (fun _ _ _ _ h => h) rfl h

/-- Only UP_POP and WorkClear write BE. -/
theorem exec_be {i : Instr} (hi : i ∉ [.upPop, .clear, .compress, .decompress]) (h : exec i s = .next t) : t.be = s.be :=
  exec_keeps_of_closedFor (P := State.onControl fun _ _ _ _ _ b _ => b = s.be)
    (onControl_closedFor (fun e => absurd (List.mem_cons_of_mem _ e) hi) (fun _ _ _ h => h)
      (fun _ _ _ h => h) (fun e => absurd (by simp [e]) hi) fun _ _ _ _ _ h => h)
    (fun _ _ _ _ h => h) rfl h

/-- Only the commands with a result and WorkClear write RES. -/
theorem exec_res {i : Instr} (hi : i ∉ [.pqExtract, .combine, .build, .upPop, .clear, .compress, .decompress])
    (h : exec i s = .next t) : t.res = s.res := by
  have work : i ∉ [.clear, .compress, .decompress] := fun e => hi (by simp only [List.mem_cons] at e ⊢; tauto)
  have res : i ∉ [.pqExtract, .combine, .build, .upPop, .compress] := fun e => hi (by simp only [List.mem_cons] at e ⊢; tauto)
  exact exec_keeps_of_closedFor (P := State.onControl fun _ _ _ _ _ _ v => v = s.res)
    (onControl_closedFor (fun e => absurd e work) (fun e => absurd e res) (fun _ _ _ h => h) (fun _ _ _ h => h)
      fun _ _ _ _ _ h => h)
    (fun _ _ _ _ h => h) rfl h

/-- Settles O13: each register is kept by every command that its rule does not name. -/
theorem flagsAndResWriters : Obligations.FlagsAndResWriters := fun _ _ _ h =>
  ⟨fun hne => by_contra fun hi => hne (exec_qe hi h), fun hne => by_contra fun hi => hne (exec_be hi h),
    fun hne => by_contra fun hi => hne (exec_res hi h)⟩

/-! ### Reset (10_state.md R54) -/

/-- Settles O6: the fields of the reset state as they are written, and a step with an empty inbox. -/
theorem resetLeavesZeroAndIdles : Obligations.ResetLeavesZeroAndIdles :=
  ⟨fun _ => by repeat' constructor, fun _ h => step_idle h⟩

end Sys2Proof.Machine

/-! ## The invariants of R53 by the part of the state they speak of -/

namespace Sys2Proof.Machine

variable {s t : State}

/-- R53 items 1 and 2, of FT. -/
def State.tablePart (s : State) : Prop := s.ftCnt.toNat ≤ s.cfg.kMax ∧ ∃ l, s.holdsTable l ∧ tableOk s.cfg l

/-- R53 items 1, 3 to 8 and 11, of NODE, HEAP and ROOT, and that every leaf holds a legal symbol. -/
def State.forestPart (s : State) : Prop :=
  s.nodeCnt.toNat ≤ s.cfg.nodeMax ∧ s.pqCnt.toNat ≤ s.cfg.kMax ∧
    (∃ h trees, s.queue h ∧ Grove s.cfg s.node s.nodeCnt.toNat h trees) ∧ s.rootOk ∧ s.leavesLegal

/-- R53 items 1 and 9, of CT. -/
def State.codesPart (s : State) : Prop := s.ctCnt.toNat ≤ s.cfg.kMax ∧ s.codesOk

/-- R53 items 1 and 10, of the packer, and that every valid byte of PK is written. -/
def State.packerPart (s : State) : Prop := s.pkLen.toNat ≤ s.cfg.pMax ∧ s.packerOk ∧ s.payloadWritten

/-- All the parts. -/
def State.parts (s : State) : Prop := s.tablePart ∧ s.forestPart ∧ s.codesPart ∧ s.packerPart

/-- What a step keeps is all the parts together; PAD, STG.CNT and UP_BIT have three bits, so item 1 asks nothing more of them. -/
theorem parts_iff : s.parts ↔ s.sound ∧ s.leavesLegal ∧ s.payloadWritten := by
  constructor
  · rintro ⟨⟨ht, table⟩, ⟨hn, hq, forest, root, legal⟩, ⟨hc, codes⟩, hp, packer, written⟩
    exact ⟨⟨⟨ht, hn, hq, hc, hp, by omega, by omega, by omega⟩, table, forest, root, codes, packer⟩, legal, written⟩
  · rintro ⟨⟨⟨ht, hn, hq, hc, hp, -⟩, table, forest, root, codes, packer⟩, legal, written⟩
    exact ⟨⟨ht, table⟩, ⟨hn, hq, forest, root, legal⟩, ⟨hc, codes⟩, hp, packer, written⟩

/-- No node, no queue and no root. -/
theorem forestPart_of_none (hn : s.nodeCnt = 0#32) (hq : s.pqCnt = 0#32) (hr : s.root = 0#24) : s.forestPart := by
  refine ⟨by rw [hn]; exact Nat.zero_le _, by rw [hq]; exact Nat.zero_le _, ⟨[], [], ?_, ?_⟩, .inl hr, fun id _ h1 h2 => ?_⟩
  · exact ⟨by rw [hq]; rfl, Nat.zero_le _, Memory.holds_nil _ _, List.nodup_nil, fun _ _ h => absurd h (Nat.not_lt_zero _),
      fun _ h => nomatch h⟩
  · rw [hn]
    exact Grove.empty s.cfg s.node
  · rw [hn] at h2
    exact absurd (Nat.le_trans h1 h2) (Nat.not_succ_le_zero 0)

/-- A code table without entries asks for no tree. -/
theorem codesPart_of_none (h : s.ctCnt = 0#32) : s.codesPart := ⟨by rw [h]; exact Nat.zero_le _, fun h' => absurd h h'⟩

/-- The invariants hold where WorkClear has been, in every configuration (10_state.md R49). -/
theorem workCleared_parts (s : State) : s.workCleared.parts :=
  ⟨⟨Nat.zero_le _, [], ⟨rfl, Memory.holds_nil _ _⟩, by simp [tableOk]⟩, forestPart_of_none rfl rfl rfl, codesPart_of_none rfl,
    Nat.zero_le _, ⟨fun h => absurd rfl h, Nat.zero_lt_one⟩, fun _ h => absurd h (Nat.not_lt_zero _)⟩

/-- Settles O59: the memories are empty after reset, and the registers are those that WorkClear leaves. -/
theorem invariantsHoldAtReset : Obligations.InvariantsHoldAtReset := fun c =>
  ⟨memoryForm_empty _ rfl rfl rfl rfl rfl rfl rfl, parts_iff.mp (workCleared_parts (State.resetIn c))⟩

/-! ### What keeps the parts -/

/-- A rule that, from a state with the invariants, ends in one, unless it raises. -/
def Cmd.Keeps {α : Type} (c : Cmd α) : Prop :=
  ∀ s, s.cfg.Legal → s.parts → Cmd.wp c (fun _ t => t.cfg.Legal ∧ t.parts) (fun _ _ => True) s

theorem Cmd.Keeps.bind {α β : Type} {c : Cmd β} {f : β → Cmd α} (hc : c.Keeps) (hf : ∀ b, (f b).Keeps) : (c >>= f).Keeps :=
  fun s hL hs => Cmd.wp_then (hc s hL hs) (fun b t ht => hf b t ht.1 ht.2) fun _ _ h => h

theorem Cmd.Keeps.of_inv {α : Type} {c : Cmd α} (h : Cmd.Inv (fun t => t.cfg.Legal ∧ t.parts) c) : c.Keeps :=
  fun s hL hs => Cmd.wp_mono (h s ⟨hL, hs⟩) (fun _ _ h => h) fun _ _ _ => trivial

/-! ### The packer (43_bit_packer.md) -/

/-- A bit string is open in the packer (R177, "Before the flush"). -/
def State.packing (s : State) : Prop := s.cfg.Legal ∧ s.packerPart ∧ s.pad = 0#3

/-- One more byte at the end of PK, when it has room. -/
theorem storePk_written (hw : s.payloadWritten) (hlt : s.pkLen.toNat < s.cfg.pMax) (v : Byte) :
    ∀ k, k < s.pkLen.toNat + 1 → ∃ b, (s.storePk s.pkLen.toNat v).pk.get? k = some b := by
  intro k hk
  show ∃ b, (s.pk.store 0 s.cfg.pMax s.pkLen.toNat v).get? k = some b
  by_cases e : k = s.pkLen.toNat
  · exact ⟨v, by rw [e]; exact Memory.get?_store_self _ v (Nat.zero_le _) hlt⟩
  · rw [Memory.get?_store_other _ _ _ _ e]
    exact hw k (by omega)

/-- The length of PK after one more byte, where it does not wrap (00_scope.md R6). -/
theorem pkLen_succ (hL : s.cfg.Legal) (hlt : s.pkLen.toNat < s.cfg.pMax) : (s.pkLen + 1#32).toNat = s.pkLen.toNat + 1 := by
  obtain ⟨-, -, ⟨-, hp⟩, -⟩ := hL
  rw [BitVec.toNat_add, BitVec.toNat_ofNat]
  omega

/-- The packer after a byte has gone to PK and the stager is empty. -/
theorem emptied_packerPart (hL : s.cfg.Legal) (hs : s.packerPart) (hlt : s.pkLen.toNat < s.cfg.pMax) (v : Byte) (p : BitVec 3) :
    State.packerPart { s.storePk s.pkLen.toNat v with pkLen := s.pkLen + 1#32, pad := p, stgBits := 0#8, stgCnt := 0#3 } := by
  have hlen := pkLen_succ hL hlt
  refine ⟨?_, ⟨fun _ => ⟨rfl, ?_⟩, Nat.zero_lt_one⟩, fun k hk => storePk_written hs.2.2 hlt v k ?_⟩
  · show (s.pkLen + 1#32).toNat ≤ s.cfg.pMax
    omega
  · show 1 ≤ (s.pkLen + 1#32).toNat
    omega
  · rw [← hlen]
    exact hk

/-- A pushed bit is staged below the eighth, or its byte goes to PK (R171). -/
theorem pkPushBit_packing (b : Bool) : Cmd.Inv State.packing (pkPushBit b) := by
  intro s hs
  have ⟨hL, ⟨hlen, ⟨hpad, hbits⟩, hw⟩, hp⟩ := hs
  simp only [pkPushBit, Cmd.wp_bind, Cmd.wp_csr, Cmd.wp_raiseIf, Cmd.wp_ite, Cmd.wp_writePk, Cmd.wp_update]
  refine ⟨fun _ => hs, fun hroom => ⟨fun hc => ?_, fun hc => ?_⟩⟩
  · have hlt : s.pkLen.toNat < s.cfg.pMax := Nat.lt_of_le_of_ne hlen fun e => hroom ⟨hc, e⟩
    exact ⟨hL, emptied_packerPart hL ⟨hlen, ⟨hpad, hbits⟩, hw⟩ hlt (stageBit s.stgBits b) s.pad, hp⟩
  · have hc6 : s.stgCnt.toNat < 7 := by
      have : s.stgCnt.toNat ≠ 7 := fun e => hc (BitVec.eq_of_toNat_eq e)
      omega
    have hcnt : (s.stgCnt + 1#3).toNat = s.stgCnt.toNat + 1 := by
      rw [BitVec.toNat_add, BitVec.toNat_ofNat]
      omega
    have hpow : 2 ^ s.stgCnt.toNat ≤ 2 ^ 6 := Nat.pow_le_pow_right (by omega) (by omega)
    refine ⟨hL, ⟨hlen, ⟨fun h => absurd hp h, ?_⟩, hw⟩, hp⟩
    show (stageBit s.stgBits b).toNat < 2 ^ (s.stgCnt + 1#3).toNat
    rw [stageBit_toNat _ _ (by omega), hcnt, pow_succ]
    have : b.toNat < 2 := by cases b <;> decide
    omega

theorem packing_draws : State.onDraws State.packing := fun _ _ h => h

/-- A flush closes the bit string, whole bytes and padding (R173). -/
theorem pkFlush_packerPart (hs : s.packing) : Cmd.wp pkFlush (fun _ t => t.packerPart) (fun _ _ => True) s := by
  obtain ⟨hL, ⟨hlen, ⟨hpad, hbits⟩, hw⟩, hp⟩ := hs
  simp only [pkFlush, Cmd.wp_bind, Cmd.wp_csr, Cmd.wp_ite, Cmd.wp_raiseIf, Cmd.wp_writePk, Cmd.wp_update]
  refine ⟨fun _ => ⟨fun _ => trivial, fun hroom => ?_⟩, fun _ => ⟨hlen, ⟨fun h => absurd rfl h, hbits⟩, hw⟩⟩
  exact emptied_packerPart hL ⟨hlen, ⟨hpad, hbits⟩, hw⟩ (Nat.lt_of_le_of_ne hlen hroom) _ _

/-- The empty packer (R170). -/
theorem pkInit_packing (hL : s.cfg.Legal) :
    State.packing { s with pkLen := 0#32, pad := 0#3, stgBits := 0#8, stgCnt := 0#3 } :=
  ⟨hL, ⟨Nat.zero_le _, ⟨fun h => absurd rfl h, Nat.zero_lt_one⟩, fun _ h => absurd h (Nat.not_lt_zero _)⟩, rfl⟩

/-- The parts that the packer's commands do not touch. -/
def State.unpackedParts (s : State) : Prop := s.cfg.Legal ∧ s.tablePart ∧ s.forestPart ∧ s.codesPart

theorem unpackedParts_packer : State.onPacker State.unpackedParts := ⟨fun _ _ _ h => h, fun _ _ _ _ _ h => h⟩

/-- A rule that keeps the other parts and leaves the packer well. -/
theorem Cmd.Keeps.of_packer {α : Type} {c : Cmd α} (h : Cmd.Inv State.unpackedParts c)
    (hp : ∀ s, s.cfg.Legal → s.packerPart → Cmd.wp c (fun _ t => t.packerPart) (fun _ _ => True) s) : c.Keeps :=
  fun s hL ⟨table, forest, codes, packer⟩ =>
    Cmd.wp_mono (Cmd.wp_and (h s ⟨hL, table, forest, codes⟩) (hp s hL packer))
      (fun _ _ ⟨⟨hL, table, forest, codes⟩, packer⟩ => ⟨hL, table, forest, codes, packer⟩) fun _ _ _ => trivial

theorem pkInit_keeps : pkInit.Keeps := .of_packer (pkInit_inv unpackedParts_packer) fun _ hL _ => (pkInit_packing hL).2.1

theorem pkPushRule_keeps (len : BitVec 5) (bits : BitVec 16) : (pkPushRule len bits).Keeps := by
  refine .of_packer (pkPushRule_inv unpackedParts_packer len bits) fun s hL hs => ?_
  rw [pkPushRule, Cmd.wp_bind, Cmd.wp_csr, Cmd.wp_bind, Cmd.wp_raiseIf]
  refine ⟨fun _ => trivial, fun hp => ?_⟩
  exact Cmd.wp_mono (Cmd.Inv.forBits pkPushBit_packing _ s ⟨hL, hs, not_not.mp hp⟩) (fun _ _ ht => ht.2.1) fun _ _ _ => trivial

theorem pkFlushRule_keeps : pkFlushRule.Keeps := by
  refine .of_packer (pkFlushRule_inv unpackedParts_packer) fun s hL hs => ?_
  rw [pkFlushRule, Cmd.wp_bind, Cmd.wp_csr, Cmd.wp_bind, Cmd.wp_raiseIf]
  exact ⟨fun _ => trivial, fun hp => pkFlush_packerPart ⟨hL, hs, not_not.mp hp⟩⟩

/-- A turn of ENCODE pushes bits and nothing else (42_code_table.md R151). -/
theorem encodeStep_packing (i : Nat) : Cmd.Inv State.packing (encodeStep i) := by
  refine .bind (readText_inv packing_draws i) fun v => .bind (.csr _) fun _ =>
    .bind (.findFrom (fun j => .bind (readCt_inv packing_draws j) fun _ => .pure _) _ _) fun found => ?_
  cases found with
  | none => exact .raise _ _
  | some j => exact .bind (readCt_inv packing_draws j) fun _ => .forBits pkPushBit_packing _

theorem encodeText_keeps : encodeText.Keeps := by
  refine .of_packer (encodeText_inv (fun _ _ h => h) unpackedParts_packer fun _ _ h => h) fun s hL hs => ?_
  simp only [encodeText, pkInit, Cmd.wp_bind, Cmd.wp_csr, Cmd.wp_raiseIf, Cmd.wp_update]
  refine ⟨fun _ => trivial, fun _ => ?_⟩
  refine Cmd.wp_mono (Cmd.Inv.forFrom encodeStep_packing _ _ _ ?_) (fun _ t ht => ?_) fun _ _ _ => trivial
  · exact pkInit_packing (s := s) hL
  · exact Cmd.wp_then (pkFlush_packerPart ht) (fun _ _ h => h) fun _ _ _ => trivial

/-! ### The commands that touch no part -/

/-- What the unpacker, DECODE and SERIALIZE write is in no part. -/
theorem upInit_keeps : upInit.Keeps := .of_inv (upInit_inv fun _ _ _ h => h)

theorem upPopRule_keeps : upPopRule.Keeps :=
  .of_inv (upPopRule_inv (fun _ _ h => h) (fun _ _ _ h => h) (fun _ _ h => h) fun _ _ h => h)

theorem decodeText_keeps : decodeText.Keeps :=
  .of_inv (decodeText_inv (fun _ _ h => h) (fun _ _ _ h => h) (fun _ _ h => h) fun _ _ _ h => h)

theorem serialize_keeps : serialize.Keeps := .of_inv (serialize_inv (fun _ _ h => h) (fun _ _ _ h => h) fun _ _ h => h)

/-! ### FREQ (41_tree_builder.md R131) -/

/-- The table of a text of legal symbols is one of R53 item 2. -/
theorem freqTable_ok {c : Config} {txt : List Symbol} (hleg : ∀ x ∈ txt, x.toNat ≤ symMax) (hlen : txt.length ≤ c.nMax)
    (hn : c.nMax < 2 ^ 32) : tableOk c (freqTable txt) := by
  refine ⟨by rw [freqTable_syms]; exact nodup_firstSeen txt, fun e he => ?_, by rw [freqTable_sum (by omega)]; exact hlen⟩
  obtain ⟨x, hx, rfl⟩ := List.mem_map.mp he
  have hmem := mem_firstSeen.mp hx
  have hle : txt.count x ≤ txt.length := List.count_le_length
  refine ⟨hleg x hmem, ?_⟩
  show 1 ≤ (BitVec.ofNat 32 (txt.count x)).toNat
  rw [BitVec.toNat_ofNat, Nat.mod_eq_of_lt (by omega)]
  exact List.count_pos_iff.mpr hmem

theorem freq_keeps : freq.Keeps := by
  intro s hL ⟨table, forest, codes, packer⟩
  have ⟨⟨_, hk, _⟩, ⟨_, hn⟩, _⟩ := hL
  have others := freq_inv (P := fun u => u.cfg.Legal ∧ u.forestPart ∧ u.codesPart ∧ u.packerPart) (fun _ _ h => h)
    ⟨fun _ _ _ h => h, fun _ _ h => h⟩ s ⟨hL, forest, codes, packer⟩
  by_cases hlen : s.textLen.toNat ≤ s.cfg.nMax
  · refine Cmd.wp_mono (Cmd.wp_and others (freq_any (by omega) hlen)) (fun _ t ht => ?_) fun _ _ _ => trivial
    obtain ⟨⟨hL', forest, codes, packer⟩, txt, hl, hr, hfit, ho, held⟩ := ht
    refine ⟨hL', ⟨?_, freqTable txt, held, ?_⟩, forest, codes, packer⟩
    · rw [held.1, freqTable_length, ho.cfg]
      exact hfit
    · rw [ho.cfg]
      exact freqTable_ok hr.1 (by omega) (by omega)
  · simp only [freq, Cmd.wp_bind, Cmd.wp_csr, Cmd.wp_raiseIf]
    exact ⟨fun _ => trivial, fun h => absurd (Nat.lt_of_not_le hlen) h⟩

end Sys2Proof.Machine

/-! ## The forest of nodes under the queue's and the builder's commands -/

namespace Sys2Proof.Machine

variable {c : Config} {s t : State} {f g : Forest} {trees : List IdTree} {id : NodeId}

/-- R53 items 3 to 6, 8 and 11 of nodes and queue as lists, and that every leaf holds a legal symbol. -/
structure Forest.Good (c : Config) (f : Forest) (trees : List IdTree) : Prop where
  grove : Grove c (nodeMemory f.nodes) f.nodes.length f.heap trees
  nodup : f.heap.Nodup
  ordered : HeapList.Ordered (weightIn f.nodes) f.heap
  legal : ∀ x ∈ f.nodes, x.leaf = true → x.sym.toNat ≤ symMax

/-- The id names a DETACHED node of the list. -/
def detachedIn (nodes : List Node) (id : NodeId) : Prop := 1 ≤ id.toNat ∧ ∃ x, nodes[id.toNat - 1]? = some x ∧ x.st = stDetached

/-- Every node of the first list is in the second, but for its `st`. -/
def sameNodes (nodes nodes' : List Node) : Prop :=
  ∀ (k : Nat) (x : Node), nodes[k]? = some x → ∃ y, nodes'[k]? = some y ∧ sameButSt x y

theorem sameNodes.trans {l l' l'' : List Node} (h : sameNodes l l') (h' : sameNodes l' l'') : sameNodes l l'' := fun k x hx =>
  have ⟨_, hy, s1⟩ := h k x hx
  have ⟨z, hz, s2⟩ := h' k _ hy
  ⟨z, hz, s1.trans s2⟩

theorem sameNodes_setSt (nodes : List Node) (id : NodeId) (v : BitVec 2) : sameNodes nodes (setSt nodes id v) := fun _ _ hx => setSt_keeps hx

theorem sameNodes_append (nodes l : List Node) : sameNodes nodes (nodes ++ l) := fun k x hx =>
  ⟨x, by rw [List.getElem?_append_left (List.getElem?_eq_some_iff.mp hx).1]; exact hx, rfl, rfl, rfl, rfl, rfl⟩

theorem detachedIn.le {nodes : List Node} (h : detachedIn nodes id) : id.toNat ≤ nodes.length := by
  obtain ⟨_, x, hx, -⟩ := h
  have := (List.getElem?_eq_some_iff.mp hx).1
  omega

theorem detachedIn.append {nodes : List Node} (h : detachedIn nodes id) (l : List Node) : detachedIn (nodes ++ l) id := by
  obtain ⟨h1, x, hx, hst⟩ := h
  exact ⟨h1, x, by rw [List.getElem?_append_left (List.getElem?_eq_some_iff.mp hx).1]; exact hx, hst⟩

theorem detachedIn.setSt_other {nodes : List Node} (h : detachedIn nodes id) {a : NodeId} (ha : 1 ≤ a.toNat) (hne : id ≠ a)
    (v : BitVec 2) : detachedIn (setSt nodes a v) id := by
  obtain ⟨h1, x, hx, hst⟩ := h
  have : id.toNat ≠ a.toNat := fun e => hne (BitVec.eq_of_toNat_eq e)
  exact ⟨h1, x, by rw [setSt_getElem?, if_neg (by omega)]; exact hx, hst⟩

/-- The symbols of the leaves are not in `st`. -/
theorem legal_setSt {nodes : List Node} (h : ∀ x ∈ nodes, x.leaf = true → x.sym.toNat ≤ symMax) (id : NodeId) (v : BitVec 2) :
    ∀ x ∈ setSt nodes id v, x.leaf = true → x.sym.toNat ≤ symMax := by
  intro x hx
  obtain ⟨k, hk⟩ := List.mem_iff_getElem?.mp hx
  rw [setSt_getElem?] at hk
  split at hk
  · obtain ⟨y, hy, rfl⟩ := Option.map_eq_some_iff.mp hk
    exact h y (List.mem_of_getElem? hy)
  · exact h x (List.mem_of_getElem? hk)

namespace Forest.Good

theorem stOf_of_detachedIn (hd : detachedIn f.nodes id) : stOf (nodeMemory f.nodes) id.toNat = stDetached := by
  obtain ⟨h1, x, hx, hst⟩ := hd
  rw [stOf_some (by rw [get?_nodeMemory, if_pos h1]; exact hx), hst]

/-- A DETACHED node is not queued. -/
theorem not_queued (k : f.Good c trees) (hd : detachedIn f.nodes id) : id ∉ f.heap := fun hm => by
  have := (k.grove.queued_node hm).2.2
  rw [stOf_of_detachedIn hd] at this
  exact absurd this (by decide)

/-- A DETACHED node is a root. -/
theorem root_of_detached (k : f.Good c trees) (hd : detachedIn f.nodes id) : id.toNat ∈ trees.map IdTree.root := by
  obtain ⟨t, ht, e⟩ := k.grove.root_of hd.1 hd.le (by rw [stOf_of_detachedIn hd]; decide)
  exact e ▸ List.mem_map_of_mem ht

/-- PqInsert of a DETACHED node (R110). -/
theorem insert (k : f.Good c trees) (hd : detachedIn f.nodes id) : (f.insert id).Good c trees where
  grove := by
    have hp := HeapList.insert_perm (W := weightIn f.nodes) (h := f.heap) id
    have hm : id ∈ HeapList.insert (weightIn f.nodes) f.heap id := hp.mem_iff.mpr List.mem_cons_self
    exact k.grove.setSt (h' := HeapList.insert (weightIn f.nodes) f.heap id) (v := stQueued) (k.root_of_detached hd)
      (fun y hy => by rw [hp.mem_iff, List.mem_cons, or_iff_right hy]) (by rw [if_pos hm])
  nodup := (HeapList.insert_perm id).nodup_iff.mpr (List.nodup_cons.mpr ⟨k.not_queued hd, k.nodup⟩)
  ordered := by
    show HeapList.Ordered (weightIn (setSt f.nodes id stQueued)) _
    rw [weightIn_setSt]
    exact HeapList.insert_ordered k.ordered id
  legal := legal_setSt k.legal id stQueued

/-- PqExtract (R111). -/
theorem extract (k : f.Good c trees) (hne : 0 < f.heap.length) : f.extract.Good c trees where
  grove := k.grove.extract k.nodup hne
  nodup := (List.nodup_cons.mp ((HeapList.extract_perm hne).nodup_iff.mp k.nodup)).2
  ordered := by
    show HeapList.Ordered (weightIn (setSt f.nodes (f.heap.getD 0 0#24) stDetached)) _
    rw [weightIn_setSt]
    exact HeapList.extract_ordered k.ordered
  legal := legal_setSt k.legal _ stDetached

/-- The extracted node is DETACHED. -/
theorem head_detached (k : f.Good c trees) (hne : 0 < f.heap.length) : detachedIn f.extract.nodes (f.heap.getD 0 0#24) := by
  have hq := k.grove.queued_node (HeapList.getD_mem hne)
  obtain ⟨x, hx, -⟩ := k.grove.nodeAt hq.1 hq.2.1
  refine ⟨hq.1, { x with st := stDetached }, ?_, rfl⟩
  show (setSt f.nodes _ stDetached)[_]? = _
  rw [setSt_getElem?, if_pos rfl, hx]
  rfl

/-- A DETACHED node stays so when another is extracted. -/
theorem extract_detached (k : f.Good c trees) (hne : 0 < f.heap.length) (hd : detachedIn f.nodes id) : detachedIn f.extract.nodes id :=
  hd.setSt_other (k.grove.queued_node (HeapList.getD_mem hne)).1 (fun e => k.not_queued hd (e ▸ HeapList.getD_mem hne)) stDetached

end Forest.Good

/-- The nodes after two DETACHED ones have become the children of a new one (R133). -/
def joinedNodes (nodes : List Node) (a b : NodeId) : List Node :=
  setSt (setSt (nodes ++ [newNode false 0#21 (wordIn nodes a + wordIn nodes b) a b]) a stChild) b stChild

@[simp] theorem joinedNodes_length (nodes : List Node) (a b : NodeId) : (joinedNodes nodes a b).length = nodes.length + 1 := by
  simp [joinedNodes]

theorem sameNodes_joined (nodes : List Node) (a b : NodeId) : sameNodes nodes (joinedNodes nodes a b) :=
  ((sameNodes_append nodes _).trans (sameNodes_setSt _ a stChild)).trans (sameNodes_setSt _ b stChild)

/-- A new node at the end of the joined nodes, DETACHED. -/
theorem joinedNodes_new {nodes : List Node} {a b : NodeId} (ha : 1 ≤ a.toNat) (ha' : a.toNat ≤ nodes.length) (hb : 1 ≤ b.toNat)
    (hb' : b.toNat ≤ nodes.length) (hid : id.toNat = nodes.length + 1) : detachedIn (joinedNodes nodes a b) id := by
  have h : detachedIn (nodes ++ [newNode false 0#21 (wordIn nodes a + wordIn nodes b) a b]) id :=
    ⟨by omega, _, by rw [hid, Nat.add_sub_cancel, List.getElem?_concat_length], rfl⟩
  have ne : ∀ x : NodeId, x.toNat ≤ nodes.length → id ≠ x := fun x hx e => by
    rw [← e] at hx
    omega
  exact (h.setSt_other ha (ne a ha') stChild).setSt_other hb (ne b hb') stChild

/-- The node memory of the joined nodes. -/
theorem get?_joinedNodes {nodes : List Node} {a b : NodeId} {xa xb : Node} (ha : 1 ≤ a.toNat) (hb : 1 ≤ b.toNat) (hab : a ≠ b)
    (hxa : nodes[a.toNat - 1]? = some xa) (hxb : nodes[b.toNat - 1]? = some xb) (k : Nat) :
    (nodeMemory (joinedNodes nodes a b)).get? k =
      if k = nodes.length + 1 then some (newNode false 0#21 (wordIn nodes a + wordIn nodes b) a b)
      else if k = a.toNat then some { xa with st := stChild } else if k = b.toNat then some { xb with st := stChild }
      else (nodeMemory nodes).get? k := by
  have hla := (List.getElem?_eq_some_iff.mp hxa).1
  have hlb := (List.getElem?_eq_some_iff.mp hxb).1
  have hne : a.toNat ≠ b.toNat := fun e => hab (BitVec.eq_of_toNat_eq e)
  have e1 : (nodes ++ [newNode false 0#21 (wordIn nodes a + wordIn nodes b) a b])[a.toNat - 1]? = some xa := by
    rw [List.getElem?_append_left hla, hxa]
  have e2 : (setSt (nodes ++ [newNode false 0#21 (wordIn nodes a + wordIn nodes b) a b]) a stChild)[b.toNat - 1]? = some xb := by
    rw [setSt_getElem?, if_neg (by omega), List.getElem?_append_left hlb, hxb]
  rw [joinedNodes, get?_setSt hb e2, get?_setSt ha e1, get?_snoc]
  by_cases h1 : k = nodes.length + 1
  · rw [if_neg (by omega), if_neg (by omega), if_pos h1, if_pos h1]
  · rw [if_neg h1, if_neg h1]
    by_cases h2 : k = a.toNat
    · rw [if_neg (by omega), if_pos h2, if_pos h2]
    · rw [if_neg h2, if_neg h2]

/-- Two trees of a list that have these roots, first. -/
theorem two_trees {ra rb : Nat} (hne : ra ≠ rb) (ha : ra ∈ trees.map IdTree.root) (hb : rb ∈ trees.map IdTree.root) :
    ∃ ta tb rest, trees.Perm (ta :: tb :: rest) ∧ ta.root = ra ∧ tb.root = rb := by
  obtain ⟨ta, hta, rfl⟩ := List.mem_map.mp ha
  obtain ⟨tb, htb, rfl⟩ := List.mem_map.mp hb
  have : tb ≠ ta := fun e => hne (by rw [e])
  exact ⟨ta, tb, (trees.erase ta).erase tb,
    (List.perm_cons_erase hta).trans ((List.perm_cons_erase ((List.mem_erase_of_ne this).mpr htb)).cons _), rfl, rfl⟩

/-- Two DETACHED nodes become the children of a new one: the weights fit, since all the roots' do (R133; R53 item 8). -/
theorem Forest.Good.join (k : f.Good c trees) {a b : NodeId} (ha : detachedIn f.nodes a) (hb : detachedIn f.nodes b) (hab : a ≠ b)
    (hN : c.nMax < 2 ^ 32) : ∃ trees', Forest.Good c { nodes := joinedNodes f.nodes a b, heap := f.heap } trees' := by
  have notin : ∀ y : NodeId, y ∉ f.heap → y.toNat ∉ f.heap.map (·.toNat) := fun y hy hm => by
    obtain ⟨z, hz, e⟩ := List.mem_map.mp hm
    exact hy (BitVec.eq_of_toNat_eq e ▸ hz)
  obtain ⟨ta, tb, rest, hp, ra, rb⟩ := two_trees (fun e => hab (BitVec.eq_of_toNat_eq e)) (k.root_of_detached ha) (k.root_of_detached hb)
  obtain ⟨xa, hxa, hma⟩ := k.grove.nodeAt ha.1 ha.le
  obtain ⟨xb, hxb, hmb⟩ := k.grove.nodeAt hb.1 hb.le
  have wa : weightIn f.nodes a = xa.w.toNat := by rw [weightIn, hxa]; rfl
  have wb : weightIn f.nodes b = xb.w.toNat := by rw [weightIn, hxb]; rfl
  have hsum : xa.w.toNat + xb.w.toNat ≤ c.nMax := by
    have := k.grove.bounded
    rw [(hp.map _).sum_eq, List.map_cons, List.map_cons, List.sum_cons, List.sum_cons, ra, rb, weightAt_some hma, weightAt_some hmb] at this
    omega
  have hw : (wordIn f.nodes a + wordIn f.nodes b).toNat = xa.w.toNat + xb.w.toNat := by
    rw [wordIn, wordIn, wa, wb, BitVec.toNat_add, BitVec.toNat_ofNat, BitVec.toNat_ofNat]
    omega
  refine ⟨.node (f.nodes.length + 1) ta tb :: rest, ?_, k.nodup, ?_, ?_⟩
  · show Grove c (nodeMemory (joinedNodes f.nodes a b)) (joinedNodes f.nodes a b).length f.heap _
    rw [joinedNodes_length]
    exact k.grove.link hp (by rw [ra]; exact hma) (by rw [rb]; exact hmb) (by rw [ra]; exact notin a (k.not_queued ha))
      (by rw [rb]; exact notin b (k.not_queued hb)) (fun j => by rw [get?_joinedNodes ha.1 hb.1 hab hxa hxb, ra, rb]) rfl rfl rfl
      ra.symm rb.symm hw
  · refine HeapList.ordered_congr (fun x hx => ?_) k.ordered
    have hq := k.grove.queued_node hx
    rw [joinedNodes, weightIn_setSt, weightIn_setSt, weightIn_append hq.1 hq.2.1]
  · refine legal_setSt (legal_setSt (fun x hx => ?_) a stChild) b stChild
    rcases List.mem_append.mp hx with hx | hx
    · exact k.legal x hx
    · rw [List.mem_singleton.mp hx]
      exact fun h => nomatch h

/-- COMBINE in two extractions, a join and an insertion (R133). -/
theorem grow_eq (f : Forest) : f.grow = Forest.insert
    { nodes := joinedNodes f.extract.extract.nodes (f.heap.getD 0 0#24) (f.extract.heap.getD 0 0#24), heap := f.extract.extract.heap }
    f.extract.extract.nextId := rfl

/-- COMBINE keeps the forest, its nodes and every DETACHED node (R133). -/
theorem Forest.Good.grow (k : f.Good c trees) (h2 : 2 ≤ f.heap.length) (hN : c.nMax < 2 ^ 32) (hroom : f.nodes.length < 2 ^ 24 - 1) :
    (∃ trees', f.grow.Good c trees') ∧ sameNodes f.nodes f.grow.nodes ∧ ∀ r, detachedIn f.nodes r → detachedIn f.grow.nodes r := by
  have l1 := extract_lengths (f := f) (by omega)
  have l2 := extract_lengths (f := f.extract) (by omega)
  have k1 := k.extract (by omega)
  have k2 := k1.extract (by omega)
  obtain ⟨a, ea⟩ : ∃ a, a = f.heap.getD 0 0#24 := ⟨_, rfl⟩
  obtain ⟨b, eb⟩ : ∃ b, b = f.extract.heap.getD 0 0#24 := ⟨_, rfl⟩
  have hb1 : b ∈ f.extract.heap := eb ▸ HeapList.getD_mem (by omega)
  have da1 : detachedIn f.extract.nodes a := ea ▸ k.head_detached (by omega)
  have da : detachedIn f.extract.extract.nodes a := k1.extract_detached (by omega) da1
  have db : detachedIn f.extract.extract.nodes b := eb ▸ k1.head_detached (by omega)
  have hab : a ≠ b := fun e => k1.not_queued da1 (e ▸ hb1)
  obtain ⟨trees', k3⟩ := k2.join da db hab hN
  have hid : f.extract.extract.nextId.toNat = f.extract.extract.nodes.length + 1 := nextId_toNat (by omega)
  have dn := joinedNodes_new (id := f.extract.extract.nextId) da.1 da.le db.1 db.le hid
  rw [grow_eq, ← ea, ← eb]
  refine ⟨⟨trees', k3.insert dn⟩, ?_, fun r hr => ?_⟩
  · exact (((sameNodes_setSt _ _ _).trans (sameNodes_setSt _ _ _)).trans (sameNodes_joined _ a b)).trans (sameNodes_setSt _ _ _)
  · have dr := k1.extract_detached (by omega) (k.extract_detached (by omega) hr)
    have ha : r ≠ a := fun e => k.not_queued hr (by rw [e, ea]; exact HeapList.getD_mem (by omega))
    have hb : r ≠ b := fun e => k1.not_queued (k.extract_detached (by omega) hr) (by rw [e]; exact hb1)
    have hr' := dr.le
    exact ((((dr.append _).setSt_other da.1 ha stChild).setSt_other db.1 hb stChild).setSt_other dn.1 (fun e => by rw [e] at hr'; omega) stQueued)

/-! ### The forest in the state -/

/-- Elements that have all been written are a list. -/
theorem exists_holds {α : Type} {m : Memory α} {base n : Nat} (h : ∀ k, k < n → ∃ a, m.get? (base + k) = some a) :
    ∃ l : List α, l.length = n ∧ m.holds base l := by
  induction n with
  | zero => exact ⟨[], rfl, Memory.holds_nil _ _⟩
  | succ n ih =>
    obtain ⟨l, hl, hm⟩ := ih fun k hk => h k (by omega)
    obtain ⟨a, ha⟩ := h n (by omega)
    exact ⟨l ++ [a], by simp [hl], Memory.holds_append.mpr ⟨hm, Memory.holds_cons.mpr ⟨hl ▸ ha, Memory.holds_nil _ _⟩⟩⟩

/-- Where NODE and HEAP hold a forest, their part of the invariants is what the forest's own is, and ROOT is 0 or DETACHED. -/
theorem forestPart_iff :
    s.forestPart ↔ ∃ f trees, ForestHeld s f ∧ f.Good s.cfg trees ∧ (s.root = 0#24 ∨ detachedIn f.nodes s.root) := by
  constructor
  · rintro ⟨hn, hq, ⟨h, trees, ⟨hqc, hfit, hh, hnd, hord, hids⟩, g⟩, hroot, hleg⟩
    obtain ⟨nodes, hl, hm⟩ : ∃ l : List Node, l.length = s.nodeCnt.toNat ∧ s.node.holds 1 l :=
      exists_holds fun k hk => g.written (by omega) (by omega)
    refine ⟨⟨nodes, h⟩, trees, ⟨hl.symm, by rw [hl]; exact hn, hm, hqc, hfit, hh, fun id hid => by rw [hl]; exact hids id hid⟩,
      ⟨?_, hnd, ?_, fun x hx hx' => ?_⟩, ?_⟩
    · show Grove s.cfg (nodeMemory nodes) nodes.length h trees
      rw [hl]
      exact g.same fun k h1 h2 => (holds_nodeMemory hm h1 (by rw [hl]; exact h2)).symm
    · exact HeapList.ordered_congr (fun x hx => weightOf_held hm (hids x hx).1 (by rw [hl]; exact (hids x hx).2)) hord
    · obtain ⟨k, hk, rfl⟩ := List.mem_iff_getElem.mp hx
      exact hleg (1 + k) _ (by omega) (by have : k < nodes.length := hk; omega) (hm.get hk) hx'
    · rcases hroot with h0 | ⟨h1, h2, h3⟩
      · exact .inl h0
      · obtain ⟨x, hx⟩ := g.written h1 h2
        refine .inr ⟨h1, x, ?_, by rw [← h3, stOf_some hx]⟩
        have := holds_nodeMemory hm h1 (by omega)
        rw [hx, get?_nodeMemory, if_pos h1] at this
        exact this.symm
  · rintro ⟨f, trees, held, k, hroot⟩
    have e : ∀ {k : Nat}, 1 ≤ k → k ≤ f.nodes.length → s.node.get? k = (nodeMemory f.nodes).get? k := holds_nodeMemory held.held
    refine ⟨by rw [held.cnt]; exact held.room, by rw [held.qcnt]; exact held.fits, ⟨f.heap, trees, ⟨held.qcnt, held.fits, held.heap,
      k.nodup, ?_, fun id hid => by rw [held.cnt]; exact held.ids id hid⟩, ?_⟩, ?_, fun id x h1 h2 hx hx' => ?_⟩
    · exact HeapList.ordered_congr (fun x hx => (held.weight hx).symm) k.ordered
    · rw [held.cnt]
      exact k.grove.same fun k h1 h2 => e h1 h2
    · refine hroot.imp id fun hd => ⟨hd.1, by rw [held.cnt]; exact hd.le, ?_⟩
      rw [← Forest.Good.stOf_of_detachedIn hd]
      unfold stOf
      rw [e hd.1 hd.le]
    · rw [held.cnt] at h2
      rw [e h1 h2, get?_nodeMemory, if_pos h1] at hx
      exact k.legal x (List.mem_of_getElem? hx) hx'

/-- A held shape is a held tree in any memory that has its nodes, but for their `st`. -/
theorem holdsTree_of_shape {m m' : Memory Node} {t : IdTree} (hs : holdsShape m t)
    (hsame : ∀ k ∈ t.ids, ∀ x, m.get? k = some x → ∃ y, m'.get? k = some y ∧ sameButSt x y) (hid : id.toNat = t.root) :
    holdsTree m' id (t.tree m) := by
  induction t generalizing id with
  | leaf i =>
    obtain ⟨x, hx, hleaf, -⟩ := hs
    obtain ⟨y, hy, e1, e2, -⟩ := hsame i (by simp [IdTree.ids]) x hx
    refine ⟨y, by rw [hid]; exact hy, e1.trans hleaf, ?_⟩
    rw [e2, symAt, hx]
  | node i l r ihl ihr =>
    obtain ⟨x, xl, xr, hx, hleaf, -, hl, hr, -, -, -, -, -, sl, sr⟩ := hs
    obtain ⟨y, hy, e1, -, -, e2, e3⟩ := hsame i (by simp [IdTree.ids]) x hx
    exact ⟨y, by rw [hid]; exact hy, e1.trans hleaf,
      e2 ▸ ihl sl (fun k hk => hsame k (by simp [IdTree.ids, hk])) hl, e3 ▸ ihr sr (fun k hk => hsame k (by simp [IdTree.ids, hk])) hr⟩

/-- The live tree stays live in a forest with the same nodes. -/
theorem liveTree_of_sameNodes {T : Tree} (hs : ForestHeld s f) (k : f.Good s.cfg trees) (hd : detachedIn f.nodes s.root) (ht : ForestHeld t g)
    (hr : t.root = s.root) (hn : sameNodes f.nodes g.nodes) (hT : s.liveTree T) : t.liveTree T := by
  obtain ⟨hne, hT⟩ := hT
  obtain ⟨u, hu, e⟩ := List.mem_map.mp (k.root_of_detached hd)
  have g' : Grove s.cfg s.node f.nodes.length f.heap trees := k.grove.same fun k h1 h2 => holds_nodeMemory hs.held h1 h2
  obtain rfl : T = u.tree s.node := hT.unique (g'.liveTree hu e.symm).1
  refine ⟨by rw [hr]; exact hne, hr ▸ holdsTree_of_shape (g'.shapes u hu) (fun i hi x hx => ?_) e.symm⟩
  have hi' := g'.range hu hi
  have hx' : f.nodes[i - 1]? = some x := by
    rw [holds_nodeMemory hs.held hi'.1 hi'.2, get?_nodeMemory, if_pos hi'.1] at hx
    exact hx
  obtain ⟨y, hy, s1⟩ := hn _ x hx'
  have := (List.getElem?_eq_some_iff.mp hy).1
  refine ⟨y, ?_, s1⟩
  rw [holds_nodeMemory ht.held hi'.1 (by omega), get?_nodeMemory, if_pos hi'.1]
  exact hy

/-- What a change of the forest keeps: the invariants of the new forest, ROOT and the code table (R53 items 7, 9). -/
theorem ForestTo.parts {n : Nat} {trees' : List IdTree} (hs : ForestHeld s f) (k : f.Good s.cfg trees)
    (hroot : s.root = 0#24 ∨ detachedIn f.nodes s.root) (hc : s.codesPart) (h : ForestTo s g n t) (k' : g.Good s.cfg trees')
    (hn : sameNodes f.nodes g.nodes) (hr : detachedIn f.nodes s.root → detachedIn g.nodes s.root) : t.forestPart ∧ t.codesPart := by
  obtain ⟨e, held, -, -⟩ := h
  have ec : t.cfg = s.cfg := by rw [e]
  have er : t.root = s.root := by rw [e]
  have ect : t.ct = s.ct := by rw [e]
  have ecc : t.ctCnt = s.ctCnt := by rw [e]
  refine ⟨forestPart_iff.mpr ⟨g, trees', held, by rw [ec]; exact k', by rw [er]; exact hroot.imp id hr⟩, by rw [ecc, ec]; exact hc.1,
    fun h0 => ?_⟩
  rw [ecc] at h0
  obtain ⟨T, hT, hl, hh⟩ := hc.2 h0
  refine ⟨T, liveTree_of_sameNodes hs k (hroot.resolve_left hT.1) held er hn hT, by rw [ecc]; exact hl, by rw [ect]; exact hh⟩

end Sys2Proof.Machine

/-! ## The commands on the tree-node memory and the code table -/

namespace Sys2Proof.Machine

variable {s t : State} {f g : Forest} {trees : List IdTree} {id : NodeId}

/-- The parts that the commands on NODE, HEAP and CT do not touch. -/
def State.untreedParts (s : State) : Prop := s.cfg.Legal ∧ s.tablePart ∧ s.packerPart

theorem untreedParts_node : State.onNode State.untreedParts := fun _ _ _ h => h
theorem untreedParts_nodeCnt : State.onNodeCnt State.untreedParts := fun _ _ h => h
theorem untreedParts_heap : State.onHeap State.untreedParts := ⟨fun _ _ _ h => h, fun _ _ h => h⟩
theorem untreedParts_root : State.onRoot State.untreedParts := ⟨fun _ _ h => h, fun _ _ h => h⟩
theorem untreedParts_draws : State.onDraws State.untreedParts := fun _ _ h => h
theorem untreedParts_res : State.onRes State.untreedParts := fun _ _ h => h

/-- A rule that keeps the other parts and leaves the nodes, the queue, ROOT and the code table well. -/
theorem Cmd.Keeps.of_tree {α : Type} {c : Cmd α} (h : Cmd.Inv State.untreedParts c)
    (ht : ∀ s, s.cfg.Legal → s.tablePart → s.forestPart → s.codesPart →
      Cmd.wp c (fun _ t => t.forestPart ∧ t.codesPart) (fun _ _ => True) s) : c.Keeps :=
  fun s hL ⟨table, forest, codes, packer⟩ =>
    Cmd.wp_mono (Cmd.wp_and (h s ⟨hL, table, packer⟩) (ht s hL table forest codes))
      (fun _ _ ⟨⟨hL, table, packer⟩, forest, codes⟩ => ⟨hL, table, forest, codes, packer⟩) fun _ _ _ => trivial

/-! ### The queue (40_priority_queue.md) -/

/-- PqInsert of a DETACHED node that is not ROOT (R110, R112). -/
theorem pqInsert_parts (hL : s.cfg.Legal) (hs : ForestHeld s f) (k : f.Good s.cfg trees) (hroot : s.root = 0#24 ∨ detachedIn f.nodes s.root)
    (hc : s.codesPart) (hd : detachedIn f.nodes id) (hne : id ≠ s.root) :
    Cmd.wp (pqInsert id) (fun _ t => t.forestPart ∧ t.codesPart) (fun _ _ => True) s := by
  have ⟨⟨_, hk, _⟩, _⟩ := hL
  by_cases hfull : f.heap.length = s.cfg.kMax
  · rw [pqInsert, Cmd.wp_bind, Cmd.wp_csr, Cmd.wp_bind, Cmd.wp_csr, Cmd.wp_bind, Cmd.wp_raiseIf]
    exact ⟨fun _ => trivial, fun h => absurd (hs.qcnt.trans hfull) h⟩
  · refine Cmd.wp_mono (pqInsert_forest hs (Nat.lt_of_le_of_ne hs.fits hfull) (by omega) hd.1 hd.le) (fun _ t ht => ?_) fun _ _ h => h.elim
    exact ht.parts hs k hroot hc (k.insert hd) (sameNodes_setSt _ _ _) fun hr => hr.setSt_other hd.1 (Ne.symm hne) _

/-- A read of an allocated node answers the node of the list. -/
theorem detachedIn_of_read (hs : ForestHeld s f) (h1 : id ≠ 0#24) (h2 : id.toNat ≤ s.nodeCnt.toNat)
    (hst : (nodeAt id.toNat s).1.st = stDetached) : detachedIn f.nodes id ∧ (nodeAt id.toNat s).2 = s := by
  have h1 : 1 ≤ id.toNat := Nat.one_le_iff_ne_zero.mpr fun e => h1 (BitVec.eq_of_toNat_eq e)
  rw [hs.cnt] at h2
  rw [nodeAt_some (hs.node h1 h2)] at hst ⊢
  exact ⟨⟨h1, _, List.getElem?_eq_getElem (by omega), hst⟩, rfl⟩

theorem pqInsertRule_keeps (n : NodeId) : (pqInsertRule n).Keeps := by
  refine .of_tree (pqInsertRule_inv untreedParts_draws untreedParts_heap untreedParts_node n) fun s hL _ forest hc => ?_
  obtain ⟨f, trees, hs, k, hroot⟩ := forestPart_iff.mp forest
  simp only [pqInsertRule, Cmd.wp_bind, Cmd.wp_csr, Cmd.wp_raiseIf, Cmd.wp_readNode]
  refine ⟨fun _ => trivial, fun hn => ⟨fun _ => trivial, fun hst => ⟨fun _ => trivial, fun hr => ?_⟩⟩⟩
  rw [not_or, Nat.not_lt] at hn
  obtain ⟨hd, e⟩ := detachedIn_of_read hs hn.1 hn.2 (not_not.mp hst)
  rw [e] at hr ⊢
  exact pqInsert_parts hL hs k hroot hc hd hr

/-- PqExtract from a queue that is not empty (R111). -/
theorem pqExtract_parts (hs : ForestHeld s f) (k : f.Good s.cfg trees) (hroot : s.root = 0#24 ∨ detachedIn f.nodes s.root)
    (hc : s.codesPart) (hne : 0 < f.heap.length) :
    Cmd.wp pqExtract (fun _ t => t.forestPart ∧ t.codesPart) (fun _ _ => True) s :=
  Cmd.wp_mono (pqExtract_forest hs hne)
    (fun _ _ ⟨_, ht⟩ => ht.parts hs k hroot hc (k.extract hne) (sameNodes_setSt _ _ _) fun hr => k.extract_detached hne hr)
    fun _ _ h => h.elim

theorem pqExtractRule_keeps : pqExtractRule.Keeps := by
  refine .of_tree (pqExtractRule_inv untreedParts_draws untreedParts_heap untreedParts_node (fun _ _ h => h) untreedParts_res)
    fun s hL _ forest hc => ?_
  obtain ⟨f, trees, hs, k, hroot⟩ := forestPart_iff.mp forest
  rw [pqExtractRule, Cmd.wp_bind, Cmd.wp_csr, Cmd.wp_ite]
  refine ⟨fun _ => ⟨forest, hc⟩, fun hne => ?_⟩
  have hpos : 0 < f.heap.length := by
    rw [← hs.qcnt]
    exact Nat.pos_of_ne_zero fun e => hne (BitVec.eq_of_toNat_eq e)
  exact Cmd.wp_then (pqExtract_parts hs k hroot hc hpos) (fun _ _ h => h) fun _ _ h => h

/-! ### The builder (41_tree_builder.md) -/

/-- The leaves of a held shape are its ids that name a leaf. -/
theorem leafIds_of_leaf {m : Memory Node} {t : IdTree} {x : Node} {k : Nat} (hs : holdsShape m t) (hk : k ∈ t.ids) (hx : m.get? k = some x)
    (hleaf : x.leaf = true) : k ∈ t.leafIds := by
  induction t with
  | leaf i => exact hk
  | node i l r ihl ihr =>
    obtain ⟨y, -, -, hy, hy', -, -, -, -, -, -, -, -, sl, sr⟩ := hs
    rcases List.mem_cons.mp hk with rfl | hk
    · obtain rfl : x = y := Option.some.inj (hx.symm.trans hy)
      exact absurd (hleaf.symm.trans hy') (by decide)
    · exact List.mem_append.mpr ((List.mem_append.mp hk).imp (ihl sl) (ihr sr))

/-- The forest that the builder makes of a table of legal symbols has legal leaves: a leaf's id is that of its entry (R132). -/
theorem ForestOk.good {c : Config} {l : List FtEntry} (k : ForestOk c l f trees) (hleg : ∀ e ∈ l, e.sym.toNat ≤ symMax) :
    f.Good c trees := by
  refine ⟨k.grove, k.nodup, k.ordered, fun x hx hleaf => ?_⟩
  obtain ⟨j, hj⟩ := List.mem_iff_getElem?.mp hx
  have hjl := (List.getElem?_eq_some_iff.mp hj).1
  have hm : (nodeMemory f.nodes).get? (j + 1) = some x := by rw [get?_nodeMemory, if_pos (by omega)]; exact hj
  obtain ⟨t, ht, hmem⟩ := k.grove.tree (k := j + 1) (by omega) (by omega)
  have hin : j + 1 ∈ trees.flatMap IdTree.leafIds := List.mem_flatMap.mpr ⟨t, ht, leafIds_of_leaf (k.grove.shapes t ht) hmem hm hleaf⟩
  have hlt : j < l.length := by
    have := List.mem_range'_1.mp (k.leafIds.mem_iff.mp hin)
    omega
  obtain ⟨y, hy, -, hsym, -⟩ := k.leafNodes j l[j] (List.getElem?_eq_getElem hlt)
  obtain rfl : x = y := Option.some.inj (hj.symm.trans hy)
  rw [hsym]
  exact hleg _ (List.getElem_mem hlt)

/-- LEAVES makes single leaves of the table's entries (R132). -/
theorem leaves_keeps : leaves.Keeps := by
  refine .of_tree (leaves_inv untreedParts_draws untreedParts_heap untreedParts_node untreedParts_nodeCnt untreedParts_root)
    fun s hL table _ _ => ?_
  obtain ⟨hfit, l, hl, -, hleg, hsum⟩ := table
  have ⟨⟨_, hk, _⟩, _⟩ := hL
  rw [hl.1] at hfit
  refine Cmd.wp_mono (leaves_forest hl hfit hk) (fun _ t ht => ?_) fun _ _ h => h.elim
  obtain ⟨trees, ok⟩ := leavesForest_ok l hsum hfit hk
  obtain ⟨e, held, -, -⟩ := ht
  have ec : t.cfg = s.cfg := by rw [e]; rfl
  exact ⟨forestPart_iff.mpr ⟨_, trees, held, by rw [ec]; exact ok.good fun x hx => (hleg x hx).1, .inl (by rw [e]; rfl)⟩,
    codesPart_of_none (by rw [e]; rfl)⟩

/-- BUILD makes one tree of the table, whose root it takes from the queue (R134). -/
theorem build_keeps : build.Keeps := by
  refine .of_tree (build_inv untreedParts_draws untreedParts_heap untreedParts_node untreedParts_nodeCnt untreedParts_root
    untreedParts_res) fun s hL table _ _ => ?_
  obtain ⟨hfit, l, hl, -, hleg, hsum⟩ := table
  have ⟨⟨_, hk, _⟩, ⟨_, hn⟩, _⟩ := hL
  rw [hl.1] at hfit
  by_cases hne : l = []
  · rw [build, Cmd.wp_bind, Cmd.wp_csr, Cmd.wp_bind, Cmd.wp_raiseIf]
    exact ⟨fun _ => trivial, fun h => absurd (by rw [hl.1, hne]; rfl) h⟩
  · refine Cmd.wp_mono (build_forest hl hne hfit hk) (fun _ t ht => ?_) fun _ _ h => h.elim
    have hll := leavesForest_lengths l
    have hgl := grownForest_lengths hne
    obtain ⟨trees, ok⟩ := leavesForest_ok l hsum hfit hk
    obtain ⟨T, ok⟩ : ∃ T, ForestOk s.cfg l (grownForest l) [T] :=
      growAll_ok l.length ok (by have := List.length_pos_of_ne_nil hne; omega) (by omega) hfit hk (by omega)
    have k := ok.good fun x hx => (hleg x hx).1
    obtain ⟨e, held, -, -⟩ := ht
    have ec : t.cfg = s.cfg := by rw [e]; rfl
    have er : t.root = builtRoot l := by rw [e]
    exact ⟨forestPart_iff.mpr ⟨_, [T], held, by rw [ec]; exact k.extract (by omega), .inr (by rw [er]; exact k.head_detached (by omega))⟩,
      codesPart_of_none (by rw [e]; rfl)⟩

theorem combine_keeps : combine.Keeps := by
  refine .of_tree (combine_inv untreedParts_draws untreedParts_heap untreedParts_node untreedParts_nodeCnt untreedParts_res)
    fun s hL _ forest hc => ?_
  obtain ⟨f, trees, hs, k, hroot⟩ := forestPart_iff.mp forest
  have ⟨⟨_, hk, _⟩, ⟨_, hn⟩, _⟩ := hL
  have hnm := nodeMax_lt hk
  by_cases h2 : f.heap.length < 2
  · rw [combine, Cmd.wp_bind, Cmd.wp_csr, Cmd.wp_bind, Cmd.wp_raiseIf]
    exact ⟨fun _ => trivial, fun h => absurd (by rw [hs.qcnt]; exact h2) h⟩
  · by_cases hfull : f.nodes.length = s.cfg.nodeMax
    · simp only [combine, Cmd.wp_bind, Cmd.wp_csr, Cmd.wp_raiseIf]
      exact ⟨fun _ => trivial, fun _ => ⟨fun _ => trivial, fun h => absurd (hs.cnt.trans hfull) h⟩⟩
    · have hroom := Nat.lt_of_le_of_ne hs.room hfull
      obtain ⟨⟨trees', k'⟩, hsame, hdet⟩ := k.grow (by omega) (by omega) (by omega)
      refine Cmd.wp_mono (combine_forest hs (by omega) hroom hk) (fun _ t ht => ?_) fun _ _ h => h.elim
      exact ht.parts (s := { s with res := f.nextId.setWidth 32 }) ⟨hs.cnt, hs.room, hs.held, hs.qcnt, hs.fits, hs.heap, hs.ids⟩ k hroot hc k' hsame
        (hdet s.root)

theorem setRootRule_keeps (n : NodeId) : (setRootRule n).Keeps := by
  refine .of_tree (setRootRule_inv untreedParts_draws untreedParts_root n) fun s hL _ forest hc => ?_
  obtain ⟨f, trees, hs, k, hroot⟩ := forestPart_iff.mp forest
  simp only [setRootRule, Cmd.wp_bind, Cmd.wp_csr, Cmd.wp_raiseIf, Cmd.wp_readNode, Cmd.wp_update]
  refine ⟨fun _ => trivial, fun hn => ⟨fun _ => trivial, fun hst => ?_⟩⟩
  rw [not_or, Nat.not_lt] at hn
  obtain ⟨hd, e⟩ := detachedIn_of_read hs hn.1 hn.2 (not_not.mp hst)
  rw [e]
  exact ⟨forestPart_iff.mpr ⟨f, trees, ⟨hs.cnt, hs.room, hs.held, hs.qcnt, hs.fits, hs.heap, hs.ids⟩, k, .inr hd⟩, codesPart_of_none rfl⟩

/-! ### The live tree and its code table (42_code_table.md) -/

/-- ROOT, when it is not 0, is the root of a tree that a walk ends on, with as many leaves as CT has entries (R53 items 3, 4, 7, 11). -/
theorem liveTree_of_forestPart (hg : ∃ h trees, s.queue h ∧ Grove s.cfg s.node s.nodeCnt.toNat h trees)
    (hn : s.nodeCnt.toNat ≤ s.cfg.nodeMax) (hr : s.rootOk) (hne : s.root ≠ 0#24) :
    ∃ T, s.liveTree T ∧ T.size ≤ s.cfg.nodeMax ∧ T.leaves.length ≤ s.cfg.kMax := by
  obtain ⟨h, trees, -, g⟩ := hg
  obtain ⟨h1, h2, hst⟩ := hr.resolve_left hne
  obtain ⟨t, ht, e⟩ := g.root_of h1 h2 (by rw [hst]; decide)
  obtain ⟨hT, hsize, hl⟩ := g.liveTree ht e.symm
  exact ⟨t.tree s.node, ⟨hne, hT⟩, Nat.le_trans hsize hn, hl⟩

/-- CODEGEN writes CT alone, and lists the codes of the live tree (R150). -/
theorem codeGen_keeps : codeGen.Keeps := by
  intro s hL ⟨table, forest, codes, packer⟩
  have others := codeGen_inv (P := fun u => u.cfg.Legal ∧ u.tablePart ∧ u.forestPart ∧ u.packerPart) (fun _ _ h => h)
    ⟨fun _ _ _ h => h, fun _ _ h => h⟩ s ⟨hL, table, forest, packer⟩
  have ⟨⟨_, hk, _⟩, _⟩ := hL
  by_cases hroot : s.root = 0#24
  · rw [codeGen, Cmd.wp_bind, Cmd.wp_csr, Cmd.wp_bind, Cmd.wp_raiseIf]
    exact ⟨fun _ => trivial, fun h => absurd hroot h⟩
  · obtain ⟨T, hT, hsize, hl⟩ := liveTree_of_forestPart forest.2.2.1 forest.1 forest.2.2.2.1 hroot
    refine Cmd.wp_mono (Cmd.wp_and others (codeGen_ok hT hsize)) (fun _ t ⟨⟨hL, table, forest, packer⟩, ht⟩ => ?_) fun _ _ _ => trivial
    have held := withCodes_holds (s := { s with ctCnt := 0#32 }) (l := []) (l' := codeTable T) rfl (Memory.holds_nil _ _)
      (by rw [List.length_nil, Nat.zero_add, codeTable_length]; exact hl) (by show s.cfg.kMax < 2 ^ 32; omega)
    rw [List.length_nil, Nat.zero_add, List.nil_append, ← ht] at held
    have ef := withCodes_frame { s with ctCnt := 0#32 } (codeTable T)
    rw [← ht] at ef
    refine ⟨hL, table, forest, ⟨?_, fun _ => ⟨T, ?_, held.1, held.2.1⟩⟩, packer⟩
    · rw [held.1, codeTable_length, ef]
      exact hl
    · rw [ef]
      exact hT

end Sys2Proof.Machine

/-! ## PARSE, whatever the bytes read as -/

namespace Sys2Proof.Machine

variable {s t u : State}

/-! ### One record (44_container.md R195) -/

/-- What ParseTree writes. -/
def TreeRead (s u : State) : Prop := u = { s with node := u.node, nodeCnt := u.nodeCnt, root := u.root, draws := u.draws }

theorem TreeRead.trans (h1 : TreeRead s t) (h2 : TreeRead t u) : TreeRead s u := by
  unfold TreeRead at *
  rw [h1] at h2
  exact h2

theorem TreeRead.cfg (h : TreeRead s u) : u.cfg = s.cfg := by rw [h]

/-- Reads alone change the number of free values alone. -/
def DrawsOnly (s u : State) : Prop := u = { s with draws := u.draws }

theorem drawsOnly_onDraws (s : State) : State.onDraws (DrawsOnly s) := fun u n h => by
  unfold DrawsOnly at *
  rw [h]

/-- A record that is read has a legal symbol (R195). -/
theorem readRecord_legal (p last : Nat) :
    Cmd.wp (readRecord p last) (fun r u => DrawsOnly s u ∧ r.legal) (fun _ _ => True) s := by
  refine Cmd.wp_mono (Cmd.wp_and (readRecord_inv (drawsOnly_onDraws s) p last s rfl) (?_ : Cmd.wp _ (fun r _ => r.legal) (fun _ _ => True) s))
    (fun _ _ h => h) fun _ _ _ => trivial
  simp only [readRecord, Cmd.wp_bind, Cmd.wp_raiseIf, Cmd.wp_readBlob, Cmd.wp_ite, Cmd.wp_pure, Cmd.wp_raise]
  refine ⟨fun _ => trivial, fun _ => ⟨fun _ => ⟨fun _ => trivial, fun _ => ⟨fun _ => trivial, fun hs => ?_⟩⟩,
    fun _ => ⟨fun _ => trivial, fun _ => trivial⟩⟩⟩
  show (BitVec.ofNat 21 _).toNat ≤ symMax
  rw [BitVec.toNat_ofNat]
  exact Nat.le_trans (Nat.mod_le _ _) (Nat.le_of_not_lt hs)

theorem get?_storeNode {id : NodeId} (h1 : 1 ≤ id.toNat) (h2 : id.toNat ≤ s.cfg.nodeMax) (y : Node) (k : Nat) :
    (s.storeNode id y).node.get? k = if k = id.toNat then some y else s.node.get? k := by
  show (s.node.store 1 (s.cfg.nodeMax + 1) id.toNat y).get? k = _
  rw [Memory.get?_store]
  by_cases e : k = id.toNat
  · rw [if_pos ⟨e, h1, by omega⟩, if_pos e]
  · rw [if_neg fun h => e h.1, if_neg e]

/-- The new node becomes a child of the open node on top of the stack (R195). -/
theorem wp_attach {id t : NodeId} {x y : Node} {stk : List NodeId} (hne : id ≠ 1#24) (hlt : t.toNat < id.toNat) (ht : 1 ≤ t.toNat)
    (hid : id.toNat ≤ s.cfg.nodeMax) (hx : s.node.get? t.toNat = some x) (hy : s.node.get? id.toNat = some y)
    {Q : List NodeId → State → Prop} {E : Stop → State → Prop}
    (h : ∀ u, u = { s with node := u.node } →
      (∀ k, u.node.get? k = if k = id.toNat then some { y with st := stChild } else if k = t.toNat then some (withChild x id) else s.node.get? k) →
      Q (stackAfter x t stk) u) : Cmd.wp (attach id (t :: stk)) Q E s := by
  have store : ∀ z k, (s.storeNode t z).node.get? k = if k = t.toNat then some z else s.node.get? k := get?_storeNode ht (by omega)
  have mark : ∀ z, z = withChild x id → Cmd.wp (setNodeSt id stChild) (fun _ => Q (stackAfter x t stk)) E (s.storeNode t z) := by
    intro z hz
    rw [setNodeSt, Cmd.wp_bind, Cmd.wp_readNode, nodeAt_some (n := y) (by rw [store, if_neg (by omega)]; exact hy), Cmd.wp_writeNode]
    refine h _ rfl fun k => ?_
    show ((s.storeNode t z).storeNode id { y with st := stChild }).node.get? k = _
    rw [get?_storeNode (s := s.storeNode t z) (by omega) hid, store, hz]
  rw [attach, if_neg hne, Cmd.wp_bind, Cmd.wp_readNode, nodeAt_some hx, Cmd.wp_ite]
  refine ⟨fun e => ?_, fun e => ?_⟩
  · have m := mark { x with l := id } (by rw [withChild, if_pos e])
    rw [stackAfter, if_pos e] at m
    rw [Cmd.wp_bind, setNodeLeft, Cmd.wp_bind, Cmd.wp_readNode, nodeAt_some hx, Cmd.wp_writeNode, Cmd.wp_bind]
    exact m
  · have m := mark { x with r := id } (by rw [withChild, if_neg e])
    rw [stackAfter, if_neg e] at m
    rw [Cmd.wp_bind, setNodeRight, Cmd.wp_bind, Cmd.wp_readNode, nodeAt_some hx, Cmd.wp_writeNode, Cmd.wp_bind]
    exact m

/-- The node of a record, or E_CAPACITY (R195). -/
theorem allocRecord_any {r : Record} (hk : s.cfg.kMax ≤ 2 ^ 23) (hn : s.nodeCnt.toNat ≤ s.cfg.nodeMax) {Q : NodeId → State → Prop}
    (h : ∀ u, s.nodeCnt.toNat < s.cfg.nodeMax → TreeRead s u → u.root = s.root → u.nodeCnt.toNat = s.nodeCnt.toNat + 1 →
      (∀ k, u.node.get? k = if k = s.nodeCnt.toNat + 1 then some (r.node stDetached) else s.node.get? k) →
      Q (BitVec.ofNat 24 (s.nodeCnt.toNat + 1)) u) : Cmd.wp (allocRecord r) Q (fun _ _ => True) s := by
  have hnm := nodeMax_lt hk
  by_cases hfull : s.nodeCnt.toNat = s.cfg.nodeMax
  · have full : ∀ leaf sym, Cmd.wp (nodeAlloc leaf sym 0#32 0#24 0#24) Q (fun _ _ => True) s := fun leaf sym => by
      rw [nodeAlloc, Cmd.wp_bind, Cmd.wp_csr, Cmd.wp_bind, Cmd.wp_csr, Cmd.wp_bind, Cmd.wp_raiseIf]
      exact ⟨fun _ => trivial, fun h => absurd hfull h⟩
    cases r <;> exact full _ _
  · have hroom := Nat.lt_of_le_of_ne hn hfull
    refine wp_allocRecord hk hroom (h _ hroom rfl rfl ?_ fun k => ?_)
    · show (BitVec.ofNat 32 (s.nodeCnt.toNat + 1)).toNat = _
      rw [BitVec.toNat_ofNat]
      omega
    · show (s.node.store 1 (s.cfg.nodeMax + 1) (s.nodeCnt.toNat + 1) (r.node stDetached)).get? k = _
      rw [Memory.get?_store]
      by_cases e : k = s.nodeCnt.toNat + 1
      · rw [if_pos ⟨e, by omega, by omega⟩, if_pos e]
      · rw [if_neg fun hh => e hh.1, if_neg e]

/-- One turn of the loop with an open node on top of the stack, whatever its record reads as (R195). -/
theorem parse_record {t : NodeId} {x : Node} {stk : List NodeId} {p last fuel : Nat} (hk : s.cfg.kMax ≤ 2 ^ 23)
    (hn : s.nodeCnt.toNat ≤ s.cfg.nodeMax) (ht1 : 1 ≤ t.toNat) (ht : t.toNat ≤ s.nodeCnt.toNat) (hx : s.node.get? t.toNat = some x)
    {Q : Nat → State → Prop}
    (h : ∀ r u, r.legal → s.nodeCnt.toNat < s.cfg.nodeMax → TreeRead s u → u.nodeCnt.toNat = s.nodeCnt.toNat + 1 →
      (∀ k, u.node.get? k = if k = s.nodeCnt.toNat + 1 then some (r.node stChild)
        else if k = t.toNat then some (withChild x (BitVec.ofNat 24 (s.nodeCnt.toNat + 1))) else s.node.get? k) →
      Cmd.wp (resume last fuel (p + r.size) (pushed r (BitVec.ofNat 24 (s.nodeCnt.toNat + 1)) (stackAfter x t stk))) Q (fun _ _ => True) u) :
    Cmd.wp (parseRecords last (fuel + 1) p (t :: stk)) Q (fun _ _ => True) s := by
  have hnm := nodeMax_lt hk
  rw [parseRecords]
  refine Cmd.wp_then (readRecord_legal p last) (fun r v ⟨hv, hr⟩ => ?_) fun _ _ h => h
  have vc : v.cfg = s.cfg := by rw [hv]
  have vn : v.nodeCnt = s.nodeCnt := by rw [hv]
  have vm : v.node = s.node := by rw [hv]
  rw [Cmd.wp_bind]
  refine allocRecord_any (by rw [vc]; exact hk) (by rw [vc, vn]; exact hn) fun w hroom hw _ wn wm => ?_
  rw [vn, vc] at hroom
  rw [vn] at wn wm ⊢
  have hid : (BitVec.ofNat 24 (s.nodeCnt.toNat + 1)).toNat = s.nodeCnt.toNat + 1 := by
    rw [BitVec.toNat_ofNat]
    omega
  rw [Cmd.wp_bind]
  refine wp_attach (x := x) (y := r.node stDetached) (fun e => ?_) (by omega) ht1 (by rw [hw.cfg, vc]; omega)
    (by rw [wm, if_neg (by omega), vm]; exact hx) (by rw [wm, hid, if_pos rfl]) fun u hu um => ?_
  · rw [e] at hid
    change 1 = _ at hid
    omega
  · refine wp_open (fun _ _ => trivial) fun _ => h r u hr hroom ?_ ?_ fun k => ?_
    · unfold TreeRead at *
      unfold DrawsOnly at hv
      rw [hu, hw, hv]
    · rw [hu]
      exact wn
    · rw [um, wm, hid, Record.node_st, vm]
      by_cases e : k = s.nodeCnt.toNat + 1
      · rw [if_pos e, if_pos e]
      · rw [if_neg e, if_neg e, if_neg e]

/-! ### A subtree -/

/-- From `s` to `u` a subtree has been read (R195): its nodes are numbered in pre-order after those of `s`, its root has weight 0 and
this `st`, and its leaves hold legal symbols. -/
structure Added (s u : State) (ids : IdTree) (v : BitVec 2) : Prop where
  frame : TreeRead s u
  more : s.nodeCnt.toNat < u.nodeCnt.toNat
  room : u.nodeCnt.toNat ≤ s.cfg.nodeMax
  order : ids.ids = List.range' (s.nodeCnt.toNat + 1) (u.nodeCnt.toNat - s.nodeCnt.toNat)
  shape : holdsShape u.node ids
  top : ∃ z, u.node.get? (s.nodeCnt.toNat + 1) = some z ∧ z.w = 0#32 ∧ z.st = v
  legal : ∀ k x, s.nodeCnt.toNat < k → k ≤ u.nodeCnt.toNat → u.node.get? k = some x → x.leaf = true → x.sym.toNat ≤ symMax

/-- The subtree has been given to the open node `t`, which was `x`; the nodes before it are as they were. -/
structure ChildAdded (s u : State) (t : NodeId) (x : Node) (ids : IdTree) : Prop extends Added s u ids stChild where
  parent : u.node.get? t.toNat = some (withChild x (BitVec.ofNat 24 (s.nodeCnt.toNat + 1)))
  old : ∀ k, k ≤ s.nodeCnt.toNat → k ≠ t.toNat → u.node.get? k = s.node.get? k

theorem Added.root {ids : IdTree} {v : BitVec 2} (h : Added s u ids v) : ids.root = s.nodeCnt.toNat + 1 := by
  have ho := h.order
  have hm := h.more
  rw [show u.nodeCnt.toNat - s.nodeCnt.toNat = (u.nodeCnt.toNat - s.nodeCnt.toNat - 1) + 1 by omega, List.range'_succ] at ho
  cases ids with
  | leaf id => exact (List.cons.inj ho).1
  | node id l r => exact (List.cons.inj ho).1

/-- A leaf alone. -/
theorem Added.leaf {x : Symbol} {v : BitVec 2} (hx : x.toNat ≤ symMax) (hroom : s.nodeCnt.toNat < s.cfg.nodeMax) (hf : TreeRead s u)
    (hn : u.nodeCnt.toNat = s.nodeCnt.toNat + 1) (hm : u.node.get? (s.nodeCnt.toNat + 1) = some ((Record.leaf x).node v)) :
    Added s u (.leaf (s.nodeCnt.toNat + 1)) v where
  frame := hf
  more := by omega
  room := by omega
  order := by rw [hn, Nat.add_sub_cancel_left]; rfl
  shape := ⟨_, hm, rfl, rfl, rfl⟩
  top := ⟨_, hm, rfl, rfl⟩
  legal := fun k y h1 h2 hy _ => by
    obtain rfl : k = s.nodeCnt.toNat + 1 := by omega
    obtain rfl := Option.some.inj (hm.symm.trans hy)
    exact hx

/-- An internal node with the two subtrees read after it. -/
theorem Added.node {u0 u1 u2 : State} {id : NodeId} {v : BitVec 2} {ids1 ids2 : IdTree} (hk : s.cfg.kMax ≤ 2 ^ 23) (h0 : TreeRead s u0)
    (hn : u0.nodeCnt.toNat = s.nodeCnt.toNat + 1) (hid : id.toNat = s.nodeCnt.toNat + 1)
    (c1 : ChildAdded u0 u1 id (Record.internal.node v) ids1)
    (c2 : ChildAdded u1 u2 id (withChild (Record.internal.node v) (BitVec.ofNat 24 (u0.nodeCnt.toNat + 1))) ids2) :
    Added s u2 (.node (s.nodeCnt.toNat + 1) ids1 ids2) v := by
  have hnm := nodeMax_lt hk
  have f1 := h0.trans c1.frame
  have f2 := f1.trans c2.frame
  have m1 := c1.more
  have m2 := c2.more
  have r1 := c1.room
  have r2 := c2.room
  rw [h0.cfg] at r1
  rw [f1.cfg] at r2
  have root1 := c1.toAdded.root
  have root2 := c2.toAdded.root
  have hl : (BitVec.ofNat 24 (u0.nodeCnt.toNat + 1)).toNat = u0.nodeCnt.toNat + 1 := by rw [BitVec.toNat_ofNat]; omega
  have hr : (BitVec.ofNat 24 (u1.nodeCnt.toNat + 1)).toNat = u1.nodeCnt.toNat + 1 := by rw [BitVec.toNat_ofNat]; omega
  have hl0 : BitVec.ofNat 24 (u0.nodeCnt.toNat + 1) ≠ 0#24 := fun e => by rw [e] at hl; change 0 = _ at hl; omega
  have old : ∀ k, s.nodeCnt.toNat + 1 < k → k ≤ u1.nodeCnt.toNat → u2.node.get? k = u1.node.get? k := fun k h1 h2 =>
    c2.old k h2 (by omega)
  have htop : u2.node.get? (s.nodeCnt.toNat + 1) = some { Record.internal.node v with
      l := BitVec.ofNat 24 (u0.nodeCnt.toNat + 1), r := BitVec.ofNat 24 (u1.nodeCnt.toNat + 1) } := by
    rw [← hid, c2.parent, withChild, if_neg (by exact hl0)]
    rfl
  obtain ⟨z1, hz1, w1, st1⟩ := c1.top
  obtain ⟨z2, hz2, w2, st2⟩ := c2.top
  refine ⟨f2, by omega, by omega, ?_, ⟨_, z1, z2, htop, rfl, rfl, ?_, ?_, ?_, ?_, st1, st2, ?_, ?_, c2.shape⟩, ⟨_, htop, rfl, rfl⟩, ?_⟩
  · rw [IdTree.ids, c1.order, c2.order, show u2.nodeCnt.toNat - s.nodeCnt.toNat =
      (u1.nodeCnt.toNat - u0.nodeCnt.toNat) + (u2.nodeCnt.toNat - u1.nodeCnt.toNat) + 1 by omega, List.range'_succ, hn]
    have := List.range'_append (s := s.nodeCnt.toNat + 1 + 1) (m := u1.nodeCnt.toNat - u0.nodeCnt.toNat) (n := u2.nodeCnt.toNat - u1.nodeCnt.toNat) (step := 1)
    rw [show s.nodeCnt.toNat + 1 + 1 + 1 * (u1.nodeCnt.toNat - u0.nodeCnt.toNat) = u1.nodeCnt.toNat + 1 by omega, hn] at this
    rw [this]
  · exact hl.trans root1.symm
  · exact hr.trans root2.symm
  · rw [root1, old _ (by omega) (by omega)]
    exact hz1
  · rw [root2]
    exact hz2
  · rw [w1, w2]
    rfl
  · refine c1.shape.same fun k hk => ?_
    rw [c1.order, List.mem_range'_1] at hk
    exact old k (by omega) (by omega)
  · intro k x h1 h2 hx hleaf
    rcases Nat.lt_trichotomy k (s.nodeCnt.toNat + 1) with h | rfl | h
    · omega
    · obtain rfl := Option.some.inj (htop.symm.trans hx)
      exact absurd hleaf Bool.false_ne_true
    · by_cases e : k ≤ u1.nodeCnt.toNat
      · rw [old k h e] at hx
        exact c1.legal k x (by omega) e hx hleaf
      · exact c2.legal k x (by omega) h2 hx hleaf

/-- A loop with an open node on top of the stack reads a subtree for it, or raises, within this measure. -/
def ParsesSubtree (last fuel : Nat) : Prop :=
  ∀ (s : State) (t : NodeId) (x : Node) (stk : List NodeId) (p : Nat) (Q : Nat → State → Prop), s.cfg.kMax ≤ 2 ^ 23 →
    s.nodeCnt.toNat ≤ s.cfg.nodeMax → 1 ≤ t.toNat → t.toNat ≤ s.nodeCnt.toNat → s.node.get? t.toNat = some x →
    (∀ u ids fuel' p', fuel' ≤ fuel → ChildAdded s u t x ids →
      Cmd.wp (resume last fuel' p' (stackAfter x t stk)) Q (fun _ _ => True) u) →
    Cmd.wp (parseRecords last fuel p (t :: stk)) Q (fun _ _ => True) s

/-- After the record of an internal node its two subtrees are read. -/
theorem parse_children {last fuel p : Nat} (hsub : ∀ f, f ≤ fuel → ParsesSubtree last f) {id : NodeId} {v : BitVec 2} {stk : List NodeId}
    {Q : Nat → State → Prop} (hk : s.cfg.kMax ≤ 2 ^ 23) (hroom : s.nodeCnt.toNat < s.cfg.nodeMax) (h0 : TreeRead s u)
    (hn : u.nodeCnt.toNat = s.nodeCnt.toNat + 1) (hid : id.toNat = s.nodeCnt.toNat + 1)
    (hx : u.node.get? (s.nodeCnt.toNat + 1) = some (Record.internal.node v))
    (h : ∀ w ids fuel' p', fuel' ≤ fuel → Added s w ids v → (∀ k, k ≤ s.nodeCnt.toNat → w.node.get? k = u.node.get? k) →
      Cmd.wp (resume last fuel' p' stk) Q (fun _ _ => True) w) :
    Cmd.wp (parseRecords last fuel p (id :: stk)) Q (fun _ _ => True) u := by
  have hnm := nodeMax_lt hk
  refine hsub fuel (Nat.le_refl _) u id (Record.internal.node v) stk p Q (by rw [h0.cfg]; exact hk) (by rw [h0.cfg]; omega) (by omega) (by omega)
    (by rw [hid]; exact hx) fun u1 ids1 f1 p1 hf1 c1 => ?_
  have f1c := (h0.trans c1.frame).cfg
  have m1 := c1.more
  have r1 := c1.room
  rw [h0.cfg] at r1
  show Cmd.wp (parseRecords last f1 p1 (id :: stk)) Q _ u1
  refine hsub f1 hf1 u1 id _ stk p1 Q (by rw [f1c]; exact hk) (by rw [f1c]; omega) (by omega) (by omega) c1.parent fun u2 ids2 f2 p2 hf2 c2 => ?_
  have closed : ∀ a, a ≠ 0#24 → stackAfter (withChild (Record.internal.node v) a) id stk = stk := fun a ha => by
    rw [stackAfter, if_neg (by exact ha)]
  rw [closed _ fun e => by
    have := congrArg BitVec.toNat e
    rw [BitVec.toNat_ofNat] at this
    change _ = 0 at this
    omega]
  exact h u2 _ f2 p2 (Nat.le_trans hf2 hf1) (Added.node hk h0 hn hid c1 c2) fun k hk =>
    (c2.old k (by omega) (by omega)).trans (c1.old k (by omega) (by omega))

/-- The loop reads a subtree for the open node on top of the stack (R195), by induction on the measure. -/
theorem parsesSubtree (last fuel : Nat) : ParsesSubtree last fuel := by
  induction fuel using Nat.strong_induction_on with
  | _ fuel ih =>
    intro s t x stk p Q hk hn ht1 ht hx h
    have hnm := nodeMax_lt hk
    cases fuel with
    | zero => exact trivial
    | succ fuel =>
      refine parse_record hk hn ht1 ht hx fun r u hr hroom hu un um => ?_
      have hid : (BitVec.ofNat 24 (s.nodeCnt.toNat + 1)).toNat = s.nodeCnt.toNat + 1 := by rw [BitVec.toNat_ofNat]; omega
      have top : u.node.get? (s.nodeCnt.toNat + 1) = some (r.node stChild) := by rw [um, if_pos rfl]
      have parent : u.node.get? t.toNat = some (withChild x (BitVec.ofNat 24 (s.nodeCnt.toNat + 1))) := by
        rw [um, if_neg (by omega), if_pos rfl]
      have old : ∀ k, k ≤ s.nodeCnt.toNat → k ≠ t.toNat → u.node.get? k = s.node.get? k := fun k h1 h2 => by
        rw [um, if_neg (by omega), if_neg h2]
      cases r with
      | leaf y => exact h u _ fuel _ (Nat.le_succ _) ⟨Added.leaf hr hroom hu un top, parent, old⟩
      | internal =>
        refine parse_children (fun f hf => ih f (Nat.lt_succ_of_le hf)) hk hroom hu un hid top fun w ids f p' hf ha hold => ?_
        exact h w ids f p' (Nat.le_succ_of_le hf) ⟨ha, (hold _ ht).trans parent, fun k h1 h2 => (hold k h1).trans (old k h1 h2)⟩

/-! ### A whole tree -/

/-- ParseTree that ends has read a whole tree from node 1 on, whose root is DETACHED (R195). -/
theorem parseTree_added {p last : Nat} (hk : s.cfg.kMax ≤ 2 ^ 23) (hn : s.nodeCnt = 0#32) :
    Cmd.wp (parseTree p last) (fun _ u => ∃ ids, Added s u ids stDetached) (fun _ _ => True) s := by
  have checked : Cmd.wp (parseRecords last (last - p + 1) p []) (fun _ u => ∃ ids, Added s u ids stDetached) (fun _ _ => True) s := by
    rw [parseRecords]
    refine Cmd.wp_then (readRecord_legal p last) (fun r v ⟨hv, hr⟩ => ?_) fun _ _ h => h
    have vc : v.cfg = s.cfg := by rw [hv]
    have vn : v.nodeCnt = s.nodeCnt := by rw [hv]
    have h0 : s.nodeCnt.toNat = 0 := by rw [hn]; rfl
    rw [Cmd.wp_bind]
    refine allocRecord_any (by rw [vc]; exact hk) (by rw [vn, h0]; exact Nat.zero_le _) fun w hroom hw _ wn wm => ?_
    rw [vn, vc] at hroom
    rw [vn] at wn wm ⊢
    have hid : BitVec.ofNat 24 (s.nodeCnt.toNat + 1) = 1#24 := by rw [h0]
    rw [hid, Cmd.wp_bind, attach, if_pos rfl, Cmd.wp_bind, Cmd.wp_update, Cmd.wp_pure]
    have hf : TreeRead s { w with root := 1#24 } := by
      unfold TreeRead DrawsOnly at *
      rw [hw, hv]
    have top : w.node.get? (s.nodeCnt.toNat + 1) = some (r.node stDetached) := by rw [wm, if_pos rfl]
    refine wp_open (fun _ _ => trivial) fun _ => ?_
    cases r with
    | leaf y => exact ⟨_, Added.leaf hr hroom hf wn top⟩
    | internal =>
      exact parse_children (fun f _ => parsesSubtree last f) hk hroom hf wn (by rw [h0]; rfl) top fun w' ids _ _ _ ha _ => ⟨ids, ha⟩
  refine Cmd.wp_then checked (fun q u hu => ?_) fun _ _ h => h
  rw [Cmd.wp_raiseIf]
  exact ⟨fun _ => trivial, fun _ => hu⟩

/-- The tree read from no node on is a forest with an empty queue, its root being ROOT. -/
theorem Added.forestPart {ids : IdTree} (h : Added s u ids stDetached) (hn : s.nodeCnt = 0#32) (hq : s.pqCnt = 0#32) (hroot : u.root = 1#24) :
    u.forestPart := by
  have h0 : s.nodeCnt.toNat = 0 := by rw [hn]; rfl
  have ec := h.frame.cfg
  have eq : u.pqCnt = 0#32 := by rw [h.frame]; exact hq
  have order := h.order
  have hm := h.more
  obtain ⟨z, hz, hw, hst⟩ := h.top
  have hr := h.root
  rw [h0, Nat.sub_zero, Nat.zero_add] at order
  rw [h0] at hz hr
  have hwt : weightAt u.node ids.root = 0 := by rw [hr, weightAt_some hz, hw]; rfl
  have hleaves : ids.leafIds.length ≤ u.cfg.kMax := by
    have e1 := (ids.tree u.node).size_eq
    have e2 : ids.ids.length = u.nodeCnt.toNat := by rw [order, List.length_range']
    have e3 := h.room
    rw [IdTree.tree_size, IdTree.tree_leaves, List.length_map, e2] at e1
    rw [← ec] at e3
    unfold Config.nodeMax at e3
    omega
  have hsum : (ids.leafIds.map (weightAt u.node)).sum = 0 := h.shape.weight.symm.trans hwt
  refine ⟨by rw [ec]; exact h.room, by rw [eq]; exact Nat.zero_le _, ⟨[], [ids], ⟨by rw [eq]; rfl, Nat.zero_le _, Memory.holds_nil _ _,
    List.nodup_nil, fun _ _ h => absurd h (Nat.not_lt_zero _), fun _ h => nomatch h⟩, ?_⟩, .inr ⟨?_, ?_, ?_⟩, fun k x h1 h2 => h.legal k x (by omega) h2⟩
  · refine ⟨?_, ?_, ?_, fun _ h => (nomatch h), ?_, ?_, ?_⟩
    · simp [order]
    · exact fun t ht => List.mem_singleton.mp ht ▸ h.shape
    · intro t ht
      rw [List.mem_singleton.mp ht, hr, stOf_some hz, hst]
      rfl
    · simp [hwt, hsum]
    · simp [hwt]
    · simpa using hleaves
  · rw [hroot]; exact Nat.le_refl 1
  · rw [hroot]
    show 1 ≤ _
    omega
  · rw [hroot]
    show stOf u.node 1 = _
    rw [stOf_some hz, hst]

/-! ### PARSE (44_container.md R194) -/

/-- The header's checks leave the fields that PARSE works on within their bounds (R194). -/
theorem checkHeader_bounds (h : Header) :
    Cmd.wp (checkHeader h) (fun _ u => u = s ∧ h.plen ≤ s.cfg.pMax ∧ (h.plen = 0 → h.padb.toNat = 0)) (fun _ _ => True) s := by
  simp only [checkHeader, Cmd.wp_bind, Cmd.wp_csr, Cmd.wp_raiseIf]
  refine ⟨fun _ => trivial, fun _ => ⟨fun _ => trivial, fun _ => ⟨fun _ => trivial, fun _ => ⟨fun _ => trivial, fun _ =>
    ⟨fun _ => trivial, fun h0 => ⟨fun _ => trivial, fun _ => ⟨fun _ => trivial, fun hm => ?_⟩⟩⟩⟩⟩⟩⟩
  exact ⟨trivial, Nat.le_of_not_lt hm, fun e => by_contra fun hne => h0 ⟨e, hne⟩⟩

/-- From `s` to `u` only PK and the number of free values have changed, and PK holds `n` bytes. -/
def PayloadCopied (s u : State) (n : Nat) : Prop :=
  u = { s with pk := u.pk, draws := u.draws } ∧ ∀ k, k < n → ∃ v, u.pk.get? k = some v

/-- The payload goes to PK, whatever its bytes read as (R194). -/
theorem copyPayload_any {base n : Nat} (hp : n ≤ s.cfg.pMax) :
    Cmd.wp (Cmd.forFrom (copyPayload base) n 0) (fun _ u => PayloadCopied s u n) (fun _ _ => True) s := by
  have turn : ∀ i t, 0 ≤ i → i < 0 + n → PayloadCopied s t i →
      Cmd.wp (copyPayload base i) (fun _ u => PayloadCopied s u (i + 1)) (fun _ _ => True) t := by
    intro i t _ hi ⟨ht, hw⟩
    have hd : DrawsOnly t (blobAt (base + i) t).2 := readElem_state _ _ _ t
    rw [copyPayload, Cmd.wp_bind, Cmd.wp_readBlob, Cmd.wp_writePk]
    generalize (blobAt (base + i) t).1 = b
    generalize (blobAt (base + i) t).2 = u at hd ⊢
    unfold DrawsOnly at hd
    have ec : u.cfg = s.cfg := by rw [hd, ht]
    have ep : u.pk = t.pk := by rw [hd]
    refine ⟨?_, fun k hk => ?_⟩
    · rw [hd, ht]
      rfl
    · show ∃ v, (u.pk.store 0 u.cfg.pMax i b).get? k = some v
      by_cases e : k = i
      · exact ⟨b, by rw [e]; exact Memory.get?_store_self _ b (Nat.zero_le _) (by rw [ec]; omega)⟩
      · rw [Memory.get?_store_other _ _ _ _ e, ep]
        exact hw k (by omega)
  have := Cmd.wp_forFrom n 0 turn (s := s) ⟨rfl, fun _ h => absurd h (Nat.not_lt_zero _)⟩
  rwa [Nat.zero_add] at this

/-- Where the tree has been read, or none was there (R194). -/
theorem parseSnapshot_forest {n : Nat} (hk : s.cfg.kMax ≤ 2 ^ 23) (hs : DrawsOnly t.artifactZero s) :
    Cmd.wp (parseSnapshot n) (fun _ u => TreeRead t.artifactZero u ∧ u.forestPart) (fun _ _ => True) s := by
  unfold DrawsOnly at hs
  have hf : TreeRead t.artifactZero s := by rw [hs]; rfl
  have hn : s.nodeCnt = 0#32 := by rw [hs]; rfl
  have hq : s.pqCnt = 0#32 := by rw [hs]; rfl
  have hr : s.root = 0#24 := by rw [hs]; rfl
  rw [parseSnapshot, Cmd.wp_ite]
  refine ⟨fun _ => ?_, fun _ => ⟨hf, ?_⟩⟩
  · refine Cmd.wp_mono (Cmd.wp_and (parseTree_added hk hn) (parseTree_root hn)) (fun _ u ⟨⟨ids, ha⟩, hroot⟩ => ?_) fun _ _ _ => trivial
    exact ⟨hf.trans ha.frame, ha.forestPart hn hq hroot⟩
  · exact forestPart_of_none hn hq hr

/-- PARSE reads a tree and a payload, or neither (R194). -/
theorem parse_keeps : parse.Keeps := by
  intro s hL ⟨table, _, _, _⟩
  have ⟨⟨_, hk, _⟩, _, ⟨_, hpm⟩, _⟩ := hL
  have others := parse_inv (P := fun u => u.cfg.Legal ∧ u.tablePart) (fun _ _ h => h) (fun _ _ h => h) (fun _ _ _ h => h) (fun _ _ h => h)
    ⟨fun _ _ h => h, fun _ _ h => h⟩ ⟨fun _ _ _ h => h, fun _ _ _ _ _ h => h⟩ (fun _ _ _ h => h) (fun _ _ h => h) s ⟨hL, table⟩
  refine Cmd.wp_mono (Cmd.wp_and others (?_ : Cmd.wp _ (fun _ u => u.forestPart ∧ u.codesPart ∧ u.packerPart) (fun _ _ => True) s))
    (fun _ _ ⟨⟨hL, table⟩, forest, codes, packer⟩ => ⟨hL, table, forest, codes, packer⟩) fun _ _ _ => trivial
  simp only [parse, dropArtifact, pkInit, upInit, Cmd.wp_bind, Cmd.wp_update]
  show Cmd.wp readHeader _ _ s.artifactZero
  refine Cmd.wp_mono (readHeader_inv (drawsOnly_onDraws s.artifactZero) _ rfl) (fun h u hu => ?_) fun _ _ _ => trivial
  have uc : u.cfg = s.cfg := by rw [hu]; rfl
  refine Cmd.wp_then (checkHeader_bounds h) (fun _ v ⟨e, hplen, hzero⟩ => ?_) fun _ _ _ => trivial
  rw [e]
  rw [uc] at hplen
  refine Cmd.wp_then (parseSnapshot_forest (by rw [uc]; exact hk) hu) (fun _ w ⟨hw, forest⟩ => ?_) fun _ _ _ => trivial
  have wc : w.cfg = s.cfg := hw.cfg
  refine Cmd.wp_then (copyPayload_any (by rw [wc]; exact hplen)) (fun _ x ⟨hx, written⟩ => ?_) fun _ _ _ => trivial
  have hplen' : (BitVec.ofNat 32 h.plen).toNat = h.plen := by rw [BitVec.toNat_ofNat]; omega
  have xc : x.cfg = s.cfg := by rw [hx]; exact wc
  have hs : x.stgCnt = 0#3 ∧ x.stgBits = 0#8 ∧ x.ctCnt = 0#32 := by rw [hx, hw]; exact ⟨rfl, rfl, rfl⟩
  refine ⟨?_, codesPart_of_none hs.2.2, ?_, ⟨fun hne => ⟨hs.1, ?_⟩, ?_⟩, fun k hk => written k (hplen' ▸ hk)⟩
  · rw [hx]
    exact forest
  · show (BitVec.ofNat 32 h.plen).toNat ≤ x.cfg.pMax
    rw [hplen', xc]
    exact hplen
  · show 1 ≤ (BitVec.ofNat 32 h.plen).toNat
    rw [hplen']
    refine Nat.one_le_iff_ne_zero.mpr fun h0 => hne ?_
    apply BitVec.eq_of_toNat_eq
    rw [BitVec.toNat_setWidth, hzero h0]
    rfl
  · show x.stgBits.toNat < 2 ^ x.stgCnt.toNat
    rw [hs.1, hs.2.1]
    exact Nat.zero_lt_one

end Sys2Proof.Machine

/-! ## Every step keeps the invariants -/

namespace Sys2Proof.Machine

variable {s t : State}

theorem Cmd.Keeps.pure {α : Type} (a : α) : (pure a : Cmd α).Keeps := .of_inv (.pure a)

theorem Cmd.Keeps.csr {α : Type} (f : State → α) : (Cmd.csr f).Keeps := .of_inv (.csr f)

theorem Cmd.Keeps.raiseIf (p : Prop) [Decidable p] (code : FaultCode) (info : Nat) : (Cmd.raiseIf p code info).Keeps :=
  .of_inv (.raiseIf p code info)

/-- A length that the host also writes is in no part. -/
theorem textLen_keeps (v : Word) : (Cmd.update fun s => { s with textLen := v }).Keeps := .of_inv (.update fun _ h => h)

theorem blobLen_keeps (v : Word) : (Cmd.update fun s => { s with blobLen := v }).Keeps := .of_inv (.update fun _ h => h)

theorem workClear_keeps : workClear.Keeps := fun s hL _ => ⟨hL, workCleared_parts s⟩

theorem clearRule_keeps : clearRule.Keeps := fun s hL _ => ⟨hL, workCleared_parts s⟩

/-- COMPRESS runs rules that keep the invariants (45_codec_engine.md R212). -/
theorem compressRule_keeps : compressRule.Keeps := by
  refine .bind workClear_keeps fun _ => .bind (blobLen_keeps _) fun _ => .bind (.csr _) fun len => .bind (.csr _) fun most =>
    .bind (.raiseIf _ _ _) fun _ => ?_
  by_cases h : len = 0
  · rw [if_pos h]
    exact serialize_keeps
  · rw [if_neg h]
    exact .bind freq_keeps fun _ => .bind build_keeps fun _ => .bind codeGen_keeps fun _ => .bind encodeText_keeps fun _ =>
      serialize_keeps

/-- DECOMPRESS runs rules that keep the invariants (45_codec_engine.md R213). -/
theorem decompressRule_keeps : decompressRule.Keeps :=
  .bind workClear_keeps fun _ => .bind (textLen_keeps _) fun _ => .bind parse_keeps fun _ => decodeText_keeps

theorem ruleOf_keeps (i : Instr) : (ruleOf i).Keeps := by
  cases i with
  | nop => exact .pure ()
  | clear => exact clearRule_keeps
  | pqInsert n => exact pqInsertRule_keeps n
  | pqExtract => exact pqExtractRule_keeps
  | freq => exact freq_keeps
  | leaves => exact leaves_keeps
  | combine => exact combine_keeps
  | build => exact build_keeps
  | setRoot n => exact setRootRule_keeps n
  | codegen => exact codeGen_keeps
  | encode => exact encodeText_keeps
  | pkInit => exact pkInit_keeps
  | pkPush len bits => exact pkPushRule_keeps len bits
  | pkFlush => exact pkFlushRule_keeps
  | upInit => exact upInit_keeps
  | upPop => exact upPopRule_keeps
  | decode => exact decodeText_keeps
  | serialize => exact serialize_keeps
  | parse => exact parse_keeps
  | compress => exact compressRule_keeps
  | decompress => exact decompressRule_keeps

/-- What every step keeps: a legal configuration, and the invariants in the states without a fault (10_state.md R53). -/
def State.soundUnlessFault (s : State) : Prop := s.cfg.Legal ∧ (s.err = 0#8 → s.parts)

/-- A fault's code is not 0. -/
theorem takeFault_err_ne (code : FaultCode) (info : Nat) (w : Word) (s : State) : (takeFault code info w s).err ≠ 0#8 := by
  cases code <;> exact fun h => nomatch h

/-- A command that runs where the invariants hold ends where they hold, or in a fault. -/
theorem exec_parts {i : Instr} (hL : s.cfg.Legal) (hs : s.parts) (h : exec i s = .next t) : t.err = 0#8 → t.parts := by
  rw [exec_eq_runCommand] at h
  refine runCommand_next (P := fun u => u.err = 0#8 → u.parts) (Cmd.wp_mono (ruleOf_keeps i s hL hs) (fun _ _ hu _ => hu.2) ?_) h
  exact fun _ u _ code info _ he => absurd he (takeFault_err_ne code info _ u)

/-- CLEAR ends where the invariants hold, wherever it starts (60_exceptions.md R234). -/
theorem exec_clear_parts (h : exec .clear s = .next t) : t.parts := by
  cases h
  exact workCleared_parts s

/-- In the fault state no command but CLEAR runs, so the invariants are not asked for before it (30_encoding.md R97). -/
theorem issue_soundUnlessFault (w : Word) (s t : State) (hs : s.soundUnlessFault) (h : issue w s = .next t) : t.soundUnlessFault := by
  obtain ⟨hL, hp⟩ := hs
  rcases issue_cases h with rfl | rfl | ⟨i, hi, h0 | rfl⟩
  · exact ⟨hL, hp⟩
  · exact ⟨hL, fun he => absurd he (takeFault_err_ne .illegal 0 w s)⟩
  · exact ⟨exec_cfg hi ▸ hL, exec_parts hL (hp h0) hi⟩
  · exact ⟨exec_cfg hi ▸ hL, fun _ => exec_clear_parts hi⟩

theorem soundUnlessFault_hostClosed : State.HostClosed State.soundUnlessFault where
  draws := fun _ _ h => h
  text := fun _ _ _ h => h
  blob := fun _ _ _ h => h
  textLen := fun _ _ h => h
  blobLen := fun _ _ h => h
  port := fun _ _ _ h => h
  reset := fun s h => ⟨h.1, fun _ => workCleared_parts s.afterReset⟩

/-- Settles O58: each command's rule keeps the invariants part by part, and no other part of a step writes what they speak of. -/
theorem stepKeepsSoundness : Obligations.StepKeepsSoundness := fun _ _ hL hs h he =>
  parts_iff.mp ((step_inv soundUnlessFault_hostClosed issue_soundUnlessFault ⟨hL, fun h0 => parts_iff.mpr (hs h0)⟩ h).2 he)

end Sys2Proof.Machine

/-! ## Every command completes -/

namespace Sys2Proof.Machine

variable {α β : Type} {s t : State} {c : Cmd β} {k : β → Cmd α}

/-- From `s` the rule ends normally or in a fault of the system, not in a stop of the model's own. -/
def Cmd.RunsFrom (c : Cmd α) (s : State) : Prop := Cmd.wp c (fun _ _ => True) (fun e _ => ∀ r, e ≠ .stuck r) s

/-- It does so from every state. -/
def Cmd.Runs (c : Cmd α) : Prop := ∀ s, c.RunsFrom s

theorem Cmd.RunsFrom.bind_of {Q : β → State → Prop} {E : Stop → State → Prop} (hc : c.RunsFrom s) (hq : Cmd.wp c Q E s)
    (hk : ∀ b t, Q b t → (k b).RunsFrom t) : (c >>= k).RunsFrom s :=
  Cmd.wp_then (Cmd.wp_and hc hq) (fun b t ht => hk b t ht.2) fun _ _ he => he.1

theorem Cmd.Runs.bind (hc : c.Runs) (hk : ∀ b, (k b).Runs) : (c >>= k).Runs :=
  fun s => (hc s).bind_of (Cmd.wp_any c s) fun b t _ => hk b t

/-- A rule whose run computes to a normal end. -/
theorem Cmd.Runs.ok {f : State → β} {g : State → State} (hc : ∀ s, c s = .ok (f s) (g s)) : c.Runs := by
  intro s
  unfold Cmd.RunsFrom Cmd.wp
  rw [hc]
  trivial

/-- Such a rule, then another. -/
theorem Cmd.Runs.next {f : State → β} {g : State → State} (hc : ∀ s, c s = .ok (f s) (g s)) (hk : ∀ b, (k b).Runs) :
    (c >>= k).Runs := .bind (.ok hc) hk

theorem Cmd.Runs.pure {a : α} : (pure a : Cmd α).Runs := .ok fun _ => rfl

/-- A read of a register, then a rule. -/
theorem Cmd.Runs.csr {f : State → β} (hk : ∀ b, (k b).Runs) : (Cmd.csr f >>= k).Runs := .next (fun _ => rfl) hk

/-- A write, then a rule. -/
theorem Cmd.Runs.update {f : State → State} {k : Unit → Cmd α} (hk : ∀ b, (k b).Runs) : (Cmd.update f >>= k).Runs :=
  .next (fun _ => rfl) hk

theorem Cmd.Runs.raise (code : FaultCode) (info : Nat) : (Cmd.raise code info : Cmd α).Runs := nofun

theorem Cmd.Runs.ite {p : Prop} [Decidable p] {x y : Cmd α} (hx : x.Runs) (hy : y.Runs) : (if p then x else y).Runs := by
  split
  · exact hx
  · exact hy

theorem Cmd.Runs.raiseIf {p : Prop} [Decidable p] {code : FaultCode} {info : Nat} : (Cmd.raiseIf p code info).Runs :=
  .ite (.raise _ _) .pure

/-- A check, then a rule. -/
theorem Cmd.Runs.check {p : Prop} [Decidable p] {code : FaultCode} {info : Nat} {k : Unit → Cmd α} (hk : ∀ b, (k b).Runs) :
    (Cmd.raiseIf p code info >>= k).Runs := .bind .raiseIf hk

theorem Cmd.Runs.forFrom {body : Nat → Cmd Unit} (hb : ∀ i, (body i).Runs) (n a : Nat) : (Cmd.forFrom body n a).Runs := by
  induction n generalizing a with
  | zero => exact .pure
  | succ n ih => exact .bind (hb a) fun _ => ih (a + 1)

theorem Cmd.Runs.forBits {body : Bool → Cmd Unit} (hb : ∀ b, (body b).Runs) (bs : BitString) : (Cmd.forBits body bs).Runs := by
  induction bs with
  | nil => exact .pure
  | cons b bs ih => exact .bind (hb b) fun _ => ih

theorem Cmd.Runs.findFrom {test : Nat → Cmd Bool} (ht : ∀ i, (test i).Runs) (n a : Nat) : (Cmd.findFrom test n a).Runs := by
  induction n generalizing a with
  | zero => exact .pure
  | succ n ih => exact .bind (ht a) fun _ => .ite .pure (ih (a + 1))

/-! ### The reads and writes of elements -/

theorem readText_runs (i : Nat) : (readText i).Runs := .ok fun _ => rfl
theorem readBlob_runs (i : Nat) : (readBlob i).Runs := .ok fun _ => rfl
theorem readFt_runs (j : Nat) : (readFt j).Runs := .ok fun _ => rfl
theorem readNode_runs (id : NodeId) : (readNode id).Runs := .ok fun _ => rfl
theorem readHeap_runs (i : Nat) : (readHeap i).Runs := .ok fun _ => rfl
theorem readCt_runs (j : Nat) : (readCt j).Runs := .ok fun _ => rfl
theorem readPk_runs (i : Nat) : (readPk i).Runs := .ok fun _ => rfl
theorem setNodeSt_runs (id : NodeId) (v : BitVec 2) : (setNodeSt id v).Runs := .ok fun _ => rfl
theorem setNodeLeft_runs (id v : NodeId) : (setNodeLeft id v).Runs := .ok fun _ => rfl
theorem setNodeRight_runs (id v : NodeId) : (setNodeRight id v).Runs := .ok fun _ => rfl

/-! ### The queue and the builder (40_priority_queue.md, 41_tree_builder.md) -/

theorem heapWeight_runs (i : Nat) : (heapWeight i).Runs := .ok fun _ => rfl

theorem swapHeap_runs (i j : Nat) : (swapHeap i j).Runs := .ok fun _ => rfl

theorem siftUp_runs (fuel i : Nat) : (siftUp fuel i).Runs := by
  induction fuel generalizing i with
  | zero => exact .pure
  | succ fuel ih =>
    exact .ite .pure (.bind (heapWeight_runs _) fun _ => .bind (heapWeight_runs _) fun _ =>
      .ite (.bind (swapHeap_runs _ _) fun _ => ih _) .pure)

theorem pqInsert_runs (id : NodeId) : (pqInsert id).Runs :=
  .csr fun _ => .csr fun _ => .check fun _ => .update fun _ => .update fun _ => .bind (setNodeSt_runs _ _) fun _ => siftUp_runs _ _

theorem smallerAt_runs (n c i : Nat) : (smallerAt n c i).Runs :=
  .ite (.bind (heapWeight_runs _) fun _ => .bind (heapWeight_runs _) fun _ => .pure) .pure

theorem siftDown_runs (n fuel i : Nat) : (siftDown n fuel i).Runs := by
  induction fuel generalizing i with
  | zero => exact .pure
  | succ fuel ih =>
    exact .bind (smallerAt_runs _ _ _) fun _ => .bind (smallerAt_runs _ _ _) fun _ =>
      .ite .pure (.bind (swapHeap_runs _ _) fun _ => ih _)

theorem refill_runs (n : Nat) : (refill n).Runs :=
  .ite (.bind (readHeap_runs _) fun _ => .update fun _ => siftDown_runs _ _ _) .pure

theorem pqExtract_runs : pqExtract.Runs :=
  .bind (readHeap_runs _) fun _ => .update fun _ => .csr fun _ => .bind (refill_runs _) fun _ =>
    .bind (setNodeSt_runs _ _) fun _ => .pure

theorem pqInsertRule_runs (n : NodeId) : (pqInsertRule n).Runs :=
  .csr fun _ => .check fun _ => .bind (readNode_runs n) fun _ => .check fun _ => .csr fun _ => .check fun _ => pqInsert_runs n

theorem pqExtractRule_runs : pqExtractRule.Runs :=
  have set (b : Bool) (v : Word) : (setQueueResult b v).Runs := .ok fun _ => rfl
  .csr fun _ => .ite (set _ _) (.bind pqExtract_runs fun _ => set _ _)

theorem nodeAlloc_runs (leaf : Bool) (sym : Symbol) (w : Word) (l r : NodeId) : (nodeAlloc leaf sym w l r).Runs :=
  .csr fun _ => .csr fun _ => .check fun _ => .update fun _ => .csr fun _ => .update fun _ => .pure

theorem freqStep_runs (i : Nat) : (freqStep i).Runs := by
  refine .bind (readText_runs i) fun _ => .check fun _ => .csr fun _ =>
    .bind (.findFrom (fun j => .bind (readFt_runs j) fun _ => .pure) _ _) fun found => ?_
  cases found with
  | some j => exact .bind (readFt_runs j) fun _ => .ok fun _ => rfl
  | none => exact .csr fun _ => .check fun _ => .update fun _ => .ok fun _ => rfl

theorem freq_runs : freq.Runs := .csr fun _ => .csr fun _ => .check fun _ => .update fun _ => .forFrom freqStep_runs _ _

theorem leafStep_runs (j : Nat) : (leafStep j).Runs :=
  .bind (readFt_runs j) fun _ => .bind (nodeAlloc_runs _ _ _ _ _) fun _ => pqInsert_runs _

theorem leaves_runs : leaves.Runs := .update fun _ => .csr fun _ => .forFrom leafStep_runs _ _

theorem combine_runs : combine.Runs :=
  .csr fun _ => .check fun _ => .csr fun _ => .csr fun _ => .check fun _ => .bind pqExtract_runs fun _ =>
    .bind pqExtract_runs fun _ => .bind (readNode_runs _) fun _ => .bind (readNode_runs _) fun _ =>
    .bind (nodeAlloc_runs _ _ _ _ _) fun _ => .bind (setNodeSt_runs _ _) fun _ => .bind (setNodeSt_runs _ _) fun _ =>
    .bind (pqInsert_runs _) fun _ => .ok fun _ => rfl

theorem combineAll_runs (fuel : Nat) : (combineAll fuel).Runs := by
  induction fuel with
  | zero => exact .pure
  | succ fuel ih => exact .csr fun _ => .ite (.bind combine_runs fun _ => ih) .pure

theorem build_runs : build.Runs :=
  .csr fun _ => .check fun _ => .bind leaves_runs fun _ => .csr fun _ => .bind (combineAll_runs _) fun _ =>
    .bind pqExtract_runs fun _ => .ok fun _ => rfl

theorem setRootRule_runs (n : NodeId) : (setRootRule n).Runs :=
  .csr fun _ => .check fun _ => .bind (readNode_runs n) fun _ => .check fun _ => .ok fun _ => rfl

/-! ### The packer, the unpacker and the encoder (43_bit_packer.md, 42_code_table.md) -/

theorem pkInit_runs : pkInit.Runs := .ok fun _ => rfl

theorem pkPushBit_runs (b : Bool) : (pkPushBit b).Runs :=
  .csr fun _ => .csr fun _ => .csr fun _ => .check fun _ => .csr fun _ => .ite (.update fun _ => .ok fun _ => rfl) (.ok fun _ => rfl)

theorem pkPushRule_runs (len : BitVec 5) (bits : BitVec 16) : (pkPushRule len bits).Runs :=
  .csr fun _ => .check fun _ => .forBits pkPushBit_runs _

theorem pkFlush_runs : pkFlush.Runs :=
  .csr fun _ => .ite (.csr fun _ => .csr fun _ => .check fun _ => .csr fun _ => .update fun _ => .update fun _ => .ok fun _ => rfl)
    (.ok fun _ => rfl)

theorem pkFlushRule_runs : pkFlushRule.Runs := .csr fun _ => .check fun _ => pkFlush_runs

theorem upInit_runs : upInit.Runs := .ok fun _ => rfl

theorem upPop_runs : upPop.Runs :=
  .csr fun _ => .csr fun _ => .ite .pure (.csr fun _ => .csr fun _ => .bind (readPk_runs _) fun _ => .update fun _ => .pure)

theorem upPopRule_runs : upPopRule.Runs := by
  refine .bind upPop_runs fun b => ?_
  cases b with
  | none => exact .ok fun _ => rfl
  | some b => exact .ok fun _ => rfl

theorem encodeStep_runs (i : Nat) : (encodeStep i).Runs := by
  refine .bind (readText_runs i) fun _ => .csr fun _ =>
    .bind (.findFrom (fun j => .bind (readCt_runs j) fun _ => .pure) _ _) fun found => ?_
  cases found with
  | none => exact .raise _ _
  | some j => exact .bind (readCt_runs j) fun _ => .forBits pkPushBit_runs _

theorem encodeText_runs : encodeText.Runs :=
  .csr fun _ => .csr fun _ => .check fun _ => .bind pkInit_runs fun _ => .update fun _ =>
    .bind (.forFrom encodeStep_runs _ _) fun _ => .bind pkFlush_runs fun _ => .ok fun _ => rfl

/-! ### The container and the decoder (44_container.md, 45_codec_engine.md) -/

theorem emit_runs (p : Nat) (v : Byte) : (emit p v).Runs := .csr fun _ => .check fun _ => .ok fun _ => rfl

theorem emitAll_runs (p : Nat) (vs : List Byte) : (emitAll p vs).Runs := by
  induction vs generalizing p with
  | nil => exact .pure
  | cons v vs ih => exact .bind (emit_runs p v) fun _ => ih _

theorem emitHeader_runs : emitHeader.Runs :=
  .bind (emitAll_runs _ _) fun _ => .csr fun _ => .bind (emitAll_runs _ _) fun _ => .csr fun _ => emit_runs _ _

theorem emitLengths_runs (p : Nat) : (emitLengths p).Runs := .bind (emitAll_runs _ _) fun _ => .csr fun _ => emitAll_runs _ _

theorem emitPayload_runs (p i : Nat) : (emitPayload p i).Runs := .bind (readPk_runs i) fun _ => emit_runs _ _

theorem get32_runs (p : Nat) : (get32 p).Runs := .ok fun _ => rfl

theorem readRecord_runs (p last : Nat) : (readRecord p last).Runs :=
  .check fun _ => .bind (readBlob_runs p) fun _ => .ite
    (.check fun _ => .bind (readBlob_runs _) fun _ => .bind (readBlob_runs _) fun _ => .bind (readBlob_runs _) fun _ =>
      .check fun _ => .pure)
    (.ite .pure (.raise _ _))

theorem allocRecord_runs (r : Record) : (allocRecord r).Runs := by
  cases r <;> exact nodeAlloc_runs _ _ _ _ _

theorem attach_runs (n : NodeId) (stk : List NodeId) : (attach n stk).Runs := by
  refine .ite (.update fun _ => .pure) ?_
  cases stk with
  | nil => exact .pure
  | cons t stk =>
    exact .bind (readNode_runs t) fun _ => .ite
      (.bind (setNodeLeft_runs _ _) fun _ => .bind (setNodeSt_runs _ _) fun _ => .pure)
      (.bind (setNodeRight_runs _ _) fun _ => .bind (setNodeSt_runs _ _) fun _ => .pure)

theorem openNode_runs (r : Record) (n : NodeId) (stk : List NodeId) : (openNode r n stk).Runs := by
  cases r with
  | leaf sym => exact .pure
  | internal => exact .csr fun _ => .check fun _ => .pure

theorem parseRecords_runs (last fuel p : Nat) (stk : List NodeId) : (parseRecords last fuel p stk).Runs := by
  induction fuel generalizing p stk with
  | zero => exact .raise _ _
  | succ fuel ih =>
    refine .bind (readRecord_runs _ _) fun r => .bind (allocRecord_runs r) fun n => .bind (attach_runs _ _) fun stk =>
      .bind (openNode_runs _ _ _) fun stk => ?_
    cases stk with
    | nil => exact .pure
    | cons t stk => exact ih _ _

theorem parseSnapshot_runs (tlen : Nat) : (parseSnapshot tlen).Runs :=
  .ite (.bind (parseRecords_runs _ _ _ _) fun _ => .raiseIf) .pure

theorem checkMagic_runs (k : Nat) : (checkMagic k).Runs := .bind (readBlob_runs k) fun _ => .raiseIf

theorem readHeader_runs : readHeader.Runs :=
  .csr fun _ => .csr fun _ => .check fun _ => .check fun _ => .bind (.forFrom checkMagic_runs _ _) fun _ =>
    .bind (get32_runs _) fun _ => .bind (readBlob_runs _) fun _ => .bind (get32_runs _) fun _ => .bind (get32_runs _) fun _ => .pure

theorem checkHeader_runs (h : Header) : (checkHeader h).Runs :=
  .csr fun _ => .check fun _ => .check fun _ => .check fun _ => .check fun _ => .check fun _ => .check fun _ => .csr fun _ => .raiseIf

theorem copyPayload_runs (base i : Nat) : (copyPayload base i).Runs := .ok fun _ => rfl

theorem dropArtifact_runs : dropArtifact.Runs := .ok fun _ => rfl

theorem parse_runs : parse.Runs :=
  .bind dropArtifact_runs fun _ => .bind readHeader_runs fun h => .bind (checkHeader_runs h) fun _ =>
    .bind (parseSnapshot_runs _) fun _ => .bind (.forFrom (copyPayload_runs _) _ _) fun _ => .ok fun _ => rfl

theorem emitSymbol_runs (n : Nat) (sym : Symbol) : (emitSymbol n sym).Runs :=
  .csr fun _ => .check fun _ => .update fun _ => .pure

theorem decodeBit_runs (cur : NodeId) (n : Nat) (b : Bool) : (decodeBit cur n b).Runs :=
  .csr fun _ => .check fun _ => .bind (readNode_runs _) fun _ => .ite
    (.csr fun _ => .check fun _ => .bind (emitSymbol_runs _ _) fun _ => .pure)
    (.bind (readNode_runs _) fun _ => .bind (readNode_runs _) fun _ => .ite (.bind (emitSymbol_runs _ _) fun _ => .pure) .pure)

theorem decodeLoop_runs (fuel : Nat) (cur : NodeId) (n : Nat) : (decodeLoop fuel cur n).Runs := by
  induction fuel generalizing cur n with
  | zero => exact .pure
  | succ fuel ih =>
    refine .bind upPop_runs fun b => ?_
    cases b with
    | none => exact .pure
    | some b => exact .bind (decodeBit_runs _ _ _) fun _ => ih _ _

theorem decodeText_runs : decodeText.Runs :=
  .update fun _ => .bind upInit_runs fun _ => .csr fun _ => .csr fun _ => .bind (decodeLoop_runs _ _ _) fun _ =>
    .check fun _ => .csr fun _ => .check fun _ => .check fun _ => .ok fun _ => rfl

theorem decompressRule_runs : decompressRule.Runs := .update fun _ => .update fun _ => .bind parse_runs fun _ => decodeText_runs

/-- All the commands but the three that walk the live tree. -/
theorem ruleOf_runs {i : Instr} (hi : i ∉ [.codegen, .serialize, .compress]) : (ruleOf i).Runs := by
  cases i with
  | nop => exact .pure
  | clear => exact .ok fun _ => rfl
  | pqInsert n => exact pqInsertRule_runs n
  | pqExtract => exact pqExtractRule_runs
  | freq => exact freq_runs
  | leaves => exact leaves_runs
  | combine => exact combine_runs
  | build => exact build_runs
  | setRoot n => exact setRootRule_runs n
  | codegen => exact absurd (by simp) hi
  | encode => exact encodeText_runs
  | pkInit => exact pkInit_runs
  | pkPush len bits => exact pkPushRule_runs len bits
  | pkFlush => exact pkFlushRule_runs
  | upInit => exact upInit_runs
  | upPop => exact upPopRule_runs
  | decode => exact decodeText_runs
  | serialize => exact absurd (by simp) hi
  | parse => exact parse_runs
  | compress => exact absurd (by simp) hi
  | decompress => exact decompressRule_runs

/-! ### The commands that walk the live tree -/

/-- From ROOT, where it is not 0, a walk ends within the number of nodes (10_state.md R53). -/
def State.walkable (s : State) : Prop := s.root ≠ 0#24 → ∃ T, s.liveTree T ∧ T.size ≤ s.cfg.nodeMax

theorem walkable_of_forest (hg : ∃ h trees, s.queue h ∧ Grove s.cfg s.node s.nodeCnt.toNat h trees)
    (hn : s.nodeCnt.toNat ≤ s.cfg.nodeMax) (hr : s.rootOk) : s.walkable := fun hne =>
  let ⟨T, hT, hsize, _⟩ := liveTree_of_forestPart hg hn hr hne
  ⟨T, hT, hsize⟩

theorem walkable_of_sound (h : s.sound) : s.walkable := by
  obtain ⟨⟨-, hn, -⟩, -, forest, root, -⟩ := h
  exact walkable_of_forest forest hn root

theorem walkable_of_parts (h : s.parts) : s.walkable := walkable_of_sound (parts_iff.mp h).1

theorem codeGen_runsFrom (h : s.walkable) : codeGen.RunsFrom s := by
  by_cases hroot : s.root = 0#24
  · unfold Cmd.RunsFrom
    rw [codeGen, Cmd.wp_bind, Cmd.wp_csr, Cmd.wp_bind, Cmd.wp_raiseIf]
    exact ⟨nofun, fun hne => absurd hroot hne⟩
  · obtain ⟨T, hT, hsize⟩ := h hroot
    exact Cmd.wp_mono (codeGen_ok hT hsize) (fun _ _ _ => trivial) fun _ _ he => he.elim

/-- The snapshot's walk ends with the tree, or where BLOB does (44_container.md R193). -/
theorem emitTree_runsFrom (h : s.walkable) : emitTree.RunsFrom s := by
  unfold Cmd.RunsFrom
  rw [emitTree, Cmd.wp_bind, Cmd.wp_csr, Cmd.wp_bind, Cmd.wp_csr, Cmd.wp_ite]
  refine ⟨fun hroot => ?_, fun _ => trivial⟩
  obtain ⟨T, ⟨-, hT⟩, hsize⟩ := h hroot
  rw [← Nat.add_sub_of_le hsize]
  by_cases hfit : hdrLen + T.snapshot.length ≤ s.cfg.bMax
  · refine snapshotWalk_tree hT hfit ?_
    rw [snapshotWalk.eq_def]
    cases s.cfg.nodeMax - T.size <;> trivial
  · refine Cmd.wp_mono (snapshotWalk_full (Q := fun _ _ => True) hT (Nat.lt_of_not_le hfit)) (fun _ _ h => h) fun e _ he => ?_
    rw [he.1]
    nofun

/-- The header goes to BLOB, which the walk does not look at. -/
theorem emitHeader_walkable : Cmd.Inv State.walkable emitHeader :=
  have blob : State.onBlob State.walkable := fun _ _ _ h => h
  .bind (emitAll_inv blob _ _) fun _ => .bind (.csr _) fun _ => .bind (emitAll_inv blob _ _) fun _ => .bind (.csr _) fun _ =>
    emit_inv blob _ _

theorem serialize_runsFrom (h : s.walkable) : serialize.RunsFrom s := by
  have rest (len : Word) (p : Nat) : Cmd.Runs (do
      emitLengths p
      Cmd.forFrom (emitPayload p) len.toNat 0
      Cmd.update fun s => { s with blobLen := BitVec.ofNat 32 (p + len.toNat) }) :=
    .bind (emitLengths_runs p) fun _ => .bind (.forFrom (emitPayload_runs p) _ _) fun _ => .ok fun _ => rfl
  unfold Cmd.RunsFrom
  simp only [serialize, Cmd.wp_bind, Cmd.wp_update, Cmd.wp_csr, Cmd.wp_raiseIf]
  refine ⟨nofun, fun _ => ⟨nofun, fun _ => ?_⟩⟩
  exact (Cmd.wp_bind _ _).mp <| (emitHeader_runs _).bind_of (emitHeader_walkable { s with blobLen := 0#32 } h) fun _ t ht =>
    (emitTree_runsFrom ht).bind_of (Cmd.wp_any _ t) fun p u _ => rest s.pkLen p u

/-- From a state with the invariants. -/
def Cmd.RunsSound (c : Cmd α) : Prop := ∀ s, s.cfg.Legal → s.parts → c.RunsFrom s

theorem Cmd.Runs.sound {c : Cmd α} (hc : c.Runs) : c.RunsSound := fun s _ _ => hc s

theorem Cmd.RunsSound.bind (hc : c.RunsSound) (keeps : c.Keeps) (hk : ∀ b, (k b).RunsSound) : (c >>= k).RunsSound :=
  fun s hL hs => (hc s hL hs).bind_of (keeps s hL hs) fun b t ht => hk b t ht.1 ht.2

theorem codeGen_runsSound : codeGen.RunsSound := fun _ _ hs => codeGen_runsFrom (walkable_of_parts hs)

theorem serialize_runsSound : serialize.RunsSound := fun _ _ hs => serialize_runsFrom (walkable_of_parts hs)

/-- COMPRESS starts with a WorkClear, so each of its stages starts where the invariants hold (45_codec_engine.md R212). -/
theorem compressRule_runsFrom (hL : s.cfg.Legal) : compressRule.RunsFrom s := by
  have stages : Cmd.RunsSound (do freq; build; codeGen; encodeText; serialize) :=
    .bind freq_runs.sound freq_keeps fun _ => .bind build_runs.sound build_keeps fun _ =>
      .bind codeGen_runsSound codeGen_keeps fun _ => .bind encodeText_runs.sound encodeText_keeps fun _ => serialize_runsSound
  unfold Cmd.RunsFrom
  rw [compressRule, workClear, Cmd.wp_bind, Cmd.wp_update, Cmd.wp_bind, Cmd.wp_update, Cmd.wp_bind, Cmd.wp_csr, Cmd.wp_bind,
    Cmd.wp_csr, Cmd.wp_bind, Cmd.wp_raiseIf, Cmd.wp_ite]
  exact ⟨nofun, fun _ => ⟨fun _ => serialize_runsSound _ hL (workCleared_parts s), fun _ => stages _ hL (workCleared_parts s)⟩⟩

/-- A command whose rule runs has a next state. -/
theorem exec_next {i : Instr} (h : (ruleOf i).RunsFrom s) : ∃ t, exec i s = .next t := by
  rw [exec_eq_runCommand]
  exact runCommand_total h

/-- Settles O15: the model's one stop is in the two walks, which end where ROOT is 0 or names a tree of NODE. -/
theorem everyCommandCompletes : Obligations.EveryCommandCompletes := by
  refine ⟨fun i s hi => exec_next (ruleOf_runs hi s), fun i s hL hs => ?_⟩
  by_cases hi : i ∈ [.codegen, .serialize, .compress]
  · simp only [List.mem_cons, List.not_mem_nil, or_false] at hi
    rcases hi with rfl | rfl | rfl
    · exact exec_next (codeGen_runsFrom (walkable_of_sound hs))
    · exact exec_next (serialize_runsFrom (walkable_of_sound hs))
    · exact exec_next (compressRule_runsFrom hL)
  · exact exec_next (ruleOf_runs hi s)

end Sys2Proof.Machine

/-! # Proofs of the family 20_memory.md -/

/-! ## What a host read and a host write answer -/

namespace Sys2Proof.Machine

variable {s : State} {addr v : Word} {rest : List HostTx}

/-! ### Addresses (20_memory.md R61) -/

/-- An address is a space and an offset in one way. -/
theorem exists_address_iff (p : Nat → Nat → Prop) :
    (∃ space offset, addr.toNat = space * 2 ^ 28 + offset ∧ offset < 2 ^ 28 ∧ p space offset) ↔
      p (spaceOf addr) (offsetOf addr) := by
  rw [spaceOf_toNat, offsetOf_toNat]
  constructor
  · rintro ⟨space, offset, h, hlt, hp⟩
    have hs : addr.toNat / 2 ^ 28 = space := by omega
    have ho : addr.toNat % 2 ^ 28 = offset := by omega
    rwa [hs, ho]
  · exact fun hp => ⟨_, _, by omega, by omega, hp⟩

theorem hostReadable_iff (c : Config) (addr : Word) : hostReadable c addr ↔
    (spaceOf addr = 0 ∧ offsetOf addr ∈ csrNumbers) ∨ (spaceOf addr = 1 ∧ offsetOf addr < c.nMax) ∨
      (spaceOf addr = 2 ∧ offsetOf addr < c.bMax) ∨ (spaceOf addr = 3 ∧ offsetOf addr < 2 * c.kMax) ∨
      (spaceOf addr = 4 ∧ 4 ≤ offsetOf addr ∧ offsetOf addr ≤ 4 * c.nodeMax + 3) ∨
      (spaceOf addr = 5 ∧ offsetOf addr < c.kMax) ∨ (spaceOf addr = 6 ∧ offsetOf addr < c.ctStride * c.kMax) ∨
      (spaceOf addr = 7 ∧ offsetOf addr < c.pMax) :=
  exists_address_iff _

theorem hostWritable_iff (c : Config) (addr : Word) : hostWritable c addr ↔
    (spaceOf addr = 0 ∧ (offsetOf addr = 0x00 ∨ offsetOf addr = 0x06 ∨ offsetOf addr = 0x07)) ∨
      (spaceOf addr = 1 ∧ offsetOf addr < c.nMax) ∨ (spaceOf addr = 2 ∧ offsetOf addr < c.bMax) :=
  exists_address_iff _

theorem spaceOf_portAddr (space : BitVec 4) {offset : Nat} (h : offset < 2 ^ 28) :
    spaceOf (portAddr space offset) = space.toNat := (address_parts space h).1

theorem offsetOf_portAddr (space : BitVec 4) {offset : Nat} (h : offset < 2 ^ 28) :
    offsetOf (portAddr space offset) = offset := (address_parts space h).2

/-! ### Reads (20_memory.md R62, R72) -/

/-- There is a register at each CSR number of 10_state.md R22 and nowhere else. -/
theorem csrRead_isSome (n : Nat) (s : State) : (csrRead n s).isSome ↔ n ∈ csrNumbers := by
  unfold csrRead
  split <;> simp_all [csrNumbers]

/-- A read of space 0 answers the register there. -/
theorem hostRead_csr (h : spaceOf addr = 0) (hv : csrRead (offsetOf addr) s = some v) : hostRead addr s = (.data v, s) := by
  simp [hostRead, h, hv]

/-- The two answers of a read of a memory under its guard `c`. -/
theorem guardedRead_answers {α : Type} {p c : Prop} [Decidable c] (hpc : p ↔ c) (view : α → Word) (mem : State → Memory α)
    (free : State → α) (i : Nat) (s : State) :
    (¬ p → (if c then answer view (readElem mem free i s) else (.busError, s)) = (.busError, s)) ∧
      (p → ∃ v n, (if c then answer view (readElem mem free i s) else (.busError, s)) = (.data v, { s with draws := n })) := by
  refine ⟨fun hp => if_neg (mt hpc.mpr hp), fun hp => ?_⟩
  rw [if_pos (hpc.mp hp), answer, readElem_state]
  exact ⟨_, _, rfl⟩

/-- A host read answers data, drawing at most a free value, where R61 implements the address, and else a bus error. -/
theorem hostRead_answers (addr : Word) (s : State) :
    (¬ hostReadable s.cfg addr → hostRead addr s = (.busError, s)) ∧
      (hostReadable s.cfg addr → ∃ v n, hostRead addr s = (.data v, { s with draws := n })) := by
  rw [hostReadable_iff]
  unfold hostRead
  split
  case h_1 h =>
    have reg := csrRead_isSome (offsetOf addr) s
    cases e : csrRead (offsetOf addr) s with
    | none => exact ⟨fun _ => rfl, by simp_all⟩
    | some v => exact ⟨by simp_all, fun _ => ⟨v, s.draws, rfl⟩⟩
  case h_9 => exact ⟨fun _ => rfl, by simp_all⟩
  all_goals exact guardedRead_answers (by simp [*, Nat.lt_succ_iff]) _ _ _ _ _

/-- Settles O16: the guard of each space is the range that R61 implements. -/
theorem hostReadAnswers : Obligations.HostReadAnswers := by
  intro s addr rest h
  obtain ⟨outside, inside⟩ := hostRead_answers addr { s with inbox := rest }
  rw [step_read h]
  refine ⟨fun hn => by rw [outside hn], fun hr => ?_⟩
  obtain ⟨v, n, e⟩ := inside hr
  exact ⟨v, n, by rw [e]⟩

/-! ### The view of the registers (20_memory.md R64; 10_state.md R22 to R42) -/

/-- A read that answers data and draws no free value, as a step. -/
theorem step_of_hostRead (h : s.inbox = .read addr :: rest)
    (hr : hostRead addr { s with inbox := rest } = (.data v, { s with inbox := rest })) :
    step s = .next { s with inbox := rest, reply := some (.data v) } := by
  rw [step_read h, hr]

/-- The value of two bit vectors side by side. -/
theorem toNat_append_eq {m n : Nat} (a : BitVec m) (b : BitVec n) : (a ++ b).toNat = a.toNat * 2 ^ n + b.toNat := by
  rw [BitVec.toNat_append, ← Nat.shiftLeft_add_eq_or_of_lt b.isLt, Nat.shiftLeft_eq]

theorem flagsWord_eq (s : State) : s.flagsWord = BitVec.ofNat 32 (s.qe.toNat + 2 * s.be.toNat) := by
  unfold State.flagsWord
  cases s.qe <;> cases s.be <;> rfl

theorem stgWord_eq (s : State) : s.stgWord = BitVec.ofNat 32 (s.stgBits.toNat + 2 ^ 8 * s.stgCnt.toNat) := by
  apply BitVec.eq_of_toNat_eq
  simp only [State.stgWord, toNat_append_eq, BitVec.toNat_ofNat]
  omega

theorem csrNumbers_lt : ∀ n ∈ csrNumbers, n < 2 ^ 28 := by decide

theorem hostRead_portAddr_csr {n : Nat} (hv : csrRead n s = some v) : hostRead (portAddr 0#4 n) s = (.data v, s) := by
  have hn : n < 2 ^ 28 := csrNumbers_lt n ((csrRead_isSome n s).mp (by rw [hv]; rfl))
  exact hostRead_csr (spaceOf_portAddr _ hn) (by rw [offsetOf_portAddr _ hn, hv])

/-- Settles O17: each row is the row of `csrRead` with its number, the joined fields as numbers. -/
theorem hostViewOfRegisters : Obligations.HostViewOfRegisters := by
  intro s n v rest hrow h
  have view : csrRead n s = some v := by
    simp only [List.mem_cons, Prod.mk.injEq, List.not_mem_nil, or_false, ← flagsWord_eq, ← stgWord_eq,
      BitVec.ofNat_toNat] at hrow
    casesm* _ ∨ _, _ ∧ _ <;> subst_vars <;> rfl
  exact step_of_hostRead h (hostRead_portAddr_csr view)

/-! ### The views of the memories (20_memory.md R65 to R71) -/

theorem hostRead_text {i : Nat} {v : Word} (hL : s.cfg.Legal) (hi : i < s.cfg.nMax) (hv : s.text.get? i = some v) :
    hostRead (portAddr 1#4 i) s = (.data v, s) := by
  have hlt : i < 2 ^ 28 := by omega
  simp [hostRead, spaceOf_portAddr _ hlt, offsetOf_portAddr _ hlt, hi, textAt_some hv, answer]

theorem hostRead_blob {i : Nat} {v : Byte} (hL : s.cfg.Legal) (hi : i < s.cfg.bMax) (hv : s.blob.get? i = some v) :
    hostRead (portAddr 2#4 i) s = (.data (v.setWidth 32), s) := by
  have hlt : i < 2 ^ 28 := by omega
  simp [hostRead, spaceOf_portAddr _ hlt, offsetOf_portAddr _ hlt, hi, blobAt_some hv, answer]

theorem hostRead_ft {j k : Nat} {e : FtEntry} (hL : s.cfg.Legal) (hj : j < s.cfg.kMax) (hk : k < 2) (he : s.ft.get? j = some e) :
    hostRead (portAddr 3#4 (2 * j + k)) s = (.data (ftWord e k), s) := by
  have hlt : 2 * j + k < 2 ^ 28 := by omega
  have hin : 2 * j + k < 2 * s.cfg.kMax := by omega
  have hdiv : (2 * j + k) / 2 = j := by omega
  have hmod : (2 * j + k) % 2 = k := by omega
  simp [hostRead, spaceOf_portAddr _ hlt, offsetOf_portAddr _ hlt, hin, hdiv, hmod, ftAt_some he, answer]

theorem hostRead_node {id k : Nat} {x : Node} (hL : s.cfg.Legal) (h1 : 1 ≤ id) (hid : id ≤ s.cfg.nodeMax) (hk : k < 4)
    (hx : s.node.get? id = some x) : hostRead (portAddr 4#4 (4 * id + k)) s = (.data (nodeWord x k), s) := by
  have hlt : 4 * id + k < 2 ^ 28 := by unfold Config.nodeMax at hid; omega
  have hin : 4 ≤ 4 * id + k ∧ 4 * id + k < 4 * s.cfg.nodeMax + 4 := by omega
  have hdiv : (4 * id + k) / 4 = id := by omega
  have hmod : (4 * id + k) % 4 = k := by omega
  simp [hostRead, spaceOf_portAddr _ hlt, offsetOf_portAddr _ hlt, hin, hdiv, hmod, nodeAt_some hx, answer]

theorem hostRead_heap {i : Nat} {id : NodeId} (hL : s.cfg.Legal) (hi : i < s.cfg.kMax) (hv : s.heap.get? i = some id) :
    hostRead (portAddr 5#4 i) s = (.data (id.setWidth 32), s) := by
  have hlt : i < 2 ^ 28 := by omega
  simp [hostRead, spaceOf_portAddr _ hlt, offsetOf_portAddr _ hlt, hi, heapAt_some hv, answer]

theorem hostRead_ct {j k : Nat} {e : CtEntry} (hL : s.cfg.Legal) (hj : j < s.cfg.kMax) (hk : k < s.cfg.ctStride)
    (he : s.ct.get? j = some e) : hostRead (portAddr 6#4 (s.cfg.ctStride * j + k)) s = (.data (ctWord e k), s) := by
  have hin : s.cfg.ctStride * j + k < s.cfg.ctStride * s.cfg.kMax :=
    calc s.cfg.ctStride * j + k < s.cfg.ctStride * (j + 1) := by rw [Nat.mul_succ]; omega
      _ ≤ s.cfg.ctStride * s.cfg.kMax := Nat.mul_le_mul_left _ hj
  have hlt : s.cfg.ctStride * j + k < 2 ^ 28 := by omega
  have hdiv : (s.cfg.ctStride * j + k) / s.cfg.ctStride = j := by
    rw [Nat.mul_add_div (by omega), Nat.div_eq_of_lt hk, Nat.add_zero]
  have hmod : (s.cfg.ctStride * j + k) % s.cfg.ctStride = k := by rw [Nat.mul_add_mod, Nat.mod_eq_of_lt hk]
  simp [hostRead, spaceOf_portAddr _ hlt, offsetOf_portAddr _ hlt, hin, hdiv, hmod, ctAt_some he, answer]

theorem hostRead_pk {i : Nat} {v : Byte} (hL : s.cfg.Legal) (hi : i < s.cfg.pMax) (hv : s.pk.get? i = some v) :
    hostRead (portAddr 7#4 i) s = (.data (v.setWidth 32), s) := by
  have hlt : i < 2 ^ 28 := by omega
  simp [hostRead, spaceOf_portAddr _ hlt, offsetOf_portAddr _ hlt, hi, pkAt_some hv, answer]

/-- The packed word of a node (R68). -/
theorem nodeWord_zero (x : Node) :
    nodeWord x 0 = BitVec.ofNat 32 (x.st.toNat * 2 ^ 30 + x.leaf.toNat * 2 ^ 29 + x.sym.toNat) := by
  apply BitVec.eq_of_toNat_eq
  simp only [nodeWord, toNat_append_eq, BitVec.toNat_ofNat, BitVec.toNat_ofBool]
  have := x.leaf.toNat_le
  omega

/-- Settles O18: an element that is listed is read as it is, and its words are those of its fields. -/
theorem hostViewOfMemories : Obligations.HostViewOfMemories := by
  intro s space offset rest hL h
  have seen {v : Word} := step_of_hostRead (v := v) h
  have hstride : 2 ≤ s.cfg.ctStride := Nat.le_add_right ..
  simp only [BitVec.ofNat_toNat]
  refine ⟨?_, ?_, ?_, ?_, ?_, ?_, ?_⟩
  · rintro v rfl hi hv
    exact seen (hostRead_text hL hi hv)
  · rintro v rfl hi hv
    exact seen (hostRead_blob hL hi hv)
  · rintro j e rfl hj he
    have word {k : Nat} (hk : k < 2) := hostRead_ft (s := { s with inbox := rest }) hL hj hk he
    refine ⟨?_, ?_⟩ <;> rintro rfl
    · exact seen (word (k := 0) (by decide))
    · exact seen (word (k := 1) (by decide))
  · rintro id x rfl h1 hid hx
    have word {k : Nat} (hk : k < 4) := hostRead_node (s := { s with inbox := rest }) hL h1 hid hk hx
    refine ⟨?_, ?_, ?_, ?_⟩ <;> rintro rfl
    · exact nodeWord_zero x ▸ seen (word (k := 0) (by decide))
    · exact seen (word (k := 1) (by decide))
    · exact seen (word (k := 2) (by decide))
    · exact seen (word (k := 3) (by decide))
  · rintro id rfl hi hv
    exact seen (hostRead_heap hL hi hv)
  · rintro j e rfl hj he
    have word {k : Nat} (hk : k < s.cfg.ctStride) := hostRead_ct (s := { s with inbox := rest }) hL hj hk he
    refine ⟨?_, ?_, fun q hq => ?_⟩ <;> rintro rfl
    · exact seen (word (k := 0) (by omega))
    · exact seen (word (k := 1) (by omega))
    · exact ⟨codeWord e q, seen (word hq), fun k hk => codeWord_bit e q hk⟩
  · rintro v rfl hi hv
    exact seen (hostRead_pk hL hi hv)

/-! ### Writes (20_memory.md R63 to R66, R72) -/

/-- Outside what the host can write a write is a bus error and changes nothing. -/
theorem hostWrite_refused (h : ¬ hostWritable s.cfg addr) : hostWrite addr v s = .next { s with reply := some .busError } := by
  rw [hostWritable_iff] at h
  unfold hostWrite
  split
  · split <;> simp_all
  · rw [if_neg (by simp_all)]
  · rw [if_neg (by simp_all)]
  · rfl

theorem hostWrite_text {i : Nat} (hi : i < s.cfg.nMax) (hlt : i < 2 ^ 28) :
    hostWrite (portAddr 1#4 i) v s = .next { s.storeText i v with reply := some .done } := by
  simp [hostWrite, spaceOf_portAddr _ hlt, offsetOf_portAddr _ hlt, hi]

theorem hostWrite_blob {i : Nat} (hi : i < s.cfg.bMax) (hlt : i < 2 ^ 28) :
    hostWrite (portAddr 2#4 i) v s = .next { s.storeBlob i (v.extractLsb' 0 8) with reply := some .done } := by
  simp [hostWrite, spaceOf_portAddr _ hlt, offsetOf_portAddr _ hlt, hi]

/-- Settles O19: a write stores in the one place its address names, if the host can write there. -/
theorem hostWriteAnswers : Obligations.HostWriteAnswers := by
  intro s addr v rest h
  rw [step_write h]
  refine ⟨fun hn => hostWrite_refused hn, ?_, ?_, ?_, ?_⟩
  · rintro rfl
    rfl
  · rintro rfl
    rfl
  · rintro i hi hlt rfl
    refine ⟨s.text.store 0 s.cfg.nMax i v, hostWrite_text hi hlt, fun k => ?_⟩
    simp [Memory.get?_store, hi]
  · rintro i hi hlt rfl
    refine ⟨s.blob.store 0 s.cfg.bMax i (v.extractLsb' 0 8), hostWrite_blob hi hlt, fun k => ?_⟩
    simp [Memory.get?_store, hi, ← BitVec.setWidth_eq_extractLsb']

end Sys2Proof.Machine

/-! ## Which memories a command can write (20_memory.md R78) -/

namespace Sys2Proof.Machine

variable {P : State → Prop} {s : State} {i : Instr}

/-- The W entries of R78's column TEXT. -/
abbrev WritesText (i : Instr) : Prop := i ∈ [.decode, .decompress]
/-- The W entries of R78's column BLOB. -/
abbrev WritesBlob (i : Instr) : Prop := i ∈ [.serialize, .compress]
/-- The W entries of R78's column FT. -/
abbrev WritesFt (i : Instr) : Prop := i ∈ [.freq, .compress]
/-- The W entries of R78's column NODE. -/
abbrev WritesNode (i : Instr) : Prop :=
  (∃ n, i = .pqInsert n) ∨ i ∈ [.pqExtract, .leaves, .combine, .build, .parse, .compress, .decompress]
/-- The W entries of R78's column HEAP. -/
abbrev WritesHeap (i : Instr) : Prop := (∃ n, i = .pqInsert n) ∨ i ∈ [.pqExtract, .leaves, .combine, .build, .compress]
/-- The W entries of R78's column CT. -/
abbrev WritesCt (i : Instr) : Prop := i ∈ [.codegen, .compress]
/-- The W entries of R78's column PK. -/
abbrev WritesPk (i : Instr) : Prop :=
  (∃ len bits, i = .pkPush len bits) ∨ i ∈ [.encode, .pkFlush, .parse, .compress, .decompress]

/-- A property closed under the writes outside the memories: the registers, and the count of free values. -/
structure State.RegisterClosed (P : State → Prop) : Prop where
  draws : State.onDraws P
  work : State.onWork P
  ftCnt : ∀ s n, P s → P { s with ftCnt := n }
  nodeCnt : State.onNodeCnt P
  pqCnt : State.onPqCnt P
  root : State.onRoot P
  ctCnt : ∀ s n, P s → P { s with ctCnt := n }
  packer : ∀ s n p b c, P s → P { s with pkLen := n, pad := p, stgBits := b, stgCnt := c }
  unpacker : State.onUnpacker P
  origLen : State.onOrigLen P
  res : State.onRes P
  qe : State.onQe P
  be : State.onBe P
  textLen : State.onTextLen P
  blobLen : State.onBlobLen P
  err : State.onErr P

/-- A property closed under the writes of the registers and of the memories that R78 gives the command. -/
structure State.MemoryClosed (i : Instr) (P : State → Prop) : Prop extends State.RegisterClosed P where
  text : WritesText i → State.onText P
  blob : WritesBlob i → State.onBlob P
  ft : WritesFt i → ∀ s j e, P s → P (s.storeFt j e)
  node : WritesNode i → State.onNode P
  heap : WritesHeap i → ∀ s k id, P s → P (s.storeHeap k id)
  ct : WritesCt i → ∀ s j e, P s → P (s.storeCt j e)
  pk : WritesPk i → ∀ s k v, P s → P (s.storePk k v)

/-- No command writes more than the registers and the memories that R78 gives it. -/
theorem ruleOf_inv_of_memoryClosed (c : State.MemoryClosed i P) : Cmd.Inv P (ruleOf i) := by
  have table (h : WritesFt i) : State.onTable P := ⟨c.ft h, c.ftCnt⟩
  have queue (h : WritesHeap i) : State.onHeap P := ⟨c.heap h, c.pqCnt⟩
  have codes (h : WritesCt i) : State.onCodes P := ⟨c.ct h, c.ctCnt⟩
  have packer (h : WritesPk i) : State.onPacker P := ⟨c.pk h, c.packer⟩
  cases i with
  | nop => exact .pure ()
  | clear => exact clearRule_inv c.work c.err c.textLen c.blobLen
  | pqInsert n => exact pqInsertRule_inv c.draws (queue (.inl ⟨n, rfl⟩)) (c.node (.inl ⟨n, rfl⟩)) n
  | pqExtract => exact pqExtractRule_inv c.draws (queue (.inr (by simp))) (c.node (.inr (by simp))) c.qe c.res
  | freq => exact freq_inv c.draws (table (by simp))
  | leaves => exact leaves_inv c.draws (queue (.inr (by simp))) (c.node (.inr (by simp))) c.nodeCnt c.root
  | combine => exact combine_inv c.draws (queue (.inr (by simp))) (c.node (.inr (by simp))) c.nodeCnt c.res
  | build => exact build_inv c.draws (queue (.inr (by simp))) (c.node (.inr (by simp))) c.nodeCnt c.root c.res
  | setRoot n => exact setRootRule_inv c.draws c.root n
  | codegen => exact codeGen_inv c.draws (codes (by simp))
  | encode => exact encodeText_inv c.draws (packer (.inr (by simp))) c.origLen
  | pkInit => exact .update fun s => c.packer s _ _ _ _
  | pkPush len bits => exact pkPushRule_inv (packer (.inl ⟨len, bits, rfl⟩)) len bits
  | pkFlush => exact pkFlushRule_inv (packer (.inr (by simp)))
  | upInit => exact upInit_inv c.unpacker
  | upPop => exact upPopRule_inv c.draws c.unpacker c.be c.res
  | decode => exact decodeText_inv c.draws (c.text (by simp)) c.textLen c.unpacker
  | serialize => exact serialize_inv c.draws (c.blob (by simp)) c.blobLen
  | parse =>
    exact parse_inv c.draws c.pqCnt (c.node (.inr (by simp))) c.nodeCnt c.root (packer (.inr (by simp))) c.unpacker c.origLen
  | compress =>
    exact compressRule_inv c.draws c.work (table (by simp)) (queue (.inr (by simp))) (c.node (.inr (by simp))) c.nodeCnt c.root
      c.res (codes (by simp)) (packer (.inr (by simp))) c.origLen (c.blob (by simp)) c.blobLen
  | decompress =>
    exact decompressRule_inv c.draws c.work c.pqCnt (c.node (.inr (by simp))) c.nodeCnt c.root (packer (.inr (by simp))) c.unpacker
      c.origLen (c.text (by simp)) c.textLen

/-- Each memory of `u` that R78 does not give the command is that of `s`. -/
def State.keepsOthers (i : Instr) (s u : State) : Prop :=
  (WritesText i ∨ u.text = s.text) ∧ (WritesBlob i ∨ u.blob = s.blob) ∧ (WritesFt i ∨ u.ft = s.ft) ∧
    (WritesNode i ∨ u.node = s.node) ∧ (WritesHeap i ∨ u.heap = s.heap) ∧ (WritesCt i ∨ u.ct = s.ct) ∧
    (WritesPk i ∨ u.pk = s.pk)

theorem keepsOthers_registerClosed (i : Instr) (s : State) : State.RegisterClosed (State.keepsOthers i s) where
  draws := fun _ _ h => h
  work := fun _ h => h
  ftCnt := fun _ _ h => h
  nodeCnt := fun _ _ h => h
  pqCnt := fun _ _ h => h
  root := ⟨fun _ _ h => h, fun _ _ h => h⟩
  ctCnt := fun _ _ h => h
  packer := fun _ _ _ _ _ h => h
  unpacker := fun _ _ _ h => h
  origLen := fun _ _ h => h
  res := fun _ _ h => h
  qe := fun _ _ h => h
  be := fun _ _ h => h
  textLen := fun _ _ h => h
  blobLen := fun _ _ h => h
  err := fun _ _ _ _ h => h

theorem keepsOthers_memoryClosed (i : Instr) (s : State) : State.MemoryClosed i (State.keepsOthers i s) where
  toRegisterClosed := keepsOthers_registerClosed i s
  text := fun hw _ _ _ ⟨_, h⟩ => ⟨.inl hw, h⟩
  blob := fun hw _ _ _ ⟨a, _, h⟩ => ⟨a, .inl hw, h⟩
  ft := fun hw _ _ _ ⟨a, b, _, h⟩ => ⟨a, b, .inl hw, h⟩
  node := fun hw _ _ _ ⟨a, b, c, _, h⟩ => ⟨a, b, c, .inl hw, h⟩
  heap := fun hw _ _ _ ⟨a, b, c, d, _, h⟩ => ⟨a, b, c, d, .inl hw, h⟩
  ct := fun hw _ _ _ ⟨a, b, c, d, e, _, h⟩ => ⟨a, b, c, d, e, .inl hw, h⟩
  pk := fun hw _ _ _ ⟨a, b, c, d, e, f, _⟩ => ⟨a, b, c, d, e, f, .inl hw⟩

/-- A command with its fault entry keeps the memories that R78 does not give it. -/
theorem exec_keepsOthers {t : State} (h : exec i s = .next t) : State.keepsOthers i s t :=
  have c := keepsOthers_memoryClosed i s
  (ruleOf_inv_of_memoryClosed c).next (takeFault_inv c.err (encodeInstr i))
    ⟨.inr rfl, .inr rfl, .inr rfl, .inr rfl, .inr rfl, .inr rfl, .inr rfl⟩ (exec_eq_runCommand i s ▸ h)

/-- Settles O14: a memory that changed is one of those that R78 gives the command. -/
theorem memoryWriters : Obligations.MemoryWriters := fun _ _ _ h =>
  have ⟨text, blob, ft, node, heap, ct, pk⟩ := exec_keepsOthers h
  ⟨text.resolve_right, blob.resolve_right, ft.resolve_right, node.resolve_right, heap.resolve_right, ct.resolve_right,
    pk.resolve_right⟩

end Sys2Proof.Machine

/-! ## Command words and their issue (30_encoding.md R91 to R97) -/

namespace Sys2Proof.Machine

variable {s : State} {w : Word} {rest : List HostTx}

/-! ### Round trips -/

/-- Settles O2: command by command, each by the round trip of its format. -/
theorem decodeOfEncode : Obligations.DecodeOfEncode := by
  intro i
  cases i with
  | nop => exact Laws.RoundTrip.nop
  | clear => exact Laws.RoundTrip.clear
  | pqInsert n => exact Laws.RoundTrip.pqInsert n
  | pqExtract => exact Laws.RoundTrip.pqExtract
  | freq => exact Laws.RoundTrip.freq
  | leaves => exact Laws.RoundTrip.leaves
  | combine => exact Laws.RoundTrip.combine
  | build => exact Laws.RoundTrip.build
  | setRoot n => exact Laws.RoundTrip.setRoot n
  | codegen => exact Laws.RoundTrip.codegen
  | encode => exact Laws.RoundTrip.encode
  | pkInit => exact Laws.RoundTrip.pkInit
  | pkPush len bits => exact Laws.RoundTrip.pkPush len bits
  | pkFlush => exact Laws.RoundTrip.pkFlush
  | upInit => exact Laws.RoundTrip.upInit
  | upPop => exact Laws.RoundTrip.upPop
  | decode => exact Laws.RoundTrip.decode
  | serialize => exact Laws.RoundTrip.serialize
  | parse => exact Laws.RoundTrip.parse
  | compress => exact Laws.RoundTrip.compress
  | decompress => exact Laws.RoundTrip.decompress

/-- A word whose low field is zero is the format Z word of its opcode. -/
theorem encodeZ_of_lowField_eq_zero (h : lowField w = 0#24) : encodeZ (opcodeField w) = w := by
  have hw := encodeN_fields w
  rwa [h] at hw

/-- A word with a known opcode is the format N word of its low field. -/
theorem encodeN_of_opcodeField_eq {op : BitVec 8} (h : opcodeField w = op) : encodeN op (lowField w) = w :=
  h ▸ encodeN_fields w

/-- A word with a known opcode and a zero in bits 23:21 is the format B word of its other fields. -/
theorem encodeB_of_opcodeField_eq {op : BitVec 8} (h : opcodeField w = op) (hzero : zeroFieldB w = 0#3) :
    encodeB op (lenField w) (bitsField w) = w :=
  h ▸ encodeB_fields hzero

/-- Settles O3: in each format the decoder accepts, the word is put together again from the fields it was read from. -/
theorem encodingIsCanonical : Obligations.EncodingIsCanonical := by
  intro w i h
  rcases decodeWord_command h with ⟨hz, hlow⟩ | ⟨hop, rfl⟩ | ⟨hop, rfl⟩ | ⟨hop, hzero, hok, rfl⟩
  · obtain ⟨hwf, henc⟩ := lookupZ_some hz
    exact ⟨hwf, henc.trans (encodeZ_of_lowField_eq_zero hlow)⟩
  · exact ⟨rfl, encodeN_of_opcodeField_eq hop⟩
  · exact ⟨rfl, encodeN_of_opcodeField_eq hop⟩
  · exact ⟨hok, encodeB_of_opcodeField_eq hop hzero⟩

/-- The word of a well-formed command is legal (R95). -/
theorem legal_of_encodes {i : Instr} (hwf : i.wf = true) (hw : encodeInstr i = w) : ∃ i, decodeWord w = .command i :=
  ⟨i, hw ▸ decodeOfEncode i hwf⟩

/-! ### Which words are legal (R93, R94, R96) -/

/-- A mask of all the bits from `k` up leaves the multiple of `2 ^ k` below the word. -/
theorem toNat_and_highMask (w : Word) (k : Nat) : (w &&& BitVec.allOnes 32 <<< k).toNat = w.toNat / 2 ^ k * 2 ^ k := by
  have hlt : w.toNat / 2 ^ k * 2 ^ k < 2 ^ 32 := (Nat.div_mul_le_self _ _).trans_lt w.isLt
  rw [← BitVec.shiftLeft_ushiftRight, BitVec.toNat_shiftLeft, BitVec.toNat_ushiftRight, Nat.shiftRight_eq_div_pow,
    Nat.shiftLeft_eq, Nat.mod_eq_of_lt hlt]

/-- The match and mask of format N (R94). -/
theorem maskN_iff (w : Word) (op : BitVec 8) : w &&& 0xFF000000#32 = encodeZ op ↔ opcodeField w = op := by
  have hop : (encodeZ op).toNat / 2 ^ 24 = op.toNat := by rw [← opcodeField_toNat, opcodeField_encodeZ]
  have hlow : (encodeZ op).toNat % 2 ^ 24 = 0 := by rw [← lowField_toNat, lowField_encodeZ]; rfl
  rw [← BitVec.toNat_inj, ← BitVec.toNat_inj, opcodeField_toNat,
    show 0xFF000000#32 = BitVec.allOnes 32 <<< 24 by decide, toNat_and_highMask]
  omega

/-- The match and mask of PK_PUSH (R94). -/
theorem maskB_iff (w : Word) : w &&& 0xFFE00000#32 = 0x41000000#32 ↔ opcodeField w = 0x41#8 ∧ zeroFieldB w = 0#3 := by
  rw [← BitVec.toNat_inj, ← BitVec.toNat_inj, ← BitVec.toNat_inj, opcodeField_toNat, zeroFieldB_toNat,
    show 0xFFE00000#32 = BitVec.allOnes 32 <<< 21 by decide, toNat_and_highMask]
  simp only [BitVec.toNat_ofNat]
  omega

/-- The value conditions of format B on the numbers its two fields hold (R93). -/
theorem formatBOk_fields_iff (w : Word) : formatBOk (lenField w) (bitsField w) = true ↔
    1 ≤ w.toNat / 2 ^ 16 % 2 ^ 5 ∧ w.toNat / 2 ^ 16 % 2 ^ 5 ≤ 16 ∧ w.toNat % 2 ^ 16 / 2 ^ (w.toNat / 2 ^ 16 % 2 ^ 5) = 0 := by
  simp [formatBOk, lenField_toNat, bitsField_toNat, Nat.shiftRight_eq_div_pow, and_assoc]

/-- Settles O4: format by format, the words the decoder accepts are those of the opcode map's match and mask. -/
theorem legalWords : Obligations.LegalWords := by
  intro w
  rw [maskB_iff, and_assoc, ← formatBOk_fields_iff,
    show 0x10000000#32 = encodeZ 0x10#8 by decide, maskN_iff, show 0x24000000#32 = encodeZ 0x24#8 by decide, maskN_iff]
  change _ ↔ w ∈ formatZ.map (fun p => encodeZ p.1) ∨ _
  constructor
  · rintro ⟨i, h⟩
    rcases decodeWord_command h with ⟨hz, hlow⟩ | ⟨hop, -⟩ | ⟨hop, -⟩ | ⟨hop, hzero, hok, -⟩
    · exact .inl (List.mem_map.mpr ⟨_, mem_of_lookup hz, encodeZ_of_lowField_eq_zero hlow⟩)
    · exact .inr (.inl hop)
    · exact .inr (.inr (.inl hop))
    · exact .inr (.inr (.inr ⟨hop, hzero, hok⟩))
  · rintro (hz | hop | hop | ⟨hop, hzero, hok⟩)
    · obtain ⟨p, hp, rfl⟩ := List.mem_map.mp hz
      have hall : ∀ p ∈ formatZ, lookupZ p.1 = some p.2 := by decide
      exact ⟨p.2, decodeWord_encodeZ (hall p hp)⟩
    · exact legal_of_encodes (i := .pqInsert (lowField w)) rfl (encodeN_of_opcodeField_eq hop)
    · exact legal_of_encodes (i := .setRoot (lowField w)) rfl (encodeN_of_opcodeField_eq hop)
    · exact legal_of_encodes (i := .pkPush (lenField w) (bitsField w)) hok (encodeB_of_opcodeField_eq hop hzero)

/-- Settles O1: the words are fixed, so the decoder is evaluated on each. -/
theorem sampleWordsDecode : Obligations.SampleWordsDecode := by
  unfold Obligations.SampleWordsDecode
  decide

/-! ### Issue (R97) -/

/-- A step that takes a write to CMD is the issue of its word, answered `ok` (20_memory.md R64). -/
theorem step_cmd (h : s.inbox = .write 0x00000000#32 w :: rest) :
    step s = issue w { s with inbox := rest, reply := some .done } := step_write h

theorem issue_discarded (herr : s.err ≠ 0#8) (hw : w ≠ encodeInstr .clear) : issue w s = .next s := by
  unfold issue issueCheck
  rw [if_pos ⟨herr, hw⟩]

/-- A word is not discarded outside the fault state, nor CLEAR in it (R97). -/
theorem not_discarded (h : s.err = 0#8 ∨ w = encodeInstr .clear) : ¬(s.err ≠ 0#8 ∧ w ≠ encodeInstr .clear) :=
  fun ⟨herr, hw⟩ => h.elim herr hw

theorem issue_illegal {why : IllegalWord} (h : s.err = 0#8 ∨ w = encodeInstr .clear) (hd : decodeWord w = .illegal why) :
    issue w s = .next (takeFault .illegal 0 w s) := by
  unfold issue issueCheck
  rw [if_neg (not_discarded h), hd]

theorem issue_command {i : Instr} (h : s.err = 0#8 ∨ w = encodeInstr .clear) (hd : decodeWord w = .command i) :
    issue w s = exec i s := by
  unfold issue issueCheck
  rw [if_neg (not_discarded h), hd]

/-- Settles O5: the three outcomes of `Issue`, of the state in which the write is answered. -/
theorem stepIssuesTheWord : Obligations.StepIssuesTheWord := by
  intro s w rest h
  have hclear : 0x01000000#32 = encodeInstr .clear := by decide
  rw [step_cmd h, hclear]
  exact ⟨fun herr hw => issue_discarded herr hw, fun hrun => ⟨fun _ hd => issue_illegal hrun hd, fun _ hd => issue_command hrun hd⟩⟩

end Sys2Proof.Machine

/-! # Proofs of the family 40_priority_queue.md -/

/-! ## PQ_INSERT and PQ_EXTRACT -/

namespace Sys2Proof.Machine

variable {s : State} {nodes : List Node} {h : List NodeId} {n : NodeId} {x : Node} {heap' : Memory NodeId} {node' : Memory Node}
  {Q : Unit → State → Prop} {E : Stop → State → Prop}

/-! ### The state at a fault (60_exceptions.md R232) -/

theorem takeFault_eq_faulted (code : FaultCode) (info : Nat) (w : Word) (s : State) :
    takeFault code info w s = s.faulted code.number.toNat info w := by
  rw [State.faulted, BitVec.ofNat_toNat, BitVec.setWidth_eq, takeFault]

/-- A command whose rule can only raise this fault, in a state it names, ends there with the fault recorded. -/
theorem exec_eq_faulted {i : Instr} {code : FaultCode} {info : Nat} {t : State}
    (hc : Cmd.wp (ruleOf i) (fun _ _ => False) (fun e u => e = .raise code info ∧ u = t) s) :
    exec i s = .next (t.faulted code.number.toNat info (encodeInstr i)) := by
  rw [exec_eq_runCommand, runCommand_fault_eq hc, takeFault_eq_faulted]

/-! ### The checks of PQ_INSERT (R112) and of PqInsert (R110) -/

theorem wp_pqInsertRule_unallocated (hn : n = 0#24 ∨ s.nodeCnt.toNat < n.toNat) :
    Cmd.wp (pqInsertRule n) Q E s ↔ E (.raise .badNode n.toNat) s := by
  rw [pqInsertRule, Cmd.wp_bind, Cmd.wp_csr, Cmd.wp_bind, Cmd.wp_raiseIf]
  exact ⟨fun hc => hc.1 hn, fun he => ⟨fun _ => he, fun hne => absurd hn hne⟩⟩

/-- On an allocated, written node the two checks that are left come before PqInsert, in the same state. -/
theorem wp_pqInsertRule_allocated (h0 : n ≠ 0#24)
    (hle : n.toNat ≤ s.nodeCnt.toNat) (hx : s.node.get? n.toNat = some x) :
    Cmd.wp (pqInsertRule n) Q E s ↔ (x.st ≠ stDetached → E (.raise .badNode n.toNat) s) ∧
      (x.st = stDetached → (n = s.root → E (.raise .badNode n.toNat) s) ∧ (n ≠ s.root → Cmd.wp (pqInsert n) Q E s)) := by
  have hn : ¬(n = 0#24 ∨ s.nodeCnt.toNat < n.toNat) := not_or.mpr ⟨h0, Nat.not_lt.mpr hle⟩
  simp only [pqInsertRule, Cmd.wp_bind, Cmd.wp_csr, Cmd.wp_raiseIf, Cmd.wp_readNode, nodeAt_some hx, hn, false_implies, true_and,
    not_false_eq_true, true_implies, not_not]

theorem wp_pqInsert_full (hfull : s.pqCnt.toNat = s.cfg.kMax) :
    Cmd.wp (pqInsert n) Q E s ↔ E (.raise .capacity 5) s := by
  rw [pqInsert, Cmd.wp_bind, Cmd.wp_csr, Cmd.wp_bind, Cmd.wp_csr, Cmd.wp_bind, Cmd.wp_raiseIf]
  exact ⟨fun hc => hc.1 hfull, fun he => ⟨fun _ => he, fun hne => absurd hfull hne⟩⟩

/-- Settles O22: check by check, in the order of the rule; each raises in the state it looks at. -/
theorem pqInsertFaults : Obligations.PqInsertFaults := by
  intro s n
  have fault (code : FaultCode) {info : Nat}
      (hc : Cmd.wp (pqInsertRule n) (fun _ _ => False) (fun e u => e = .raise code info ∧ u = s) s) :=
    exec_eq_faulted (i := .pqInsert n) hc
  refine ⟨fun hn => fault .badNode ((wp_pqInsertRule_unallocated hn).mpr ⟨rfl, rfl⟩), fun x h0 hle hx =>
    ⟨fun hst => fault .badNode ?_, fun hst hr => fault .badNode ?_, fun hst hr hfull => fault .capacity ?_⟩⟩
  · rw [wp_pqInsertRule_allocated h0 hle hx]
    simp [hst]
  · rw [wp_pqInsertRule_allocated h0 hle hx]
    simp [hst, hr]
  · rw [wp_pqInsertRule_allocated h0 hle hx]
    simp [hst, hr, wp_pqInsert_full hfull]

/-! ### The queue after an insertion and an extraction (R114) -/

theorem forestHeld_of_queue (ha : s.arena nodes) (hq : s.queue h) : ForestHeld s { nodes := nodes, heap := h } := by
  obtain ⟨cnt, room, held⟩ := ha
  obtain ⟨qcnt, fits, heap, -, -, ids⟩ := hq
  exact ⟨cnt, room, held, qcnt, fits, heap, cnt ▸ ids⟩

/-- Where PqInsert leaves its list in HEAP and no weight has changed, that list is the queue. -/
theorem queue_insert (hq : s.queue h) (hk : s.cfg.kMax < 2 ^ 32) (hroom : h.length < s.cfg.kMax) (h1 : 1 ≤ n.toNat)
    (hle : n.toNat ≤ s.nodeCnt.toNat) (hnot : n ∉ h) (hweight : weightOf node' = weightOf s.node)
    (hheap : heap'.holds 0 (HeapList.insert (weightOf s.node) h n)) :
    State.queue { s with heap := heap', pqCnt := s.pqCnt + 1#32, node := node' } (HeapList.insert (weightOf s.node) h n) := by
  obtain ⟨qcnt, fits, -, nodup, ord, ids⟩ := hq
  have perm : (HeapList.insert (weightOf s.node) h n).Perm (n :: h) := HeapList.insert_perm n
  refine ⟨?_, HeapList.insert_length n ▸ hroom, hheap, perm.nodup_iff.mpr (List.nodup_cons.mpr ⟨hnot, nodup⟩),
    HeapList.ordered_congr (fun _ _ => by rw [hweight]) (HeapList.insert_ordered ord n), fun id hid => ?_⟩
  · rw [HeapList.insert_length, BitVec.toNat_add_of_lt (by rw [qcnt]; simp; omega), qcnt]
    rfl
  · rcases List.mem_cons.mp (perm.mem_iff.mp hid) with rfl | hid
    · exact ⟨h1, hle⟩
    · exact ids id hid

/-- Where PqExtract leaves its list in HEAP and no weight has changed, that list is the queue. -/
theorem queue_extract (hq : s.queue h) (hpos : 0 < h.length) (hweight : weightOf node' = weightOf s.node)
    (hheap : heap'.holds 0 (HeapList.extract (weightOf s.node) h)) :
    State.queue { s with heap := heap', pqCnt := s.pqCnt - 1#32, node := node' } (HeapList.extract (weightOf s.node) h) := by
  obtain ⟨qcnt, fits, -, nodup, ord, ids⟩ := hq
  have perm : h.Perm (h.getD 0 0#24 :: HeapList.extract (weightOf s.node) h) := HeapList.extract_perm hpos
  refine ⟨?_, ?_, hheap, (List.nodup_cons.mp (perm.nodup_iff.mp nodup)).2,
    HeapList.ordered_congr (fun _ _ => by rw [hweight]) (HeapList.extract_ordered ord),
    fun id hid => ids id (perm.mem_iff.mpr (List.mem_cons_of_mem _ hid))⟩
  · rw [HeapList.extract_length hpos, BitVec.toNat_sub_of_le (by rw [BitVec.le_def, qcnt]; exact hpos), qcnt]
    rfl
  · rw [HeapList.extract_length hpos]
    exact Nat.le_trans (Nat.sub_le ..) fits

/-! ### PQ_INSERT (R112) -/

/-- Settles O21: after the checks PqInsert does on HEAP what the list insertion does, which is the sift-up of R110. -/
theorem pqInsertQueuesTheNode : Obligations.PqInsertQueuesTheNode := by
  intro s n nodes h x ⟨⟨_, hk, _⟩, _⟩ ha hq hroom h1 hle hx hst hr hnot
  have held := forestHeld_of_queue ha hq
  have hmax : n.toNat ≤ s.cfg.nodeMax := hle.trans (held.cnt ▸ held.room)
  have h0 : n ≠ 0#24 := fun e => by simp [e] at h1
  have hrun := (wp_pqInsertRule_allocated h0 hle hx).mpr
    ⟨fun h => absurd hst h, fun _ => ⟨fun h => absurd h hr, fun _ => pqInsert_spec held.heapHeld held.qcnt hroom h1 hmax hx⟩⟩
  obtain ⟨t, ht, heap', rfl, hheap, hsame⟩ := runCommand_of_wp (w := encodeInstr (.pqInsert n)) hrun
  exact ⟨_, _, ht, rfl, get?_withSt h1 hmax, insert_inserts h n, HeapList.insert_perm n,
    queue_insert hq (by omega) hroom h1 hle hnot (weightOf_withSt h1 hmax hx) hheap, hsame⟩

/-! ### PQ_EXTRACT (R113) -/

theorem exec_pqExtract_empty (h0 : s.pqCnt = 0#32) : exec .pqExtract s = .next { s with qe := true, res := 0#32 } := by
  rw [exec_eq_runCommand, ruleOf, pqExtractRule]
  refine runCommand_eq ?_
  rw [Cmd.wp_bind, Cmd.wp_csr, if_pos h0]
  exact rfl

/-- What PQ_EXTRACT does on a queue that is not empty: what PqExtract does, with its answer in RES and QE = 0. -/
theorem pqExtractRule_spec (hh : HeapHeld s h) (hc : s.pqCnt.toNat = h.length) (hpos : 0 < h.length)
    (hx : s.node.get? (h.getD 0 0#24).toNat = some x) :
    Cmd.wp pqExtractRule (fun _ t => ∃ heap',
        t = { s with qe := false, res := BitVec.ofNat 32 (h.getD 0 0#24).toNat, pqCnt := s.pqCnt - 1#32, heap := heap',
                     node := withSt s (h.getD 0 0#24) x stDetached } ∧
        heap'.holds 0 (HeapList.extract (weightOf s.node) h) ∧ s.heap.sameFrom heap' (h.length - 1)) (fun _ _ => False) s := by
  have hne : s.pqCnt ≠ 0#32 := fun e => hpos.ne (hc ▸ e ▸ rfl)
  rw [pqExtractRule, Cmd.wp_bind, Cmd.wp_csr, if_neg hne]
  refine Cmd.wp_then (pqExtract_spec hh hc hpos hx) (fun m t ht => ?_) fun _ _ he => he
  obtain ⟨rfl, heap', rfl, hheap, hsame⟩ := ht
  rw [setQueueResult, Cmd.wp_update, BitVec.ofNat_toNat]
  exact ⟨heap', rfl, hheap, hsame⟩

/-- Settles O23: the first element of the heap is one of least weight, and PqExtract leaves in HEAP what the sift-down of R111
makes of the others. -/
theorem pqExtractTakesTheMinimum : Obligations.PqExtractTakesTheMinimum := by
  refine ⟨by decide, fun _ => exec_pqExtract_empty, fun s nodes h _ ha hq hne => ?_⟩
  have hpos : 0 < h.length := List.length_pos_of_ne_nil hne
  have held := forestHeld_of_queue ha hq
  obtain ⟨h1, hle⟩ := held.ids _ (HeapList.getD_mem hpos)
  have hmax := hle.trans held.room
  have hx := held.node h1 hle
  obtain ⟨t, ht, heap', rfl, hheap, hsame⟩ :=
    runCommand_of_wp (w := encodeInstr .pqExtract) (pqExtractRule_spec held.heapHeld held.qcnt hpos hx)
  have ⟨_, _, _, _, ord, _⟩ := hq
  exact ⟨_, _, _, _, ht, rfl, extract_extracts hpos, HeapList.extract_perm hpos, HeapList.ordered_head_min ord, hx,
    get?_withSt h1 hmax, queue_extract hq hpos (weightOf_withSt h1 hmax hx) hheap, hsame⟩

end Sys2Proof.Machine

/-! # Proofs of the family 41_tree_builder.md -/

/-! ## FREQ -/

namespace Sys2Proof.Machine

variable {s : State} {pre : List Symbol} {v : Word} {code : FaultCode} {info : Nat}

/-- A command whose rule can only end normally ends in a next state that the rule's postcondition describes. -/
theorem exec_of_wp {i : Instr} {P : State → Prop} (hc : Cmd.wp (ruleOf i) (fun _ t => P t) (fun _ _ => False) s) :
    ∃ t, exec i s = .next t ∧ P t := by
  rw [exec_eq_runCommand]
  exact runCommand_of_wp hc

/-- A command whose rule can only raise this fault ends with it recorded on a state that `P` describes. -/
theorem exec_faulted_of_wp {i : Instr} {P : State → Prop}
    (hc : Cmd.wp (ruleOf i) (fun _ _ => False) (fun e u => e = .raise code info ∧ P u) s) :
    ∃ u, exec i s = .next (u.faulted code.number.toNat info (encodeInstr i)) ∧ P u := by
  obtain ⟨u, hu, hP⟩ := runCommand_fault (w := encodeInstr i) hc
  exact ⟨u, by rw [exec_eq_runCommand, hu, takeFault_eq_faulted], hP⟩

/-- Settles O24: the scan turns the table of what has been read into the table with one symbol more. -/
theorem freqCountsTheText : Obligations.FreqCountsTheText := by
  intro s txt ⟨⟨_, hk, _⟩, _⟩ htxt hfit
  obtain ⟨t, ht, heq, held, hsame⟩ := exec_of_wp (i := .freq) (freq_ok htxt hfit (by omega))
  exact ⟨t, ht, heq, held, freqTable_length txt ▸ hsame⟩

theorem wp_freq_tooLong (hlen : s.cfg.nMax < s.textLen.toNat) {Q : Unit → State → Prop} {E : Stop → State → Prop} :
    Cmd.wp freq Q E s ↔ E (.raise .capacity 1) s := by
  rw [freq, Cmd.wp_bind, Cmd.wp_csr, Cmd.wp_bind, Cmd.wp_csr, Cmd.wp_bind, Cmd.wp_raiseIf]
  exact ⟨fun hc => hc.1 hlen, fun he => ⟨fun _ => he, fun hle => absurd hlen hle⟩⟩

/-- A text word up to SYM_MAX is a symbol. -/
theorem setWidth_symbol (hv : v.toNat ≤ symMax) : (v.setWidth 21).setWidth 32 = v := by
  apply BitVec.eq_of_toNat_eq
  unfold symMax at hv
  rw [BitVec.toNat_setWidth, BitVec.toNat_setWidth]
  omega

/-- Where the rule stops in the scan with the table of the first symbols, the command ends with that table and the fault. -/
theorem exec_freq_stopped
    (hstop : Cmd.wp freq (fun _ _ => False) (fun e t => e = .raise code info ∧ TableTo s (freqTable pre) t) s) :
    ∃ t, exec .freq s = .next t ∧
      t = State.faulted { s with ft := t.ft, ftCnt := t.ftCnt } code.number.toNat info (encodeInstr .freq) ∧
      t.holdsTable (freqTable pre) ∧ s.ft.sameFrom t.ft (firstSeen pre).length := by
  obtain ⟨u, hu, heq, held, hsame⟩ := exec_faulted_of_wp (i := .freq) hstop
  exact ⟨_, hu, congrArg (·.faulted code.number.toNat info (encodeInstr .freq)) heq, held, freqTable_length pre ▸ hsame⟩

/-- Settles O25: the length check comes first; else the scan stops at the turn that meets the bad or the superfluous symbol, with
the table of the symbols before it. -/
theorem freqFaults : Obligations.FreqFaults := by
  refine ⟨fun s hlen => exec_eq_faulted (code := .capacity) ((wp_freq_tooLong hlen).mpr ⟨rfl, rfl⟩), ?_⟩
  intro s pre v ⟨⟨_, hk, _⟩, _⟩ hlen hn hpre hleg hfit hv
  have stopped {code : FaultCode} {info : Nat} (hstop : ∀ t, TableTo s (freqTable pre) t →
      Cmd.wp (freqStep pre.length) (fun _ _ => False) (fun e u => e = .raise code info ∧ u = t) t) :=
    exec_freq_stopped (freq_stop hlen hn hpre hleg hfit (by omega) hstop)
  refine ⟨fun hbad => stopped (code := .badSymbol) fun t ht => ?_, fun hok hnew hfull => stopped (code := .capacity) fun t ht => ?_⟩
  · exact freqStep_badSymbol (ht.text ▸ hv) hbad
  · have hx := setWidth_symbol hok
    have hsym : (v.setWidth 21).toNat ≤ symMax := by
      rw [BitVec.toNat_setWidth]
      exact (Nat.mod_le _ _).trans hok
    exact freqStep_full ht.2.1 (by rw [ht.text, hx]; exact hv) hsym (fun hmem => hnew _ hmem hx) (ht.cfg ▸ hfull)

end Sys2Proof.Machine

/-! ## SET_ROOT and the checks of COMBINE, BUILD and CODEGEN -/

namespace Sys2Proof.Machine

variable {s : State} {n : NodeId} {x : Node} {Q : Unit → State → Prop} {E : Stop → State → Prop}

theorem wp_combine_short (h : s.pqCnt.toNat < 2) : Cmd.wp combine Q E s ↔ E (.raise .empty s.pqCnt.toNat) s := by
  rw [combine, Cmd.wp_bind, Cmd.wp_csr, Cmd.wp_bind, Cmd.wp_raiseIf]
  exact ⟨fun hc => hc.1 h, fun he => ⟨fun _ => he, fun hge => absurd h hge⟩⟩

theorem wp_combine_full (h : 2 ≤ s.pqCnt.toNat) (hfull : s.nodeCnt.toNat = s.cfg.nodeMax) :
    Cmd.wp combine Q E s ↔ E (.raise .capacity 4) s := by
  simp [combine, hfull, Nat.not_lt.mpr h]

theorem wp_build_empty (h : s.ftCnt = 0#32) : Cmd.wp build Q E s ↔ E (.raise .empty 0) s := by
  simp [build, h]

theorem wp_codeGen_noTree (h : s.root = 0#24) : Cmd.wp codeGen Q E s ↔ E (.raise .empty 0) s := by
  simp [codeGen, h]

/-- Settles O28: each check raises in the state the rule started from. -/
theorem nothingToWorkOn : Obligations.NothingToWorkOn := fun _ =>
  ⟨fun h => exec_eq_faulted (code := .empty) ((wp_combine_short h).mpr ⟨rfl, rfl⟩),
    fun h hfull => exec_eq_faulted (code := .capacity) ((wp_combine_full h hfull).mpr ⟨rfl, rfl⟩),
    fun h => exec_eq_faulted (code := .empty) ((wp_build_empty h).mpr ⟨rfl, rfl⟩),
    fun h => exec_eq_faulted (code := .empty) ((wp_codeGen_noTree h).mpr ⟨rfl, rfl⟩)⟩

theorem wp_setRootRule_unallocated (hn : n = 0#24 ∨ s.nodeCnt.toNat < n.toNat) :
    Cmd.wp (setRootRule n) Q E s ↔ E (.raise .badNode n.toNat) s := by
  rw [setRootRule, Cmd.wp_bind, Cmd.wp_csr, Cmd.wp_bind, Cmd.wp_raiseIf]
  exact ⟨fun hc => hc.1 hn, fun he => ⟨fun _ => he, fun hne => absurd hn hne⟩⟩

theorem wp_setRootRule_allocated (h0 : n ≠ 0#24) (hle : n.toNat ≤ s.nodeCnt.toNat) (hx : s.node.get? n.toNat = some x) :
    Cmd.wp (setRootRule n) Q E s ↔ (x.st ≠ stDetached → E (.raise .badNode n.toNat) s) ∧
      (x.st = stDetached → Q () { s with root := n, ctCnt := 0#32 }) := by
  have hn : ¬(n = 0#24 ∨ s.nodeCnt.toNat < n.toNat) := not_or.mpr ⟨h0, Nat.not_lt.mpr hle⟩
  simp only [setRootRule, Cmd.wp_bind, Cmd.wp_csr, Cmd.wp_raiseIf, Cmd.wp_readNode, Cmd.wp_update, nodeAt_some hx, hn,
    false_implies, true_and, not_false_eq_true, true_implies, not_not]

/-- The word of SET_ROOT is its opcode byte over the node id (30_encoding.md R93). -/
theorem encodeInstr_setRoot (n : NodeId) : encodeInstr (.setRoot n) = 0x24000000#32 ||| n.setWidth 32 :=
  BitVec.append_def _ _

/-- Settles O31: the two checks in the order of the rule, then the write. -/
theorem setRootNamesADetachedNode : Obligations.SetRootNamesADetachedNode := by
  intro s n
  have fault {info : Nat} (hc : Cmd.wp (setRootRule n) (fun _ _ => False) (fun e u => e = .raise .badNode info ∧ u = s) s) :=
    exec_eq_faulted (i := .setRoot n) hc
  refine ⟨encodeInstr_setRoot n, fun hn => fault ((wp_setRootRule_unallocated hn).mpr ⟨rfl, rfl⟩), fun x h0 hle hx =>
    ⟨fun hst => fault ?_, fun hst => ?_⟩⟩
  · exact (wp_setRootRule_allocated h0 hle hx).mpr ⟨fun _ => ⟨rfl, rfl⟩, fun h => absurd h hst⟩
  · rw [exec_eq_runCommand]
    exact runCommand_eq ((wp_setRootRule_allocated h0 hle hx).mpr ⟨fun h => absurd hst h, fun _ => rfl⟩)

end Sys2Proof.Machine

/-! ## LEAVES -/

namespace Sys2Proof.Machine

variable {m : Memory Node} {f : Forest} {e : FtEntry} {l : List FtEntry} {h ids : List NodeId} {W : NodeId → Nat} {n : Nat}

/-! ### Insertions in turn (40_priority_queue.md R110, R114) -/

theorem foldl_insert_insertsAll (ids h : List NodeId) : InsertsAll m h ids (ids.foldl (HeapList.insert (weightOf m)) h) := by
  induction ids generalizing h with
  | nil => exact .nil h
  | cons id ids ih => exact .cons h id _ ids _ (insert_inserts h id) (ih _)

theorem foldl_insert_perm (ids h : List NodeId) : (ids.foldl (HeapList.insert W) h).Perm (ids ++ h) := by
  induction ids generalizing h with
  | nil => exact .refl h
  | cons id ids ih => exact (ih _).trans (((HeapList.insert_perm id).append_left ids).trans List.perm_middle)

theorem foldl_insert_ordered (ids : List NodeId) (ho : HeapList.Ordered W h) :
    HeapList.Ordered W (ids.foldl (HeapList.insert W) h) := by
  induction ids generalizing h with
  | nil => exact ho
  | cons id ids ih => exact ih (HeapList.insert_ordered ho id)

/-! ### The ids NodeAlloc answers in turn -/

/-- The ids 1 to `n`. -/
def firstIds (n : Nat) : List NodeId := (List.range' 1 n).map (BitVec.ofNat 24)

theorem firstIds_succ (n : Nat) : firstIds (n + 1) = firstIds n ++ [BitVec.ofNat 24 (n + 1)] := by
  rw [firstIds, List.range'_1_concat, List.map_append, Nat.add_comm 1 n]
  rfl

theorem mem_firstIds (hn : n < 2 ^ 24) {id : NodeId} (hid : id ∈ firstIds n) : 1 ≤ id.toNat ∧ id.toNat ≤ n := by
  obtain ⟨k, hk, rfl⟩ := List.mem_map.mp hid
  have := List.mem_range'_1.mp hk
  rw [BitVec.toNat_ofNat]
  omega

theorem nodup_firstIds (hn : n < 2 ^ 24) : (firstIds n).Nodup := by
  refine List.Nodup.map_on (fun j hj k hk hjk => ?_) List.nodup_range'
  have := List.mem_range'_1.mp hj
  have := List.mem_range'_1.mp hk
  have := congrArg BitVec.toNat hjk
  rw [BitVec.toNat_ofNat, BitVec.toNat_ofNat] at this
  omega

/-! ### The leaves in lists (R132) -/

/-- The leaf of a table entry, QUEUED. -/
def queuedLeaf (e : FtEntry) : Node := { st := stQueued, leaf := true, sym := e.sym, w := e.cnt, l := 0#24, r := 0#24 }

theorem setSt_last {nodes : List Node} {x : Node} {id : NodeId} (hid : id.toNat = nodes.length + 1) (v : BitVec 2) :
    setSt (nodes ++ [x]) id v = nodes ++ [{ x with st := v }] := by
  rw [setSt, hid, Nat.add_sub_cancel]
  simp [List.modify_eq_set_getElem?]

theorem addLeaf_nodes (hn : f.nodes.length < 2 ^ 24 - 1) : (f.addLeaf e).nodes = f.nodes ++ [queuedLeaf e] :=
  setSt_last (nextId_toNat hn) stQueued

/-- The heap after one more leaf, with the weights of any memory that holds the nodes. -/
theorem addLeaf_heap (hn : f.nodes.length < 2 ^ 24 - 1) (hm : m.holds 1 (f.nodes ++ [queuedLeaf e]))
    (hids : ∀ id ∈ f.heap, 1 ≤ id.toNat ∧ id.toNat ≤ f.nodes.length) :
    (f.addLeaf e).heap = HeapList.insert (weightOf m) f.heap f.nextId := by
  have hid := nextId_toNat hn
  refine HeapList.insert_congr _ fun id hmem => ?_
  have hrange : 1 ≤ id.toNat ∧ id.toNat ≤ f.nodes.length + 1 := by
    rcases List.mem_append.mp hmem with hmem | hmem
    · have := hids id hmem
      omega
    · rw [List.mem_singleton.mp hmem]
      omega
  rw [weightOf_held hm hrange.1 (by simpa using hrange.2), ← addLeaf_nodes hn]
  exact (congrFun (weightIn_setSt _ _ _) id).symm

theorem leavesForest_snoc (l : List FtEntry) (e : FtEntry) : leavesForest (l ++ [e]) = (leavesForest l).addLeaf e := by
  rw [leavesForest, List.foldl_append]
  rfl

/-- Leaf `j + 1` is made from entry `j`. -/
theorem leavesForest_nodes (hl : l.length < 2 ^ 24) : (leavesForest l).nodes = l.map queuedLeaf := by
  induction l using List.reverseRecOn with
  | nil => rfl
  | append_singleton l e ih =>
    rw [List.length_append, List.length_singleton] at hl
    have hlen := (leavesForest_lengths l).1
    rw [leavesForest_snoc, addLeaf_nodes (by omega), ih (by omega), List.map_append]
    rfl

/-- The queue of the leaves is the ids inserted in turn. -/
theorem leavesForest_heap (hl : l.length < 2 ^ 24) (hm : m.holds 1 (l.map queuedLeaf)) :
    (leavesForest l).heap = (firstIds l.length).foldl (HeapList.insert (weightOf m)) [] := by
  induction l using List.reverseRecOn with
  | nil => rfl
  | append_singleton l e ih =>
    rw [List.length_append, List.length_singleton] at hl
    have hlen := (leavesForest_lengths l).1
    have hnodes : (leavesForest l).nodes = l.map queuedLeaf := leavesForest_nodes (by omega)
    rw [List.map_append, ← hnodes] at hm
    have hheap := ih (by omega) (hnodes ▸ (Memory.holds_append.mp hm).1)
    have hids : ∀ id ∈ (leavesForest l).heap, 1 ≤ id.toNat ∧ id.toNat ≤ (leavesForest l).nodes.length := by
      intro id hid
      rw [hheap] at hid
      rw [hlen]
      exact mem_firstIds (by omega) (by simpa using (foldl_insert_perm _ _).mem_iff.mp hid)
    rw [leavesForest_snoc, addLeaf_heap (by omega) hm hids, List.length_append, List.length_singleton, firstIds_succ,
      List.foldl_append, ← hheap, Forest.nextId, hlen]
    rfl

/-- Settles O26: LEAVES allocates the leaves in table order and inserts each id in turn. -/
theorem leavesQueueTheTable : Obligations.LeavesQueueTheTable := by
  intro s l ⟨⟨_, hk, _⟩, _⟩ htab hfit
  obtain ⟨t, ht, heq, held, hnode, hheap⟩ := exec_of_wp (i := .leaves) (leaves_forest htab hfit hk)
  have hl : l.length < 2 ^ 24 := by omega
  obtain ⟨hnlen, hhlen⟩ := leavesForest_lengths l
  have hnodes : t.node.holds 1 (l.map queuedLeaf) := leavesForest_nodes hl ▸ held.held
  have hqueue := leavesForest_heap hl hnodes
  have hperm : (leavesForest l).heap.Perm (firstIds l.length) := by
    rw [hqueue]
    simpa using foldl_insert_perm (W := weightOf t.node) (firstIds l.length) []
  have hcnt : t.nodeCnt = s.ftCnt := BitVec.eq_of_toNat_eq (held.cnt.trans (hnlen.trans htab.1.symm))
  have hqcnt : t.pqCnt = s.ftCnt := BitVec.eq_of_toNat_eq (held.qcnt.trans (hhlen.trans htab.1.symm))
  have hord : HeapList.Ordered (weightOf t.node) (leavesForest l).heap :=
    hqueue ▸ foldl_insert_ordered _ fun _ _ h => absurd h (Nat.not_lt_zero _)
  rw [hcnt, hqcnt] at heq
  refine ⟨t, (leavesForest l).heap, ht, heq, ⟨?_, ?_, hnodes⟩, hqueue ▸ foldl_insert_insertsAll _ _, hperm,
    ⟨held.qcnt, held.fits, held.heap, hperm.nodup_iff.mpr (nodup_firstIds hl), hord, held.cnt ▸ held.ids⟩,
    hnlen ▸ hnode, hheap⟩
  · rw [held.cnt, hnlen, List.length_map]
  · rw [List.length_map, ← hnlen]
    exact held.room

end Sys2Proof.Machine

/-! ## COMBINE -/

namespace Sys2Proof.Machine

variable {s t : State} {m : Memory Node} {f : Forest} {xa xb : Node}

/-! ### Two extractions -/

/-- The lightest node of the queue, which becomes the left child. -/
def Forest.left (f : Forest) : NodeId := f.heap.getD 0 0#24

/-- The lightest of the others, which becomes the right child. -/
def Forest.right (f : Forest) : NodeId := f.extract.left

/-- The queue's nodes weigh in this memory what they weigh in the list. -/
def Forest.WeighedBy (f : Forest) (m : Memory Node) : Prop := ∀ id ∈ f.heap, weightOf m id = weightIn f.nodes id

theorem weightIn_extract (f : Forest) : weightIn f.extract.nodes = weightIn f.nodes := weightIn_setSt _ _ _

theorem extract_forest_perm (hpos : 0 < f.heap.length) : f.heap.Perm (f.left :: f.extract.heap) := HeapList.extract_perm hpos

theorem Forest.WeighedBy.extract (hw : f.WeighedBy m) (hpos : 0 < f.heap.length) : f.extract.WeighedBy m := fun id hid => by
  rw [weightIn_extract]
  exact hw id ((extract_forest_perm hpos).mem_iff.mpr (List.mem_cons_of_mem _ hid))

theorem Forest.WeighedBy.extract_heap (hw : f.WeighedBy m) : f.extract.heap = HeapList.extract (weightOf m) f.heap :=
  (HeapList.extract_congr hw).symm

theorem Forest.WeighedBy.extracts (hw : f.WeighedBy m) (hpos : 0 < f.heap.length) : Extracts m f.heap f.left f.extract.heap :=
  hw.extract_heap ▸ extract_extracts hpos

theorem Forest.WeighedBy.extract_ordered (hw : f.WeighedBy m) (ho : HeapList.Ordered (weightOf m) f.heap) :
    HeapList.Ordered (weightOf m) f.extract.heap :=
  hw.extract_heap ▸ HeapList.extract_ordered ho

theorem extract_twice_perm (h2 : 2 ≤ f.heap.length) : f.heap.Perm (f.left :: f.right :: f.extract.extract.heap) := by
  have hlen := (extract_lengths (f := f) (by omega)).2
  exact (extract_forest_perm (by omega)).trans ((extract_forest_perm (by omega)).cons _)

theorem left_ne_right (h2 : 2 ≤ f.heap.length) (hnd : f.heap.Nodup) : f.left ≠ f.right := fun e =>
  (List.nodup_cons.mp ((extract_twice_perm h2).nodup_iff.mp hnd)).1 (e ▸ List.mem_cons_self)

/-! ### The nodes and the queue of the grown forest (41_tree_builder.md R133) -/

theorem wordIn_eq {nodes : List Node} {id : NodeId} {x : Node} (hx : nodes[id.toNat - 1]? = some x) : wordIn nodes id = x.w := by
  rw [wordIn, weightIn, hx]
  simp

theorem get?_nodeMemory_eq_some {nodes : List Node} {k : Nat} {x : Node} (h1 : 1 ≤ k) :
    (nodeMemory nodes).get? k = some x ↔ nodes[k - 1]? = some x := by
  rw [get?_nodeMemory, if_pos h1]

theorem get?_extract (h1 : 1 ≤ f.left.toNat) (hxa : (nodeMemory f.nodes).get? f.left.toNat = some xa) (k : Nat) :
    (nodeMemory f.extract.nodes).get? k =
      if k = f.left.toNat then some { xa with st := stDetached } else (nodeMemory f.nodes).get? k :=
  get?_setSt h1 ((get?_nodeMemory_eq_some h1).mp hxa) stDetached k

theorem get?_extract_twice (hne : f.right.toNat ≠ f.left.toNat) (ha1 : 1 ≤ f.left.toNat) (hb1 : 1 ≤ f.right.toNat)
    (hxa : (nodeMemory f.nodes).get? f.left.toNat = some xa) (hxb : (nodeMemory f.nodes).get? f.right.toNat = some xb) (k : Nat) :
    (nodeMemory f.extract.extract.nodes).get? k = if k = f.right.toNat then some { xb with st := stDetached }
      else if k = f.left.toNat then some { xa with st := stDetached } else (nodeMemory f.nodes).get? k := by
  have hxb1 : (nodeMemory f.extract.nodes).get? f.right.toNat = some xb := by rw [get?_extract ha1 hxa, if_neg hne, hxb]
  rw [← get?_extract ha1 hxa]
  exact get?_extract hb1 hxb1 k

/-- NODE after COMBINE: the new node, its two children, and the others as they were. -/
theorem get?_grow (h2 : 2 ≤ f.heap.length) (hnd : f.heap.Nodup) (hlen : f.nodes.length < 2 ^ 24 - 1) (ha1 : 1 ≤ f.left.toNat)
    (hb1 : 1 ≤ f.right.toNat) (hxa : (nodeMemory f.nodes).get? f.left.toNat = some xa)
    (hxb : (nodeMemory f.nodes).get? f.right.toNat = some xb) (k : Nat) :
    (nodeMemory f.grow.nodes).get? k =
      if k = f.nodes.length + 1 then
        some { st := stQueued, leaf := false, sym := 0#21, w := xa.w + xb.w, l := f.left, r := f.right }
      else if k = f.left.toNat then some { xa with st := stChild }
      else if k = f.right.toNat then some { xb with st := stChild }
      else (nodeMemory f.nodes).get? k := by
  have hab := left_ne_right h2 hnd
  have hne : f.right.toNat ≠ f.left.toNat := fun e => hab (BitVec.eq_of_toNat_eq e.symm)
  have l1 := extract_lengths (f := f) (by omega)
  have l2 := (extract_lengths (f := f.extract) (by omega)).1.trans l1.1
  have hold := get?_extract_twice hne ha1 hb1 hxa hxb
  have hxa2 : f.extract.extract.nodes[f.left.toNat - 1]? = some { xa with st := stDetached } :=
    (get?_nodeMemory_eq_some ha1).mp (by rw [hold, if_neg hne.symm, if_pos rfl])
  have hxb2 : f.extract.extract.nodes[f.right.toNat - 1]? = some { xb with st := stDetached } :=
    (get?_nodeMemory_eq_some hb1).mp (by rw [hold, if_pos rfl])
  have hjoin := get?_joinedNodes ha1 hb1 hab hxa2 hxb2
  rw [l2, wordIn_eq hxa2, wordIn_eq hxb2] at hjoin
  have hid : f.extract.extract.nextId.toNat = f.nodes.length + 1 := by rw [nextId_toNat (by omega), l2]
  have hnew := (get?_nodeMemory_eq_some (by omega)).mp ((hjoin f.extract.extract.nextId.toNat).trans (if_pos hid))
  refine (get?_setSt (by omega) hnew stQueued k).trans ?_
  rw [hjoin, hid, hold]
  by_cases h1 : k = f.nodes.length + 1
  · rw [if_pos h1, if_pos h1]
    rfl
  · rw [if_neg h1, if_neg h1, if_neg h1]
    by_cases ha : k = f.left.toNat
    · rw [if_pos ha, if_pos ha]
    · rw [if_neg ha, if_neg ha, if_neg ha]
      by_cases hb : k = f.right.toNat
      · rw [if_pos hb, if_pos hb]
      · rw [if_neg hb, if_neg hb, if_neg hb]

theorem nextId_extract_twice (h2 : 2 ≤ f.heap.length) : f.extract.extract.nextId = f.nextId := by
  have l1 := extract_lengths (f := f) (by omega)
  rw [Forest.nextId, Forest.nextId, (extract_lengths (f := f.extract) (by omega)).1, l1.1]

theorem grow_heap_perm (h2 : 2 ≤ f.heap.length) : f.grow.heap.Perm (f.nextId :: f.extract.extract.heap) := by
  rw [← nextId_extract_twice h2]
  exact HeapList.insert_perm _

/-- The queue after COMBINE, with weights that are those of its nodes. -/
theorem grow_heap {W : NodeId → Nat} (h2 : 2 ≤ f.heap.length) (hW : ∀ id ∈ f.grow.heap, W id = weightIn f.grow.nodes id) :
    f.grow.heap = HeapList.insert W f.extract.extract.heap f.nextId := by
  have hperm := grow_heap_perm h2
  rw [← nextId_extract_twice h2] at hperm ⊢
  refine HeapList.insert_congr _ fun id hid => ?_
  rw [hW id ((hperm.trans (List.perm_append_singleton _ _).symm).mem_iff.mpr hid)]
  exact (congrFun (weightIn_setSt _ _ _) id).symm

/-- COMBINE changes no weight of a node it finds. -/
theorem weightIn_grow (h2 : 2 ≤ f.heap.length) {id : NodeId} (h1 : 1 ≤ id.toNat) (hle : id.toNat ≤ f.nodes.length) :
    weightIn f.grow.nodes id = weightIn f.nodes id := by
  have l1 := extract_lengths (f := f) (by omega)
  have l2 := extract_lengths (f := f.extract) (by omega)
  rw [grow_eq, Forest.insert, joinedNodes, weightIn_setSt, weightIn_setSt, weightIn_setSt, weightIn_append h1 (by omega),
    weightIn_extract, weightIn_extract]

theorem grow_ordered (h2 : 2 ≤ f.heap.length) (hids : ∀ id ∈ f.heap, 1 ≤ id.toNat ∧ id.toNat ≤ f.nodes.length)
    (ho : HeapList.Ordered (weightIn f.nodes) f.heap) : HeapList.Ordered (weightIn f.grow.nodes) f.grow.heap := by
  have ho1 : HeapList.Ordered (weightIn f.extract.nodes) f.extract.heap := weightIn_extract f ▸ HeapList.extract_ordered ho
  have ho2 : HeapList.Ordered (weightIn f.nodes) f.extract.extract.heap := weightIn_extract f ▸ HeapList.extract_ordered ho1
  rw [grow_heap h2 fun _ _ => rfl]
  refine HeapList.insert_ordered (HeapList.ordered_congr (fun id hid => ?_) ho2) _
  obtain ⟨h1, hle⟩ := hids id ((extract_twice_perm h2).mem_iff.mpr (List.mem_cons_of_mem _ (List.mem_cons_of_mem _ hid)))
  exact (weightIn_grow h2 h1 hle).symm

theorem grow_nodup (h2 : 2 ≤ f.heap.length) (hids : ∀ id ∈ f.heap, 1 ≤ id.toNat ∧ id.toNat ≤ f.nodes.length)
    (hlen : f.nodes.length < 2 ^ 24 - 1) (hnd : f.heap.Nodup) : f.grow.heap.Nodup := by
  have hperm := extract_twice_perm h2
  have hnew : f.nextId ∉ f.extract.extract.heap := fun hmem => by
    have hle := (hids _ (hperm.mem_iff.mpr (List.mem_cons_of_mem _ (List.mem_cons_of_mem _ hmem)))).2
    rw [nextId_toNat hlen] at hle
    omega
  have hnd2 := (List.nodup_cons.mp (List.nodup_cons.mp (hperm.nodup_iff.mp hnd)).2).2
  exact (grow_heap_perm h2).nodup_iff.mpr (List.nodup_cons.mpr ⟨hnew, hnd2⟩)

/-! ### The rule -/

/-- COMBINE on a held forest, with what lies at index 0, which no node has (R43). -/
theorem combine_spec (held : ForestHeld s f) (h2 : 2 ≤ f.heap.length) (hroom : f.nodes.length < s.cfg.nodeMax)
    (hk : s.cfg.kMax ≤ 2 ^ 23) :
    Cmd.wp combine (fun _ t => ForestTo { s with res := f.nextId.setWidth 32 } f.grow (f.heap.length - 1) t ∧
      t.node.get? 0 = s.node.get? 0) (fun _ _ => False) s := by
  have hzero : Cmd.Inv (fun u => u.node.get? 0 = s.node.get? 0) combine :=
    combine_inv (fun _ _ h => h) ⟨fun _ _ _ h => h, fun _ _ h => h⟩
      (fun u id x h => (Memory.get?_store ..).trans ((if_neg (by omega)).trans h)) (fun _ _ h => h) fun _ _ h => h
  exact Cmd.wp_mono (Cmd.wp_and (combine_forest held h2 hroom hk) (hzero s rfl)) (fun _ _ h => h) fun _ _ h => h.1

/-- The registers of the state after COMBINE. -/
theorem combined_eq (held : ForestHeld s f) (h2 : 2 ≤ f.heap.length) (hroom : f.nodes.length < s.cfg.nodeMax)
    (hk : s.cfg.kMax ≤ 2 ^ 23) {n : Nat} (hto : ForestTo { s with res := f.nextId.setWidth 32 } f.grow n t) :
    t = { s with nodeCnt := s.nodeCnt + 1#32, pqCnt := s.pqCnt - 1#32, res := s.nodeCnt + 1#32, node := t.node,
                 heap := t.heap } := by
  obtain ⟨heq, held', -, -⟩ := hto
  obtain ⟨hglen, hghlen⟩ := grow_lengths h2
  have hnm := nodeMax_lt hk
  have hcnt : (s.nodeCnt + 1#32).toNat = f.nodes.length + 1 := by
    rw [BitVec.toNat_add, held.cnt, BitVec.toNat_ofNat]
    omega
  have hnodeCnt : t.nodeCnt = s.nodeCnt + 1#32 := BitVec.eq_of_toNat_eq (by rw [held'.cnt, hglen, hcnt])
  have hpqCnt : t.pqCnt = s.pqCnt - 1#32 := BitVec.eq_of_toNat_eq (by
    rw [held'.qcnt, hghlen, BitVec.toNat_sub_of_le (by rw [BitVec.le_def, held.qcnt, BitVec.toNat_ofNat]; omega), held.qcnt]
    rfl)
  have hres : f.nextId.setWidth 32 = s.nodeCnt + 1#32 := BitVec.eq_of_toNat_eq (by
    rw [hcnt, BitVec.toNat_setWidth, nextId_toNat (by omega)]
    omega)
  rw [hnodeCnt, hpqCnt, hres] at heq
  exact heq

/-- NODE of the state after COMBINE at every index. -/
theorem get?_combined (held : ForestHeld s f) (held' : ForestHeld t f.grow) (h2 : 2 ≤ f.heap.length) (hnd : f.heap.Nodup)
    (hroom : f.nodes.length < s.cfg.nodeMax) (hk : s.cfg.kMax ≤ 2 ^ 23) (hxa : s.node.get? f.left.toNat = some xa)
    (hxb : s.node.get? f.right.toNat = some xb) (hsame : s.node.sameFrom t.node (f.grow.nodes.length + 1))
    (hzero : t.node.get? 0 = s.node.get? 0) (k : Nat) :
    t.node.get? k =
      if k = f.nodes.length + 1 then
        some { st := stQueued, leaf := false, sym := 0#21, w := xa.w + xb.w, l := f.left, r := f.right }
      else if k = f.left.toNat then some { xa with st := stChild }
      else if k = f.right.toNat then some { xb with st := stChild }
      else s.node.get? k := by
  have hnm := nodeMax_lt hk
  have hperm := extract_twice_perm h2
  obtain ⟨ha1, hale⟩ := held.ids _ (hperm.mem_iff.mpr List.mem_cons_self)
  obtain ⟨hb1, hble⟩ := held.ids _ (hperm.mem_iff.mpr (List.mem_cons_of_mem _ List.mem_cons_self))
  rw [holds_nodeMemory held.held ha1 hale] at hxa
  rw [holds_nodeMemory held.held hb1 hble] at hxb
  have hglen := (grow_lengths h2).1
  by_cases hin : 1 ≤ k ∧ k ≤ f.nodes.length + 1
  · rw [holds_nodeMemory held'.held hin.1 (by omega),
      get?_grow h2 hnd (by omega) ha1 hb1 hxa hxb]
    by_cases hnew : k = f.nodes.length + 1
    · rw [if_pos hnew, if_pos hnew]
    · rw [if_neg hnew, if_neg hnew, holds_nodeMemory held.held hin.1 (by omega)]
  · rw [if_neg (by omega), if_neg (by omega), if_neg (by omega)]
    rcases Nat.eq_zero_or_pos k with rfl | hpos
    · exact hzero
    · exact hsame k (by omega)

/-- A held forest whose heap is in order is the queue. -/
theorem ForestHeld.queue (held : ForestHeld s f) (hnd : f.heap.Nodup) (ho : HeapList.Ordered (weightIn f.nodes) f.heap) :
    s.queue f.heap :=
  ⟨held.qcnt, held.fits, held.heap, hnd, HeapList.ordered_congr (fun _ hid => (held.weight hid).symm) ho, held.cnt ▸ held.ids⟩

/-- Settles O27: two extractions name the children, and the new node, allocated after all others, is inserted with the sum of their
weights. -/
theorem combineJoinsTheTwoLightest : Obligations.CombineJoinsTheTwoLightest := by
  intro s nodes h ⟨⟨_, hk, _⟩, _⟩ harena hq h2 hroom
  obtain ⟨f, rfl, rfl⟩ : ∃ f : Forest, f.nodes = nodes ∧ f.heap = h := ⟨⟨nodes, h⟩, rfl, rfl⟩
  have held : ForestHeld s f := forestHeld_of_queue harena hq
  obtain ⟨t, ht, hto, hzero⟩ := exec_of_wp (i := .combine) (combine_spec held h2 hroom hk)
  have ⟨_, held', hnode, hheap⟩ := hto
  obtain ⟨-, -, -, hnd, hord, -⟩ := hq
  have hlen : f.nodes.length < 2 ^ 24 - 1 := Nat.lt_of_lt_of_le hroom (nodeMax_lt hk)
  have hlen1 := (extract_lengths (f := f) (by omega)).2
  have hperm := extract_twice_perm h2
  obtain ⟨ha1, hale⟩ := held.ids _ (hperm.mem_iff.mpr List.mem_cons_self)
  obtain ⟨hb1, hble⟩ := held.ids _ (hperm.mem_iff.mpr (List.mem_cons_of_mem _ List.mem_cons_self))
  have hxa := held.node ha1 hale
  have hxb := held.node hb1 hble
  have hget := get?_combined held held' h2 hnd hroom hk hxa hxb hnode hzero
  have hw : f.WeighedBy s.node := fun _ => held.weight
  have hmin : ∀ y ∈ f.heap, y ≠ f.left → weightOf s.node f.right ≤ weightOf s.node y := fun y hy hne =>
    HeapList.ordered_head_min (hw.extract_ordered hord) y
      ((List.mem_cons.mp ((extract_forest_perm (by omega)).mem_iff.mp hy)).resolve_left hne)
  have hins : Inserts t.node f.extract.extract.heap f.nextId f.grow.heap :=
    grow_heap h2 (fun _ => held'.weight) ▸ insert_inserts _ _
  have hord' := grow_ordered h2 held.ids (HeapList.ordered_congr hw hord)
  exact ⟨t, f.left, f.right, _, _, f.extract.heap, f.extract.extract.heap, f.grow.heap, ht, combined_eq held h2 hroom hk hto,
    hw.extracts (by omega), (hw.extract (by omega)).extracts (by omega), hperm, HeapList.ordered_head_min hord, hmin, hxa, hxb, hget,
    hins, held'.queue (grow_nodup h2 held.ids hlen hnd) hord', hheap⟩

end Sys2Proof.Machine

/-! ## BUILD -/

namespace Sys2Proof.Machine

variable {c : Config} {m : Memory Node} {n : Nat} {u : IdTree} {l : List FtEntry}

/-- In one tree with an empty queue the root is DETACHED and every other node CHILD. -/
theorem Grove.stOf_single (g : Grove c m n [] [u]) {id : Nat} (h1 : 1 ≤ id) (hle : id ≤ n) :
    stOf m id = if id = u.root then stDetached else stChild := by
  by_cases hroot : id = u.root
  · rw [if_pos hroot, hroot, g.roots u (List.mem_singleton.mpr rfl), List.map_nil, if_neg List.not_mem_nil]
  · obtain ⟨u', hu', hid⟩ := g.tree h1 hle
    obtain rfl := List.mem_singleton.mp hu'
    rw [if_neg hroot, (g.shapes u' hu').child hid hroot]

/-- The leaf of each table entry stands at the id after its index (41_tree_builder.md R132). -/
def leavesFrom (m : Memory Node) (l : List FtEntry) : Prop :=
  ∀ j e, l[j]? = some e → ∃ x, m.get? (j + 1) = some x ∧ x.leaf = true ∧ x.sym = e.sym ∧ x.w = e.cnt ∧ x.l = 0#24 ∧ x.r = 0#24

theorem leavesFrom.symbols (h : leavesFrom m l) : (List.range' 1 l.length).map (symAt m) = l.map (·.sym) := by
  refine List.ext_getElem (by simp) fun j hj hj' => ?_
  rw [List.length_map] at hj'
  obtain ⟨x, hx, -, hsym, -⟩ := h j l[j] (List.getElem?_eq_getElem hj')
  rw [List.getElem_map, List.getElem_map, List.getElem_range', ← hsym, symAt, show 1 + 1 * j = j + 1 by omega, hx]

/-- The symbols at the leaves of the tree are those of the table. -/
theorem leavesFrom.tree_leaves (h : leavesFrom m l) (hleaf : u.leafIds.Perm (List.range' 1 l.length)) :
    (u.tree m).leaves.Perm (l.map (·.sym)) := by
  rw [IdTree.tree_leaves, ← h.symbols]
  exact hleaf.map _

theorem Grove.tree_size_single {h : List NodeId} (g : Grove c m n h [u]) : (u.tree m).size = n := by
  rw [IdTree.tree_size]
  simpa using g.ids.length_eq

/-- Settles O29: in lists the construction loop ends with one tree over the leaves (`builtForest_ok`), and NODE holds that list. -/
theorem buildMakesOneTree : Obligations.BuildMakesOneTree := by
  intro s l ⟨⟨_, hk, _⟩, ⟨_, hN⟩, _⟩ htab hne hfit hsum
  have hpos := List.length_pos_of_ne_nil hne
  obtain ⟨t, ht, heq, held, hnode, hheap⟩ := exec_of_wp (i := .build) (build_forest htab hne hfit hk)
  obtain ⟨u, g, hempty, hlen, hroot, huroot, hleaf, hweight, hnodes⟩ := builtForest_ok hne hsum hfit hk (by omega)
  have hsame : ∀ k, 1 ≤ k → k ≤ 2 * l.length - 1 → t.node.get? k = (nodeMemory (builtForest l).nodes).get? k :=
    fun k h1 hle => holds_nodeMemory held.held h1 (hlen ▸ hle)
  have g' : Grove s.cfg t.node (2 * l.length - 1) [] [u] := g.same hsame
  have hu : u ∈ [u] := List.mem_singleton.mpr rfl
  have hleaves : leavesFrom t.node l := fun j e hj => by
    obtain ⟨x, hx, hfields⟩ := hnodes j e hj
    have hjl := (List.getElem?_eq_some_iff.mp hx).1
    exact ⟨x, by rw [Nat.add_comm, held.held j hjl, hx], hfields⟩
  have hnodeCnt : t.nodeCnt = BitVec.ofNat 32 (2 * l.length - 1) := by
    rw [← hlen, ← held.cnt, BitVec.ofNat_toNat, BitVec.setWidth_eq]
  have hpqCnt : t.pqCnt = 0#32 := BitVec.eq_of_toNat_eq (by rw [held.qcnt, hempty]; rfl)
  have hres : (builtRoot l).setWidth 32 = BitVec.ofNat 32 (2 * l.length - 1) := by
    rw [hroot]
    apply BitVec.eq_of_toNat_eq
    rw [BitVec.toNat_setWidth, BitVec.toNat_ofNat, BitVec.toNat_ofNat]
    omega
  rw [hnodeCnt, hpqCnt, hres, hroot] at heq
  have htroot : t.root = BitVec.ofNat 24 (2 * l.length - 1) := by rw [heq]
  have hid : t.root.toNat = u.root := by rw [htroot, BitVec.toNat_ofNat, huroot]; omega
  have hwu : weightOf t.node t.root = weightAt (nodeMemory (builtForest l).nodes) u.root := by
    rw [weightOf, weightAt, hid, hsame u.root (by omega) (by omega)]
  refine ⟨t, u.tree t.node, u, ht, heq, ⟨fun h0 => ?_, (g'.shapes u hu).tree hid⟩, hleaves.tree_leaves hleaf, g'.tree_size_single,
    fun id h1 hle => huroot ▸ g'.stOf_single h1 hle, hleaves, hwu.trans hweight, g', huroot, ?_, hheap⟩
  · have : t.root.toNat = 0 := congrArg BitVec.toNat h0
    omega
  · rw [hlen, show 2 * l.length - 1 + 1 = 2 * l.length by omega] at hnode
    exact hnode

end Sys2Proof.Machine

/-! # Proofs of the family 42_code_table.md -/

/-! ## CODEGEN -/

namespace Sys2Proof.Machine

variable {s : State} {T : Tree} {e : CtEntry} {p q : Symbol × BitString}

/-- CODEGEN lists the code table and changes CT and CT_CNT alone (R150). -/
theorem codeGen_lists (hk : s.cfg.kMax < 2 ^ 32) (hT : s.liveTree T) (hfit : T.leaves.length ≤ s.cfg.kMax) :
    Cmd.wp codeGen (fun _ t => t = { s with ct := t.ct, ctCnt := t.ctCnt } ∧ t.holdsCodes (codeTable T) ∧
      s.ct.sameFrom t.ct T.leaves.length) (fun _ _ => False) s := by
  have hsize : T.size ≤ s.cfg.nodeMax := by
    have := T.size_eq
    unfold Config.nodeMax
    omega
  refine Cmd.wp_mono (codeGen_ok hT hsize) (fun _ t ht => ?_) fun _ _ h => h
  have held := withCodes_holds (s := { s with ctCnt := 0#32 }) (l := []) (l' := codeTable T) rfl (Memory.holds_nil _ _)
    (by rw [List.length_nil, Nat.zero_add, codeTable_length]; exact hfit) hk
  have frame := withCodes_frame { s with ctCnt := 0#32 } (codeTable T)
  rw [← ht] at held frame
  rw [List.length_nil, Nat.zero_add, List.nil_append] at held
  obtain ⟨hcnt, hheld, hsame⟩ := held
  exact ⟨frame, ⟨hcnt, hheld⟩, codeTable_length T ▸ hsame⟩

/-- An entry holds the symbol and the code of a leaf, and the number of the code's bits (10_state.md R50). -/
theorem fields_of_mem_codeTable (he : e ∈ codeTable T) : (e.sym, e.code) ∈ T.codes ∧ e.len = BitVec.ofNat 24 e.code.length := by
  obtain ⟨p, hp, rfl⟩ := List.mem_map.mp he
  exact ⟨hp, rfl⟩

/-- Each entry's code has 1 to LEN_MAX bits, and its length field counts them (R152). -/
theorem codeTable_len {c : Config} (hk : c.kMax < 2 ^ 24) (hfit : T.leaves.length ≤ c.kMax) (he : e ∈ codeTable T) :
    1 ≤ e.len.toNat ∧ e.len.toNat ≤ c.lenMax ∧ e.len.toNat = e.code.length := by
  obtain ⟨hmem, hlen⟩ := fields_of_mem_codeTable he
  have hpos : 1 ≤ e.code.length := Tree.code_pos hmem
  have hle : e.code.length ≤ max 1 (T.leaves.length - 1) := Tree.code_length hmem
  rw [hlen, BitVec.toNat_ofNat, Config.lenMax]
  omega

/-- Settles O32: the walk lists the codes, and each has a length that the table's field can hold. -/
theorem codegenListsTheCodes : Obligations.CodegenListsTheCodes := by
  intro s T ⟨⟨_, hk, _⟩, _⟩ hT hfit
  obtain ⟨t, ht, heq, held, hsame⟩ := exec_of_wp (i := .codegen) (codeGen_lists (by omega) hT hfit)
  exact ⟨t, ht, heq, held, fun e he => codeTable_len (by omega) hfit he, hsame⟩

/-! ### No code begins another (R153) -/

/-- A leaf's path that a leaf's path begins with is the path of the same leaf: no leaf lies below another. -/
theorem Tree.eq_of_path_prefix (hp : p ∈ T.paths) (hq : q ∈ T.paths) (h : p.2 <+: q.2) : p = q := by
  induction T generalizing p q with
  | leaf x => rw [List.mem_singleton.mp hp, List.mem_singleton.mp hq]
  | node l r ihl ihr =>
    rcases List.mem_append.mp hp with hp | hp <;> obtain ⟨p', hp', rfl⟩ := List.mem_map.mp hp <;>
      rcases List.mem_append.mp hq with hq | hq <;> obtain ⟨q', hq', rfl⟩ := List.mem_map.mp hq <;>
      obtain ⟨hbit, hrest⟩ := List.cons_prefix_cons.mp h
    · rw [ihl hp' hq' hrest]
    · cases hbit
    · cases hbit
    · rw [ihr hp' hq' hrest]

theorem Tree.eq_of_code_prefix (hp : p ∈ T.codes) (hq : q ∈ T.codes) (h : p.2 <+: q.2) : p = q := by
  cases T with
  | leaf x => rw [List.mem_singleton.mp hp, List.mem_singleton.mp hq]
  | node l r => exact Tree.eq_of_path_prefix hp hq h

/-- An entry whose length field counts its code reads as that code (10_state.md R50). -/
theorem entryBits_eq_code (h : e.len.toNat = e.code.length) : entryBits e = e.code := by
  refine List.ext_getElem (by simp [entryBits, h]) fun k _ hk => ?_
  simp [entryBits, hk]

/-- An entry of the table whose code another one begins with holds the same symbol. -/
theorem codeTable_sym_eq_of_prefix {f : CtEntry} (he : e ∈ codeTable T) (hf : f ∈ codeTable T) (h : e.code <+: f.code) :
    e.sym = f.sym :=
  congrArg Prod.fst (Tree.eq_of_code_prefix (fields_of_mem_codeTable he).1 (fields_of_mem_codeTable hf).1 h)

theorem codeTable_syms (T : Tree) : (codeTable T).map (·.sym) = T.leaves := by
  rw [codeTable, List.map_map]
  exact T.codes_fst

/-- Where the leaves hold different symbols, so do the entries. -/
theorem codeTable_sym_ne {j k : Nat} (hnd : T.leaves.Nodup) (hj : j < (codeTable T).length) (hk : k < (codeTable T).length)
    (hjk : j ≠ k) : (codeTable T)[j].sym ≠ (codeTable T)[k].sym := fun heq => by
  rw [← codeTable_syms] at hnd
  refine hjk ((hnd.getElem_inj_iff (hi := ?_) (hj := ?_)).mp ?_)
  · rwa [List.length_map]
  · rwa [List.length_map]
  · rw [List.getElem_map, List.getElem_map, heq]

/-- Settles O33: the entries' symbols are the leaves', and an entry whose code another begins with holds the same one. -/
theorem noCodeIsAPrefixOfAnother : Obligations.NoCodeIsAPrefixOfAnother := by
  intro s t T hL hT hfit hnd hexec j k e f hj hk hjk he hf
  obtain ⟨u, hu, -, ⟨hcnt, hct⟩, hlen, -⟩ := codegenListsTheCodes s T hL hT hfit
  obtain rfl : t = u := Host.Outcome.next.inj (hexec.symm.trans hu)
  rw [hcnt] at hj hk
  obtain rfl : (codeTable T)[j] = e := Option.some.inj ((hct.getZero hj).symm.trans he)
  obtain rfl : (codeTable T)[k] = f := Option.some.inj ((hct.getZero hk).symm.trans hf)
  have hej := List.getElem_mem hj
  have hfk := List.getElem_mem hk
  have hbits : ∀ e ∈ codeTable T, entryBits e = e.code := fun e he =>
    have ⟨_, _, hcode⟩ := hlen e he
    entryBits_eq_code hcode
  have hsym := codeTable_sym_ne hnd hj hk hjk
  refine ⟨hsym, fun hpre => hsym (codeTable_sym_eq_of_prefix hej hfk ?_)⟩
  rwa [← hbits _ hej, ← hbits _ hfk]

end Sys2Proof.Machine

/-! ## ENCODE -/

namespace Sys2Proof.Machine

variable {s t : State} {bs : BitString} {code : FaultCode} {info : Nat}

/-- The registers of a packer that has been closed (R173, R177). -/
theorem ClosedTo.eq (h : ClosedTo s bs t) :
    t = { s with pkLen := BitVec.ofNat 32 ((bs.length + 7) / 8), pad := BitVec.ofNat 3 (padCount bs.length), stgBits := 0#8,
                 stgCnt := 0#3, pk := t.pk } := by
  obtain ⟨heq, ⟨hlen, -, hpad, -⟩, -⟩ := h
  have hpkLen : t.pkLen = BitVec.ofNat 32 ((bs.length + 7) / 8) := by
    rw [packBytes_length, padded_length, Nat.mul_div_cancel_left _ (by decide)] at hlen
    rw [← hlen, BitVec.ofNat_toNat, BitVec.setWidth_eq]
  have hpad' : t.pad = BitVec.ofNat 3 (padCount bs.length) := by
    rw [← hpad, BitVec.ofNat_toNat, BitVec.setWidth_eq]
  rwa [hpkLen, hpad'] at heq

/-- Settles O34: the packer that the loop and the flush leave is the closed string of the codes. -/
theorem encodePacksTheCodes : Obligations.EncodePacksTheCodes := by
  intro s l txt bs ⟨_, _, ⟨_, hp⟩, _⟩ hl hlen hn htxt hbits hfit
  obtain ⟨t, ht, hclosed⟩ := exec_of_wp (i := .encode) (encodeText_ok hl hlen hn htxt hbits hfit (by omega))
  have ⟨_, hpacked, hsame⟩ := hclosed
  exact ⟨t, ht, hclosed.eq, hpacked, hsame⟩

theorem wp_encodeText_tooLong (hlen : s.cfg.nMax < s.textLen.toNat) {Q : Unit → State → Prop} {E : Stop → State → Prop} :
    Cmd.wp encodeText Q E s ↔ E (.raise .capacity 1) s := by
  rw [encodeText, Cmd.wp_bind, Cmd.wp_csr, Cmd.wp_bind, Cmd.wp_csr, Cmd.wp_bind, Cmd.wp_raiseIf]
  exact ⟨fun hc => hc.1 hlen, fun he => ⟨fun _ => he, fun hle => absurd hlen hle⟩⟩

/-- Where the rule stops with `bs` packed, the command ends with that packer, ORIG_LEN 0 and the fault. -/
theorem exec_encode_stopped
    (hstop : Cmd.wp encodeText (fun _ _ => False) (fun e t => e = .raise code info ∧ PackTo s.encoding bs t) s) :
    ∃ t, exec .encode s = .next t ∧
      t = State.faulted { s with origLen := 0#32, pkLen := t.pkLen, pad := 0#3, stgBits := t.stgBits, stgCnt := t.stgCnt,
                                 pk := t.pk } code.number.toNat info (encodeInstr .encode) ∧ t.packs bs := by
  obtain ⟨u, hu, heq, hpacks, -⟩ := exec_faulted_of_wp (i := .encode) hstop
  exact ⟨_, hu, congrArg (·.faulted code.number.toNat info (encodeInstr .encode)) heq, hpacks⟩

/-- Settles O35: the length check comes first; else the loop or the flush stops with the packer of the bits before the fault. -/
theorem encodeFaults : Obligations.EncodeFaults := by
  refine ⟨fun s hlen => exec_eq_faulted (code := .capacity) ((wp_encodeText_tooLong hlen).mpr ⟨rfl, rfl⟩), ?_, ?_⟩
  · intro s l pre bs v ⟨_, _, ⟨_, hp⟩, _⟩ hl hlen hn hpre hv hbits hno hfit
    exact exec_encode_stopped (code := .noCode) (encodeText_noCode hl hlen hn hpre hv hbits hno hfit (by omega))
  · intro s l pre bs ⟨_, _, ⟨_, hp⟩, _⟩ hl hlen hn hpre hbits hfull
    exact exec_encode_stopped (code := .capacity) (encodeText_full hl hlen hn hpre hbits (by omega) hfull)

end Sys2Proof.Machine

/-! # Proofs of the family 43_bit_packer.md -/

/-! ## PK_PUSH and PK_FLUSH -/

namespace Sys2Proof.Machine

variable {s : State} {bs cs : BitString} {len : BitVec 5} {bits : BitVec 16} {Q : Unit → State → Prop}
  {E : Stop → State → Prop}

/-- An operand whose number is that of a bit string of its length is that bit string (30_encoding.md R93). -/
theorem operandBits_eq (hlen : len.toNat = cs.length) (hbits : bits.toNat = bitsValue cs) : operandBits len bits = cs := by
  refine List.ext_getElem (by simp [operandBits, hlen]) fun k _ hk => ?_
  have hpos : cs.length - 1 - (cs.length - 1 - k) = k := by omega
  simp only [operandBits, List.getElem_map, List.getElem_range, hlen]
  rw [← BitVec.testBit_toNat, hbits, bitsValue_testBit cs _ (by omega)]
  simp only [hpos]

/-- Bit 7 - k of byte q of a bit string of whole bytes is bit 8q + k of the string (R177). -/
theorem getLsbD_of_packBytes {q k : Nat} {v : Byte} (hwhole : bs.length % 8 = 0) (hv : (packBytes bs)[q]? = some v)
    (hk : k < 8) : v.getLsbD (7 - k) = bs.getD (8 * q + k) false := by
  have hq : q < (packBytes bs).length := (List.getElem?_eq_some_iff.mp hv).1
  have hunpack : unpackBits (packBytes bs) 0 = bs := by
    rw [unpackBits, flatMap_packBytes bs hwhole, packBytes_length, List.take_of_length_le (by omega)]
  have hbit := unpackBits_getElem? (bytes := packBytes bs) (pad := 0) (k := 8 * q + k) (by omega)
  rw [hunpack, show (8 * q + k) / 8 = q by omega, show (8 * q + k) % 8 = k by omega, List.getD_eq_getElem?_getD, hv] at hbit
  rw [List.getD_eq_getElem?_getD, hbit, Option.getD_some, Option.getD_some]

/-- The padding is what the string reads as past its end. -/
theorem padded_getD (bs : BitString) (i : Nat) : (padded bs).getD i false = bs.getD i false := by
  rcases Nat.lt_or_ge i bs.length with hi | hi
  · rw [padded, List.getD_append _ _ _ _ hi]
  · rw [padded, List.getD_append_right _ _ _ _ hi, List.getD_eq_getElem?_getD,
      List.getElem?_getD_replicate_default_eq, List.getD_eq_default _ _ hi]

/-- PK_PUSH looks at PAD, then pushes its operand's bits (R172). -/
theorem wp_pkPushRule : Cmd.wp (pkPushRule len bits) Q E s ↔
    (s.pad ≠ 0#3 → E (.raise .seq s.pad.toNat) s) ∧
      (s.pad = 0#3 → Cmd.wp (Cmd.forBits pkPushBit (operandBits len bits)) Q E s) := by
  rw [pkPushRule, Cmd.wp_bind, Cmd.wp_csr, Cmd.wp_bind, Cmd.wp_raiseIf, not_not]

/-- PK_FLUSH looks at PAD, then flushes (R173). -/
theorem wp_pkFlushRule : Cmd.wp pkFlushRule Q E s ↔
    (s.pad ≠ 0#3 → E (.raise .seq s.pad.toNat) s) ∧ (s.pad = 0#3 → Cmd.wp pkFlush Q E s) := by
  rw [pkFlushRule, Cmd.wp_bind, Cmd.wp_csr, Cmd.wp_bind, Cmd.wp_raiseIf, not_not]

/-- On an open bit string PK_PUSH is the pushing of a bit string whose number and length are its operand. -/
theorem wp_pkPushRule_open (h : s.packs bs) (hlen : len.toNat = cs.length) (hbits : bits.toNat = bitsValue cs) :
    Cmd.wp (pkPushRule len bits) Q E s ↔ Cmd.wp (Cmd.forBits pkPushBit cs) Q E s := by
  obtain ⟨hpad, -⟩ := h
  simp [wp_pkPushRule, operandBits_eq hlen hbits, hpad]

/-- On an open bit string PK_FLUSH is the flush. -/
theorem wp_pkFlushRule_open (h : s.packs bs) : Cmd.wp pkFlushRule Q E s ↔ Cmd.wp pkFlush Q E s := by
  obtain ⟨hpad, -⟩ := h
  simp [wp_pkFlushRule, hpad]

/-- Settles O36: the operand's bits are the string pushed, and all its whole bytes fit PK. -/
theorem pkPushAppendsTheBits : Obligations.PkPushAppendsTheBits := by
  intro s bs cs len bits ⟨_, _, ⟨_, hp⟩, _⟩ hpacks hlen hbits _ _ hfit
  obtain ⟨t, ht, heq, hopen, hsame⟩ := exec_of_wp (i := .pkPush len bits)
    ((wp_pkPushRule_open hpacks hlen hbits).mpr (pushBits_ok hpacks hfit (by omega)))
  rw [List.length_append] at hsame
  exact ⟨t, ht, heq, hopen, hsame⟩

/-- Settles O37: PK holds the whole bytes of the padded string, which unpack to the string without its padding. -/
theorem pkFlushClosesTheString : Obligations.PkFlushClosesTheString := by
  intro s bs ⟨_, _, ⟨_, hp⟩, _⟩ hpacks hfit
  obtain ⟨t, ht, hclosed⟩ := exec_of_wp (i := .pkFlush) ((wp_pkFlushRule_open hpacks).mpr (pkFlush_ok hpacks hfit (by omega)))
  have ⟨_, hpacked, hsame⟩ := hclosed
  have hwhole : (padded bs).length % 8 = 0 := by rw [padded_length, Nat.mul_mod_right]
  refine ⟨t, packBytes (padded bs), ht, hclosed.eq, hpacked, fun q v k hv hk => ?_, unpackBits_packBytes bs, hsame⟩
  rw [getLsbD_of_packBytes hwhole hv hk, padded_getD]

/-- Settles O38: a closed string is refused before anything is written; an open one stops at the byte that does not fit PK. -/
theorem packerFaults : Obligations.PackerFaults := by
  refine ⟨fun s len bits hpad => ⟨?_, ?_⟩, ?_, ?_⟩
  · exact exec_eq_faulted (code := .seq) (wp_pkPushRule.mpr ⟨fun _ => ⟨rfl, rfl⟩, fun h => absurd h hpad⟩)
  · exact exec_eq_faulted (code := .seq) (wp_pkFlushRule.mpr ⟨fun _ => ⟨rfl, rfl⟩, fun h => absurd h hpad⟩)
  · intro s bs cs len bits ⟨_, _, ⟨_, hp⟩, _⟩ hpacks hlen hbits _ _ hroom hfull
    obtain ⟨u, hu, heq, hopen, -⟩ := exec_faulted_of_wp (i := .pkPush len bits) (code := .capacity)
      ((wp_pkPushRule_open hpacks hlen hbits).mpr (pushBits_full hpacks hroom hfull (by omega)))
    exact ⟨_, hu, congrArg (·.faulted 5 7 (encodeInstr (.pkPush len bits))) heq, hopen⟩
  · intro s bs hpacks hfull hrest
    exact exec_eq_faulted (code := .capacity) ((wp_pkFlushRule_open hpacks).mpr (pkFlush_full hpacks hfull hrest))

end Sys2Proof.Machine

/-! ## UP_POP -/

namespace Sys2Proof.Machine

variable {s t : State} {E : Stop → State → Prop}

/-- UpPop before the end answers the bit of a written byte that the position names, and moves on (R175). -/
theorem upPop_byte {v : Byte} (hlt : s.upPos < s.bitLen) (hv : s.pk.get? s.upByte.toNat = some v)
    {Q : Option Bool → State → Prop} : Cmd.wp upPop Q E s ↔ Q (some (v.getLsbD (7 - s.upBit.toNat))) s.upNext := by
  simp only [upPop, Cmd.wp_bind, Cmd.wp_csr]
  rw [if_neg (Nat.not_le.mpr hlt)]
  simp only [Cmd.wp_bind, Cmd.wp_csr, Cmd.wp_readPk, pkAt_some hv, Cmd.wp_update, Cmd.wp_pure]

/-- UP_POP's answer to what UpPop returned: BE tells whether it was a bit, RES is the bit or 0 (R176). -/
def State.answerBit (s : State) (x : Option Bool) : State :=
  { s with be := x.isNone, res := BitVec.ofNat 32 (x.getD false).toNat }

/-- UP_POP runs UpPop and then writes BE and RES (R176). -/
theorem wp_upPopRule {Q : Unit → State → Prop} :
    Cmd.wp upPopRule Q E s ↔ Cmd.wp upPop (fun x t => Q () (t.answerBit x)) E s := by
  rw [upPopRule, Cmd.wp_bind]
  refine Iff.of_eq (congrArg (Cmd.wp upPop · E s) ?_)
  funext x t
  rcases x with _ | _ | _ <;> rfl

/-- UP_POP ends in the state that UpPop left, with its answer. -/
theorem exec_upPop {x : Option Bool} (h : Cmd.wp upPop (fun y u => y = x ∧ u = t) (fun _ _ => False) s) :
    exec .upPop s = .next (t.answerBit x) := by
  rw [exec_eq_runCommand]
  refine runCommand_eq (wp_upPopRule.mpr (Cmd.wp_mono h (fun y u ⟨hy, hu⟩ => ?_) fun _ _ h => h))
  rw [hy, hu]

/-- The two fields that the position is kept in, after one more bit (R175). -/
theorem upNext_eq (s : State) :
    s.upNext = { s with upByte := if s.upBit = 7#3 then s.upByte + 1#32 else s.upByte,
                        upBit := if s.upBit = 7#3 then 0#3 else s.upBit + 1#3 } := by
  by_cases h : s.upBit = 7#3
  · simp only [State.upNext, if_pos h]
  · simp only [State.upNext, if_neg h]

/-- Settles O39: UpPop answers "exhausted" in the same state, or the bit of the byte at the position, and moves on. -/
theorem upPopTakesTheNextBit : Obligations.UpPopTakesTheNextBit := by
  refine ⟨rfl, fun s => ⟨fun hend => exec_upPop ((upPop_exhausted hend).mpr ⟨rfl, rfl⟩), fun v hlt hv => ?_⟩⟩
  have hbit : (v.getLsbD (7 - s.upBit.toNat)).toNat = v.toNat / 2 ^ (7 - s.upBit.toNat) % 2 := by
    rw [← BitVec.testBit_toNat, Nat.toNat_testBit]
  rw [exec_upPop ((upPop_byte hlt hv).mpr ⟨rfl, rfl⟩), upNext_eq, State.answerBit, Option.getD_some, hbit, Option.isNone_some]

/-- Settles O40: the bit that UpPop answers is the unpacked string's at the position, which does not wrap. -/
theorem upPopReadsTheUnpackedString : Obligations.UpPopReadsTheUnpackedString := by
  intro s bytes pad p ⟨_, _, ⟨_, hp⟩, _⟩ ⟨hlen, hheld, hpad, _⟩ hfit hpos hlt
  obtain rfl : s.upPos = p := hpos
  have hb := List.getElem?_eq_getElem hlt
  rw [unpackBits_length] at hlt
  refine ⟨_, _, hb, exec_upPop ((upPop_bit hlen hheld hpad hb).mpr ⟨rfl, rfl⟩), ?_, upPos_upNext (by omega)⟩
  exact congrArg (·.answerBit (some (unpackBits bytes pad)[s.upPos])) (upNext_frame (s := s))

end Sys2Proof.Machine

/-! # Proofs of the family 44_container.md -/

/-! ## SERIALIZE -/

namespace Sys2Proof.Machine

variable {s t : State} {T : Tree} {tree : Option Tree} {payload : List Byte} {Q : Unit → State → Prop} {E : Stop → State → Prop}

/-- NODE has room for a tree of at most K_MAX leaves (10_state.md R53 item 11). -/
theorem Tree.size_le_nodeMax {c : Config} (h : T.leaves.length ≤ c.kMax) : T.size ≤ c.nodeMax := by
  have := T.size_eq
  unfold Config.nodeMax
  omega

/-- SERIALIZE of a tree, or of none, whose container fits BLOB (R193). -/
theorem exec_serialize_fits (hL : s.cfg.Legal) (hs : s.stgCnt = 0#3) (hin : SerialIn s tree payload)
    (hl : s.pkLen.toNat = payload.length) (hpk : s.pk.holds 0 payload)
    (hfit : 17 + (snapshotOf tree).length + payload.length ≤ s.cfg.bMax) :
    ∃ t, exec .serialize s = .next t ∧
      t = { s with blob := t.blob, blobLen := BitVec.ofNat 32 (17 + (snapshotOf tree).length + payload.length) } ∧
      t.holdsBlob (containerBytes s.origLen.toNat s.pad.toNat tree payload) ∧
      s.blob.sameFrom t.blob (17 + (snapshotOf tree).length + payload.length) := by
  have ⟨_, _, _, hb, hb'⟩ := hL
  obtain ⟨t, ht, heq, held, hsame⟩ := exec_of_wp (i := .serialize) (serialize_ok hs hin hl hpk hb (by omega) hfit)
  have hlen : t.blobLen.toNat = 17 + (snapshotOf tree).length + payload.length := by
    rw [heq]
    exact (BitVec.toNat_ofNat ..).trans (Nat.mod_eq_of_lt (by omega))
  have hcfg : t.cfg = s.cfg := by rw [heq]
  refine ⟨t, ht, heq, ⟨?_, ?_, held⟩, hsame⟩
  · rw [hlen, containerBytes_length]
  · rw [containerBytes_length, hcfg]
    exact hfit

/-- Settles O43: the container of a live tree, and the one of no tree, no payload and no length. -/
theorem serializeWritesTheContainer : Obligations.SerializeWritesTheContainer := by
  refine ⟨fun s T payload pad hL hs hT hk ⟨hl, hpk, hpad, _⟩ hfit => ?_, fun s hL hs hr hl ho hp => ?_⟩
  · subst hpad
    exact exec_serialize_fits (tree := some T) hL hs ⟨hT, Tree.size_le_nodeMax hk⟩ hl hpk hfit
  · have ⟨_, _, _, hb, _⟩ := hL
    obtain ⟨t, ht, heq, held, hsame⟩ :=
      exec_serialize_fits (tree := none) (payload := []) hL hs ⟨hr, rfl, ho⟩ (by rw [hl]; rfl) (Memory.holds_nil _ _) hb
    rw [ho, hp] at held
    exact ⟨t, ht, heq, held, hsame⟩

/-- The two checks of SERIALIZE come before it writes a byte (R193). -/
theorem wp_serialize_staged (hs : s.stgCnt ≠ 0#3) :
    Cmd.wp serialize Q E s ↔ E (.raise .seq s.stgCnt.toNat) { s with blobLen := 0#32 } := by
  rw [serialize, Cmd.wp_bind, Cmd.wp_update, Cmd.wp_bind, Cmd.wp_csr, Cmd.wp_bind, Cmd.wp_raiseIf]
  exact ⟨fun h => h.1 hs, fun h => ⟨fun _ => h, fun h0 => absurd hs h0⟩⟩

theorem wp_serialize_treeless (hs : s.stgCnt = 0#3) (hr : s.root = 0#24) (hp : s.pkLen ≠ 0#32 ∨ s.origLen ≠ 0#32) :
    Cmd.wp serialize Q E s ↔ E (.raise .empty 0) { s with blobLen := 0#32 } := by
  rw [serialize, Cmd.wp_bind, Cmd.wp_update, Cmd.wp_bind, Cmd.wp_csr, Cmd.wp_bind, Cmd.wp_raiseIf, Cmd.wp_bind, Cmd.wp_csr,
    Cmd.wp_bind, Cmd.wp_csr, Cmd.wp_bind, Cmd.wp_csr, Cmd.wp_bind, Cmd.wp_raiseIf]
  exact ⟨fun h => (h.2 (not_not.mpr hs)).1 ⟨hr, hp⟩,
    fun h => ⟨fun hne => absurd hs hne, fun _ => ⟨fun _ => h, fun h0 => absurd ⟨hr, hp⟩ h0⟩⟩⟩

/-- Settles O44: the two checks stop it before it writes; else it stops at the first position that BLOB does not have. -/
theorem serializeFaults : Obligations.SerializeFaults := by
  refine ⟨fun s hs => ?_, fun s hs hr hp => ?_, fun s T payload pad ⟨_, _, _, hb, _⟩ hs hT hk ⟨hl, hpk, _⟩ hfull => ?_⟩
  · exact exec_eq_faulted (code := .seq) ((wp_serialize_staged hs).mpr ⟨rfl, rfl⟩)
  · exact exec_eq_faulted (code := .empty) ((wp_serialize_treeless hs hr hp).mpr ⟨rfl, rfl⟩)
  · obtain ⟨u, hu, heq, hsame⟩ := exec_faulted_of_wp (i := .serialize) (code := .capacity) (info := 2)
      (serialize_full hs hT (Tree.size_le_nodeMax hk) hl hpk hb hfull)
    exact ⟨_, hu, congrArg (·.faulted 5 2 (encodeInstr .serialize)) heq, hsame⟩

end Sys2Proof.Machine

/-! ## PARSE of a container -/

namespace Sys2Proof.Machine

variable {s u : State} {T : Tree} {ids : IdTree}

/-- Node 1 is the root of a loaded tree (R195). -/
theorem Loaded.holdsTree (h : Loaded s u T ids) : holdsTree u.node 1#24 T := by
  have hroot : ids.root = 1 := by
    have hpos := T.size_pos
    have horder := h.order
    rw [show T.size = T.size - 1 + 1 by omega, List.range'_succ] at horder
    cases ids <;> exact (List.cons.inj horder).1
  rw [← h.tree]
  exact h.shape.tree hroot.symm

/-- Settles O45: what the records and the copy of the payload leave, and the header-only container. -/
theorem parseLoadsTheContainer : Obligations.ParseLoadsTheContainer := by
  refine ⟨fun s T payload orig pad hL hb ho hp hpp hpm hk hleg => ?_, fun s hL hb => ?_⟩
  · obtain ⟨t, ht, ids, u, hload, heq, hpk, hsame⟩ := exec_of_wp (i := .parse) (parse_ok hL hb ho hp hpp hpm hk hleg)
    have ⟨_, _, ⟨_, hpMax⟩, _⟩ := hL
    have hnode : t.node = u.node := by rw [heq]
    have hroot : t.root = 1#24 := by rw [heq, hload.frame]
    have hlen : t.pkLen.toNat = payload.length := by
      rw [heq]
      exact (BitVec.toNat_ofNat ..).trans (Nat.mod_eq_of_lt (by omega))
    have hpad : t.pad.toNat = pad := by
      rw [heq]
      exact (BitVec.toNat_ofNat ..).trans (Nat.mod_eq_of_lt (by omega))
    refine ⟨t, ht, ?_, ⟨by rw [hroot]; decide, ?_⟩, ⟨hlen, hpk, hpad, mt hpp⟩, ⟨ids, hload.order, ?_⟩, ?_, ?_, hsame⟩
    · rw [hnode, heq]
      exact congrArg (fun v : State => { v with pkLen := BitVec.ofNat 32 payload.length, pad := BitVec.ofNat 3 pad,
                                                origLen := BitVec.ofNat 32 orig, pk := t.pk }) hload.frame
    · rw [hnode, hroot]
      exact hload.holdsTree
    · rw [hnode]
      exact hload.shape
    · rw [hnode]
      exact hload.fresh
    · rw [hnode]
      exact hload.old
  · rw [exec_eq_runCommand]
    exact runCommand_eq (parse_empty hL hb)

end Sys2Proof.Machine

/-! ## The faults of PARSE -/

namespace Sys2Proof.Machine

variable {s : State} {Q : Unit → State → Prop} {E : Stop → State → Prop}

/-- PARSE first zeroes what it will load, then reads the header (R194). -/
theorem wp_parse_of_readHeader (h : Cmd.wp readHeader (fun _ _ => False) E s.artifactZero) : Cmd.wp parse Q E s := by
  simp only [parse, dropArtifact, pkInit, upInit, Cmd.wp_bind, Cmd.wp_update]
  exact Cmd.wp_mono h (fun _ _ hf => hf.elim) fun _ _ he => he

/-! ### The length and MAGIC -/

theorem wp_readHeader_tooLong (hlen : s.cfg.bMax < s.blobLen.toNat) {Q : Header → State → Prop} :
    Cmd.wp readHeader Q E s ↔ E (.raise .capacity 2) s := by
  rw [readHeader, Cmd.wp_bind, Cmd.wp_csr, Cmd.wp_bind, Cmd.wp_csr, Cmd.wp_bind, Cmd.wp_raiseIf]
  exact ⟨fun h => h.1 hlen, fun h => ⟨fun _ => h, fun h0 => absurd hlen h0⟩⟩

theorem wp_readHeader_tooShort (hfit : s.blobLen.toNat ≤ s.cfg.bMax) (hlen : s.blobLen.toNat < 17) {Q : Header → State → Prop} :
    Cmd.wp readHeader Q E s ↔ E (.raise .malformed s.blobLen.toNat) s := by
  rw [readHeader, Cmd.wp_bind, Cmd.wp_csr, Cmd.wp_bind, Cmd.wp_csr, Cmd.wp_bind, Cmd.wp_raiseIf, Cmd.wp_bind, Cmd.wp_raiseIf]
  exact ⟨fun h => (h.2 (Nat.not_lt.mpr hfit)).1 hlen,
    fun h => ⟨fun hgt => absurd hgt (Nat.not_lt.mpr hfit), fun _ => ⟨fun _ => h, fun h0 => absurd hlen h0⟩⟩⟩

theorem readHeader_of_badMagic {bytes : List Byte} {k : Nat} {v : Byte} (hb : s.holdsBlob bytes) (h17 : 17 ≤ bytes.length)
    (hk : k < 4) (hpre : bytes.take k = magic.take k) (hv : bytes[k]? = some v) (hne : some v ≠ magic[k]?) :
    Cmd.wp readHeader (fun _ _ => False) (fun e t => e = .raise .malformed k ∧ t = s) s := by
  obtain ⟨hlen, hfit, hblob⟩ := hb
  have hread : s.blob.get? k = some v := by
    rw [← hv, ← hblob k (by omega), Nat.zero_add]
  rw [readHeader, Cmd.wp_bind, Cmd.wp_csr, Cmd.wp_bind, Cmd.wp_csr, Cmd.wp_bind, Cmd.wp_raiseIf]
  refine ⟨fun h => by omega, fun _ => ?_⟩
  rw [Cmd.wp_bind, Cmd.wp_raiseIf]
  refine ⟨fun hlt => absurd hlt (by rw [hlen]; exact Nat.not_lt.mpr h17), fun _ => ?_⟩
  exact Cmd.wp_then (Q' := fun _ _ => False) (magic_bad hk (hpre ▸ hblob.take k) hread hne) (fun _ _ hf => hf.elim) fun _ _ he => he

/-! ### The field checks -/

/-- A command whose rule can only raise a fault of this number, in a state it names, ends there with the fault recorded. -/
theorem exec_eq_faulted_of_number {i : Instr} {code info : Nat} {t : State}
    (hc : Cmd.wp (ruleOf i) (fun _ _ => False)
      (fun e u => ∃ fc : FaultCode, fc.number = BitVec.ofNat 8 code ∧ e = .raise fc info ∧ u = t) s) :
    exec i s = .next (t.faulted code info (encodeInstr i)) := by
  rw [exec_eq_runCommand]
  unfold Cmd.wp at hc
  split at hc
  · exact hc.elim
  · rename_i heq
    obtain ⟨fc, hfc, rfl, rfl⟩ := hc
    rw [runCommand_raise heq, takeFault, hfc, State.faulted]

/-- Settles O46: the checks in the order of the rule, each before anything but the zeroed registers is written. -/
theorem parseFieldFaults : Obligations.ParseFieldFaults := by
  intro s ⟨_, _, _, hb17, _⟩
  refine ⟨fun hlong => ?_, fun hshort => ?_, fun bytes k v hb h17 hk hpre hv hne => ?_,
    fun orig padb tlen plen more code info ho hp ht hpl hb hbad => ?_⟩
  · exact exec_eq_faulted (code := .capacity)
      (wp_parse_of_readHeader ((wp_readHeader_tooLong (s := s.artifactZero) hlong).mpr ⟨rfl, rfl⟩))
  · have hfit : s.artifactZero.blobLen.toNat ≤ s.artifactZero.cfg.bMax := Nat.le_trans (Nat.le_of_lt hshort) hb17
    exact exec_eq_faulted (code := .malformed) (wp_parse_of_readHeader ((wp_readHeader_tooShort hfit hshort).mpr ⟨rfl, rfl⟩))
  · exact exec_eq_faulted (code := .malformed)
      (wp_parse_of_readHeader (readHeader_of_badMagic (s := s.artifactZero) hb h17 hk hpre hv hne))
  · refine exec_eq_faulted_of_number (i := .parse) (wp_parse_header ho hp ht hpl hb (fun code' info' h fc hfc => ?_) fun hnone => ?_)
    · obtain ⟨rfl, rfl⟩ := Prod.mk.inj (Option.some.inj (hbad.symm.trans h))
      exact ⟨fc, hfc, rfl, rfl⟩
    · rw [hbad] at hnone
      cases hnone

/-! ### The snapshot -/

/-- PARSE of a container with a sound header whose snapshot begins with these records and stops ParseTree after them (R195). -/
theorem exec_parse_stopped {recs : List (Option Symbol)} {rest payload : List Byte} {orig pad tlen info : Nat} {os : List Bool}
    {code : FaultCode} (hL : s.cfg.Legal) (htlen : tlen = (recs.flatMap recordBytes).length + rest.length)
    (hb : s.holdsBlob (headerBytes orig pad tlen payload.length ++ ((recs.flatMap recordBytes ++ rest) ++ payload)))
    (ho : orig < 2 ^ 32) (hp : pad < 2 ^ 8) (hnone : headerFault s.cfg orig pad tlen payload.length (17 + tlen + payload.length) = none)
    (hpos : 0 < tlen) (hleg : ∀ x, some x ∈ recs → x.toNat ≤ symMax) (hopen : openAfter s.cfg.kMax [true] recs = some os)
    (hroom : recs.length ≤ s.cfg.nodeMax)
    (hstop : (os ≠ [] ∧ StopsAt s.cfg recs.length os rest.length rest code info (17 + (recs.flatMap recordBytes).length)) ∨
      (os = [] ∧ rest ≠ [] ∧ code = .corruptTree ∧ info = 17 + (recs.flatMap recordBytes).length)) :
    ∃ t, exec .parse s = .next t ∧
      t = State.faulted { s.artifactZero with node := t.node, nodeCnt := t.nodeCnt, root := t.root } code.number.toNat info
        (encodeInstr .parse) := by
  have ⟨⟨hk1, hk, _⟩, _, _, _, hb28⟩ := hL
  have hfit := hb.2.1
  have hsnap := (Memory.holds_append.mp hb.2.2).2
  rw [headerBytes_length] at hsnap
  simp only [List.length_append, headerBytes_length] at hfit
  have hmore : 17 + (recs.flatMap recordBytes ++ rest ++ payload).length = 17 + tlen + payload.length := by
    simp only [List.length_append]
    omega
  have hleft : hdrLen + tlen - (hdrLen + (recs.flatMap recordBytes).length) = rest.length := by omega
  have hend (hne : rest ≠ []) : hdrLen + (recs.flatMap recordBytes).length ≠ hdrLen + tlen := by
    have := List.length_pos_of_ne_nil hne
    omega
  have htree := parseTree_stop (s := s.artifactZero) (p := hdrLen) (last := hdrLen + tlen) (code := code) (info := info) hk hk1 hleg
    (Memory.holds_append.mp hsnap).1 (by omega) hroom rfl hopen
    (hstop.imp (fun h => ⟨h.1, hleft ▸ h.2⟩) fun ⟨h0, hne, hcode, hinfo⟩ => ⟨h0, hend hne, hcode, hinfo⟩)
  obtain ⟨u, hu, heq⟩ := exec_faulted_of_wp (i := .parse) (code := code) (info := info) (P := TreeOnly s.artifactZero)
    (wp_parse_header ho hp (by omega) (by omega) hb
      (fun code' info' h => by rw [hmore, hnone] at h; cases h)
      fun _ => by
        rw [parseSnapshot, if_pos hpos]
        exact Cmd.wp_mono htree (fun _ _ hf => hf.elim) fun _ _ he => he)
  exact ⟨_, hu, congrArg (·.faulted code.number.toNat info (encodeInstr .parse)) heq⟩

/-- Settles O47: each of the seven ways is a record that cannot be read, no node left, no room on the stack, or bytes left over. -/
theorem parseTreeFaults : Obligations.ParseTreeFaults := by
  intro s recs rest payload orig pad at' os hL hb ho hp hnone hpos hleg hopen hroom hat code info hcase
  subst hat
  rw [List.append_assoc, List.append_assoc, ← List.append_assoc (recs.flatMap recordBytes)] at hb
  have stopped {fc : FaultCode} {info : Nat} := exec_parse_stopped (code := fc) (info := info) hL rfl hb ho hp hnone hpos hleg hopen hroom
  rcases hcase with ⟨hne, rfl, rfl, rfl⟩ | ⟨hne, ⟨v, more, rfl, h0, h1⟩, rfl, rfl⟩ | ⟨hne, ⟨more, rfl, hshort⟩, rfl, rfl⟩ |
    ⟨hne, ⟨a, b, c, more, rfl, hsym⟩, rfl, rfl⟩ | ⟨h0, hrest, rfl, rfl⟩ | ⟨hne, hfull, ⟨r, more, rfl, hr⟩, rfl, rfl⟩ |
    ⟨hfull, hlt, ⟨more, rfl⟩, rfl, rfl⟩
  · exact stopped (fc := .corruptTree) (.inl ⟨hne, .bad 0 _ (.ended rfl)⟩)
  · exact stopped (fc := .corruptTree) (.inl ⟨hne, .bad 0 _ (.tag v more h0 h1 (Nat.succ_pos _))⟩)
  · exact stopped (fc := .corruptTree) (.inl ⟨hne, .bad 0 _ (.short more (Nat.succ_pos _) (Nat.succ_lt_succ hshort))⟩)
  · exact stopped (fc := .corruptTree) (.inl ⟨hne, .bad 1 _ (.symbol a b c more (by simp) hsym)⟩)
  · exact stopped (fc := .corruptTree) (.inr ⟨h0, hrest, rfl, rfl⟩)
  · have hlegal : (recordOf r).legal := by
      cases r with
      | none => trivial
      | some x => exact hr x rfl
    exact stopped (fc := .capacity) (.inl ⟨hne, .nodes r more _ hfull rfl hlegal (by simp)⟩)
  · have ⟨⟨hk1, _⟩, _⟩ := hL
    have hne : os ≠ [] := fun h0 => by
      rw [h0] at hfull
      exact absurd hfull (Nat.ne_of_lt hk1)
    exact stopped (fc := .capacity) (.inl ⟨hne, .stack more _ hfull hlt rfl (Nat.succ_pos _)⟩)

end Sys2Proof.Machine

/-! ## Artifacts: what SERIALIZE writes and PARSE takes -/

namespace Sys2Proof.Machine

variable {s t u : State} {T : Tree} {ids : IdTree} {tree : Option Tree} {payload bytes : List Byte} {orig pad : Nat}

/-- What holds wherever a rule ends normally holds of a command's next state without a fault (60_exceptions.md R232). -/
theorem exec_unfaulted_of_wp {i : Instr} {P : State → Prop} (hexec : exec i s = .next t) (herr : t.err = 0#8)
    (hc : Cmd.wp (ruleOf i) (fun _ u => P u) (fun _ _ => True) s) : P t := by
  rw [exec_eq_runCommand] at hexec
  refine runCommand_next (P := fun u => u.err = 0#8 → P u) (Cmd.wp_mono hc (fun _ _ hu _ => hu) fun _ _ _ code _ _ h0 => ?_)
    hexec herr
  have hpos := (faultCode_range code).1
  rw [show code.number = 0#8 from h0] at hpos
  exact absurd hpos (by decide)

/-! ### PARSE of the container of an artifact -/

/-- PARSE has loaded this artifact (R194, R195): a tree is numbered in pre-order and has no weights. -/
structure ArtifactLoaded (s t : State) (orig pad : Nat) (tree : Option Tree) (payload : List Byte) : Prop where
  frame : t = { s.artifactZero with nodeCnt := t.nodeCnt, root := t.root, pkLen := t.pkLen, pad := t.pad, origLen := t.origLen,
                                    node := t.node, pk := t.pk }
  orig : t.origLen.toNat = orig
  packed : t.holdsPacked payload pad
  serial : SerialIn t tree payload
  numbered : ∀ T, tree = some T → t.root = 1#24 ∧ t.nodeCnt.toNat = T.size ∧
    ∃ ids : IdTree, ids.ids = List.range' 1 T.size ∧ holdsShape t.node ids ∧ ∀ id ∈ ids.ids, weightAt t.node id = 0

theorem exec_parse_accepted (hL : s.cfg.Legal) (hb : s.holdsBlob (containerBytes orig pad tree payload))
    (ha : Accepted s.cfg orig pad tree payload) : ∃ t, exec .parse s = .next t ∧ ArtifactLoaded s t orig pad tree payload := by
  obtain ⟨ho, hp, hpp, hpm, hbare, hleaves⟩ := ha
  have ⟨⟨_, hk, _⟩, _⟩ := hL
  cases tree with
  | none =>
    obtain ⟨rfl, rfl⟩ := hbare rfl
    obtain rfl := hpp rfl
    exact ⟨_, parseLoadsTheContainer.2 s hL hb, rfl, rfl, ⟨rfl, Memory.holds_nil _ _, rfl, fun h => absurd rfl h⟩,
      ⟨rfl, rfl, rfl⟩, nofun⟩
  | some T =>
    obtain ⟨hfit, hsym⟩ := hleaves T rfl
    obtain ⟨t, ht, heq, hlive, hpacked, ⟨ids, horder, hshape⟩, hfresh, -⟩ :=
      parseLoadsTheContainer.1 s T payload orig pad hL hb ho hp hpp hpm hfit hsym
    have hcfg : t.cfg = s.cfg := by rw [heq]; rfl
    have hsize : T.size ≤ t.cfg.nodeMax := hcfg ▸ Tree.size_le_nodeMax hfit
    have hmax := nodeMax_lt hk
    have hcnt : t.nodeCnt.toNat = T.size := by
      rw [heq]
      exact (BitVec.toNat_ofNat ..).trans (Nat.mod_eq_of_lt (by rw [hcfg] at hsize; omega))
    have horig : t.origLen.toNat = orig := by
      rw [heq]
      exact (BitVec.toNat_ofNat ..).trans (Nat.mod_eq_of_lt ho)
    refine ⟨t, ht, by rw [heq], horig, hpacked, ⟨hlive, hsize⟩, fun T' h => ?_⟩
    cases h
    refine ⟨by rw [heq], hcnt, ids, horder, hshape, fun id hid => ?_⟩
    rw [horder, List.mem_range'_1] at hid
    obtain ⟨x, hx, hw, -⟩ := hfresh id hid.1 (by omega)
    rw [weightAt, hx]
    exact congrArg BitVec.toNat hw

/-- Where PARSE ends with no fault, the bytes are the container of an artifact, and that artifact is loaded. -/
theorem exec_parse_unfaulted (hL : s.cfg.Legal) (hb : s.holdsBlob bytes) (hexec : exec .parse s = .next t) (herr : t.err = 0#8) :
    ∃ orig pad tree payload, bytes = containerBytes orig pad tree payload ∧ Accepted s.cfg orig pad tree payload ∧
      ArtifactLoaded s t orig pad tree payload := by
  obtain ⟨orig, pad, tree, payload, ha, rfl⟩ := exec_unfaulted_of_wp (i := .parse) hexec herr (parse_only hL hb)
  obtain ⟨u, hu, hload⟩ := exec_parse_accepted hL hb ha
  obtain rfl : t = u := Host.Outcome.next.inj (hexec.symm.trans hu)
  exact ⟨orig, pad, tree, payload, rfl, ha, hload⟩

/-- Settles O48: the artifact of the bytes that PARSE accepts is the one it loads. -/
theorem parseAcceptsOnlyContainers : Obligations.ParseAcceptsOnlyContainers := by
  intro s t bytes hL _ hb hexec herr
  obtain ⟨orig, pad, tree, payload, rfl, ha, hload⟩ := exec_parse_unfaulted hL hb hexec herr
  obtain ⟨-, rfl, hpacked, hserial, -⟩ := hload
  have hpad : t.pad.toNat = pad := hpacked.2.2.1
  refine ⟨tree, payload, by rw [hpad], hpad ▸ hpacked, ha.fits, ?_⟩
  cases tree with
  | none =>
    obtain ⟨hroot, hnil, hzero⟩ := hserial
    exact .inl ⟨rfl, hroot, hnil, hzero⟩
  | some T => exact .inr ⟨T, rfl, hserial.1, ha.leaves T rfl⟩

/-! ### The artifact of a state with the invariants -/

theorem holdsShape.leaf_of_mem {m : Memory Node} {k : Nat} (hs : holdsShape m ids) (hk : k ∈ ids.leafIds) :
    ∃ x, m.get? k = some x ∧ x.leaf = true := by
  induction ids with
  | leaf id =>
    obtain ⟨x, hx, hleaf, -⟩ := hs
    rw [List.mem_singleton.mp hk]
    exact ⟨x, hx, hleaf⟩
  | node id l r ihl ihr =>
    obtain ⟨-, -, -, -, -, -, -, -, -, -, -, -, -, hl, hr⟩ := hs
    exact (List.mem_append.mp hk).elim (ihl hl) (ihr hr)

/-- The leaves of the live tree are leaves among the allocated nodes (10_state.md R53 items 3, 4, 7). -/
theorem liveTree_leaves_legal (hs : s.sound) (hleg : s.leavesLegal) (hT : s.liveTree T) : ∀ x ∈ T.leaves, x.toNat ≤ symMax := by
  obtain ⟨-, -, ⟨h, trees, -, g⟩, hroot, -⟩ := hs
  obtain ⟨h1, h2, hst⟩ := hroot.resolve_left hT.1
  obtain ⟨ids, hmem, e⟩ := g.root_of h1 h2 (by rw [hst]; decide)
  obtain rfl : T = ids.tree s.node := hT.2.unique (g.liveTree hmem e.symm).1
  rw [IdTree.tree_leaves]
  intro x hx
  obtain ⟨k, hk, rfl⟩ := List.mem_map.mp hx
  obtain ⟨n, hn, hleaf⟩ := (g.shapes ids hmem).leaf_of_mem hk
  obtain ⟨hk1, hk2⟩ := g.range hmem (IdTree.leafIds_subset hk)
  rw [symAt, hn]
  exact hleg k n hk1 hk2 hn hleaf

/-- A state with the invariants holds an artifact, if no root means no payload and no length. -/
theorem exists_artifact (hs : s.sound) (hleg : s.leavesLegal) (hw : s.payloadWritten)
    (hbare : s.root = 0#24 → s.pkLen = 0#32 ∧ s.origLen = 0#32) :
    ∃ tree payload, SerialIn s tree payload ∧ s.pkLen.toNat = payload.length ∧ s.pk.holds 0 payload ∧
      Accepted s.cfg s.origLen.toNat s.pad.toNat tree payload := by
  have ⟨⟨_, hn, _, _, hp, _⟩, _, forest, root, _, packer, _⟩ := hs
  obtain ⟨payload, hlen, hpk⟩ := exists_holds (m := s.pk) (base := 0) fun k hk => by
    rw [Nat.zero_add]
    exact hw k hk
  have hpad : payload = [] → s.pad.toNat = 0 := fun h0 => by
    by_contra hne
    have hpos := (packer fun h => hne (by rw [h]; rfl)).2
    rw [← hlen, h0] at hpos
    exact absurd hpos (Nat.not_succ_le_zero 0)
  by_cases hroot : s.root = 0#24
  · obtain ⟨h0, ho⟩ := hbare hroot
    have hnil : payload = [] := List.eq_nil_of_length_eq_zero (by rw [hlen, h0]; rfl)
    exact ⟨none, payload, ⟨hroot, hnil, ho⟩, hlen.symm, hpk, s.origLen.isLt, by omega, hpad, hlen ▸ hp,
      fun _ => ⟨hnil, by rw [ho]; rfl⟩, nofun⟩
  · obtain ⟨T, hT, hsize, hfit⟩ := liveTree_of_forestPart forest hn root hroot
    refine ⟨some T, payload, ⟨hT, hsize⟩, hlen.symm, hpk, s.origLen.isLt, by omega, hpad, hlen ▸ hp, nofun, fun T' h => ?_⟩
    cases h
    exact ⟨hfit, liveTree_leaves_legal hs hleg hT⟩

/-! ### SERIALIZE without a fault -/

/-- Where SERIALIZE ends with no fault, its two checks have passed (R193). -/
theorem serialize_checks_passed (hexec : exec .serialize s = .next t) (herr : t.err = 0#8) :
    s.stgCnt = 0#3 ∧ (s.root = 0#24 → s.pkLen = 0#32 ∧ s.origLen = 0#32) := by
  have refused (h : Cmd.wp serialize (fun _ _ => False) (fun _ _ => True) s) : False :=
    exec_unfaulted_of_wp (i := .serialize) hexec herr h
  have hs : s.stgCnt = 0#3 := by_contra fun hne => refused ((wp_serialize_staged hne).mpr trivial)
  refine ⟨hs, fun hr => by_contra fun hne => refused ((wp_serialize_treeless hs hr ?_).mpr trivial)⟩
  rw [← not_and_or]
  exact hne

/-- Where SERIALIZE ends with no fault, it has written the container of what it works on (R193). -/
theorem exec_serialize_unfaulted (hL : s.cfg.Legal) (hin : SerialIn s tree payload) (hl : s.pkLen.toNat = payload.length)
    (hpk : s.pk.holds 0 payload) (hexec : exec .serialize s = .next t) (herr : t.err = 0#8) :
    t.cfg = s.cfg ∧ t.holdsBlob (containerBytes s.origLen.toNat s.pad.toNat tree payload) := by
  have ⟨_, _, _, hb, _⟩ := hL
  have ⟨hs, _⟩ := serialize_checks_passed hexec herr
  have hfit : 17 + (snapshotOf tree).length + payload.length ≤ s.cfg.bMax := by
    cases tree with
    | none =>
      obtain ⟨-, rfl, -⟩ := hin
      exact hb
    | some T =>
      by_contra hfull
      exact exec_unfaulted_of_wp (i := .serialize) hexec herr (P := fun _ => False)
        (Cmd.wp_mono (serialize_full hs hin.1 hin.2 hl hpk hb (Nat.lt_of_not_le hfull)) (fun _ _ h => h) fun _ _ _ => trivial)
  obtain ⟨u, hu, heq, held, -⟩ := exec_serialize_fits hL hs hin hl hpk hfit
  obtain rfl : t = u := Host.Outcome.next.inj (hexec.symm.trans hu)
  exact ⟨by rw [heq], held⟩

/-- Bytes that one state holds are held by another with the same valid bytes. -/
theorem State.holdsBlob.congr (h : t.holdsBlob bytes) (hcfg : u.cfg = t.cfg) (hlen : u.blobLen = t.blobLen)
    (hsame : ∀ k, k < t.blobLen.toNat → u.blob.get? k = t.blob.get? k) : u.holdsBlob bytes := by
  obtain ⟨hl, hfit, held⟩ := h
  exact ⟨by rw [hlen, hl], by rw [hcfg]; exact hfit, held.congr fun k hk => hsame _ (by omega)⟩

/-! ### The round trip (R196) -/

/-- SERIALIZE after PARSE writes the bytes that PARSE took. -/
theorem serialize_of_artifactLoaded (hL : s.cfg.Legal) (hb : s.holdsBlob (containerBytes orig pad tree payload))
    (hload : ArtifactLoaded s t orig pad tree payload) :
    ∃ w, exec .serialize t = .next w ∧ w.err = s.err ∧ w.blobLen = s.blobLen ∧ ∀ k, w.blob.get? k = s.blob.get? k := by
  obtain ⟨hframe, rfl, ⟨hl, hpk, rfl, -⟩, hserial, -⟩ := hload
  obtain ⟨hlen, hfit, hblob⟩ := hb
  have hcfg : t.cfg = s.cfg := by rw [hframe]; rfl
  have htblob : t.blob = s.blob := by rw [hframe]; rfl
  have hterr : t.err = s.err := by rw [hframe]; rfl
  rw [containerBytes_length] at hfit
  obtain ⟨w, hw, heq, ⟨hwlen, -, held⟩, hsame⟩ :=
    exec_serialize_fits (by rw [hcfg]; exact hL) (by rw [hframe]; rfl) hserial hl hpk (by rw [hcfg]; exact hfit)
  refine ⟨w, hw, by rw [heq]; exact hterr, BitVec.eq_of_toNat_eq (hwlen.trans hlen.symm), fun k => ?_⟩
  rcases Nat.lt_or_ge k (containerBytes t.origLen.toNat t.pad.toNat tree payload).length with hk | hk
  · rw [held.getZero hk, hblob.getZero hk]
  · rw [containerBytes_length] at hk
    rw [hsame k hk, htblob]

/-- Settles O49: both commands are about the same artifact, the one that the state holds and the one that the bytes are the
container of. -/
theorem containerRoundTrip : Obligations.ContainerRoundTrip := by
  refine ⟨fun s t u hL _ hs hleg hw hexec herr hcfg huerr hlen hsame => ?_, fun u v bytes hL huerr hb hexec herr => ?_⟩
  · obtain ⟨tree, payload, hin, hl, hpk, ha⟩ := exists_artifact hs hleg hw (serialize_checks_passed hexec herr).2
    obtain ⟨htcfg, hb⟩ := exec_serialize_unfaulted hL hin hl hpk hexec herr
    have hucfg : u.cfg = s.cfg := hcfg.trans htcfg
    obtain ⟨v, hv, hframe, horig, ⟨hvl, hvpk, hvpad, -⟩, hserial, hnumbered⟩ :=
      exec_parse_accepted (by rw [hucfg]; exact hL) (hb.congr hcfg hlen hsame) (by rw [hucfg]; exact ha)
    refine ⟨v, hv, by rw [hframe]; exact huerr, BitVec.eq_of_toNat_eq (hvl.trans hl.symm), BitVec.eq_of_toNat_eq hvpad,
      BitVec.eq_of_toNat_eq horig, fun k hk => ?_, ?_⟩
    · rw [hl] at hk
      rw [hvpk.getZero hk, hpk.getZero hk]
    · cases tree with
      | none => exact .inl ⟨hin.1, hserial.1⟩
      | some T =>
        obtain ⟨hroot, hcnt, ids, horder, hshape, hweights⟩ := hnumbered T rfl
        exact .inr ⟨T, ids, hin.1, hserial.1, hroot, hcnt, horder, hshape, hweights⟩
  · obtain ⟨orig, pad, tree, payload, rfl, -, hload⟩ := exec_parse_unfaulted hL hb hexec herr
    obtain ⟨w, hw, hwerr, hwlen, hwblob⟩ := serialize_of_artifactLoaded hL hb hload
    exact ⟨w, hw, hwerr.trans huerr, hwlen, hwblob⟩

end Sys2Proof.Machine

/-! # Proofs of the family 45_codec_engine.md -/

/-! ## NOP, CLEAR, PK_INIT, UP_INIT -/

namespace Sys2Proof.Machine

/-- Settles O20: each of the four rules is one write of registers, or none. -/
theorem nopClearAndInits : Obligations.NopClearAndInits := fun _ => ⟨rfl, rfl, rfl, rfl⟩

end Sys2Proof.Machine

/-! ## DECODE -/

namespace Sys2Proof.Machine

variable {s t : State} {bytes : List Byte} {pad : Nat} {B : BitString} {Q : NodeId × Nat → State → Prop} {E : Stop → State → Prop}

/-- Packed bytes that fit PK hold their unpacked string (43_bit_packer.md R178). -/
theorem State.holdsPacked.unpacks (h : s.holdsPacked bytes pad) (hL : s.cfg.Legal) (hfit : bytes.length ≤ s.cfg.pMax) :
    Unpacks s (unpackBits bytes pad) := by
  obtain ⟨hlen, held, hpad, -⟩ := h
  obtain ⟨-, -, ⟨-, hmax⟩, -⟩ := hL
  exact ⟨bytes, pad, hlen, held, hpad, rfl, by omega⟩

/-- An unpacker at position `n` stands at byte `n / 8`, bit `n % 8` (10_state.md R40, R41). -/
theorem unpacker_of_upPos {n : Nat} (h : s.upPos = n) :
    s.upByte = BitVec.ofNat 32 (n / 8) ∧ s.upBit = BitVec.ofNat 3 (n % 8) := by
  unfold State.upPos at h
  have hbyte := s.upByte.isLt
  have hbit := s.upBit.isLt
  constructor <;> apply BitVec.eq_of_toNat_eq <;> rw [BitVec.toNat_ofNat] <;> omega

/-- Where no bit is left to come, the unpacker stands at the end of the string. -/
theorem Decoded.unpacker_end {syms : List Symbol} (h : Decoded s t B syms []) :
    t.upByte = BitVec.ofNat 32 (B.length / 8) ∧ t.upBit = BitVec.ofNat 3 (B.length % 8) :=
  unpacker_of_upPos h.length

/-- DECODE without bits and without a length looks at no node (R214). -/
theorem decodeText_nothing (hl : s.pkLen = 0#32) (ho : s.origLen = 0#32) :
    Cmd.wp decodeText (fun _ u => u = s.decoding) (fun _ _ => False) s := by
  have hB : Unpacks s [] := ⟨[], s.pad.toNat, by rw [hl]; rfl, Memory.holds_nil _ _, rfl, List.take_nil.symm, by decide⟩
  refine (wp_decodeText hB).mpr (decode_end (s := s.decoding) hB (decoding_start []) ?_)
  have horig : s.decoding.origLen.toNat = 0 := by
    show s.origLen.toNat = 0
    rw [ho]
    rfl
  simp only [decodeDone, Cmd.wp_bind, Cmd.wp_csr, Cmd.wp_raiseIf, Cmd.wp_update, horig]
  exact ⟨fun h => h rfl, fun _ => ⟨nofun, fun _ => ⟨nofun, fun _ => rfl⟩⟩⟩

/-- Settles O41: the walk ends with the symbols written and no bit left; without bits it ends before its first turn. -/
theorem decodeWritesTheText : Obligations.DecodeWritesTheText := by
  refine ⟨fun s T ps bytes pad hL hT hpk hfit hps hbits horig hn => ?_, fun s hl ho => ?_⟩
  · obtain ⟨t, ht, u, hu, rfl⟩ :=
      exec_of_wp (i := .decode) (decodeText_ok (hpk.unpacks hL hfit) hT hps hbits horig hn)
    obtain ⟨hbyte, hbit⟩ := hu.unpacker_end
    rw [unpackBits_length] at hbyte hbit
    have hframe : u = { s with text := u.text, textLen := 0#32, upByte := u.upByte, upBit := u.upBit } := hu.frame
    rw [hbyte, hbit] at hframe
    refine ⟨_, ht, congrArg (fun v : State => { v with textLen := s.origLen }) hframe, hu.text, ?_⟩
    have hsame := hu.same
    rwa [show (spelled ps).1.length = ps.length from List.length_map _] at hsame
  · rw [exec_eq_runCommand]
    exact runCommand_eq (decodeText_nothing hl ho)

/-- DECODE that stops leaves TEXT_LEN 0, and only TEXT and the unpacker have changed beside (R214). -/
theorem exec_decode_stopped {code : FaultCode} {info : Nat}
    (hstop : Cmd.wp decodeText (fun _ _ => False) (fun e t => e = .raise code info ∧ TextOnly s.decoding t) s) :
    ∃ t, exec .decode s = .next t ∧
      t = State.faulted { s with text := t.text, textLen := 0#32, upByte := t.upByte, upBit := t.upBit } code.number.toNat info
        (encodeInstr .decode) := by
  obtain ⟨u, hu, hframe⟩ := exec_faulted_of_wp (i := .decode) hstop
  exact ⟨_, hu, congrArg (·.faulted code.number.toNat info (encodeInstr .decode)) hframe⟩

/-- A bit to come and no tree: DECODE stops after the first bit is taken (R214). -/
theorem decodeText_treeless (hB : Unpacks s B) (hpos : 0 < B.length) (hroot : s.root = 0#24) :
    Cmd.wp decodeText (fun _ _ => False) (fun e u => e = .raise .empty 0 ∧ u = s.decoding.upNext) s := by
  rw [wp_decodeText hB, decodeLoop, Cmd.wp_bind]
  obtain ⟨bytes, pad, hlen, held, hpad, rfl, -⟩ := hB
  rw [upPop_bit (s := s.decoding) hlen held hpad (List.getElem?_eq_getElem hpos)]
  show Cmd.wp (decodeBit _ _ _ >>= _) _ _ _
  have hroot' : s.decoding.upNext.root = 0#24 := (State.upNext_root _).trans hroot
  rw [Cmd.wp_bind, decodeBit, Cmd.wp_bind, Cmd.wp_csr, Cmd.wp_bind, Cmd.wp_raiseIf]
  exact ⟨fun _ => ⟨rfl, rfl⟩, fun h => absurd hroot' h⟩

/-- Settles O42: each way is one in which the walk stops after the codes it could read. -/
theorem decodeFaults : Obligations.DecodeFaults := by
  intro s bytes pad hL hpk hfit
  have hB := hpk.unpacks hL hfit
  refine ⟨fun T ps more hT hps hbits code info hcase => ?_, fun hroot hpos => ?_⟩
  · have stopped {fc : FaultCode} {info : Nat}
        (h : DecodeStops s T ps.length more (unpackBits bytes pad).length fc info) :=
      exec_decode_stopped (decodeText_stop hB hT hps hbits h)
    rw [unpackBits_length] at stopped
    rcases hcase with ⟨hn, hne, ⟨q, hq, hpre, hneq⟩, rfl, rfl⟩ | ⟨hn, hnil, hlt, rfl, rfl⟩ | ⟨hn, hnil, hlt, rfl, rfl⟩ |
      ⟨hn, ⟨x, hx⟩, ⟨rest, hrest⟩, rfl, rfl⟩ | ⟨hfull, rfl, rfl⟩
    · exact stopped (.inside q hn hne hq hpre hneq)
    · exact stopped (.few hn hnil hlt)
    · exact stopped (.many hn hnil hlt)
    · exact stopped (.bare x rest hn hx hrest)
    · exact stopped (.full hfull)
  · exact exec_eq_faulted (i := .decode) (code := .empty)
      (decodeText_treeless hB (by rw [unpackBits_length]; exact hpos) hroot)

end Sys2Proof.Machine

/-! ## Commands in turn, and as the stages of another -/

namespace Sys2Proof.Machine

variable {s t u : State} {i : Instr} {is : List Instr} {w : Word}

/-- In the fault state every command to come is discarded (60_exceptions.md R233). -/
theorem inTurn_of_err (h : s.err ≠ 0#8) (is : List Instr) : inTurn is s = .next s := by
  cases is with
  | nil => rfl
  | cons i is => exact if_pos h

/-- The first command in turn runs, then the others from its next state. -/
theorem inTurn_cons (h : s.err = 0#8) (hexec : exec i s = .next t) : inTurn (i :: is) s = inTurn is t := by
  rw [inTurn, if_neg (not_not.mpr h), hexec]

/-- The first command in turn that ends with a fault is the last that runs. -/
theorem inTurn_cons_faulted (h : s.err = 0#8) (hexec : exec i s = .next t) (herr : t.err ≠ 0#8) :
    inTurn (i :: is) s = .next t := by
  rw [inTurn_cons h hexec, inTurn_of_err herr]

theorem inTurn_append {is' : List Instr} (h : inTurn is s = .next t) : inTurn (is ++ is') s = inTurn is' t := by
  induction is generalizing s with
  | nil => cases h; rfl
  | cons i is ih =>
    by_cases herr : s.err = 0#8
    · rw [List.cons_append, inTurn, if_neg (not_not.mpr herr)]
      rw [inTurn, if_neg (not_not.mpr herr)] at h
      cases hexec : exec i s with
      | next v => rw [hexec] at h; exact ih h
      | fault r => rw [hexec] at h; cases h
      | refused r => rw [hexec] at h; cases h
    · rw [inTurn_of_err herr] at h
      cases h
      rw [inTurn_of_err herr, inTurn_of_err herr]

/-- A fault recorded by a stage is recorded under the word of the command whose stage it is (45_codec_engine.md R212, R213). -/
def State.underWord (t : State) (w : Word) : State := if t.err = 0#8 then t else { t with errCmd := w }

/-- The end of a command's stages as the end of the command. -/
def recordedUnder (w : Word) : Host.Outcome State Fault Refusal → Host.Outcome State Fault Refusal
  | .next t => .next (t.underWord w)
  | o => o

/-- The rules of commands, one after the other. -/
def stages : List Instr → Cmd Unit
  | [] => pure ()
  | i :: is => do
    ruleOf i
    stages is

/-- A rule whose stages are commands ends where the commands in turn end, with a fault under its own word. -/
theorem runCommand_stages (hi : .clear ∉ is) (h : s.err = 0#8) :
    runCommand w (stages is) s = recordedUnder w (inTurn is s) := by
  induction is generalizing s with
  | nil => exact congrArg Host.Outcome.next (if_pos h).symm
  | cons i is ih =>
    have hne : .clear ≠ i := fun h => hi (h ▸ List.mem_cons_self)
    have his : .clear ∉ is := fun h => hi (List.mem_cons_of_mem _ h)
    have hkeep := ruleOf_sameFault hne.symm s s ⟨rfl, rfl, rfl⟩
    rw [inTurn, if_neg (not_not.mpr h), exec_eq_runCommand]
    cases hrun : ruleOf i s with
    | ok a v =>
      rw [Cmd.wp, hrun] at hkeep
      have hstages : stages (i :: is) s = stages is v := by
        show EStateM.bind _ _ _ = _
        simp only [EStateM.bind, hrun]
      rw [runCommand_ok hrun, runCommand, hstages]
      exact ih his (hkeep.1.trans h)
    | error e v =>
      have hstages : stages (i :: is) s = .error e v := by
        show EStateM.bind _ _ _ = _
        simp only [EStateM.bind, hrun]
      cases e with
      | raise code info =>
        have herr := takeFault_err_ne code info
        rw [runCommand_raise hrun, runCommand_raise hstages]
        simp only [inTurn_of_err (herr (encodeInstr i) v) is]
        rw [recordedUnder, State.underWord, if_neg (herr _ _)]
        rfl
      | stuck r => simp only [runCommand, hstages, hrun, recordedUnder]

/-- A rule with one stage is that stage's rule. -/
theorem stages_singleton (i : Instr) : stages [i] = ruleOf i := bind_pure_unit

/-- What COMPRESS leaves before its first stage (R212). -/
def State.compressing (s : State) : State := { s.workZero with blobLen := 0#32 }

/-- What DECOMPRESS leaves before its first stage (R213). -/
def State.decompressing (s : State) : State := { s.workZero with textLen := 0#32 }

/-- The stages of COMPRESS: SERIALIZE alone for the empty text (R212). -/
def compressStages (s : State) : List Instr :=
  if s.textLen = 0#32 then [.serialize] else [.freq, .build, .codegen, .encode, .serialize]

theorem clear_not_mem_compressStages (s : State) : .clear ∉ compressStages s := by
  unfold compressStages
  split <;> decide

theorem compressRule_eq_stages (hn : s.textLen.toNat ≤ s.cfg.nMax) :
    compressRule s = stages (compressStages s) s.compressing := by
  have hbody : stages (compressStages s) =
      (if s.textLen.toNat = 0 then serialize else do freq; build; codeGen; encodeText; serialize) := by
    have hzero : s.textLen = 0#32 ↔ s.textLen.toNat = 0 := BitVec.toNat_inj.symm
    rw [compressStages]
    by_cases h0 : s.textLen = 0#32
    · rw [if_pos h0, if_pos (hzero.mp h0), stages_singleton, ruleOf]
    · rw [if_neg h0, if_neg (mt hzero.mpr h0)]
      simp only [stages, bind_pure_unit, ruleOf]
  have hcheck : Cmd.raiseIf (s.cfg.nMax < s.textLen.toNat) .capacity 1 = pure () := if_neg (Nat.not_lt.mpr hn)
  show (Cmd.raiseIf (s.cfg.nMax < s.textLen.toNat) .capacity 1 >>= fun _ => _) s.compressing = _
  rw [hcheck, pure_bind, hbody]
  rfl

/-- COMPRESS of a text that is not too long is its stages in turn (R212). -/
theorem exec_compress_eq (herr : s.err = 0#8) (hn : s.textLen.toNat ≤ s.cfg.nMax) :
    exec .compress s = recordedUnder 0x60000000#32 (inTurn (compressStages s) s.compressing) := by
  rw [exec_eq_runCommand, runCommand, show ruleOf .compress s = _ from compressRule_eq_stages hn]
  exact runCommand_stages (clear_not_mem_compressStages s) herr

/-- COMPRESS of a text that is too long stops before its first stage (R212). -/
theorem exec_compress_tooLong (hn : s.cfg.nMax < s.textLen.toNat) :
    exec .compress s = .next (s.compressing.faulted 5 1 0x60000000#32) := by
  refine exec_eq_faulted (i := .compress) (code := .capacity) ?_
  rw [ruleOf, compressRule, Cmd.wp_bind, workClear, Cmd.wp_update, Cmd.wp_bind, Cmd.wp_update, Cmd.wp_bind, Cmd.wp_csr,
    Cmd.wp_bind, Cmd.wp_csr, Cmd.wp_bind, Cmd.wp_raiseIf]
  exact ⟨fun _ => ⟨rfl, rfl⟩, fun h => absurd hn h⟩

/-- DECOMPRESS is its two stages in turn (R213). -/
theorem exec_decompress_eq (herr : s.err = 0#8) :
    exec .decompress s = recordedUnder 0x61000000#32 (inTurn [.parse, .decode] s.decompressing) := by
  have hrule : decompressRule s = stages [.parse, .decode] s.decompressing := by
    simp only [stages, bind_pure_unit]
    rfl
  rw [exec_eq_runCommand, runCommand, show ruleOf .decompress s = _ from hrule]
  exact runCommand_stages (by decide) herr

theorem exec_decompress_of_inTurn (herr : s.err = 0#8) (h : inTurn [.parse, .decode] s.decompressing = .next t) :
    exec .decompress s = .next (t.underWord 0x61000000#32) := by
  rw [exec_decompress_eq herr, h, recordedUnder]

theorem exec_compress_of_inTurn (herr : s.err = 0#8) (hn : s.textLen.toNat ≤ s.cfg.nMax)
    (h : inTurn (compressStages s) s.compressing = .next t) : exec .compress s = .next (t.underWord 0x60000000#32) := by
  rw [exec_compress_eq herr hn, h, recordedUnder]

/-- Settles O50: COMPRESS is its stages, and a fault of a stage is recorded under the word of COMPRESS. -/
theorem compressRunsTheStages : Obligations.CompressRunsTheStages := by
  refine fun s herr => ⟨exec_compress_tooLong, fun is his t ht => ?_⟩
  have hstages : is = compressStages s ∧ s.textLen.toNat ≤ s.cfg.nMax := by
    rcases his with ⟨h0, rfl⟩ | ⟨h0, hn, rfl⟩
    · exact ⟨(if_pos h0).symm, by rw [h0]; exact Nat.zero_le _⟩
    · exact ⟨(if_neg h0).symm, hn⟩
  obtain ⟨rfl, hn⟩ := hstages
  exact exec_compress_of_inTurn herr hn ht

/-- Settles O52: DECOMPRESS is its two stages, and a fault of a stage is recorded under the word of DECOMPRESS. -/
theorem decompressRunsTheStages : Obligations.DecompressRunsTheStages := fun _ _ herr => exec_decompress_of_inTurn herr

end Sys2Proof.Machine

/-! ## DECOMPRESS of a container -/

namespace Sys2Proof.Machine

variable {s t : State} {T : Tree} {ps : List (Symbol × BitString)}

theorem State.underWord_of_ok {w : Word} (h : t.err = 0#8) : t.underWord w = t := if_pos h

theorem State.underWord_of_err {w : Word} (h : t.err ≠ 0#8) : t.underWord w = { t with errCmd := w } := if_neg h

/-- What codes spell is made of leaves of their tree. -/
theorem mem_leaves_of_spelled (hps : ∀ p ∈ ps, p ∈ T.codes) : ∀ x ∈ (spelled ps).1, x ∈ T.leaves := by
  intro x hx
  obtain ⟨p, hp, rfl⟩ := List.mem_map.mp hx
  rw [← Tree.codes_fst]
  exact List.mem_map_of_mem (hps p hp)

theorem spelled_fst_length (ps : List (Symbol × BitString)) : (spelled ps).1.length = ps.length := List.length_map _

/-- Settles O53: PARSE loads the container, and DECODE walks its payload over its tree. -/
theorem decompressRecoversTheText : Obligations.DecompressRecoversTheText := by
  refine ⟨fun s T ps payload pad hL herr hb hp hpp hpm hk hleg hps hbits hn => ?_, fun s hL herr hb => ?_⟩
  · have ⟨_, ⟨_, hn28⟩, _⟩ := hL
    obtain ⟨t, ht, hload, hlive, hpacked, -⟩ :=
      parseLoadsTheContainer.1 s.decompressing T payload ps.length pad hL hb (by omega) hp hpp hpm hk hleg
    have hcfg : t.cfg = s.cfg := by rw [hload]; rfl
    have hterr : t.err = 0#8 := by rw [hload]; exact herr
    have horig : t.origLen = BitVec.ofNat 32 ps.length := by rw [hload]
    have hlen : (BitVec.ofNat 32 ps.length).toNat = ps.length := (BitVec.toNat_ofNat ..).trans (Nat.mod_eq_of_lt (by omega))
    obtain ⟨v, hv, hdec, htext, -⟩ := decodeWritesTheText.1 t T ps payload pad (hcfg ▸ hL) hlive hpacked (hcfg ▸ hpm) hps hbits
      (by rw [horig, hlen]) (hcfg ▸ hn)
    have hnode : v.node = t.node := by rw [hdec]
    have hpk : v.pk = t.pk := by rw [hdec]
    have hroot : v.root = t.root := by rw [hdec]
    have hvcfg : v.cfg = s.cfg := by rw [hdec]; exact hcfg
    have hverr : v.err = 0#8 := by rw [hdec]; exact hterr
    have hvlen : v.textLen = BitVec.ofNat 32 ps.length := by rw [hdec]; exact horig
    have hframe : v = { t with text := v.text, textLen := v.textLen, upByte := v.upByte, upBit := v.upBit } := by rw [hdec]
    refine ⟨v, ?_, ?_, ⟨?_, ?_, htext, fun x hx => hleg x (mem_leaves_of_spelled hps x hx)⟩, by rw [hroot]; exact hlive.1, ?_⟩
    · rw [exec_decompress_of_inTurn herr ((inTurn_cons (s := s.decompressing) herr ht).trans (inTurn_cons hterr hv)), State.underWord_of_ok hverr]
    · rw [hnode, hpk, ← hvlen]
      exact hframe.trans (congrArg (fun r : State => { r with text := v.text, textLen := v.textLen, upByte := v.upByte,
                                                              upBit := v.upBit }) (hvlen ▸ hload))
    · rw [hvlen, hlen, spelled_fst_length]
    · rw [hvcfg, spelled_fst_length]
      exact hn
    · rw [hnode, hroot]
      exact hlive.2
  · have ht := parseLoadsTheContainer.2 s.decompressing hL hb
    have hv := decodeWritesTheText.2 s.decompressing.artifactZero rfl rfl
    rw [exec_decompress_of_inTurn herr ((inTurn_cons (s := s.decompressing) herr ht).trans (inTurn_cons herr hv))]
    exact congrArg Host.Outcome.next (State.underWord_of_ok herr)

end Sys2Proof.Machine

/-! ## COMPRESS of a legal text -/

namespace Sys2Proof.Machine

variable {s t : State} {T : Tree} {txt : List Symbol} {ps : List (Symbol × BitString)} {bs : BitString}

/-! ### The text in codes -/

/-- A leaf's symbol has its code in the tree's code table (42_code_table.md R150, R151). -/
theorem exists_codeIn {x : Symbol} (hk : T.leaves.length < 2 ^ 24) (hx : x ∈ T.leaves) :
    ∃ c, (x, c) ∈ T.codes ∧ codeIn (codeTable T) x = some c := by
  obtain ⟨e, he, hsym⟩ := mem_codeTable hx
  cases hfind : (codeTable T).find? fun e => decide (e.sym = x) with
  | none => exact absurd (decide_eq_true hsym) (List.find?_eq_none.mp hfind e he)
  | some f =>
    have hmem := List.mem_of_find?_eq_some hfind
    have hdec : decide (f.sym = x) = true := List.find?_some (p := fun e : CtEntry => decide (e.sym = x)) hfind
    have hf : f.sym = x := of_decide_eq_true hdec
    have hcode := (fields_of_mem_codeTable hmem).1
    have hlen := (codeTable_len (c := ⟨T.leaves.length, 0, 0, 0⟩) hk (Nat.le_refl _) hmem).2.2
    rw [hf] at hcode
    exact ⟨f.code, hcode, by rw [codeIn, hfind, Option.map_some, entryBits_eq_code hlen]⟩

/-- A text over a tree's leaves is spelled by codes of the tree, whose bits are the text's. -/
theorem exists_spelling (hk : T.leaves.length < 2 ^ 24) (htxt : ∀ x ∈ txt, x ∈ T.leaves) :
    ∃ ps, (∀ p ∈ ps, p ∈ T.codes) ∧ (spelled ps).1 = txt ∧ textBits (codeTable T) txt = some (spelled ps).2 := by
  induction txt with
  | nil => exact ⟨[], nofun, rfl, rfl⟩
  | cons x txt ih =>
    obtain ⟨ps, hps, hsyms, hbits⟩ := ih fun y hy => htxt y (List.mem_cons_of_mem _ hy)
    obtain ⟨c, hc, hcode⟩ := exists_codeIn hk (htxt x List.mem_cons_self)
    refine ⟨(x, c) :: ps, List.forall_mem_cons.mpr ⟨hc, hps⟩, congrArg (x :: ·) hsyms, ?_⟩
    rw [textBits, hcode, hbits]
    rfl

/-- Every code has a bit at least (42_code_table.md R152). -/
theorem length_le_spelled (hps : ∀ p ∈ ps, p ∈ T.codes) : ps.length ≤ (spelled ps).2.length := by
  induction ps with
  | nil => exact Nat.zero_le _
  | cons p ps ih =>
    obtain ⟨hp, hps⟩ := List.forall_mem_cons.mp hps
    have hpos := Tree.code_pos hp
    have htail := ih hps
    rw [show (spelled (p :: ps)).2 = p.2 ++ (spelled ps).2 from List.flatMap_cons, List.length_append, List.length_cons]
    omega

theorem firstSeen_ne_nil (h : txt ≠ []) : firstSeen txt ≠ [] := by
  cases txt with
  | nil => exact absurd rfl h
  | cons x txt => exact List.cons_ne_nil _ _

/-! ### The stages before ENCODE -/

/-- The frequency table, the tree and the code table of a text are in FT, NODE and CT (R212). -/
structure State.Tabled (t : State) (txt : List Symbol) (T : Tree) : Prop where
  table : t.holdsTable (freqTable txt)
  live : t.liveTree T
  root : t.root.toNat = 2 * (firstSeen txt).length - 1
  nodes : t.nodeCnt.toNat = 2 * (firstSeen txt).length - 1
  codes : t.holdsCodes (codeTable T)

/-- FREQ, BUILD and CODEGEN inside COMPRESS: what they have changed, and the tables they leave (R212). -/
structure Coded (s t : State) (txt : List Symbol) (T : Tree) : Prop extends t.Tabled txt T where
  frame : t = { s.compressing with res := BitVec.ofNat 32 t.root.toNat, ftCnt := t.ftCnt, nodeCnt := t.nodeCnt, root := t.root,
                                   ctCnt := t.ctCnt, ft := t.ft, node := t.node, heap := t.heap, ct := t.ct }
  leaves : T.leaves.Perm (firstSeen txt)

theorem compress_coded (hL : s.cfg.Legal) (herr : s.err = 0#8) (htxt : s.holdsText txt) (hne : txt ≠ [])
    (hfit : (firstSeen txt).length ≤ s.cfg.kMax) :
    ∃ t T, inTurn [.freq, .build, .codegen] s.compressing = .next t ∧ Coded s t txt T := by
  have ⟨⟨_, hk, _⟩, ⟨_, hn28⟩, _⟩ := hL
  have hpos := List.length_pos_of_ne_nil (firstSeen_ne_nil hne)
  have hlen := freqTable_length txt
  obtain ⟨t1, ht1, hframe1, htab, -⟩ := freqCountsTheText s.compressing txt hL htxt hfit
  have hcfg1 : t1.cfg = s.cfg := by rw [hframe1]; rfl
  have herr1 : t1.err = 0#8 := by rw [hframe1]; exact herr
  obtain ⟨t2, T, -, ht2, hframe2, hlive, hleaves, -⟩ := buildMakesOneTree t1 (freqTable txt) (hcfg1 ▸ hL) htab
    (List.ne_nil_of_length_pos (hlen ▸ hpos)) (by rw [hlen, hcfg1]; exact hfit)
    (by rw [hcfg1, freqTable_sum (by have := htxt.2.1; omega)]; exact htxt.2.1)
  rw [freqTable_syms] at hleaves
  rw [hlen] at hframe2
  have hcfg2 : t2.cfg = s.cfg := by rw [hframe2]; exact hcfg1
  have herr2 : t2.err = 0#8 := by rw [hframe2]; exact herr1
  have hroot2 : t2.root.toNat = 2 * (firstSeen txt).length - 1 := by
    rw [hframe2]
    exact (BitVec.toNat_ofNat ..).trans (Nat.mod_eq_of_lt (by omega))
  have hnodes2 : t2.nodeCnt.toNat = 2 * (firstSeen txt).length - 1 := by
    rw [hframe2]
    exact (BitVec.toNat_ofNat ..).trans (Nat.mod_eq_of_lt (by omega))
  have hres2 : t2.res = BitVec.ofNat 32 t2.root.toNat := by rw [hroot2, hframe2]
  obtain ⟨t3, ht3, hframe3, hcodes, -⟩ := codegenListsTheCodes t2 T (hcfg2 ▸ hL) hlive
    (by rw [hcfg2, hleaves.length_eq]; exact hfit)
  have htab2 : t2.holdsTable (freqTable txt) := by rw [hframe2]; exact htab
  have hframe2' : t2 = { s.compressing with
      res := t2.res, ftCnt := t2.ftCnt, nodeCnt := t2.nodeCnt, root := t2.root, ft := t2.ft, node := t2.node,
      heap := t2.heap } := by
    generalize t2.node = node, t2.heap = heap at hframe2
    generalize t1.ft = ft, t1.ftCnt = ftCnt at hframe1
    rw [hframe2, hframe1]
    rfl
  refine ⟨t3, T, ?_, ⟨?_, ?_, ?_, ?_, hcodes⟩, ?_, hleaves⟩
  · have herr0 : s.compressing.err = 0#8 := herr
    rw [inTurn_cons herr0 ht1, inTurn_cons herr1 ht2, inTurn_cons herr2 ht3, inTurn]
  · rw [hframe3]; exact htab2
  · rw [hframe3]; exact hlive
  · rw [hframe3]; exact hroot2
  · rw [hframe3]; exact hnodes2
  · generalize t3.ct = ct, t3.ctCnt = ctCnt at hframe3
    rw [hframe3, ← hres2]
    exact congrArg (fun r : State => { r with ct := ct, ctCnt := ctCnt }) hframe2'

theorem Coded.cfg (h : Coded s t txt T) : t.cfg = s.cfg := by rw [h.frame]; rfl
theorem Coded.err (h : Coded s t txt T) : t.err = s.err := by rw [h.frame]; rfl
theorem Coded.text (h : Coded s t txt T) : t.text = s.text := by rw [h.frame]; rfl
theorem Coded.textLen (h : Coded s t txt T) : t.textLen = s.textLen := by rw [h.frame]; rfl
theorem Coded.blobLen (h : Coded s t txt T) : t.blobLen = 0#32 := by rw [h.frame]; rfl

end Sys2Proof.Machine

/-! ## COMPRESS makes the container of its text -/

namespace Sys2Proof.Machine

variable {s t u : State} {T : Tree} {txt : List Symbol} {bs : BitString} {w : Word}

/-- ENCODE and SERIALIZE write the packer, BLOB and the fault registers, and nothing else. -/
def State.packsOnly (t u : State) : Prop :=
  u = { t with err := u.err, errInfo := u.errInfo, errCmd := u.errCmd, origLen := u.origLen, pkLen := u.pkLen, pad := u.pad,
               stgBits := u.stgBits, stgCnt := u.stgCnt, pk := u.pk, blob := u.blob, blobLen := u.blobLen }

theorem State.packsOnly.underWord (h : t.packsOnly u) (w : Word) : t.packsOnly (u.underWord w) := by
  by_cases herr : u.err = 0#8
  · rw [State.underWord_of_ok herr]
    exact h
  · rw [State.underWord_of_err herr]
    exact congrArg (fun r : State => { r with errCmd := w }) h

theorem State.packsOnly.text (h : t.packsOnly u) : u.text = t.text := by rw [h]
theorem State.packsOnly.textLen (h : t.packsOnly u) : u.textLen = t.textLen := by rw [h]

theorem State.packsOnly.tabled (h : t.packsOnly u) (htab : t.Tabled txt T) : u.Tabled txt T := by
  obtain ⟨htable, hlive, hroot, hnodes, hcodes⟩ := htab
  rw [h]
  exact ⟨htable, hlive, hroot, hnodes, hcodes⟩

/-- A fault of these fields, with BLOB_LEN 0. -/
def State.refusedWith (u : State) (code : BitVec 8) (info : Word) : Prop :=
  u.err = code ∧ u.errInfo = info ∧ u.blobLen = 0#32

theorem State.refusedWith.underWord {code : BitVec 8} {info : Word} (h : u.refusedWith code info) (hcode : code ≠ 0#8) (w : Word) :
    (u.underWord w).err = code ∧ (u.underWord w).errInfo = info ∧ (u.underWord w).errCmd = w ∧
      (u.underWord w).blobLen = 0#32 := by
  obtain ⟨herr, hinfo, hlen⟩ := h
  rw [State.underWord_of_err (herr ▸ hcode)]
  exact ⟨herr, hinfo, rfl, hlen⟩

theorem packed_length (bs : BitString) : (packBytes (padded bs)).length = (bs.length + 7) / 8 := by
  rw [packBytes_length, padded_length]
  omega

/-- The bytes of the container of a text whose tree has `k` leaves and whose codes have `n` bits (44_container.md R192). -/
def containerSize (k n : Nat) : Nat := 17 + (5 * k - 1) + (n + 7) / 8

/-- The container is complete: what has changed since the packing began, and what PK and BLOB hold (R212). -/
structure State.Contained (t u : State) (T : Tree) (bs : BitString) : Prop where
  frame : u = { t with origLen := t.textLen, pkLen := u.pkLen, pad := u.pad, stgBits := 0#8, stgCnt := 0#3, pk := u.pk,
                       blob := u.blob, blobLen := u.blobLen }
  packed : u.holdsPacked (packBytes (padded bs)) (padCount bs.length)
  blob : u.holdsBlob (containerBytes t.textLen.toNat (padCount bs.length) (some T) (packBytes (padded bs)))
  size : u.blobLen.toNat = containerSize T.leaves.length bs.length

theorem State.Contained.err (h : t.Contained u T bs) : u.err = t.err := by rw [h.frame]

/-- The last two stages of COMPRESS, with their three ends (R212). -/
theorem encode_serialize (hL : t.cfg.Legal) (herr : t.err = 0#8) (htab : t.Tabled txt T) (hk : T.leaves.length ≤ t.cfg.kMax)
    (htxt : t.holdsText txt) (hbs : textBits (codeTable T) txt = some bs) (hblob : t.blobLen = 0#32) :
    ∃ u, inTurn [.encode, .serialize] t = .next u ∧ t.packsOnly u ∧
      (t.cfg.pMax < (bs.length + 7) / 8 → u.refusedWith 5#8 7#32) ∧
      ((bs.length + 7) / 8 ≤ t.cfg.pMax → t.cfg.bMax < containerSize T.leaves.length bs.length → u.refusedWith 5#8 2#32) ∧
      ((bs.length + 7) / 8 ≤ t.cfg.pMax → containerSize T.leaves.length bs.length ≤ t.cfg.bMax → t.Contained u T bs) := by
  obtain ⟨htlen, htn, hheld, -⟩ := htxt
  by_cases hp : (bs.length + 7) / 8 ≤ t.cfg.pMax
  case neg =>
    obtain ⟨u, hu, hframe, -⟩ := encodeFaults.2.2 t (codeTable T) txt bs hL htab.codes htlen.ge (htlen ▸ htn) hheld hbs
      (.inr ⟨htlen.symm, by omega⟩)
    have huerr : u.err = 5#8 := by rw [hframe]; rfl
    have huinfo : u.errInfo = 7#32 := by rw [hframe]; rfl
    have hublob : u.blobLen = 0#32 := by rw [hframe]; exact hblob
    refine ⟨u, inTurn_cons_faulted herr hu (huerr ▸ by decide), ?_, fun _ => ⟨huerr, huinfo, hublob⟩, fun h => absurd h hp,
      fun h => absurd h hp⟩
    rw [State.packsOnly, hframe]
    rfl
  case pos =>
    obtain ⟨v, hv, hframe, hpacked, -⟩ := encodePacksTheCodes t (codeTable T) txt bs hL htab.codes htlen htn hheld hbs hp
    have hvcfg : v.cfg = t.cfg := by rw [hframe]
    have hverr : v.err = 0#8 := by rw [hframe]; exact herr
    have hvlive : v.liveTree T := by rw [hframe]; exact htab.live
    have hvstg : v.stgCnt = 0#3 := by rw [hframe]
    have hvorig : v.origLen = t.textLen := by rw [hframe]
    have hsize : 17 + T.snapshot.length + (packBytes (padded bs)).length = containerSize T.leaves.length bs.length := by
      rw [snapshot_length, packed_length, containerSize]
    have hlt := Nat.not_lt.mpr hp
    by_cases hb : containerSize T.leaves.length bs.length ≤ t.cfg.bMax
    case neg =>
      obtain ⟨u, hu, huframe, -⟩ := serializeFaults.2.2 v T _ _ (hvcfg ▸ hL) hvstg hvlive (hvcfg ▸ hk) hpacked
        (by rw [hsize, hvcfg]; exact Nat.not_le.mp hb)
      have huerr : u.err = 5#8 := by rw [huframe]; rfl
      have huinfo : u.errInfo = 2#32 := by rw [huframe]; rfl
      have hublob : u.blobLen = 0#32 := by rw [huframe]; rfl
      refine ⟨u, (inTurn_cons herr hv).trans (inTurn_cons hverr hu), ?_, fun h => absurd h hlt,
        fun _ _ => ⟨huerr, huinfo, hublob⟩, fun _ h => absurd h hb⟩
      rw [State.packsOnly, huframe, hframe]
      rfl
    case pos =>
      obtain ⟨u, hu, huframe, hublob, -⟩ := serializeWritesTheContainer.1 v T _ _ (hvcfg ▸ hL) hvstg hvlive (hvcfg ▸ hk) hpacked
        (by rw [hsize, hvcfg]; exact hb)
      rw [hsize] at huframe
      have ⟨_, _, _, _, hbMax⟩ := hL
      have hulen : u.blobLen.toNat = containerSize T.leaves.length bs.length := by
        rw [huframe]
        exact (BitVec.toNat_ofNat ..).trans (Nat.mod_eq_of_lt (by omega))
      have hupacked : u.holdsPacked (packBytes (padded bs)) (padCount bs.length) := by rw [huframe]; exact hpacked
      have hcontained : u = { t with origLen := t.textLen, pkLen := u.pkLen, pad := u.pad, stgBits := 0#8, stgCnt := 0#3,
                                     pk := u.pk, blob := u.blob, blobLen := u.blobLen } := by
        rw [huframe, hframe]
      refine ⟨u, (inTurn_cons herr hv).trans (inTurn_cons hverr hu), ?_, fun h => absurd h hlt, fun _ h => absurd hb (by omega),
        fun _ _ => ⟨hcontained, hupacked, hvorig ▸ hublob, hulen⟩⟩
      rw [State.packsOnly, hcontained]

/-- Settles O51: FREQ, BUILD and CODEGEN leave the tables; ENCODE and SERIALIZE make the container, or one of them refuses. -/
theorem compressMakesTheContainer : Obligations.CompressMakesTheContainer := by
  intro s txt hL herr htxt hne hfit
  obtain ⟨t, T, ht, hcoded⟩ := compress_coded hL herr htxt hne hfit
  have hk : T.leaves.length = (firstSeen txt).length := hcoded.leaves.length_eq
  have ⟨⟨_, hkMax, _⟩, _⟩ := hL
  obtain ⟨ps, hps, hsyms, hbs⟩ := exists_spelling (T := T) (txt := txt) (by omega)
    fun x hx => hcoded.leaves.mem_iff.mpr (mem_firstSeen.mpr hx)
  have hlen : txt.length ≤ (spelled ps).2.length := by
    rw [← hsyms, spelled_fst_length]
    exact length_le_spelled hps
  have httxt : t.holdsText txt := by
    rw [State.holdsText, hcoded.cfg, hcoded.text, hcoded.textLen]
    exact htxt
  have hcfg := hcoded.cfg
  obtain ⟨u, hu, hpacking, hpk, hblob, hdone⟩ := encode_serialize (hcfg ▸ hL) (hcoded.err.trans herr) hcoded.toTabled
    (by rw [hk, hcfg]; exact hfit) httxt hbs hcoded.blobLen
  rw [hk, hcfg] at hblob hdone
  rw [hcfg] at hpk
  have hstages : compressStages s = [.freq, .build, .codegen] ++ [.encode, .serialize] :=
    if_neg fun h0 => hne (List.eq_nil_of_length_eq_zero (by rw [← htxt.1, h0]; rfl))
  have hexec := exec_compress_of_inTurn herr (htxt.1 ▸ htxt.2.1) (by rw [hstages, inTurn_append ht, hu])
  have hend := hpacking.underWord 0x60000000#32
  obtain ⟨htable, hlive, hroot, hnodes, hcodes⟩ := hend.tabled hcoded.toTabled
  refine ⟨u.underWord 0x60000000#32, T, (spelled ps).2, hexec, hcoded.leaves, hbs, hlen, hend.text.trans hcoded.text,
    hend.textLen.trans hcoded.textLen, htable, hlive, hroot, hnodes, hcodes, fun h => (hpk h).underWord (by decide) _,
    fun h h' => (hblob h h').underWord (by decide) _, fun h h' => ?_⟩
  have hc := hdone h h'
  have hroot : u.root = t.root := by rw [hpacking]
  rw [State.underWord_of_ok (hc.err.trans (hcoded.err.trans herr))]
  refine ⟨?_, hc.packed, ?_, hc.size.trans (by rw [hk, containerSize])⟩
  · have hframe := hc.frame
    have hcodedFrame := hcoded.frame
    generalize u.pkLen = pkLen, u.pad = pad, u.pk = pk, u.blob = blob, u.blobLen = blobLen at hframe ⊢
    subst hframe
    generalize t.ftCnt = ftCnt, t.nodeCnt = nodeCnt, t.root = root, t.ctCnt = ctCnt, t.ft = ft, t.node = node, t.heap = heap,
      t.ct = ct at hcodedFrame ⊢
    subst hcodedFrame
    rfl
  · rw [← htxt.1, ← hcoded.textLen]
    exact hc.blob

end Sys2Proof.Machine

/-! ## The round trip -/

namespace Sys2Proof.Machine

variable {s t u v : State} {T : Tree} {txt : List Symbol} {bs : BitString} {ps : List (Symbol × BitString)}

theorem padCount_eq_zero_of_packed_nil (h : packBytes (padded bs) = []) : padCount bs.length = 0 := by
  have hlen := packed_length bs
  rw [h, List.length_nil] at hlen
  rw [padCount]
  omega

theorem textLen_eq_zero (h : s.holdsText []) : s.textLen = 0#32 := BitVec.toNat_inj.mp h.1

/-- COMPRESS of the empty text is the container of the header alone (R212). -/
theorem compress_nothing (hL : s.cfg.Legal) (herr : s.err = 0#8) (htxt : s.holdsText []) :
    ∃ t, exec .compress s = .next t ∧ t.cfg = s.cfg ∧ t.err = 0#8 ∧ t.holdsBlob (containerBytes 0 0 none []) := by
  obtain ⟨t, ht, hframe, hblob, -⟩ := serializeWritesTheContainer.2 s.compressing hL rfl rfl rfl rfl rfl
  have hterr : t.err = 0#8 := by rw [hframe]; exact herr
  refine ⟨t, ?_, by rw [hframe]; rfl, hterr, hblob⟩
  have hstages : compressStages s = [.serialize] := if_pos (textLen_eq_zero htxt)
  rw [exec_compress_of_inTurn herr (htxt.1 ▸ htxt.2.1)
    (by rw [hstages]; exact inTurn_cons (s := s.compressing) herr ht), State.underWord_of_ok hterr]

/-- Settles O54: the bits of the text in the container are spelled by codes of its tree. -/
theorem decompressAfterCompressIsTheText : Obligations.DecompressAfterCompressIsTheText := by
  intro s txt hL herr htxt hfit
  by_cases hne : txt = []
  · subst hne
    obtain ⟨t, ht, hcfg, -, hblob⟩ := compress_nothing hL herr htxt
    refine ⟨t, ht, fun _ u hucfg huerr hulen husame => ?_⟩
    have hublob := hblob.congr (hucfg.trans hcfg.symm) hulen husame
    exact ⟨_, decompressRecoversTheText.2 u (hucfg ▸ hL) huerr hublob, huerr, rfl, Nat.zero_le _, fun k hk => absurd hk k.not_lt_zero,
      nofun⟩
  · obtain ⟨t, T, bs, ht, hleaves, hbits, -, -, -, -, -, -, -, -, hpk, hbl, hdone⟩ :=
      compressMakesTheContainer s txt hL herr htxt hne hfit
    refine ⟨t, ht, fun hterr u hucfg huerr hulen husame => ?_⟩
    have hp : (bs.length + 7) / 8 ≤ s.cfg.pMax := by
      by_contra h
      have := (hpk (Nat.lt_of_not_le h)).1
      exact absurd (hterr.symm.trans this) (by decide)
    have hb : 17 + (5 * (firstSeen txt).length - 1) + (bs.length + 7) / 8 ≤ s.cfg.bMax := by
      by_contra h
      have := (hbl hp (Nat.lt_of_not_le h)).1
      exact absurd (hterr.symm.trans this) (by decide)
    obtain ⟨hframe, -, hblob, -⟩ := hdone hp hb
    have hcfg : t.cfg = s.cfg := by rw [hframe]
    have hmem : ∀ x, x ∈ T.leaves ↔ x ∈ txt := fun x => hleaves.mem_iff.trans mem_firstSeen
    have ⟨⟨_, hkMax, _⟩, _⟩ := hL
    have hk : T.leaves.length ≤ s.cfg.kMax := hleaves.length_eq ▸ hfit
    obtain ⟨ps, hps, hsyms, hspell⟩ := exists_spelling (T := T) (txt := txt) (by omega) fun x hx => (hmem x).mpr hx
    obtain rfl : bs = (spelled ps).2 := Option.some.inj (hbits.symm.trans hspell)
    have hlen : ps.length = txt.length := by rw [← spelled_fst_length, hsyms]
    obtain ⟨v, hv, hvframe, hvtext, -⟩ := decompressRecoversTheText.1 u T ps _ _ (hucfg ▸ hL) huerr
      (hlen ▸ hblob.congr (hucfg.trans hcfg.symm) hulen husame) (Nat.le_of_lt_succ (padCount_lt _)) padCount_eq_zero_of_packed_nil
      (by rw [hucfg, packed_length]; exact hp) (hucfg ▸ hk) (fun x hx => htxt.2.2.2 x ((hmem x).mp hx)) hps
      (unpackBits_packBytes _) (by rw [hlen, hucfg]; exact htxt.2.1)
    exact ⟨v, hv, by rw [hvframe]; exact huerr, hsyms ▸ hvtext⟩

end Sys2Proof.Machine

/-! ## Truncation -/

namespace Sys2Proof.Machine

variable {s t u v : State} {T : Tree} {bs : BitString} {ps : List (Symbol × BitString)} {payload : List Byte} {pad : Nat}

/-- A fault of PARSE ends DECOMPRESS with TEXT_LEN 0 (R213). -/
theorem exec_decompress_refused {code info : Nat} (herr : s.err = 0#8) (hcode : BitVec.ofNat 8 code ≠ 0#8)
    (h : exec .parse s.decompressing = .next (s.decompressing.artifactZero.faulted code info (encodeInstr .parse))) :
    exec .decompress s = .next (s.decompressing.artifactZero.faulted code info 0x61000000#32) := by
  rw [exec_decompress_of_inTurn herr (inTurn_cons_faulted (s := s.decompressing) herr h hcode), State.underWord_of_err hcode]
  rfl

theorem headerFault_short_snapshot {c : Config} {orig tlen plen len : Nat} (hpad : pad ≤ 7) (hlen : len < 17 + tlen) :
    headerFault c orig pad tlen plen len = some (1, 9) := by
  rw [headerFault, if_neg (Nat.not_lt.mpr hpad), if_pos hlen]

theorem headerFault_short_payload {c : Config} {orig tlen plen len : Nat} (hpad : pad ≤ 7) (hsnap : 17 + tlen ≤ len)
    (hlen : len < 17 + tlen + plen) : headerFault c orig pad tlen plen len = some (3, 13) := by
  rw [headerFault, if_neg (Nat.not_lt.mpr hpad), if_neg (Nat.not_lt.mpr hsnap), if_pos hlen]

/-- A container cut short is refused by PARSE (R218). -/
theorem decompress_cut {orig n : Nat} (hL : s.cfg.Legal) (herr : s.err = 0#8) (hk : T.leaves.length ≤ s.cfg.kMax)
    (ho : orig < 2 ^ 32) (hpad : pad ≤ 7) (hpm : payload.length ≤ s.cfg.pMax) (hn : n < 17 + T.snapshot.length + payload.length)
    (hb : s.holdsBlob ((containerBytes orig pad (some T) payload).take n)) :
    ∃ code info, exec .decompress s = .next (s.decompressing.artifactZero.faulted code info 0x61000000#32) ∧
      (17 + T.snapshot.length ≤ n → code = 3 ∧ info = 13) ∧ (17 ≤ n → n < 17 + T.snapshot.length → code = 1 ∧ info = 9) ∧
      (n < 17 → code = 1 ∧ info = n) := by
  have hsnap : snapshotOf (some T) = T.snapshot := rfl
  have hfield := parseFieldFaults s.decompressing hL
  by_cases h17 : n < 17
  · have hlen : s.blobLen.toNat = n := by
      rw [hb.1, List.length_take, containerBytes_length, hsnap]
      omega
    refine ⟨1, n, exec_decompress_refused herr (by decide) ?_, by omega, by omega, fun _ => ⟨rfl, rfl⟩⟩
    rw [← hlen] at h17 ⊢
    exact hfield.2.1 h17
  · have hcut : (containerBytes orig pad (some T) payload).take n =
        headerBytes orig pad T.snapshot.length payload.length ++ (T.snapshot ++ payload).take (n - 17) := by
      rw [containerBytes_header, List.take_append, headerBytes_length, hsnap,
        List.take_of_length_le (by rw [headerBytes_length]; omega)]
    have hmore : 17 + ((T.snapshot ++ payload).take (n - 17)).length = n := by
      rw [List.length_take, List.length_append]
      omega
    have ⟨⟨_, hkMax, _⟩, _, ⟨_, hpMax⟩, _⟩ := hL
    have htlen : T.snapshot.length < 2 ^ 32 := by
      rw [snapshot_length]
      omega
    have hparse := fun code info =>
      hfield.2.2.2 orig pad T.snapshot.length payload.length _ code info ho (by omega) htlen (by omega) (hcut ▸ hb)
    rw [hmore] at hparse
    by_cases hsnap : n < 17 + T.snapshot.length
    · exact ⟨1, 9, exec_decompress_refused herr (by decide) (hparse 1 9 (headerFault_short_snapshot hpad hsnap)), by omega,
        fun _ _ => ⟨rfl, rfl⟩, by omega⟩
    · exact ⟨3, 13, exec_decompress_refused herr (by decide)
        (hparse 3 13 (headerFault_short_payload hpad (Nat.not_lt.mp hsnap) hn)), fun _ => ⟨rfl, rfl⟩, by omega, by omega⟩

/-- A proper prefix of what codes spell is spelled by the first of them and a proper prefix of the next. -/
theorem exists_cut_code {n : Nat} (hn : n < (spelled ps).2.length) :
    ∃ qs p rest more, ps = qs ++ p :: rest ∧ (spelled ps).2.take n = (spelled qs).2 ++ more ∧ more <+: p.2 ∧ more ≠ p.2 := by
  induction ps generalizing n with
  | nil => exact absurd hn (Nat.not_lt_zero n)
  | cons p ps ih =>
    have hcons : (spelled (p :: ps)).2 = p.2 ++ (spelled ps).2 := List.flatMap_cons
    rw [hcons] at hn ⊢
    by_cases hp : n < p.2.length
    · refine ⟨[], p, ps, p.2.take n, rfl, by rw [List.take_append_of_le_length hp.le]; rfl, List.take_prefix n _, fun h => ?_⟩
      have := congrArg List.length h
      rw [List.length_take] at this
      omega
    · obtain ⟨qs, q, rest, more, rfl, htake, hpre, hmore⟩ := ih (n := n - p.2.length) (by rw [List.length_append] at hn; omega)
      refine ⟨p :: qs, q, rest, more, rfl, ?_, hpre, hmore⟩
      rw [List.take_append, List.take_of_length_le (Nat.not_lt.mp hp), htake, ← List.append_assoc]
      rfl

theorem flatMap_byteBits_take (bytes : List Byte) (n : Nat) :
    (bytes.take n).flatMap byteBits = (bytes.flatMap byteBits).take (8 * n) := by
  rcases Nat.le_total n bytes.length with hn | hn
  · conv_rhs => rw [← List.take_append_drop n bytes, List.flatMap_append]
    rw [List.take_left' (by rw [flatMap_byteBits_length, List.length_take_of_le hn])]
  · rw [List.take_of_length_le hn, List.take_of_length_le (by rw [flatMap_byteBits_length]; omega)]

/-- Without its last bytes a payload spells fewer bits (43_bit_packer.md R178). -/
theorem unpackBits_take {j : Nat} (hj : j ≤ (packBytes (padded bs)).length) :
    unpackBits ((packBytes (padded bs)).take ((packBytes (padded bs)).length - j)) (padCount bs.length) =
      bs.take (8 * ((packBytes (padded bs)).length - j) - padCount bs.length) := by
  have hl := padded_length bs
  have hp := packed_length bs
  have hpad := padCount_lt bs.length
  have hsum : bs.length + padCount bs.length = 8 * ((bs.length + 7) / 8) := by
    rw [padCount]
    omega
  rw [hp] at hj ⊢
  rw [unpackBits, flatMap_byteBits_take, flatMap_packBytes _ (by omega), List.take_take, List.length_take_of_le (by omega),
    Nat.min_eq_left (Nat.sub_le _ _), padded, List.take_append_of_le_length (by omega)]

/-- A payload without its last bytes ends inside a code, or with too few symbols (R218). -/
theorem decompress_shortened {short : List Byte} {n : Nat} (hL : s.cfg.Legal) (herr : s.err = 0#8) (hk : T.leaves.length ≤ s.cfg.kMax)
    (hleg : ∀ x ∈ T.leaves, x.toNat ≤ symMax) (hps : ∀ p ∈ ps, p ∈ T.codes) (hpn : ps.length ≤ s.cfg.nMax) (hpad : pad ≤ 7)
    (hnil : short = [] → pad = 0) (hpm : short.length ≤ s.cfg.pMax) (hn : n < (spelled ps).2.length)
    (hbits : unpackBits short pad = (spelled ps).2.take n) (hb : s.holdsBlob (containerBytes ps.length pad (some T) short)) :
    ∃ t, exec .decompress s = .next t ∧ t.textLen = 0#32 ∧ t.errCmd = 0x61000000#32 ∧ (t.err = 2#8 ∨ t.err = 3#8) := by
  have ⟨_, ⟨_, hnMax⟩, _⟩ := hL
  obtain ⟨t, ht, hload, hlive, hpacked, -⟩ :=
    parseLoadsTheContainer.1 s.decompressing T short ps.length pad hL hb (by omega) hpad hnil hpm hk hleg
  have hcfg : t.cfg = s.cfg := by rw [hload]; rfl
  have hn' : ps.length ≤ t.cfg.nMax := hcfg ▸ hpn
  have hterr : t.err = 0#8 := by rw [hload]; exact herr
  have horig : t.origLen.toNat = ps.length := by
    rw [hload]
    exact (BitVec.toNat_ofNat ..).trans (Nat.mod_eq_of_lt (by omega))
  obtain ⟨qs, p, rest, more, hsplit, htake, hpre, hmore⟩ := exists_cut_code hn
  have hlt : qs.length < ps.length := by
    rw [hsplit, List.length_append, List.length_cons]
    omega
  have hqs : ∀ q ∈ qs, q ∈ T.codes := fun q hq => hps q (hsplit ▸ List.mem_append_left _ hq)
  have hp : p ∈ T.codes := hps p (hsplit ▸ List.mem_append_right _ List.mem_cons_self)
  have hfaults := (decodeFaults t short pad (hcfg ▸ hL) hpacked (hcfg ▸ hpm)).1 T qs more hlive hqs (hbits.trans htake)
  have hend : ∃ code info v, (code = 2 ∨ code = 3) ∧ exec .decode t = .next v ∧
      v = State.faulted { t with text := v.text, textLen := 0#32, upByte := v.upByte, upBit := v.upBit } code info
        (encodeInstr .decode) := by
    by_cases hm : more = []
    · obtain ⟨v, hv⟩ := hfaults 3 qs.length (.inr (.inl ⟨by omega, hm, by omega, rfl, rfl⟩))
      exact ⟨3, _, v, .inr rfl, hv⟩
    · obtain ⟨v, hv⟩ := hfaults 2 _ (.inl ⟨by omega, hm, ⟨p, hp, hpre, hmore⟩, rfl, rfl⟩)
      exact ⟨2, _, v, .inl rfl, hv⟩
  obtain ⟨code, info, v, hcode, hv, hframe⟩ := hend
  have hverr : v.err = BitVec.ofNat 8 code := by rw [hframe]; rfl
  have hne : v.err ≠ 0#8 := by rw [hverr]; rcases hcode with rfl | rfl <;> decide
  refine ⟨v.underWord 0x61000000#32,
    exec_decompress_of_inTurn herr ((inTurn_cons (s := s.decompressing) herr ht).trans (inTurn_cons hterr hv)), ?_⟩
  rw [State.underWord_of_err hne]
  refine ⟨by rw [hframe]; rfl, rfl, ?_⟩
  rcases hcode with rfl | rfl
  · exact .inl hverr
  · exact .inr hverr

/-- Settles O55: the checks of PARSE refuse a container cut short, the walk of DECODE a payload cut short. -/
theorem truncationIsDetected : Obligations.TruncationIsDetected := by
  intro s T ps payload pad hL herr hk hleg hne hps hpn hpayload hpad hpm
  have hpad7 : pad ≤ 7 := hpad ▸ Nat.le_of_lt_succ (padCount_lt _)
  have ⟨_, ⟨_, hnMax⟩, _⟩ := hL
  refine ⟨fun n hn hb => ?_, fun j hj hjlen hb => ?_⟩
  · obtain ⟨code, info, hexec, hpay, hsnap, hfix⟩ := decompress_cut hL herr hk (by omega) hpad7 hpm hn hb
    refine ⟨_, hexec, rfl, rfl, fun h => ?_, fun h h' => ?_, fun h => ?_⟩
    · obtain ⟨rfl, rfl⟩ := hpay h
      exact ⟨rfl, rfl⟩
    · obtain ⟨rfl, rfl⟩ := hsnap h h'
      exact ⟨rfl, rfl⟩
    · obtain ⟨rfl, rfl⟩ := hfix h
      exact ⟨rfl, rfl⟩
  · by_cases hall : j = payload.length ∧ pad ≠ 0
    · obtain ⟨rfl, hpad0⟩ := hall
      rw [Nat.sub_self, List.take_zero, containerBytes_header] at hb
      have hfault : headerFault s.cfg ps.length pad (snapshotOf (some T)).length 0
          (17 + (snapshotOf (some T) ++ ([] : List Byte)).length) = some (1, 8) := by
        rw [List.append_nil, headerFault, if_neg (Nat.not_lt.mpr hpad7)]
        simp [hpad0]
      have ⟨⟨_, hkMax, _⟩, _⟩ := hL
      have htlen : (snapshotOf (some T)).length < 2 ^ 32 := by
        rw [show snapshotOf (some T) = T.snapshot from rfl, snapshot_length]
        omega
      have hparse := (parseFieldFaults s.decompressing hL).2.2.2 _ _ _ _ _ 1 8 (by omega) (by omega) htlen (by decide) hb hfault
      exact ⟨_, exec_decompress_refused herr (by decide) hparse, rfl, rfl, fun _ _ => ⟨rfl, rfl⟩, by omega⟩
    · have hbits := unpackBits_take (bs := (spelled ps).2) (hpayload ▸ hjlen)
      rw [← hpayload, ← hpad] at hbits
      have hpos : 0 < (spelled ps).2.length := Nat.lt_of_lt_of_le (List.length_pos_of_ne_nil hne) (length_le_spelled hps)
      have hlen : 8 * payload.length = (spelled ps).2.length + pad := by
        rw [hpayload, hpad, packed_length, padCount]
        omega
      obtain ⟨t, ht, htext, hcmd, hend⟩ := decompress_shortened hL herr hk hleg hps hpn hpad7
        (fun h => by
          have := congrArg List.length h
          rw [List.length_take, List.length_nil] at this
          omega)
        (by rw [List.length_take]; omega) (by omega) hbits hb
      exact ⟨t, ht, htext, hcmd, fun h h' => absurd ⟨h, h'⟩ hall, fun _ => hend⟩

end Sys2Proof.Machine

/-! ## BUILD step by step -/

namespace Sys2Proof.Machine

variable {α : Type} {s t u : State} {f g : Forest} {n : Nat} {i : Instr}

/-- A rule that allows no stop ends normally. -/
theorem Cmd.exists_run {c : Cmd α} {Q : α → State → Prop} (h : Cmd.wp c Q (fun _ _ => False) s) :
    ∃ a t, c s = .ok a t ∧ Q a t := by
  unfold Cmd.wp at h
  split at h
  · rename_i a t heq
    exact ⟨a, t, heq, h⟩
  · exact h.elim

theorem Cmd.wp_of_run {c : Cmd α} {Q : α → State → Prop} {E : Stop → State → Prop} {a : α} (hrun : c s = .ok a t) :
    Cmd.wp c Q E s ↔ Q a t := by
  rw [Cmd.wp, hrun]

theorem exec_of_run (hrun : ruleOf i s = .ok () t) : exec i s = .next t := by
  rw [exec_eq_runCommand, runCommand_ok hrun]

theorem ForestTo.err (h : ForestTo s f n t) : t.err = s.err := by rw [h.1]

/-- The construction loop is as many COMBINEs as make one tree of the queue (41_tree_builder.md R134). -/
theorem combineAll_inTurn (fuel : Nat) (herr : s.err = 0#8) (h : ForestHeld s f) (hlen : f.heap.length = n + 1) (hfuel : n ≤ fuel)
    (hroom : f.nodes.length + n ≤ s.cfg.nodeMax) (hk : s.cfg.kMax ≤ 2 ^ 23) :
    ∃ t, combineAll fuel s = .ok () t ∧ inTurn (List.replicate n .combine) s = .next t := by
  induction fuel generalizing s f n with
  | zero =>
    obtain rfl : n = 0 := Nat.le_zero.mp hfuel
    exact ⟨s, rfl, rfl⟩
  | succ fuel ih =>
    cases n with
    | zero =>
      obtain ⟨_, t, hrun, rfl⟩ := Cmd.exists_run (c := combineAll (fuel + 1)) (s := s) (Q := fun _ t => t = s) (by
        rw [combineAll, Cmd.wp_bind, Cmd.wp_csr, if_neg (by rw [h.qcnt]; omega)]
        rfl)
      exact ⟨t, hrun, rfl⟩
    | succ n =>
      obtain ⟨_, v, hv, hto⟩ := Cmd.exists_run (combine_forest h (by omega) (by omega) hk)
      have hgrow := grow_lengths (f := f) (by omega)
      have hcfg : v.cfg = s.cfg := hto.cfg
      obtain ⟨t, hall, hturn⟩ := ih (n := n) (hto.err.trans herr) hto.2.1 (by omega) (by omega) (by rw [hcfg]; omega) (hcfg ▸ hk)
      obtain ⟨_, u, hrun, rfl⟩ := Cmd.exists_run (c := combineAll (fuel + 1)) (s := s) (Q := fun _ u => u = t) (by
        rw [combineAll, Cmd.wp_bind, Cmd.wp_csr, if_pos (by rw [h.qcnt]; omega), Cmd.wp_bind, Cmd.wp_of_run hv, Cmd.wp_of_run hall])
      exact ⟨u, hrun, (inTurn_cons herr (exec_of_run (i := .combine) hv)).trans hturn⟩

/-- PQ_EXTRACT on a queue that is not empty (R113), from what PqExtract does. -/
theorem exec_pqExtract_of_run {m : NodeId} (hne : s.pqCnt ≠ 0#32) (hrun : pqExtract s = .ok m t) :
    exec .pqExtract s = .next { t with qe := false, res := m.setWidth 32 } := by
  rw [exec_eq_runCommand]
  refine runCommand_eq ?_
  rw [ruleOf, pqExtractRule, Cmd.wp_bind, Cmd.wp_csr, if_neg hne, Cmd.wp_bind, Cmd.wp_of_run hrun]
  rfl

/-- The node that leaves the queue is DETACHED (R111). -/
theorem extracted_detached (h : ForestHeld s f) (hne : 0 < f.heap.length) (ht : ForestHeld t f.extract) :
    ∃ x, t.node.get? (f.heap.getD 0 0#24).toNat = some x ∧ x.st = stDetached := by
  obtain ⟨h1, hle⟩ := h.ids _ (HeapList.getD_mem hne)
  have hx := ht.node h1 (by rw [(extract_lengths hne).1]; exact hle)
  refine ⟨_, hx, ?_⟩
  have hst : f.extract.nodes[(f.heap.getD 0 0#24).toNat - 1]? =
      (f.nodes[(f.heap.getD 0 0#24).toNat - 1]?).map fun n => { n with st := stDetached } := by
    rw [Forest.extract, setSt_getElem?, if_pos rfl]
  rw [List.getElem?_eq_getElem (by have := (extract_lengths hne).1; omega), List.getElem?_eq_getElem (by omega), Option.map_some] at hst
  exact congrArg Node.st (Option.some.inj hst)

theorem exec_setRoot_detached {x : Node} {m : NodeId} (h1 : 1 ≤ m.toNat) (hle : m.toNat ≤ s.nodeCnt.toNat)
    (hx : s.node.get? m.toNat = some x) (hst : x.st = stDetached) :
    exec (.setRoot m) s = .next { s with root := m, ctCnt := 0#32 } :=
  ((setRootNamesADetachedNode s m).2.2 x (fun h => by rw [h] at h1; exact absurd h1 (by decide)) hle hx).2 hst

/-- Settles O30: each step of BUILD is the rule of one of the commands. -/
theorem buildStepByStep : Obligations.BuildStepByStep := by
  intro s t l hL herr hl hne hfit hbuild
  have ⟨⟨_, hk, _⟩, _⟩ := hL
  have hpos := List.length_pos_of_ne_nil hne
  have hleaves := leavesForest_lengths l
  have hgrown := grownForest_lengths hne
  obtain ⟨_, v, hv, hvto⟩ := Cmd.exists_run (leaves_forest hl hfit hk)
  have hvcfg : v.cfg = s.cfg := hvto.cfg
  have hverr : v.err = 0#8 := hvto.err.trans herr
  have hroom : l.length + (l.length - 1) ≤ v.cfg.nodeMax := by
    rw [hvcfg, Config.nodeMax]
    omega
  have hvk : v.cfg.kMax ≤ 2 ^ 23 := hvcfg ▸ hk
  obtain ⟨u, hu, hturn⟩ := combineAll_inTurn (n := l.length - 1) l.length hverr hvto.2.1 (by omega) (by omega)
    (by rw [hleaves.1]; exact hroom) hvk
  have huto := (Cmd.wp_of_run hu).mp (combineAll_forest l.length hvto.2.1 (by omega) (by omega) (by rw [hleaves.1, hleaves.2]; exact hroom) hvk)
  have huerr : u.err = 0#8 := huto.err.trans hverr
  have hheap : 0 < (grownForest l).heap.length := by omega
  obtain ⟨m, w, hw, rfl, hwto⟩ := Cmd.exists_run (pqExtract_forest (f := grownForest l) huto.2.1 hheap)
  have hqueued : u.pqCnt ≠ 0#32 := fun h => by
    have := huto.2.1.qcnt
    rw [h] at this
    exact absurd this hheap.ne
  obtain ⟨h1, hle⟩ := huto.2.1.ids _ (HeapList.getD_mem hheap)
  obtain ⟨x, hx, hst⟩ := extracted_detached huto.2.1 hheap hwto.2.1
  have hcnt : w.nodeCnt.toNat = (grownForest l).nodes.length := hwto.2.1.cnt.trans (extract_lengths hheap).1
  have ht : t = { w with root := builtRoot l, ctCnt := 0#32, res := (builtRoot l).setWidth 32 } := by
    refine Host.Outcome.next.inj (hbuild.symm.trans ?_)
    rw [exec_eq_runCommand]
    refine runCommand_eq ?_
    rw [ruleOf, build, Cmd.wp_bind, Cmd.wp_csr, Cmd.wp_bind, Cmd.wp_raiseIf, hl.1]
    refine ⟨fun h => absurd h hpos.ne', fun _ => ?_⟩
    rw [Cmd.wp_bind, Cmd.wp_of_run hv, Cmd.wp_bind, Cmd.wp_csr, Cmd.wp_bind, hvto.2.1.qcnt, hleaves.2, Cmd.wp_of_run hu,
      Cmd.wp_bind, Cmd.wp_of_run hw]
    rfl
  have hres : BitVec.ofNat 24 t.res.toNat = builtRoot l := by
    rw [ht]
    show BitVec.ofNat 24 ((builtRoot l).setWidth 32).toNat = builtRoot l
    rw [BitVec.toNat_setWidth_of_le (by decide), BitVec.ofNat_toNat, BitVec.setWidth_eq]
  have hroot := exec_setRoot_detached (s := { w with qe := false, res := (builtRoot l).setWidth 32 }) (m := builtRoot l) h1
    (hcnt.symm ▸ hle) hx hst
  rw [hres, List.append_assoc, List.singleton_append, inTurn_cons herr (exec_of_run (i := .leaves) hv), inTurn_append hturn,
    inTurn_cons huerr (exec_pqExtract_of_run hqueued hw), ht]
  exact inTurn_cons (hwto.err.trans huerr) hroot

end Sys2Proof.Machine

/-! ## Two runs side by side -/

namespace Sys2Proof.Machine

/-! ### Memories that agree -/

section Memories

variable {α : Type} {m m' : Memory α} {lo hi i : Nat} {v : α}

/-- Both memories list the elements from `lo` up to `hi`, with the same values. -/
def Memory.agreesOn (m m' : Memory α) (lo hi : Nat) : Prop :=
  ∀ k, lo ≤ k → k < hi → ∃ v, m.get? k = some v ∧ m'.get? k = some v

theorem Memory.agreesOn_empty (m m' : Memory α) (h : hi ≤ lo) : m.agreesOn m' lo hi := fun _ _ _ => by omega

theorem Memory.agreesOn.mono {hi' : Nat} (h : m.agreesOn m' lo hi) (hle : hi' ≤ hi) : m.agreesOn m' lo hi' :=
  fun k h1 h2 => h k h1 (by omega)

theorem Memory.agreesOn.get? (h : m.agreesOn m' lo hi) {k : Nat} (h1 : lo ≤ k) (h2 : k < hi) : m'.get? k = m.get? k := by
  obtain ⟨v, hv, hv'⟩ := h k h1 h2
  rw [hv, hv']

/-- Two memories that hold the same list agree on it. -/
theorem Memory.holds.agreesOn {l : List α} (h : m.holds lo l) (h' : m'.holds lo l) : m.agreesOn m' lo (lo + l.length) := by
  intro k h1 h2
  have hk : k - lo < l.length := by omega
  have e := h (k - lo) hk
  have e' := h' (k - lo) hk
  rw [Nat.add_sub_cancel' h1, List.getElem?_eq_getElem hk] at e e'
  exact ⟨_, e, e'⟩

/-- A memory that agrees on a held list holds it too. -/
theorem Memory.agreesOn.holds {l : List α} (h : m.agreesOn m' lo hi) (hl : m.holds lo l) (hlen : lo + l.length ≤ hi) :
    m'.holds lo l :=
  hl.congr fun k hk => h.get? (by omega) (by omega)

theorem Memory.agreesOn.store (h : m.agreesOn m' lo hi) (a b i : Nat) (v : α) :
    (m.store a b i v).agreesOn (m'.store a b i v) lo hi := by
  intro k h1 h2
  rw [Memory.get?_store, Memory.get?_store]
  split
  · exact ⟨v, rfl, rfl⟩
  · exact h k h1 h2

/-- A store at the end lengthens the agreement by one. -/
theorem Memory.agreesOn.push {a b : Nat} (h : m.agreesOn m' lo i) (h1 : a ≤ i) (h2 : i < b) (v : α) :
    (m.store a b i v).agreesOn (m'.store a b i v) lo (i + 1) := by
  intro k hk1 hk2
  by_cases hk : k = i
  · subst hk
    exact ⟨v, Memory.get?_store_self _ _ h1 h2, Memory.get?_store_self _ _ h1 h2⟩
  · exact h.store a b i v k hk1 (by omega)

end Memories

/-! ### States that differ in their memories alone -/

/-- The memories, and what no command looks at. -/
structure Memories where
  text : Memory Word
  blob : Memory Byte
  ft : Memory FtEntry
  node : Memory Node
  heap : Memory NodeId
  ct : Memory CtEntry
  pk : Memory Byte
  inbox : List HostTx
  reply : Option Reply
  draws : Nat

variable {s t u : State} {m n : Memories}

def State.memories (s : State) : Memories :=
  { text := s.text, blob := s.blob, ft := s.ft, node := s.node, heap := s.heap, ct := s.ct, pk := s.pk, inbox := s.inbox,
    reply := s.reply, draws := s.draws }

/-- The registers of `s` over other memories. -/
def State.over (s : State) (m : Memories) : State :=
  { s with text := m.text, blob := m.blob, ft := m.ft, node := m.node, heap := m.heap, ct := m.ct, pk := m.pk, inbox := m.inbox,
           reply := m.reply, draws := m.draws }

/-- The memories agree with those of `s` on every valid element (10_state.md R44 to R51). -/
structure State.ValidAgree (s : State) (m : Memories) : Prop where
  text : s.text.agreesOn m.text 0 s.textLen.toNat
  blob : s.blob.agreesOn m.blob 0 s.blobLen.toNat
  ft : s.ft.agreesOn m.ft 0 s.ftCnt.toNat
  node : s.node.agreesOn m.node 1 (s.nodeCnt.toNat + 1)
  heap : s.heap.agreesOn m.heap 0 s.pqCnt.toNat
  ct : s.ct.agreesOn m.ct 0 s.ctCnt.toNat
  pk : s.pk.agreesOn m.pk 0 s.pkLen.toNat

/-- The two states have the same registers, and the same valid elements, all of them written. -/
def State.alike (s t : State) : Prop := ∃ m, t = s.over m ∧ s.ValidAgree m

theorem State.alike.agrees (h : s.alike t) : s.agrees t := by
  obtain ⟨m, rfl, h⟩ := h
  exact ⟨rfl, fun k hk => h.text.get? (Nat.zero_le k) hk, fun k hk => h.blob.get? (Nat.zero_le k) hk,
    fun k hk => h.ft.get? (Nat.zero_le k) hk, fun k h1 hk => h.node.get? h1 (by omega),
    fun k hk => h.heap.get? (Nat.zero_le k) hk, fun k hk => h.ct.get? (Nat.zero_le k) hk,
    fun k hk => h.pk.get? (Nat.zero_le k) hk⟩

theorem State.alike.err (h : s.alike t) : t.err = s.err := by
  obtain ⟨m, rfl, -⟩ := h
  rfl

/-- The fault registers are registers. -/
theorem State.alike.faulted (h : s.alike t) (code info : Nat) (w : Word) : (s.faulted code info w).alike (t.faulted code info w) := by
  obtain ⟨m, rfl, h⟩ := h
  exact ⟨m, rfl, { h with }⟩

/-! ### A rule run twice -/

variable {α β : Type}

/-- The rule `c`, run from `s` and from its registers over the memories `m`, ends normally with one value and states of one
setting of the registers that meet `Q`, or stops for one reason in states that are alike. -/
def Cmd.twin (c : Cmd α) (Q : α → State → Memories → Prop) (s : State) (m : Memories) : Prop :=
  match c s, c (s.over m) with
  | .ok a t, .ok b u => b = a ∧ ∃ n, u = t.over n ∧ Q a t n
  | .error e t, .error f u => f = e ∧ t.alike u
  | _, _ => False

variable {Q Q' : α → State → Memories → Prop}

theorem Cmd.twin_mono {c : Cmd α} (h : c.twin Q s m) (hq : ∀ a t n, Q a t n → Q' a t n) : c.twin Q' s m := by
  unfold Cmd.twin at *
  split at h
  · obtain ⟨rfl, n, hu, hQ⟩ := h
    exact ⟨rfl, n, hu, hq _ _ _ hQ⟩
  · exact h
  · exact h

theorem Cmd.twin_pure {a : α} (h : Q a s m) : Cmd.twin (pure a) Q s m := ⟨rfl, m, rfl, h⟩

theorem Cmd.twin_bind {c : Cmd β} {f : β → Cmd α} (h : c.twin (fun b t n => (f b).twin Q t n) s m) : (c >>= f).twin Q s m := by
  show (match EStateM.bind c f s, EStateM.bind c f (s.over m) with
    | .ok a t, .ok b u => b = a ∧ ∃ n, u = t.over n ∧ Q a t n
    | .error e t, .error f u => f = e ∧ t.alike u
    | _, _ => False)
  unfold Cmd.twin at h
  unfold EStateM.bind
  cases hc : c s with
  | ok b t =>
    cases hc' : c (s.over m) with
    | ok b' u =>
      rw [hc, hc'] at h
      obtain ⟨rfl, n, rfl, h⟩ := h
      exact h
    | error e u =>
      rw [hc, hc'] at h
      exact h.elim
  | error e t =>
    cases hc' : c (s.over m) with
    | ok b' u =>
      rw [hc, hc'] at h
      exact h.elim
    | error e' u =>
      rw [hc, hc'] at h
      exact h

/-- A rule that starts with a helper of which this is known. -/
theorem Cmd.twin_then {c : Cmd β} {f : β → Cmd α} {R : β → State → Memories → Prop} (hc : c.twin R s m)
    (hf : ∀ b t n, R b t n → (f b).twin Q t n) : (c >>= f).twin Q s m := Cmd.twin_bind (Cmd.twin_mono hc hf)

/-- A register is read alike. -/
theorem Cmd.twin_csr {f : State → α} (hf : f (s.over m) = f s) (h : Q (f s) s m) : (Cmd.csr f).twin Q s m := ⟨hf, m, rfl, h⟩

/-- A write of registers and memories that is the same in both runs. -/
theorem Cmd.twin_update {f : State → State} {Q : Unit → State → Memories → Prop}
    (hf : f (s.over m) = (f s).over (f (s.over m)).memories) (h : Q () (f s) (f (s.over m)).memories) :
    (Cmd.update f).twin Q s m := ⟨rfl, _, hf, h⟩

theorem Cmd.twin_raise {code : FaultCode} {info : Nat} (h : s.ValidAgree m) : (Cmd.raise code info : Cmd α).twin Q s m :=
  ⟨rfl, m, rfl, h⟩

theorem Cmd.twin_raiseIf {c : Prop} [Decidable c] {code : FaultCode} {info : Nat} {Q : Unit → State → Memories → Prop}
    (hs : s.ValidAgree m) (h : ¬c → Q () s m) : (Cmd.raiseIf c code info).twin Q s m := by
  unfold Cmd.raiseIf
  split
  · exact Cmd.twin_raise hs
  · exact Cmd.twin_pure (h ‹_›)

theorem Cmd.twin_ite {c : Prop} [Decidable c] {x y : Cmd α} (hx : c → x.twin Q s m) (hy : ¬c → y.twin Q s m) :
    (if c then x else y).twin Q s m := by
  split
  · exact hx ‹_›
  · exact hy ‹_›

/-- What every turn keeps holds after a loop. -/
theorem Cmd.twin_forFrom {body : Nat → Cmd Unit} {I : Nat → State → Memories → Prop} (count a : Nat)
    (hbody : ∀ i t n, a ≤ i → i < a + count → I i t n → (body i).twin (fun _ u k => I (i + 1) u k) t n) (h : I a s m) :
    (Cmd.forFrom body count a).twin (fun _ t n => I (a + count) t n) s m := by
  induction count generalizing a s m with
  | zero => exact Cmd.twin_pure h
  | succ count ih =>
    rw [Cmd.forFrom]
    refine Cmd.twin_then (hbody a s m (Nat.le_refl a) (by omega) h) fun _ t n ht => ?_
    have hrest := ih (a + 1) (fun i t n h1 h2 => hbody i t n (by omega) (by omega)) ht
    rwa [Nat.add_assoc, Nat.add_comm 1] at hrest

theorem Cmd.twin_forBits {body : Bool → Cmd Unit} {I : State → Memories → Prop} (bs : BitString)
    (hbody : ∀ b t n, I t n → (body b).twin (fun _ => I) t n) (h : I s m) : (Cmd.forBits body bs).twin (fun _ => I) s m := by
  induction bs generalizing s m with
  | nil => exact Cmd.twin_pure h
  | cons b bs ih => exact Cmd.twin_then (hbody b s m h) fun _ _ _ => ih

/-- A search with a test that changes nothing. -/
theorem Cmd.twin_findFrom {test : Nat → Cmd Bool} (count a : Nat)
    (htest : ∀ i, a ≤ i → i < a + count → (test i).twin (fun _ t n => t = s ∧ n = m) s m) :
    (Cmd.findFrom test count a).twin (fun r t n => (t = s ∧ n = m) ∧ ∀ i, r = some i → i < a + count) s m := by
  induction count generalizing a with
  | zero => exact Cmd.twin_pure ⟨⟨rfl, rfl⟩, nofun⟩
  | succ count ih =>
    rw [Cmd.findFrom]
    refine Cmd.twin_then (htest a (Nat.le_refl a) (by omega)) fun hit t n ⟨ht, hn⟩ => ?_
    subst ht hn
    refine Cmd.twin_ite (fun _ => Cmd.twin_pure ⟨⟨rfl, rfl⟩, fun i hi => ?_⟩) fun _ => ?_
    · cases hi
      omega
    · exact Cmd.twin_mono (ih (a + 1) fun i h1 h2 => htest i (by omega) (by omega)) fun _ _ _ ⟨he, hr⟩ =>
        ⟨he, fun i hi => by have := hr i hi; omega⟩

/-! ### Elements read and written -/

/-- A read of an element that both runs find. -/
theorem Cmd.twin_read {c : Cmd α} {v : α} (h : c s = .ok v s) (h' : c (s.over m) = .ok v (s.over m)) (hq : Q v s m) :
    c.twin Q s m := by
  rw [Cmd.twin, h, h']
  exact ⟨rfl, m, rfl, hq⟩

theorem Cmd.twin_readText {i : Nat} {hi : Nat} {Q : Word → State → Memories → Prop} (h : s.text.agreesOn m.text 0 hi)
    (hlt : i < hi) (hq : ∀ v, Q v s m) : (readText i).twin Q s m := by
  obtain ⟨v, hv, hv'⟩ := h i (Nat.zero_le i) hlt
  exact Cmd.twin_read (by rw [readText, textAt_some hv]) (by rw [readText, textAt_some (s := s.over m) hv']) (hq v)

theorem Cmd.twin_readBlob {i : Nat} {hi : Nat} {Q : Byte → State → Memories → Prop} (h : s.blob.agreesOn m.blob 0 hi)
    (hlt : i < hi) (hq : ∀ v, Q v s m) : (readBlob i).twin Q s m := by
  obtain ⟨v, hv, hv'⟩ := h i (Nat.zero_le i) hlt
  exact Cmd.twin_read (by rw [readBlob, blobAt_some hv]) (by rw [readBlob, blobAt_some (s := s.over m) hv']) (hq v)

theorem Cmd.twin_readFt {i : Nat} {hi : Nat} {Q : FtEntry → State → Memories → Prop} (h : s.ft.agreesOn m.ft 0 hi)
    (hlt : i < hi) (hq : ∀ v, Q v s m) : (readFt i).twin Q s m := by
  obtain ⟨v, hv, hv'⟩ := h i (Nat.zero_le i) hlt
  exact Cmd.twin_read (by rw [readFt, ftAt_some hv]) (by rw [readFt, ftAt_some (s := s.over m) hv']) (hq v)

theorem Cmd.twin_readCt {i : Nat} {hi : Nat} {Q : CtEntry → State → Memories → Prop} (h : s.ct.agreesOn m.ct 0 hi)
    (hlt : i < hi) (hq : ∀ v, Q v s m) : (readCt i).twin Q s m := by
  obtain ⟨v, hv, hv'⟩ := h i (Nat.zero_le i) hlt
  exact Cmd.twin_read (by rw [readCt, ctAt_some hv]) (by rw [readCt, ctAt_some (s := s.over m) hv']) (hq v)

theorem Cmd.twin_readPk {i : Nat} {hi : Nat} {Q : Byte → State → Memories → Prop} (h : s.pk.agreesOn m.pk 0 hi)
    (hlt : i < hi) (hq : ∀ v, Q v s m) : (readPk i).twin Q s m := by
  obtain ⟨v, hv, hv'⟩ := h i (Nat.zero_le i) hlt
  exact Cmd.twin_read (by rw [readPk, pkAt_some hv]) (by rw [readPk, pkAt_some (s := s.over m) hv']) (hq v)

theorem Cmd.twin_readNode {id : NodeId} {hi : Nat} {Q : Node → State → Memories → Prop} (h : s.node.agreesOn m.node 1 hi)
    (h1 : 1 ≤ id.toNat) (hlt : id.toNat < hi) (hq : ∀ x, s.node.get? id.toNat = some x → Q x s m) : (readNode id).twin Q s m := by
  obtain ⟨x, hx, hx'⟩ := h id.toNat h1 hlt
  exact Cmd.twin_read (by rw [readNode, nodeAt_some hx]) (by rw [readNode, nodeAt_some (s := s.over m) hx']) (hq x hx)

/-! ### A command run twice -/

/-- A rule whose two runs end alike makes a command whose two runs end alike. -/
theorem exec_alike {i : Instr} (hc : (ruleOf i).twin (fun _ t n => t.ValidAgree n) s m) (ht : exec i s = .next t)
    (hu : exec i (s.over m) = .next u) : t.alike u := by
  rw [exec_eq_runCommand] at ht hu
  unfold Cmd.twin at hc
  split at hc
  · rename_i a v b w hv hw
    obtain ⟨-, n, rfl, halike⟩ := hc
    rw [runCommand_ok hv] at ht
    rw [runCommand_ok hw] at hu
    cases ht
    cases hu
    exact ⟨n, rfl, halike⟩
  · rename_i e v f w hv hw
    obtain ⟨rfl, halike⟩ := hc
    cases f with
    | raise code info =>
      rw [runCommand_raise hv, takeFault_eq_faulted] at ht
      rw [runCommand_raise hw, takeFault_eq_faulted] at hu
      cases ht
      cases hu
      exact halike.faulted _ _ _
    | stuck r =>
      rw [runCommand, hv] at ht
      cases ht
  · exact hc.elim

end Sys2Proof.Machine

/-! ### FREQ and ENCODE run twice -/

namespace Sys2Proof.Machine

variable {s t u : State} {m n : Memories} {i : Nat}

/-- The state of a scan of TEXT: TEXT_LEN stays, and FT has no more entries than it can hold. -/
structure FreqScan (s t : State) (n : Memories) : Prop extends t.ValidAgree n where
  textLen : t.textLen = s.textLen
  fits : t.ftCnt.toNat ≤ t.cfg.kMax

/-- A search of FT for a symbol. -/
theorem twin_findFt {v : Word} {count : Nat} (h : s.ValidAgree m) (hcount : count = s.ftCnt.toNat) :
    (Cmd.findFrom (fun j => do
      let e ← readFt j
      pure (decide (e.sym.setWidth 32 = v))) count 0).twin (fun r t n => (t = s ∧ n = m) ∧ ∀ j, r = some j → j < 0 + count) s m :=
  Cmd.twin_findFrom count 0 fun j _ hj =>
    Cmd.twin_bind (Cmd.twin_readFt h.ft (by omega) fun e => Cmd.twin_pure ⟨rfl, rfl⟩)

theorem toNat_succ_le (x : Word) : (x + 1#32).toNat ≤ x.toNat + 1 := by
  rw [BitVec.toNat_add]
  exact Nat.mod_le _ _

theorem twin_freqStep (h : FreqScan s t n) (hi : i < s.textLen.toNat) :
    (freqStep i).twin (fun _ u k => FreqScan s u k) t n := by
  obtain ⟨halike, hlen, hfits⟩ := h
  rw [freqStep]
  refine Cmd.twin_bind (Cmd.twin_readText halike.text (hlen ▸ hi) fun v => ?_)
  refine Cmd.twin_bind (Cmd.twin_raiseIf halike fun _ => ?_)
  refine Cmd.twin_bind (Cmd.twin_csr rfl ?_)
  refine Cmd.twin_then (twin_findFt halike rfl) fun r u k ⟨⟨hu, hk⟩, hr⟩ => ?_
  subst hu hk
  cases r with
  | none =>
    refine Cmd.twin_bind (Cmd.twin_csr rfl ?_)
    refine Cmd.twin_bind (Cmd.twin_raiseIf halike fun hroom => ?_)
    have hlt : u.ftCnt.toNat < u.cfg.kMax := Nat.lt_of_le_of_ne hfits hroom
    refine Cmd.twin_bind (Cmd.twin_update rfl ?_)
    refine Cmd.twin_update rfl ⟨?_, hlen, (toNat_succ_le _).trans hlt⟩
    exact { halike with ft := (halike.ft.push (Nat.zero_le _) hlt _).mono (toNat_succ_le _) }
  | some j =>
    refine Cmd.twin_bind (Cmd.twin_readFt halike.ft (by have := hr j rfl; omega) fun e => ?_)
    refine Cmd.twin_update rfl ⟨?_, hlen, hfits⟩
    exact { halike with ft := halike.ft.store _ _ _ _ }

theorem twin_freq (h : s.ValidAgree m) : freq.twin (fun _ t n => t.ValidAgree n) s m := by
  rw [freq]
  refine Cmd.twin_bind (Cmd.twin_csr rfl (Cmd.twin_bind (Cmd.twin_csr rfl ?_)))
  refine Cmd.twin_bind (Cmd.twin_raiseIf h fun _ => ?_)
  refine Cmd.twin_bind (Cmd.twin_update rfl ?_)
  have hstart : FreqScan s { s with ftCnt := 0#32 } m :=
    ⟨{ h with ft := Memory.agreesOn_empty _ _ (Nat.le_refl _) }, rfl, Nat.zero_le _⟩
  exact Cmd.twin_mono (Cmd.twin_forFrom (I := fun _ => FreqScan s) s.textLen.toNat 0
    (fun i t n _ hi ht => twin_freqStep ht (by omega)) hstart) fun _ _ _ ht => ht.toValidAgree

/-- The state while codes are packed: TEXT_LEN and CT_CNT stay, and PK has no more bytes than it can hold. -/
structure PackScan (s t : State) (n : Memories) : Prop extends t.ValidAgree n where
  textLen : t.textLen = s.textLen
  ctCnt : t.ctCnt = s.ctCnt
  fits : t.pkLen.toNat ≤ t.cfg.pMax

theorem twin_pkPushBit (h : PackScan s t n) (b : Bool) : (pkPushBit b).twin (fun _ u k => PackScan s u k) t n := by
  obtain ⟨halike, hlen, hcnt, hfits⟩ := h
  rw [pkPushBit]
  refine Cmd.twin_bind (Cmd.twin_csr rfl (Cmd.twin_bind (Cmd.twin_csr rfl (Cmd.twin_bind (Cmd.twin_csr rfl ?_)))))
  refine Cmd.twin_bind (Cmd.twin_raiseIf halike fun hroom => ?_)
  refine Cmd.twin_bind (Cmd.twin_csr rfl (Cmd.twin_ite (fun hfull => ?_) fun _ => ?_))
  · have hlt : t.pkLen.toNat < t.cfg.pMax := Nat.lt_of_le_of_ne hfits fun h => hroom ⟨hfull, h⟩
    refine Cmd.twin_bind (Cmd.twin_update rfl ?_)
    refine Cmd.twin_update rfl ⟨?_, hlen, hcnt, (toNat_succ_le _).trans hlt⟩
    exact { halike with pk := (halike.pk.push (Nat.zero_le _) hlt _).mono (toNat_succ_le _) }
  · exact Cmd.twin_update rfl ⟨{ halike with }, hlen, hcnt, hfits⟩

theorem twin_pkFlush (h : PackScan s t n) : pkFlush.twin (fun _ u k => PackScan s u k) t n := by
  obtain ⟨halike, hlen, hcnt, hfits⟩ := h
  rw [pkFlush]
  refine Cmd.twin_bind (Cmd.twin_csr rfl (Cmd.twin_ite (fun _ => ?_) fun _ => ?_))
  · refine Cmd.twin_bind (Cmd.twin_csr rfl (Cmd.twin_bind (Cmd.twin_csr rfl ?_)))
    refine Cmd.twin_bind (Cmd.twin_raiseIf halike fun hroom => ?_)
    have hlt : t.pkLen.toNat < t.cfg.pMax := Nat.lt_of_le_of_ne hfits hroom
    refine Cmd.twin_bind (Cmd.twin_csr rfl (Cmd.twin_bind (Cmd.twin_update rfl ?_)))
    refine Cmd.twin_bind (Cmd.twin_update rfl ?_)
    refine Cmd.twin_update rfl ⟨?_, hlen, hcnt, (toNat_succ_le _).trans hlt⟩
    exact { halike with pk := (halike.pk.push (Nat.zero_le _) hlt _).mono (toNat_succ_le _) }
  · exact Cmd.twin_update rfl ⟨{ halike with }, hlen, hcnt, hfits⟩

theorem twin_encodeStep (h : PackScan s t n) (hi : i < s.textLen.toNat) :
    (encodeStep i).twin (fun _ u k => PackScan s u k) t n := by
  have halike := h.toValidAgree
  rw [encodeStep]
  refine Cmd.twin_bind (Cmd.twin_readText halike.text (h.textLen ▸ hi) fun v => ?_)
  refine Cmd.twin_bind (Cmd.twin_csr rfl ?_)
  refine Cmd.twin_then (Cmd.twin_findFrom t.ctCnt.toNat 0 fun j _ hj =>
    Cmd.twin_bind (Cmd.twin_readCt halike.ct (by omega) fun e => Cmd.twin_pure ⟨rfl, rfl⟩)) fun r u k ⟨⟨hu, hk⟩, hr⟩ => ?_
  subst hu hk
  cases r with
  | none => exact Cmd.twin_raise halike
  | some j =>
    refine Cmd.twin_bind (Cmd.twin_readCt halike.ct (by have := hr j rfl; omega) fun e => ?_)
    exact Cmd.twin_forBits _ (fun b t n ht => twin_pkPushBit ht b) h

theorem twin_encodeText (h : s.ValidAgree m) : encodeText.twin (fun _ t n => t.ValidAgree n) s m := by
  rw [encodeText]
  refine Cmd.twin_bind (Cmd.twin_csr rfl (Cmd.twin_bind (Cmd.twin_csr rfl ?_)))
  refine Cmd.twin_bind (Cmd.twin_raiseIf h fun _ => ?_)
  refine Cmd.twin_bind (Cmd.twin_update rfl (Cmd.twin_bind (Cmd.twin_update rfl ?_)))
  have hstart : PackScan s { s with pkLen := 0#32, pad := 0#3, stgBits := 0#8, stgCnt := 0#3, origLen := 0#32 } m :=
    ⟨{ h with pk := Memory.agreesOn_empty _ _ (Nat.le_refl _) }, rfl, rfl, Nat.zero_le _⟩
  refine Cmd.twin_then (Cmd.twin_forFrom (I := fun _ => PackScan s) s.textLen.toNat 0
    (fun i t n _ hi ht => twin_encodeStep ht (by omega)) hstart) fun _ t n ht => ?_
  refine Cmd.twin_then (twin_pkFlush ht) fun _ u k hu => ?_
  exact Cmd.twin_update rfl { hu.toValidAgree with }

end Sys2Proof.Machine

/-! ### BUILD, CODEGEN and SERIALIZE run twice -/

namespace Sys2Proof.Machine

variable {s t u : State} {m n : Memories} {T : Tree}

/-- What is valid in `s` is held over memories that agree. -/
theorem State.ValidAgree.holdsTable {l : List FtEntry} (h : s.ValidAgree m) (hl : s.holdsTable l) : (s.over m).holdsTable l :=
  ⟨hl.1, h.ft.holds hl.2 (by rw [Nat.zero_add]; exact hl.1.ge)⟩

theorem State.ValidAgree.holdsPacked {payload : List Byte} {pad : Nat} (h : s.ValidAgree m) (hp : s.holdsPacked payload pad) :
    (s.over m).holdsPacked payload pad := by
  obtain ⟨hlen, held, hpad⟩ := hp
  exact ⟨hlen, h.pk.holds held (by rw [Nat.zero_add]; exact hlen.ge), hpad⟩

/-- The forest of `s` is held over memories that agree. -/
theorem State.ValidAgree.forestHeld {f : Forest} (h : s.ValidAgree m) (hf : ForestHeld s f) : ForestHeld (s.over m) f :=
  { hf with
    held := h.node.holds hf.held (by rw [hf.cnt, Nat.add_comm])
    heap := h.heap.holds hf.heap (by rw [hf.qcnt, Nat.zero_add]) }

/-- The live tree of `s` is live over memories that agree. -/
theorem State.ValidAgree.liveTree (h : s.ValidAgree m) (hs : s.forestPart) (hT : s.liveTree T) : (s.over m).liveTree T := by
  obtain ⟨f, trees, held, good, hroot⟩ := forestPart_iff.mp hs
  exact liveTree_of_sameNodes held good (hroot.resolve_left hT.1) (h.forestHeld held) rfl (fun _ x hx => ⟨x, hx, rfl, rfl, rfl, rfl, rfl⟩) hT

/-- States of the same registers are alike when their memories agree. -/
theorem State.alike_of_over (n : Memories) (hu : u = t.over n) (h : t.ValidAgree u.memories) : t.alike u := by
  subst hu
  exact ⟨n, rfl, h⟩

/-- A command that ends in one state from each is known by its two ends. -/
theorem exec_alike_of {i : Instr} {t' u' : State} (ht : exec i s = .next t') (hu : exec i (s.over m) = .next u')
    (h : t'.alike u') (ht' : exec i s = .next t) (hu' : exec i (s.over m) = .next u) : t.alike u := by
  obtain rfl : t' = t := Host.Outcome.next.inj (ht.symm.trans ht')
  obtain rfl : u' = u := Host.Outcome.next.inj (hu.symm.trans hu')
  exact h

theorem exec_build_alike (hL : s.cfg.Legal) (hs : s.parts) (h : s.ValidAgree m) (ht : exec .build s = .next t)
    (hu : exec .build (s.over m) = .next u) : t.alike u := by
  obtain ⟨⟨hfit, l, hl, -⟩, -⟩ := hs
  have ⟨⟨_, hk, _⟩, _⟩ := hL
  by_cases hne : l = []
  · have h0 : s.ftCnt = 0#32 := BitVec.toNat_inj.mp (hl.1.trans (congrArg List.length hne))
    exact exec_alike_of ((nothingToWorkOn s).2.2.1 h0) ((nothingToWorkOn (s.over m)).2.2.1 h0)
      (State.alike.faulted ⟨m, rfl, h⟩ _ _ _) ht hu
  · rw [hl.1] at hfit
    obtain ⟨v, hv, hvto⟩ := exec_of_wp (i := .build) (build_forest hl hne hfit hk)
    obtain ⟨w, hw, hwto⟩ := exec_of_wp (i := .build) (build_forest (h.holdsTable hl) hne hfit hk)
    refine exec_alike_of hv hw (State.alike_of_over { m with node := w.node, heap := w.heap } ?_ ?_) ht hu
    · have hnodes : w.nodeCnt = v.nodeCnt := BitVec.toNat_inj.mp (hwto.2.1.cnt.trans hvto.2.1.cnt.symm)
      have hqueue : w.pqCnt = v.pqCnt := BitVec.toNat_inj.mp (hwto.2.1.qcnt.trans hvto.2.1.qcnt.symm)
      have hvframe := hvto.1
      have hwframe := hwto.1
      rw [hnodes, hqueue] at hwframe
      rw [hvframe]
      exact hwframe
    · have hnode := hvto.2.1.held.agreesOn hwto.2.1.held
      have hheap := hvto.2.1.heap.agreesOn hwto.2.1.heap
      rw [Nat.add_comm, ← hvto.2.1.cnt] at hnode
      rw [Nat.zero_add, ← hvto.2.1.qcnt] at hheap
      rw [hvto.1, hwto.1]
      exact { h with node := hnode, heap := hheap, ct := Memory.agreesOn_empty _ _ (Nat.le_refl _) }

theorem exec_codegen_alike (hL : s.cfg.Legal) (hs : s.parts) (h : s.ValidAgree m) (ht : exec .codegen s = .next t)
    (hu : exec .codegen (s.over m) = .next u) : t.alike u := by
  obtain ⟨-, hforest, -⟩ := hs
  have ⟨hn, _, hg, hroot, _⟩ := hforest
  by_cases h0 : s.root = 0#24
  · exact exec_alike_of ((nothingToWorkOn s).2.2.2 h0) ((nothingToWorkOn (s.over m)).2.2.2 h0)
      (State.alike.faulted ⟨m, rfl, h⟩ _ _ _) ht hu
  · obtain ⟨T, hT, -, hk⟩ := liveTree_of_forestPart hg hn hroot h0
    obtain ⟨v, hv, hvframe, hvcodes, -⟩ := codegenListsTheCodes s T hL hT hk
    obtain ⟨w, hw, hwframe, hwcodes, -⟩ := codegenListsTheCodes (s.over m) T hL (h.liveTree hforest hT) hk
    refine exec_alike_of hv hw (State.alike_of_over { m with ct := w.ct } ?_ ?_) ht hu
    · have hcnt : w.ctCnt = v.ctCnt := BitVec.toNat_inj.mp (hwcodes.1.trans hvcodes.1.symm)
      rw [hcnt] at hwframe
      rw [hvframe]
      exact hwframe
    · have hct := hvcodes.2.agreesOn hwcodes.2
      rw [Nat.zero_add, ← hvcodes.1] at hct
      rw [hvframe, hwframe]
      exact { h with ct := hct }

/-- A held payload is a list of bytes (10_state.md R51). -/
theorem exists_holdsPacked (hs : s.packerPart) : ∃ payload, s.holdsPacked payload s.pad.toNat := by
  obtain ⟨-, ⟨hpad, -⟩, hwritten⟩ := hs
  obtain ⟨payload, hlen, held⟩ := exists_holds (m := s.pk) (base := 0) (n := s.pkLen.toNat) fun k hk => by
    rw [Nat.zero_add]
    exact hwritten k hk
  refine ⟨payload, hlen.symm, held, rfl, fun hne h => ?_⟩
  have hpos := (hpad fun h0 => hne (by rw [h0]; rfl)).2
  rw [← hlen, h] at hpos
  exact absurd hpos (Nat.not_succ_le_zero 0)

/-- BLOB that holds the same bytes in two states, and nothing else changed, makes them alike. -/
theorem blob_alike {l : List Byte} {v w : State} {len : Word} (h : s.ValidAgree m) (hv : v = { s with blob := v.blob, blobLen := len })
    (hw : w = { s.over m with blob := w.blob, blobLen := len }) (hvl : v.holdsBlob l) (hwl : w.holdsBlob l) : v.alike w := by
  have hblob := hvl.2.2.agreesOn hwl.2.2
  rw [Nat.zero_add, ← hvl.1] at hblob
  have hlen : v.blobLen = len := by rw [hv]
  rw [hlen] at hblob
  refine State.alike_of_over { m with blob := w.blob } ?_ ?_
  · rw [hv]
    exact hw
  · rw [hv, hw]
    exact { h with blob := hblob }

theorem exec_serialize_alike (hL : s.cfg.Legal) (hs : s.parts) (h : s.ValidAgree m) (ht : exec .serialize s = .next t)
    (hu : exec .serialize (s.over m) = .next u) : t.alike u := by
  obtain ⟨-, hforest, -, hpacker⟩ := hs
  have ⟨hn, _, hg, hroot, _⟩ := hforest
  have hempty : State.alike { s with blobLen := 0#32 } { s.over m with blobLen := 0#32 } :=
    ⟨m, rfl, { h with blob := Memory.agreesOn_empty _ _ (Nat.le_refl _) }⟩
  by_cases hstg : s.stgCnt = 0#3
  case neg =>
    exact exec_alike_of (serializeFaults.1 s hstg) (serializeFaults.1 (s.over m) hstg) (hempty.faulted _ _ _) ht hu
  obtain ⟨payload, hpacked⟩ := exists_holdsPacked hpacker
  have hpacked' := h.holdsPacked hpacked
  by_cases h0 : s.root = 0#24
  · by_cases hlen : s.pkLen ≠ 0#32 ∨ s.origLen ≠ 0#32
    · exact exec_alike_of (serializeFaults.2.1 s hstg h0 hlen) (serializeFaults.2.1 (s.over m) hstg h0 hlen)
        (hempty.faulted _ _ _) ht hu
    · obtain ⟨hpk, horig⟩ := not_or.mp hlen
      have hpk := not_not.mp hpk
      have horig := not_not.mp horig
      have hpad : s.pad = 0#3 := by
        by_contra hne
        have := (hpacker.2.1.1 hne).2
        rw [hpk] at this
        exact absurd this (Nat.not_succ_le_zero 0)
      obtain ⟨v, hv, hvframe, hvblob, -⟩ := serializeWritesTheContainer.2 s hL hstg h0 hpk horig hpad
      obtain ⟨w, hw, hwframe, hwblob, -⟩ := serializeWritesTheContainer.2 (s.over m) hL hstg h0 hpk horig hpad
      exact exec_alike_of hv hw (blob_alike h hvframe hwframe hvblob hwblob) ht hu
  · obtain ⟨T, hT, -, hk⟩ := liveTree_of_forestPart hg hn hroot h0
    have hT' := h.liveTree hforest hT
    by_cases hfit : 17 + T.snapshot.length + payload.length ≤ s.cfg.bMax
    · obtain ⟨v, hv, hvframe, hvblob, -⟩ := serializeWritesTheContainer.1 s T payload _ hL hstg hT hk hpacked hfit
      obtain ⟨w, hw, hwframe, hwblob, -⟩ := serializeWritesTheContainer.1 (s.over m) T payload _ hL hstg hT' hk hpacked' hfit
      exact exec_alike_of hv hw (blob_alike h hvframe hwframe hvblob hwblob) ht hu
    · obtain ⟨v, hv, hvframe, -⟩ := serializeFaults.2.2 s T payload _ hL hstg hT hk hpacked (Nat.lt_of_not_le hfit)
      obtain ⟨w, hw, hwframe, -⟩ := serializeFaults.2.2 (s.over m) T payload _ hL hstg hT' hk hpacked' (Nat.lt_of_not_le hfit)
      have hnone : State.alike { s with blob := v.blob, blobLen := 0#32 } { s.over m with blob := w.blob, blobLen := 0#32 } :=
        ⟨{ m with blob := w.blob }, rfl, { h with blob := Memory.agreesOn_empty _ _ (Nat.le_refl _) }⟩
      refine exec_alike_of hv hw ?_ ht hu
      rw [hvframe, hwframe]
      exact hnone.faulted _ _ _

end Sys2Proof.Machine

/-! ### PARSE run twice -/

namespace Sys2Proof.Machine

variable {s t u : State} {m n : Memories} {p last : Nat} {stk : List NodeId} {id : NodeId}

/-- The id of an allocated node. -/
def State.allocates (s : State) (id : NodeId) : Prop := 1 ≤ id.toNat ∧ id.toNat ≤ s.nodeCnt.toNat

/-- The state while a snapshot is read: NODE has no more nodes than it can hold, and the open nodes on STK are allocated. -/
structure ParseScan (s : State) (stk : List NodeId) (t : State) (n : Memories) : Prop extends t.ValidAgree n where
  cfg : t.cfg = s.cfg
  blobLen : t.blobLen = s.blobLen
  fits : t.nodeCnt.toNat ≤ t.cfg.nodeMax
  stack : ∀ id ∈ stk, t.allocates id

/-- A check that leaves both runs where they were. -/
def stays (t : State) (n : Memories) : State → Memories → Prop := fun u k => u = t ∧ k = n

theorem stays_self : stays t n t n := ⟨rfl, rfl⟩

/-- A rule that starts with such a check. -/
theorem Cmd.twin_after {α β : Type} {c : Cmd β} {f : β → Cmd α} {Q : α → State → Memories → Prop}
    (hc : c.twin (fun _ => stays t n) t n) (hf : ∀ b, (f b).twin Q t n) : (c >>= f).twin Q t n :=
  Cmd.twin_then hc fun b _ _ ⟨hu, hk⟩ => by
    subst hu hk
    exact hf b

theorem twin_readRecord (h : t.ValidAgree n) (hlast : last ≤ t.blobLen.toNat) : (readRecord p last).twin (fun _ => stays t n) t n := by
  rw [readRecord]
  refine Cmd.twin_bind (Cmd.twin_raiseIf h fun hp => ?_)
  refine Cmd.twin_bind (Cmd.twin_readBlob h.blob (by omega) fun tag => ?_)
  refine Cmd.twin_ite (fun _ => ?_) fun _ => Cmd.twin_ite (fun _ => Cmd.twin_pure stays_self) fun _ => Cmd.twin_raise h
  refine Cmd.twin_bind (Cmd.twin_raiseIf h fun hp4 => ?_)
  refine Cmd.twin_bind (Cmd.twin_readBlob h.blob (by omega) fun a => ?_)
  refine Cmd.twin_bind (Cmd.twin_readBlob h.blob (by omega) fun b => ?_)
  refine Cmd.twin_bind (Cmd.twin_readBlob h.blob (by omega) fun c => ?_)
  exact Cmd.twin_bind (Cmd.twin_raiseIf h fun _ => Cmd.twin_pure stays_self)

theorem twin_nodeAlloc {leaf : Bool} {sym : Symbol} {w : Word} {l r : NodeId} (hk : s.cfg.kMax ≤ 2 ^ 23)
    (h : ParseScan s stk t n) :
    (nodeAlloc leaf sym w l r).twin (fun id u k => ParseScan s stk u k ∧ u.allocates id) t n := by
  obtain ⟨halike, hcfg, hblob, hfits, hstack⟩ := h
  have hmax := nodeMax_lt hk
  rw [← hcfg] at hmax
  rw [nodeAlloc]
  refine Cmd.twin_bind (Cmd.twin_csr rfl (Cmd.twin_bind (Cmd.twin_csr rfl ?_)))
  refine Cmd.twin_bind (Cmd.twin_raiseIf halike fun hroom => ?_)
  have hlt : t.nodeCnt.toNat < t.cfg.nodeMax := Nat.lt_of_le_of_ne hfits hroom
  have hcnt : (t.nodeCnt + 1#32).toNat = t.nodeCnt.toNat + 1 := BitVec.toNat_add_of_lt (by rw [BitVec.toNat_ofNat]; omega)
  have hid : ((t.nodeCnt + 1#32).setWidth 24).toNat = t.nodeCnt.toNat + 1 := by
    rw [BitVec.toNat_setWidth, hcnt]
    exact Nat.mod_eq_of_lt (by omega)
  refine Cmd.twin_bind (Cmd.twin_update rfl (Cmd.twin_bind (Cmd.twin_csr rfl (Cmd.twin_bind (Cmd.twin_update rfl ?_)))))
  refine Cmd.twin_pure ⟨⟨{ halike with node := ?_ }, hcfg, hblob, hcnt.trans_le hlt, fun id hm => ?_⟩, ?_⟩
  · show Memory.agreesOn (t.node.store _ _ ((t.nodeCnt + 1#32).setWidth 24).toNat _)
      (n.node.store _ _ ((t.nodeCnt + 1#32).setWidth 24).toNat _) 1 ((t.nodeCnt + 1#32).toNat + 1)
    rw [hid, hcnt]
    exact halike.node.push (Nat.succ_le_succ (Nat.zero_le _)) (Nat.succ_lt_succ hlt) _
  · exact ⟨(hstack id hm).1, (hstack id hm).2.trans ((Nat.le_succ _).trans hcnt.ge)⟩
  · exact ⟨hid ▸ Nat.succ_le_succ (Nat.zero_le _), hid.trans_le hcnt.ge⟩

/-- A change of an allocated node. -/
theorem twin_modifyNode {f : Node → Node} (h : ParseScan s stk t n) (hid : t.allocates id) :
    (do let x ← readNode id; writeNode id (f x)).twin (fun _ u k => ParseScan s stk u k ∧ u.nodeCnt = t.nodeCnt) t n := by
  obtain ⟨halike, hcfg, hblob, hfits, hstack⟩ := h
  refine Cmd.twin_bind (Cmd.twin_readNode halike.node hid.1 (Nat.lt_succ_of_le hid.2) fun x _ => ?_)
  exact Cmd.twin_update rfl ⟨⟨{ halike with node := halike.node.store _ _ _ _ }, hcfg, hblob, hfits, hstack⟩, rfl⟩

theorem State.allocates.of_nodeCnt (h : t.allocates id) (hu : u.nodeCnt = t.nodeCnt) : u.allocates id := by
  rw [State.allocates, hu]
  exact h

/-- The child is linked and marked, and what is left of STK is answered. -/
theorem twin_link {f : Node → Node} {parent child : NodeId} {rest : List NodeId} (h : ParseScan s stk t n)
    (hp : t.allocates parent) (hc : t.allocates child) (hrest : ∀ x ∈ rest, x ∈ stk) :
    (do
      (do let x ← readNode parent; writeNode parent (f x))
      setNodeSt child stChild
      pure rest).twin (fun stk' u k => ParseScan s stk' u k ∧ u.allocates child) t n := by
  refine Cmd.twin_then (twin_modifyNode h hp) fun _ u k ⟨hu, hucnt⟩ => ?_
  refine Cmd.twin_then (twin_modifyNode hu (hc.of_nodeCnt hucnt)) fun _ v j ⟨hv, hvcnt⟩ => ?_
  exact Cmd.twin_pure ⟨{ hv with stack := fun x hx => hv.stack x (hrest x hx) }, (hc.of_nodeCnt hucnt).of_nodeCnt hvcnt⟩

theorem twin_attach (h : ParseScan s stk t n) (hid : t.allocates id) :
    (attach id stk).twin (fun stk' u k => ParseScan s stk' u k ∧ u.allocates id) t n := by
  rw [attach.eq_def]
  refine Cmd.twin_ite (fun _ => ?_) fun _ => ?_
  · exact Cmd.twin_bind (Cmd.twin_update rfl (Cmd.twin_pure
      ⟨⟨{ h.toValidAgree with }, h.cfg, h.blobLen, h.fits, h.stack⟩, hid⟩))
  · cases stk with
    | nil => exact Cmd.twin_pure ⟨h, hid⟩
    | cons parent rest =>
      have hp := h.stack parent List.mem_cons_self
      refine Cmd.twin_bind (Cmd.twin_readNode h.node hp.1 (Nat.lt_succ_of_le hp.2) fun x _ => ?_)
      refine Cmd.twin_ite (fun _ => ?_) fun _ => ?_
      · exact twin_link h hp hid fun x hx => hx
      · exact twin_link h hp hid fun x hx => List.mem_cons_of_mem _ hx

theorem twin_openNode {r : Record} (h : ParseScan s stk t n) (hid : t.allocates id) :
    (openNode r id stk).twin (fun stk' u k => ParseScan s stk' u k) t n := by
  cases r with
  | leaf sym => exact Cmd.twin_pure h
  | internal =>
    rw [openNode]
    refine Cmd.twin_bind (Cmd.twin_csr rfl (Cmd.twin_bind (Cmd.twin_raiseIf h.toValidAgree fun _ => Cmd.twin_pure ?_)))
    exact { h with stack := List.forall_mem_cons.mpr ⟨hid, h.stack⟩ }

theorem twin_parseRecords (hk : s.cfg.kMax ≤ 2 ^ 23) (hlast : last ≤ s.blobLen.toNat) (fuel p : Nat) (h : ParseScan s stk t n) :
    (parseRecords last fuel p stk).twin (fun _ u k => ParseScan s [] u k) t n := by
  induction fuel generalizing t n p stk with
  | zero => exact Cmd.twin_raise h.toValidAgree
  | succ fuel ih =>
    rw [parseRecords]
    refine Cmd.twin_after (twin_readRecord h.toValidAgree (h.blobLen ▸ hlast)) fun r => ?_
    have halloc : (allocRecord r).twin (fun id u k => ParseScan s stk u k ∧ u.allocates id) t n := by
      cases r with
      | leaf sym => exact twin_nodeAlloc hk h
      | internal => exact twin_nodeAlloc hk h
    refine Cmd.twin_then halloc fun id u k ⟨hu, hid⟩ => ?_
    refine Cmd.twin_then (twin_attach hu hid) fun stk u k ⟨hu, hid⟩ => ?_
    refine Cmd.twin_then (twin_openNode hu hid) fun stk u k hu => ?_
    cases stk with
    | nil => exact Cmd.twin_pure hu
    | cons x rest => exact ih _ hu

theorem twin_parseSnapshot {tlen : Nat} (hk : s.cfg.kMax ≤ 2 ^ 23) (hlast : hdrLen + tlen ≤ s.blobLen.toNat)
    (h : ParseScan s [] t n) : (parseSnapshot tlen).twin (fun _ u k => ParseScan s [] u k) t n := by
  rw [parseSnapshot]
  refine Cmd.twin_ite (fun _ => ?_) fun _ => Cmd.twin_pure h
  rw [parseTree]
  exact Cmd.twin_then (twin_parseRecords hk hlast _ _ h) fun _ u k hu => Cmd.twin_raiseIf hu.toValidAgree fun _ => hu

theorem twin_get32 (h : s.ValidAgree m) (hp : p + 3 < s.blobLen.toNat) : (get32 p).twin (fun _ => stays s m) s m := by
  rw [get32]
  refine Cmd.twin_bind (Cmd.twin_readBlob h.blob (by omega) fun a => ?_)
  refine Cmd.twin_bind (Cmd.twin_readBlob h.blob (by omega) fun b => ?_)
  refine Cmd.twin_bind (Cmd.twin_readBlob h.blob (by omega) fun c => ?_)
  exact Cmd.twin_bind (Cmd.twin_readBlob h.blob hp fun d => Cmd.twin_pure stays_self)

theorem twin_readHeader (h : s.ValidAgree m) : readHeader.twin (fun _ => stays s m) s m := by
  rw [readHeader]
  refine Cmd.twin_bind (Cmd.twin_csr rfl (Cmd.twin_bind (Cmd.twin_csr rfl ?_)))
  refine Cmd.twin_bind (Cmd.twin_raiseIf h fun _ => Cmd.twin_bind (Cmd.twin_raiseIf h fun hlen => ?_))
  have h17 : 17 ≤ s.blobLen.toNat := Nat.not_lt.mp hlen
  have hmagic : (Cmd.forFrom checkMagic 4 0).twin (fun _ => stays s m) s m := by
    refine Cmd.twin_forFrom (I := fun _ => stays s m) 4 0 (fun k t n _ hk ⟨ht, hn⟩ => ?_) stays_self
    subst ht hn
    exact Cmd.twin_bind (Cmd.twin_readBlob h.blob (by omega) fun v => Cmd.twin_raiseIf h fun _ => stays_self)
  refine Cmd.twin_after hmagic fun _ => Cmd.twin_after (twin_get32 h (by omega)) fun orig => ?_
  refine Cmd.twin_bind (Cmd.twin_readBlob h.blob (by omega) fun padb => ?_)
  refine Cmd.twin_after (twin_get32 h (by omega)) fun tlen => Cmd.twin_after (twin_get32 h (by omega)) fun plen => ?_
  exact Cmd.twin_pure stays_self

theorem twin_checkHeader {hd : Header} (h : s.ValidAgree m) :
    (checkHeader hd).twin
      (fun _ t n => stays s m t n ∧ hdrLen + hd.tlen + hd.plen ≤ s.blobLen.toNat ∧ hd.plen ≤ s.cfg.pMax) s m := by
  rw [checkHeader]
  refine Cmd.twin_bind (Cmd.twin_csr rfl ?_)
  refine Cmd.twin_bind (Cmd.twin_raiseIf h fun _ => Cmd.twin_bind (Cmd.twin_raiseIf h fun _ => ?_))
  refine Cmd.twin_bind (Cmd.twin_raiseIf h fun hlen => Cmd.twin_bind (Cmd.twin_raiseIf h fun _ => ?_))
  refine Cmd.twin_bind (Cmd.twin_raiseIf h fun _ => Cmd.twin_bind (Cmd.twin_raiseIf h fun _ => ?_))
  refine Cmd.twin_bind (Cmd.twin_csr rfl ?_)
  exact Cmd.twin_raiseIf h fun hp => ⟨stays_self, Nat.not_lt.mp hlen, Nat.not_lt.mp hp⟩

/-- The state while the payload is copied: PK agrees on its first bytes. -/
structure CopyScan (s : State) (i : Nat) (t : State) (n : Memories) : Prop extends t.ValidAgree n where
  cfg : t.cfg = s.cfg
  blobLen : t.blobLen = s.blobLen
  copied : t.pk.agreesOn n.pk 0 i

theorem twin_copyPayload {base i : Nat} (hb : base + i < s.blobLen.toNat) (hi : i < s.cfg.pMax) (h : CopyScan s i t n) :
    (copyPayload base i).twin (fun _ u k => CopyScan s (i + 1) u k) t n := by
  obtain ⟨halike, hcfg, hblob, hcopied⟩ := h
  refine Cmd.twin_bind (Cmd.twin_readBlob halike.blob (hblob ▸ hb) fun v => Cmd.twin_update rfl ?_)
  exact ⟨{ halike with pk := halike.pk.store _ _ _ _ }, hcfg, hblob, hcopied.push (Nat.zero_le _) (hcfg ▸ hi) _⟩

theorem toNat_ofNat_le (k : Nat) : (BitVec.ofNat 32 k).toNat ≤ k := by
  rw [BitVec.toNat_ofNat]
  exact Nat.mod_le _ _

theorem twin_parse (hL : s.cfg.Legal) (h : s.ValidAgree m) : parse.twin (fun _ t n => t.ValidAgree n) s m := by
  have ⟨⟨_, hk, _⟩, _⟩ := hL
  have hdrop : dropArtifact.twin (fun _ t n => t = s.artifactZero ∧ n = m) s m :=
    Cmd.twin_bind (Cmd.twin_update rfl (Cmd.twin_bind (Cmd.twin_update rfl (Cmd.twin_bind (Cmd.twin_update rfl
      (Cmd.twin_update rfl ⟨rfl, rfl⟩))))))
  have hstart : s.artifactZero.ValidAgree m :=
    { h with
      node := Memory.agreesOn_empty _ _ (Nat.le_refl _)
      heap := Memory.agreesOn_empty _ _ (Nat.le_refl _)
      ct := Memory.agreesOn_empty _ _ (Nat.le_refl _)
      pk := Memory.agreesOn_empty _ _ (Nat.le_refl _) }
  rw [parse]
  refine Cmd.twin_then hdrop fun _ t n ⟨ht, hn⟩ => ?_
  subst ht hn
  refine Cmd.twin_after (twin_readHeader hstart) fun hd => ?_
  refine Cmd.twin_then (twin_checkHeader hstart) fun _ t n ⟨⟨ht, hn⟩, hlen, hp⟩ => ?_
  subst ht hn
  refine Cmd.twin_then (twin_parseSnapshot (s := s.artifactZero) hk (by omega) ⟨hstart, rfl, rfl, Nat.zero_le _, nofun⟩)
    fun _ t n ht => ?_
  refine Cmd.twin_then (Cmd.twin_forFrom (I := CopyScan s.artifactZero) hd.plen 0
    (fun i u k _ hi hu => twin_copyPayload (by omega) (by omega) hu)
    ⟨ht.toValidAgree, ht.cfg, ht.blobLen, Memory.agreesOn_empty _ _ (Nat.le_refl _)⟩) fun _ u k hu => ?_
  refine Cmd.twin_update rfl { hu.toValidAgree with pk := hu.copied.mono ?_ }
  rw [Nat.zero_add]
  exact toNat_ofNat_le _

end Sys2Proof.Machine

/-! ### DECODE run twice -/

namespace Sys2Proof.Machine

variable {s t u : State} {m n : Memories} {cur : NodeId} {count : Nat}

/-- The children of an internal node of a shape are nodes of the shape. -/
theorem children_of_holdsShape {mem : Memory Node} {ids : IdTree} (h : holdsShape mem ids) {k : Nat} (hk : k ∈ ids.ids) {x : Node}
    (hx : mem.get? k = some x) (hleaf : x.leaf = false) : x.l.toNat ∈ ids.ids ∧ x.r.toNat ∈ ids.ids := by
  induction ids with
  | leaf id =>
    obtain ⟨y, hy, hyleaf, -⟩ := h
    rw [List.mem_singleton.mp hk, hy] at hx
    rw [← Option.some.inj hx, hyleaf] at hleaf
    exact Bool.noConfusion hleaf
  | node id l r ihl ihr =>
    obtain ⟨y, _, _, hy, -, -, hl, hr, -, -, -, -, -, hsl, hsr⟩ := h
    rw [IdTree.ids, List.mem_cons, List.mem_append] at hk
    rcases hk with rfl | hk | hk
    · obtain rfl : y = x := Option.some.inj (hy.symm.trans hx)
      rw [hl, hr]
      exact ⟨List.mem_cons_of_mem _ (List.mem_append_left _ l.root_mem), List.mem_cons_of_mem _ (List.mem_append_right _ r.root_mem)⟩
    · exact (ihl hsl hk).imp (fun h => List.mem_cons_of_mem _ (List.mem_append_left _ h))
        fun h => List.mem_cons_of_mem _ (List.mem_append_left _ h)
    · exact (ihr hsr hk).imp (fun h => List.mem_cons_of_mem _ (List.mem_append_right _ h))
        fun h => List.mem_cons_of_mem _ (List.mem_append_right _ h)

/-- The children of every allocated internal node are allocated. -/
def State.closed (s : State) : Prop :=
  ∀ id x, s.allocates id → s.node.get? id.toNat = some x → x.leaf = false → s.allocates x.l ∧ s.allocates x.r

theorem closed_of_forestPart (hs : s.forestPart) : s.closed := by
  obtain ⟨-, -, ⟨_, trees, -, grove⟩, -⟩ := hs
  intro id x hid hx hleaf
  obtain ⟨ids, hmem, hk⟩ := grove.tree hid.1 hid.2
  obtain ⟨hl, hr⟩ := children_of_holdsShape (grove.shapes ids hmem) hk hx hleaf
  exact ⟨grove.range hmem hl, grove.range hmem hr⟩

/-- The state of the walk of DECODE at node `cur`, with `count` symbols emitted (R214): below an internal root every node the walk
stands at is internal. -/
structure DecodeScan (cur : NodeId) (count : Nat) (t : State) (n : Memories) : Prop extends t.ValidAgree n where
  closed : t.closed
  rooted : t.root ≠ 0#24 → t.allocates t.root
  current : t.root ≠ 0#24 → t.allocates cur
  inner : ∀ x, t.node.get? t.root.toNat = some x → x.leaf = false → ∃ y, t.node.get? cur.toNat = some y ∧ y.leaf = false
  written : t.text.agreesOn n.text 0 count
  fits : count ≤ t.cfg.nMax

theorem over_upNext (t : State) (n : Memories) : (t.over n).upNext = t.upNext.over n := by
  unfold State.upNext
  show (if t.upBit = 7#3 then _ else _) = _
  split <;> rfl

theorem twin_upPop (h : DecodeScan cur count t n) : upPop.twin (fun _ u k => DecodeScan cur count u k) t n := by
  rw [upPop]
  refine Cmd.twin_bind (Cmd.twin_csr rfl (Cmd.twin_bind (Cmd.twin_csr rfl ?_)))
  refine Cmd.twin_ite (fun _ => Cmd.twin_pure h) fun hmore => ?_
  have hbyte : t.upByte.toNat < t.pkLen.toNat := by
    rw [State.bitLen, State.upPos] at hmore
    omega
  refine Cmd.twin_bind (Cmd.twin_csr rfl (Cmd.twin_bind (Cmd.twin_csr rfl ?_)))
  refine Cmd.twin_bind (Cmd.twin_readPk h.pk hbyte fun v => ?_)
  have hover := over_upNext t n
  refine Cmd.twin_bind (Cmd.twin_update (by rw [hover]; rfl) (Cmd.twin_pure ?_))
  rw [hover, upNext_eq t]
  exact ⟨{ h.toValidAgree with }, h.closed, h.rooted, h.current, h.inner, h.written, h.fits⟩

theorem twin_emitSymbol {sym : Symbol} (h : DecodeScan cur count t n) :
    (emitSymbol count sym).twin (fun c u k => DecodeScan cur c u k) t n := by
  rw [emitSymbol]
  refine Cmd.twin_bind (Cmd.twin_csr rfl (Cmd.twin_bind (Cmd.twin_raiseIf h.toValidAgree fun hroom => ?_)))
  have hlt : count < t.cfg.nMax := Nat.lt_of_le_of_ne h.fits hroom
  refine Cmd.twin_bind (Cmd.twin_update rfl (Cmd.twin_pure ?_))
  exact ⟨{ h.toValidAgree with text := h.text.store _ _ _ _ }, h.closed, h.rooted, h.current, h.inner,
    h.written.push (Nat.zero_le _) hlt _, hlt⟩

theorem twin_decodeBit {b : Bool} (h : DecodeScan cur count t n) :
    (decodeBit cur count b).twin (fun r u k => DecodeScan r.1 r.2 u k) t n := by
  rw [decodeBit]
  refine Cmd.twin_bind (Cmd.twin_csr rfl (Cmd.twin_bind (Cmd.twin_raiseIf h.toValidAgree fun hne => ?_)))
  have hroot := h.rooted hne
  have hcur := h.current hne
  refine Cmd.twin_bind (Cmd.twin_readNode h.node hroot.1 (Nat.lt_succ_of_le hroot.2) fun top htop => ?_)
  refine Cmd.twin_ite (fun _ => ?_) fun hinner => ?_
  · refine Cmd.twin_bind (Cmd.twin_csr rfl (Cmd.twin_bind (Cmd.twin_raiseIf h.toValidAgree fun _ => ?_)))
    exact Cmd.twin_then (twin_emitSymbol h) fun _ _ _ hu => Cmd.twin_pure hu
  · obtain ⟨here, hhere, hleaf⟩ := h.inner top htop (Bool.not_eq_true _ ▸ hinner)
    refine Cmd.twin_bind (Cmd.twin_readNode h.node hcur.1 (Nat.lt_succ_of_le hcur.2) fun y hy => ?_)
    obtain rfl : here = y := Option.some.inj (hhere.symm.trans hy)
    have hnext : t.allocates (if b then here.r else here.l) := by
      obtain ⟨hl, hr⟩ := h.closed cur here hcur hhere hleaf
      split
      · exact hr
      · exact hl
    refine Cmd.twin_bind (Cmd.twin_readNode h.node hnext.1 (Nat.lt_succ_of_le hnext.2) fun x hx => ?_)
    refine Cmd.twin_ite (fun _ => ?_) fun hxinner => ?_
    · have hback : DecodeScan t.root count t n :=
        { h with current := fun _ => hroot, inner := fun x hx hx' => ⟨x, hx, hx'⟩ }
      refine Cmd.twin_then (twin_emitSymbol hback) fun _ _ _ hu => Cmd.twin_pure hu
    · exact Cmd.twin_pure { h with current := fun _ => hnext, inner := fun _ _ _ => ⟨x, hx, Bool.not_eq_true _ ▸ hxinner⟩ }

theorem twin_decodeLoop (fuel : Nat) (h : DecodeScan cur count t n) :
    (decodeLoop fuel cur count).twin (fun r u k => DecodeScan r.1 r.2 u k) t n := by
  induction fuel generalizing cur count t n with
  | zero => exact Cmd.twin_pure h
  | succ fuel ih =>
    rw [decodeLoop]
    refine Cmd.twin_then (twin_upPop h) fun b u k hu => ?_
    cases b with
    | none => exact Cmd.twin_pure hu
    | some b => exact Cmd.twin_then (twin_decodeBit hu) fun r v j hv => ih hv

theorem twin_decodeText (hs : s.forestPart) (h : s.ValidAgree m) : decodeText.twin (fun _ t n => t.ValidAgree n) s m := by
  have ⟨_, _, _, hroot, _⟩ := hs
  have hrooted : s.root ≠ 0#24 → s.allocates s.root := fun hne =>
    have ⟨h1, h2, _⟩ := hroot.resolve_left hne
    ⟨h1, h2⟩
  have hstart : DecodeScan s.root 0 s.decoding m :=
    ⟨{ h with text := Memory.agreesOn_empty _ _ (Nat.le_refl _) }, closed_of_forestPart hs, hrooted, hrooted,
      fun x hx hleaf => ⟨x, hx, hleaf⟩, Memory.agreesOn_empty _ _ (Nat.le_refl _), Nat.zero_le _⟩
  rw [decodeText]
  refine Cmd.twin_bind (Cmd.twin_update rfl (Cmd.twin_bind (Cmd.twin_update rfl ?_)))
  refine Cmd.twin_bind (Cmd.twin_csr rfl (Cmd.twin_bind (Cmd.twin_csr rfl ?_)))
  refine Cmd.twin_then (twin_decodeLoop _ hstart) fun r t n ht => ?_
  refine Cmd.twin_bind (Cmd.twin_raiseIf ht.toValidAgree fun _ => Cmd.twin_bind (Cmd.twin_csr rfl ?_))
  refine Cmd.twin_bind (Cmd.twin_raiseIf ht.toValidAgree fun _ => Cmd.twin_bind (Cmd.twin_raiseIf ht.toValidAgree fun _ => ?_))
  exact Cmd.twin_update rfl { ht.toValidAgree with text := ht.written.mono (toNat_ofNat_le _) }

end Sys2Proof.Machine

/-! ### COMPRESS and DECOMPRESS run twice -/

namespace Sys2Proof.Machine

variable {s s' t u : State} {m n : Memories} {i : Instr} {is : List Instr}

/-- From states that are alike and sound the command ends in states that are alike. -/
def KeepsAlike (i : Instr) : Prop :=
  ∀ {s t u : State} {m : Memories}, s.cfg.Legal → s.parts → s.ValidAgree m → exec i s = .next t → exec i (s.over m) = .next u → t.alike u

theorem freq_keepsAlike : KeepsAlike .freq := fun _ _ h => exec_alike (twin_freq h)
theorem build_keepsAlike : KeepsAlike .build := exec_build_alike
theorem codegen_keepsAlike : KeepsAlike .codegen := exec_codegen_alike
theorem encode_keepsAlike : KeepsAlike .encode := fun _ _ h => exec_alike (twin_encodeText h)
theorem serialize_keepsAlike : KeepsAlike .serialize := exec_serialize_alike
theorem parse_keepsAlike : KeepsAlike .parse := fun hL _ h => exec_alike (twin_parse hL h)
theorem decode_keepsAlike : KeepsAlike .decode := fun _ ⟨_, hforest, _⟩ h => exec_alike (twin_decodeText hforest h)

theorem compressStages_keepAlike (s : State) : ∀ i ∈ compressStages s, KeepsAlike i := by
  unfold compressStages
  split
  · exact List.forall_mem_singleton.mpr serialize_keepsAlike
  · simp only [List.forall_mem_cons]
    exact ⟨freq_keepsAlike, build_keepsAlike, codegen_keepsAlike, encode_keepsAlike, serialize_keepsAlike, nofun⟩

/-- Commands in turn keep states alike; the invariants hold until a fault. -/
theorem inTurn_alike (his : ∀ i ∈ is, KeepsAlike i) (hL : s.cfg.Legal) (hs : s.err = 0#8 → s.parts) (h : s.ValidAgree m)
    (ht : inTurn is s = .next t) (hu : inTurn is (s.over m) = .next u) : t.alike u := by
  induction is generalizing s m with
  | nil =>
    cases ht
    cases hu
    exact ⟨m, rfl, h⟩
  | cons i is ih =>
    obtain ⟨hi, his⟩ := List.forall_mem_cons.mp his
    by_cases herr : s.err = 0#8
    · rw [inTurn, if_neg (not_not.mpr herr)] at ht
      rw [inTurn, if_neg (not_not.mpr (show (s.over m).err = 0#8 from herr))] at hu
      cases hv : exec i s with
      | fault r => rw [hv] at ht; cases ht
      | refused r => rw [hv] at ht; cases ht
      | next v =>
        cases hw : exec i (s.over m) with
        | fault r => rw [hw] at hu; cases hu
        | refused r => rw [hw] at hu; cases hu
        | next w =>
          rw [hv] at ht
          rw [hw] at hu
          obtain ⟨n, rfl, hn⟩ := hi hL (hs herr) h hv hw
          exact ih his (exec_cfg hv ▸ hL) (exec_parts hL (hs herr) hv) hn ht hu
    · rw [inTurn_of_err herr] at ht
      rw [inTurn_of_err (s := s.over m) herr] at hu
      cases ht
      cases hu
      exact ⟨m, rfl, h⟩

theorem State.alike.underWord (h : t.alike u) (w : Word) : (t.underWord w).alike (u.underWord w) := by
  have herr := h.err
  obtain ⟨n, rfl, h⟩ := h
  by_cases h0 : t.err = 0#8
  · rw [State.underWord_of_ok h0, State.underWord_of_ok (t := t.over n) h0]
    exact ⟨n, rfl, h⟩
  · rw [State.underWord_of_err h0, State.underWord_of_err (t := t.over n) h0]
    exact ⟨n, rfl, { h with }⟩

/-- The end of commands in turn, recorded under the word of another command. -/
theorem recordedUnder_alike {w : Word} {o o' : Host.Outcome State Fault Refusal}
    (h : ∀ v v', o = .next v → o' = .next v' → v.alike v')
    (ht : recordedUnder w o = .next t) (hu : recordedUnder w o' = .next u) : t.alike u := by
  cases o with
  | fault r => cases ht
  | refused r => cases ht
  | next v =>
    cases o' with
    | fault r => cases hu
    | refused r => cases hu
    | next v' =>
      cases ht
      cases hu
      exact (h v v' rfl rfl).underWord w

/-! ### What WorkClear leaves is alike -/

theorem compressing_alike (hcfg : s'.cfg = s.cfg) (hfault : SameFault s s') (hlen : s'.textLen = s.textLen)
    (htext : s.text.agreesOn s'.text 0 s.textLen.toNat) :
    s'.compressing = s.compressing.over s'.memories ∧ s.compressing.ValidAgree s'.memories := by
  obtain ⟨herr, hinfo, hcmd⟩ := hfault
  refine ⟨?_, ⟨htext, ?_, ?_, ?_, ?_, ?_, ?_⟩⟩
  · simp only [State.compressing, State.workZero, State.over, State.memories, hcfg, herr, hinfo, hcmd, hlen]
  all_goals exact Memory.agreesOn_empty _ _ (Nat.le_refl _)

theorem decompressing_alike (hcfg : s'.cfg = s.cfg) (hfault : SameFault s s') (hlen : s'.blobLen = s.blobLen)
    (hblob : s.blob.agreesOn s'.blob 0 s.blobLen.toNat) :
    s'.decompressing = s.decompressing.over s'.memories ∧ s.decompressing.ValidAgree s'.memories := by
  obtain ⟨herr, hinfo, hcmd⟩ := hfault
  refine ⟨?_, ⟨?_, hblob, ?_, ?_, ?_, ?_, ?_⟩⟩
  · simp only [State.decompressing, State.workZero, State.over, State.memories, hcfg, herr, hinfo, hcmd, hlen]
  all_goals exact Memory.agreesOn_empty _ _ (Nat.le_refl _)

theorem compress_alike (hL : s.cfg.Legal) (herr : s.err = 0#8) (hcfg : s'.cfg = s.cfg) (hfault : SameFault s s')
    (hlen : s'.textLen = s.textLen)
    (htext : s.text.agreesOn s'.text 0 s.textLen.toNat) (ht : exec .compress s = .next t) (hu : exec .compress s' = .next u) :
    t.alike u := by
  obtain ⟨hover, halike⟩ := compressing_alike hcfg hfault hlen htext
  have herr' : s'.err = 0#8 := hfault.1.trans herr
  by_cases hn : s.textLen.toNat ≤ s.cfg.nMax
  · have hstages : compressStages s' = compressStages s := by rw [compressStages, hlen, compressStages]
    rw [exec_compress_eq herr hn] at ht
    rw [exec_compress_eq herr' (by rw [hlen, hcfg]; exact hn), hstages, hover] at hu
    exact recordedUnder_alike (fun v v' hv hv' => inTurn_alike (s := s.compressing) (compressStages_keepAlike s) hL
      (fun _ => workCleared_parts { s with blobLen := 0#32 }) halike hv hv') ht hu
  · have hlong := Nat.lt_of_not_le hn
    rw [exec_compress_tooLong hlong] at ht
    rw [exec_compress_tooLong (by rw [hlen, hcfg]; exact hlong), hover] at hu
    cases ht
    cases hu
    exact State.alike.faulted (s := s.compressing) ⟨_, rfl, halike⟩ _ _ _

theorem decompress_alike (hL : s.cfg.Legal) (herr : s.err = 0#8) (hcfg : s'.cfg = s.cfg) (hfault : SameFault s s')
    (hlen : s'.blobLen = s.blobLen)
    (hblob : s.blob.agreesOn s'.blob 0 s.blobLen.toNat) (ht : exec .decompress s = .next t) (hu : exec .decompress s' = .next u) :
    t.alike u := by
  obtain ⟨hover, halike⟩ := decompressing_alike hcfg hfault hlen hblob
  rw [exec_decompress_eq herr] at ht
  rw [exec_decompress_eq (hfault.1.trans herr), hover] at hu
  have hstages : ∀ i ∈ [Instr.parse, .decode], KeepsAlike i := by
    simp only [List.forall_mem_cons]
    exact ⟨parse_keepsAlike, decode_keepsAlike, nofun⟩
  exact recordedUnder_alike (fun v v' hv hv' => inTurn_alike (s := s.decompressing) hstages hL
    (fun _ => workCleared_parts { s with textLen := 0#32 }) halike hv hv') ht hu

/-- Settles O56: after WorkClear two calls on the same input are alike, and each stage keeps them so. -/
theorem callsDependOnTheirInputAlone : Obligations.CallsDependOnTheirInputAlone := by
  intro s s' t t' hL hcfg herr herr' hinfo hcmd
  have hfault : SameFault s s' := ⟨herr'.trans herr.symm, hinfo, hcmd⟩
  exact ⟨fun hlen htext ht ht' => (compress_alike hL herr hcfg hfault hlen (fun k _ => htext k) ht ht').agrees,
    fun hlen hblob ht ht' => (decompress_alike hL herr hcfg hfault hlen (fun k _ => hblob k) ht ht').agrees⟩

end Sys2Proof.Machine

/-! # Proofs of the family 60_exceptions.md -/

/-! ## Which faults a command raises, and what a fault leaves (R231, R232) -/

namespace Sys2Proof.Machine

variable {α β : Type} {P : State → Prop} {F : List FaultCode} {s t : State} {i : Instr}

/-! ### A command that ends in a fault -/

/-- No rule records a fault itself: the fault entry after it does, and CLEAR records none (R232, R234). -/
theorem ruleOf_noFault (i : Instr) : Cmd.Inv (fun u => u.err = 0#8) (ruleOf i) := by
  by_cases hi : i = .clear
  · subst hi
    exact .update fun _ _ => rfl
  · intro s h0
    have same (u : State) (hu : SameFault s u) : u.err = 0#8 := hu.1.trans h0
    exact Cmd.wp_mono (ruleOf_sameFault hi s s ⟨rfl, rfl, rfl⟩) (fun _ => same) fun _ => same

/-- What holds of the state at each raise of a command's rule, with the fault recorded, holds of a next state that has a fault. -/
theorem exec_at_fault
    (hc : Cmd.wp (ruleOf i) (fun _ _ => True) (fun e u => ∀ code info, e = .raise code info → P (takeFault code info (encodeInstr i) u)) s)
    (h0 : s.err = 0#8) (h : exec i s = .next t) (hfault : t.err ≠ 0#8) : P t := by
  rw [exec_eq_runCommand] at h
  refine runCommand_next (P := fun u => u.err ≠ 0#8 → P u) (Cmd.wp_mono (Cmd.wp_and hc (ruleOf_noFault i s h0)) ?_ ?_) h hfault
  · exact fun _ u hu hne => absurd hu.2 hne
  · exact fun _ _ hu code info he _ => hu.1 code info he

/-! ### The faults of each rule (R231) -/

theorem pqInsertRule_raises (hF : .capacity ∈ F) (hN : .badNode ∈ F) (n : NodeId) : Cmd.Raises F (pqInsertRule n) :=
  .bind (.csr _) fun _ => .bind (.raiseIf _ hN _) fun _ => .bind (readNode_raises _) fun _ => .bind (.raiseIf _ hN _) fun _ =>
    .bind (.csr _) fun _ => .bind (.raiseIf _ hN _) fun _ => pqInsert_raises hF n

theorem pqExtractRule_raises : Cmd.Raises F pqExtractRule :=
  .bind (.csr _) fun _ => .ite _ (.update _) (.bind pqExtract_raises fun _ => .update _)

theorem setRootRule_raises (hN : .badNode ∈ F) (n : NodeId) : Cmd.Raises F (setRootRule n) :=
  .bind (.csr _) fun _ => .bind (.raiseIf _ hN _) fun _ => .bind (readNode_raises _) fun _ => .bind (.raiseIf _ hN _) fun _ =>
    .update _

theorem pkPushRule_raises (hF : .capacity ∈ F) (hS : .seq ∈ F) (len : BitVec 5) (bits : BitVec 16) :
    Cmd.Raises F (pkPushRule len bits) :=
  .bind (.csr _) fun _ => .bind (.raiseIf _ hS _) fun _ => .forBits (pkPushBit_raises hF) _

theorem pkFlushRule_raises (hF : .capacity ∈ F) (hS : .seq ∈ F) : Cmd.Raises F pkFlushRule :=
  .bind (.csr _) fun _ => .bind (.raiseIf _ hS _) fun _ => pkFlush_raises hF

theorem upPopRule_raises : Cmd.Raises F upPopRule := by
  refine .bind upPop_raises fun b => ?_
  cases b
  · exact .update _
  · exact .update _

/-- The fault codes with these numbers (R231). -/
def FaultCode.numbered (l : List Nat) : List FaultCode :=
  [.malformed, .corruptTree, .truncated, .illegal, .capacity, .badSymbol, .badNode, .empty, .noCode, .seq].filter
    fun code => code.number.toNat ∈ l

theorem FaultCode.mem_numbered {code : FaultCode} {l : List Nat} : code ∈ FaultCode.numbered l ↔ code.number.toNat ∈ l := by
  rw [FaultCode.numbered, List.mem_filter, decide_eq_true_iff]
  exact and_iff_right (by cases code <;> decide)

/-- Every rule but COMPRESS's raises none but the command's fault codes, from any state. -/
theorem ruleOf_raises (hi : i ≠ .compress) : Cmd.Raises (FaultCode.numbered (faultCodes i)) (ruleOf i) := by
  cases i with
  | nop => exact .pure ()
  | clear => exact .update _
  | pqInsert n => exact pqInsertRule_raises (F := FaultCode.numbered [5, 7]) (by decide) (by decide) n
  | pqExtract => exact pqExtractRule_raises
  | freq => exact freq_raises (by decide) (by decide)
  | leaves => exact leaves_raises (by decide)
  | combine => exact combine_raises (by decide) (by decide)
  | build => exact build_raises (by decide) (by decide)
  | setRoot n => exact setRootRule_raises (F := FaultCode.numbered [7]) (by decide) n
  | codegen => exact codeGen_raises (by decide)
  | encode => exact encodeText_raises (by decide) (by decide)
  | pkInit => exact .update _
  | pkPush len bits => exact pkPushRule_raises (F := FaultCode.numbered [5, 10]) (by decide) (by decide) len bits
  | pkFlush => exact pkFlushRule_raises (by decide) (by decide)
  | upInit => exact .update _
  | upPop => exact upPopRule_raises
  | decode => exact decodeText_raises (by decide) (by decide) (by decide) (by decide) (by decide)
  | serialize => exact serialize_raises (by decide) (by decide) (by decide)
  | parse => exact parse_raises (by decide) (by decide) (by decide) (by decide)
  | compress => exact absurd rfl hi
  | decompress => exact decompressRule_raises.mono (by decide)

/-- Settles O10: the fault recorded is one that the rule raises; COMPRESS's rule is the one that needs a legal configuration. -/
theorem faultsOfEachCommand : Obligations.FaultsOfEachCommand := by
  intro i s t hL h0 h hfault
  refine exec_at_fault (P := fun t => t.err.toNat ∈ faultCodes i ∨ (i = .compress ∧ t.err = 9#8 ∧
    ∃ k, k < s.textLen.toNat ∧ s.text.get? k = none)) ?_ h0 h hfault
  by_cases hi : i = .compress
  · subst hi
    refine Cmd.wp_mono (compressRule_raises hL) (fun _ _ _ => trivial) fun e u he code info hraise => ?_
    rcases he code info hraise with hcode | ⟨rfl, hfree⟩
    · have numbered : ∀ code ∈ [FaultCode.capacity, .badSymbol], code.number.toNat ∈ faultCodes .compress := by decide
      exact .inl (numbered code hcode)
    · exact .inr ⟨rfl, rfl, hfree⟩
  · exact Cmd.wp_mono (ruleOf_raises hi s) (fun _ _ _ => trivial) fun e u he code info hraise =>
      .inl (FaultCode.mem_numbered.mp (he code info hraise))

/-! ### The length register of the output at a fault (R232) -/

/-- Where the rule stops, `P` still holds; its normal end may have written the length. -/
def Cmd.StopsIn (P : State → Prop) (c : Cmd α) : Prop := ∀ s, P s → Cmd.wp c (fun _ _ => True) (fun _ t => P t) s

theorem Cmd.Inv.stopsIn {c : Cmd α} (h : Cmd.Inv P c) : Cmd.StopsIn P c := fun s hs =>
  Cmd.wp_mono (h s hs) (fun _ _ _ => trivial) fun _ _ ht => ht

theorem Cmd.StopsIn.bind {c : Cmd β} {f : β → Cmd α} (hc : Cmd.Inv P c) (hf : ∀ b, Cmd.StopsIn P (f b)) : Cmd.StopsIn P (c >>= f) :=
  fun s hs => Cmd.wp_then (hc s hs) (fun b t ht => hf b t ht) fun _ _ ht => ht

theorem Cmd.StopsIn.update (f : State → State) : Cmd.StopsIn P (Cmd.update f) := fun _ _ => trivial

theorem Cmd.StopsIn.ite (c : Prop) [Decidable c] {x y : Cmd α} (hx : Cmd.StopsIn P x) (hy : Cmd.StopsIn P y) :
    Cmd.StopsIn P (if c then x else y) := by
  split
  · exact hx
  · exact hy

/-- A rule that begins with a write that makes `P` hold stops with `P`, whatever it starts from. -/
theorem Cmd.StopsIn.wp_after_update {f : State → State} {c : Cmd α} (hf : P (f s)) (hc : Cmd.StopsIn P c) :
    Cmd.wp (Cmd.update f >>= fun _ => c) (fun _ _ => True) (fun _ t => P t) s := by
  rw [Cmd.wp_bind, Cmd.wp_update]
  exact hc _ hf

theorem emitHeader_inv (hb : State.onBlob P) : Cmd.Inv P emitHeader :=
  .bind (emitAll_inv hb _ _) fun _ => .bind (.csr _) fun _ => .bind (emitAll_inv hb _ _) fun _ => .bind (.csr _) fun _ => emit_inv hb _ _

theorem emitTree_inv (hd : State.onDraws P) (hb : State.onBlob P) : Cmd.Inv P emitTree :=
  .bind (.csr _) fun _ => .bind (.csr _) fun _ => .ite _ (snapshotWalk_inv hd hb _ _ _) (.pure _)

theorem emitLengths_inv (hb : State.onBlob P) (p : Nat) : Cmd.Inv P (emitLengths p) :=
  .bind (emitAll_inv hb _ _) fun _ => .bind (.csr _) fun _ => emitAll_inv hb _ _

theorem emitPayload_inv (hd : State.onDraws P) (hb : State.onBlob P) (p i : Nat) : Cmd.Inv P (emitPayload p i) :=
  .bind (readPk_inv hd i) fun _ => emit_inv hb _ _

/-- SERIALIZE sets BLOB_LEN to 0 first and to the container's length last (44_container.md R193). -/
theorem serialize_stopsEmpty (s : State) : Cmd.wp serialize (fun _ _ => True) (fun _ t => t.blobLen = 0#32) s :=
  have hd : State.onDraws fun t => t.blobLen = 0#32 := fun _ _ h => h
  have hb : State.onBlob fun t => t.blobLen = 0#32 := fun _ _ _ h => h
  Cmd.StopsIn.wp_after_update rfl <| .bind (.csr _) fun _ => .bind (.raiseIf _ _ _) fun _ => .bind (.csr _) fun _ => .bind (.csr _) fun _ =>
    .bind (.csr _) fun _ => .bind (.raiseIf _ _ _) fun _ => .bind (emitHeader_inv hb) fun _ => .bind (emitTree_inv hd hb) fun p =>
    .bind (emitLengths_inv hb p) fun _ => .bind (.forFrom (emitPayload_inv hd hb p) _ _) fun _ => .update _

/-- COMPRESS sets BLOB_LEN to 0 before its stages, of which SERIALIZE alone writes it (45_codec_engine.md R212). -/
theorem compressRule_stopsEmpty (s : State) : Cmd.wp compressRule (fun _ _ => True) (fun _ t => t.blobLen = 0#32) s := by
  have hd : State.onDraws fun t => t.blobLen = 0#32 := fun _ _ h => h
  have hn : State.onNode fun t => t.blobLen = 0#32 := fun _ _ _ h => h
  have hc : State.onNodeCnt fun t => t.blobLen = 0#32 := fun _ _ h => h
  rw [compressRule, Cmd.wp_bind, workClear, Cmd.wp_update]
  exact Cmd.StopsIn.wp_after_update rfl <| .bind (.csr _) fun _ => .bind (.csr _) fun _ => .bind (.raiseIf _ _ _) fun _ =>
    .ite _ (fun s _ => serialize_stopsEmpty s)
      (.bind (freq_inv hd ⟨fun _ _ _ h => h, fun _ _ h => h⟩) fun _ =>
        .bind (build_inv hd ⟨fun _ _ _ h => h, fun _ _ h => h⟩ hn hc ⟨fun _ _ h => h, fun _ _ h => h⟩ fun _ _ h => h) fun _ =>
        .bind (codeGen_inv hd ⟨fun _ _ _ h => h, fun _ _ h => h⟩) fun _ =>
        .bind (encodeText_inv hd ⟨fun _ _ _ h => h, fun _ _ _ _ _ h => h⟩ fun _ _ h => h) fun _ => fun s _ => serialize_stopsEmpty s)

/-- DECODE sets TEXT_LEN to 0 first and to the number of symbols last (45_codec_engine.md R214). -/
theorem decodeText_stopsEmpty (s : State) : Cmd.wp decodeText (fun _ _ => True) (fun _ t => t.textLen = 0#32) s :=
  Cmd.StopsIn.wp_after_update rfl <| .bind (upInit_inv fun _ _ _ h => h) fun _ => .bind (.csr _) fun _ => .bind (.csr _) fun _ =>
    .bind (decodeLoop_inv (fun _ _ h => h) (fun _ _ _ h => h) (fun _ _ _ h => h) _ _ _) fun _ => .bind (.raiseIf _ _ _) fun _ =>
    .bind (.csr _) fun _ => .bind (.raiseIf _ _ _) fun _ => .bind (.raiseIf _ _ _) fun _ => .update _

/-- DECOMPRESS sets TEXT_LEN to 0 before its stages, of which DECODE alone writes it (45_codec_engine.md R213). -/
theorem decompressRule_stopsEmpty (s : State) : Cmd.wp decompressRule (fun _ _ => True) (fun _ t => t.textLen = 0#32) s := by
  rw [decompressRule, Cmd.wp_bind, workClear, Cmd.wp_update]
  exact Cmd.StopsIn.wp_after_update rfl <| .bind
    (parse_inv (fun _ _ h => h) (fun _ _ h => h) (fun _ _ _ h => h) (fun _ _ h => h) ⟨fun _ _ h => h, fun _ _ h => h⟩
      ⟨fun _ _ _ h => h, fun _ _ _ _ _ h => h⟩ (fun _ _ _ h => h) fun _ _ h => h)
    fun _ s _ => decodeText_stopsEmpty s

/-- No bit string and no text length are loaded: what PARSE writes last (44_container.md R194). -/
def State.noPayload (t : State) : Prop := t.pkLen = 0#32 ∧ t.pad = 0#3 ∧ t.origLen = 0#32

theorem parseSnapshot_inv (hd : State.onDraws P) (hn : State.onNode P) (hc : State.onNodeCnt P) (hr : State.onRoot P) (tlen : Nat) :
    Cmd.Inv P (parseSnapshot tlen) :=
  .ite _ (.bind (parseRecords_inv hd hn hc hr _ _ _ _) fun _ => .raiseIf _ _ _) (.pure ())

/-- PARSE drops the old payload first and writes the three lengths of the new one last (44_container.md R194). -/
theorem parse_stopsEmpty (s : State) : Cmd.wp parse (fun _ _ => True) (fun _ t => t.noPayload) s := by
  have hd : State.onDraws State.noPayload := fun _ _ h => h
  have dropped : Cmd.wp dropArtifact (fun _ t => t.noPayload) (fun _ t => t.noPayload) s := ⟨rfl, rfl, rfl⟩
  refine Cmd.wp_then dropped (fun _ => Cmd.StopsIn.bind (readHeader_inv hd) fun h => ?_) fun _ _ ht => ht
  exact .bind (checkHeader_inv h) fun _ =>
    .bind (parseSnapshot_inv hd (fun _ _ _ h => h) (fun _ _ h => h) ⟨fun _ _ h => h, fun _ _ h => h⟩ _) fun _ =>
    .bind (.forFrom (copyPayload_inv hd (fun _ _ _ h => h) _) _ _) fun _ => .update _

/-- ENCODE past its first check sets ORIG_LEN to 0 before its loop and to TEXT_LEN last (42_code_table.md R151). -/
theorem encodeText_stopsEmpty (hn : s.textLen.toNat ≤ s.cfg.nMax) :
    Cmd.wp encodeText (fun _ _ => True) (fun _ t => t.origLen = 0#32) s := by
  have hd : State.onDraws fun t => t.origLen = 0#32 := fun _ _ h => h
  have hp : State.onPacker fun t => t.origLen = 0#32 := ⟨fun _ _ _ h => h, fun _ _ _ _ _ h => h⟩
  exact wp_encodeText hn (Cmd.wp_mono (Cmd.Inv.forFrom (encodeStep_inv hd hp) _ _ s.encoding rfl)
    (fun _ => (pkFlush_inv hp).stopsIn) fun _ _ ht => ht)

/-- Settles O11: each rule stops with the length register that it set to 0 before it writes its output. -/
theorem noPartialOutputAfterAFault : Obligations.NoPartialOutputAfterAFault := by
  intro i s t h0 h hfault
  have at_fault {P : State → Prop} (hP : State.onErr P) (hc : Cmd.wp (ruleOf i) (fun _ _ => True) (fun _ u => P u) s) : P t :=
    exec_at_fault (Cmd.wp_mono hc (fun _ _ _ => trivial) fun _ u hu code info _ => takeFault_inv hP _ u code info hu) h0 h hfault
  refine ⟨?_, ?_, ?_, ?_⟩
  · rintro (rfl | rfl)
    · exact at_fault (fun _ _ _ _ h => h) (serialize_stopsEmpty s)
    · exact at_fault (fun _ _ _ _ h => h) (compressRule_stopsEmpty s)
  · rintro (rfl | rfl)
    · exact at_fault (fun _ _ _ _ h => h) (decodeText_stopsEmpty s)
    · exact at_fault (fun _ _ _ _ h => h) (decompressRule_stopsEmpty s)
  · rintro rfl
    exact at_fault (P := State.noPayload) (fun _ _ _ _ h => h) (parse_stopsEmpty s)
  · rintro rfl hn
    exact at_fault (fun _ _ _ _ h => h) (encodeText_stopsEmpty hn)

end Sys2Proof.Machine

/-! ## The fault state (R233, R234) -/

namespace Sys2Proof.Machine

variable {s t : State} {addr v w : Word}

/-- An address is its space and its offset put together (20_memory.md R61). -/
theorem eq_portAddr {space offset : Nat} (hs : spaceOf addr = space) (ho : offsetOf addr = offset) :
    addr = portAddr (BitVec.ofNat 4 space) offset := by
  subst hs ho
  have := addr.isLt
  apply BitVec.eq_of_toNat_eq
  rw [portAddr, toNat_append_eq, BitVec.toNat_ofNat, BitVec.toNat_ofNat, spaceOf_toNat, offsetOf_toNat]
  omega

/-- What a host write does (20_memory.md R63): it issues a command word, stores in the one place its address names, or is refused. -/
theorem hostWrite_cases (h : hostWrite addr v s = .next t) :
    (addr = portAddr 0#4 0x00 ∧ issue v { s with reply := some .done } = .next t) ∨
      (addr = portAddr 0#4 0x06 ∧ t = { s with textLen := v, reply := some .done }) ∨
      (addr = portAddr 0#4 0x07 ∧ t = { s with blobLen := v, reply := some .done }) ∨
      (∃ i, i < s.cfg.nMax ∧ addr = portAddr 1#4 i ∧ t = { s.storeText i v with reply := some .done }) ∨
      (∃ i, i < s.cfg.bMax ∧ addr = portAddr 2#4 i ∧ t = { s.storeBlob i (v.extractLsb' 0 8) with reply := some .done }) ∨
      t = { s with reply := some .busError } := by
  unfold hostWrite at h
  split at h
  case h_1 hs =>
    split at h
    case h_1 ho => exact .inl ⟨eq_portAddr hs ho, h⟩
    all_goals cases h
    case h_2 ho => exact .inr (.inl ⟨eq_portAddr hs ho, rfl⟩)
    case h_3 ho => exact .inr (.inr (.inl ⟨eq_portAddr hs ho, rfl⟩))
    case h_4 => simp
  case h_2 hs =>
    split at h <;> cases h
    case isTrue hi => exact .inr (.inr (.inr (.inl ⟨_, hi, eq_portAddr hs rfl, rfl⟩)))
    case isFalse => simp
  case h_3 hs =>
    split at h <;> cases h
    case isTrue hi => exact .inr (.inr (.inr (.inr (.inl ⟨_, hi, eq_portAddr hs rfl, rfl⟩))))
    case isFalse => simp
  case h_4 => cases h; simp

/-- In the fault state a word to CMD is discarded, but for CLEAR, which leaves the fault state (R234, R235). -/
theorem issue_in_fault (h : issue w s = .next t) (herr : s.err ≠ 0#8) : t = s ∨ (w = encodeInstr .clear ∧ t.err = 0#8) := by
  by_cases hw : w = encodeInstr .clear
  · rw [issue_command (.inr hw) (by rw [hw]; exact Laws.RoundTrip.clear rfl)] at h
    cases h
    exact .inr ⟨hw, rfl⟩
  · rw [issue_discarded herr hw] at h
    cases h
    exact .inl rfl

/-- A host read leaves everything but the number of free values (20_memory.md R62). -/
theorem hostRead_frame (addr : Word) (s : State) : ∃ n, (hostRead addr s).2 = { s with draws := n } := by
  by_cases hr : hostReadable s.cfg addr
  · obtain ⟨v, n, h⟩ := (hostRead_answers addr s).2 hr
    exact ⟨n, by rw [h]⟩
  · exact ⟨s.draws, by rw [(hostRead_answers addr s).1 hr]⟩

/-- Settles O8: by what the step takes; in the fault state only CLEAR runs, and each store of the host changes one place. -/
theorem faultStateKeepsTheEvidence : Obligations.FaultStateKeepsTheEvidence := by
  intro s t herr h
  cases hin : s.inbox with
  | nil =>
    rw [step_idle hin] at h
    cases h
    exact .inr ⟨rfl, by simp⟩
  | cons tx rest =>
    cases tx with
    | read addr =>
      rw [step_read hin] at h
      obtain ⟨n, hn⟩ := hostRead_frame addr { s with inbox := rest }
      rw [hn] at h
      cases h
      exact .inr ⟨rfl, by simp⟩
    | reset =>
      rw [step_reset hin] at h
      cases h
      exact .inl ⟨rest, .inr rfl, rfl⟩
    | write addr v =>
      rw [step_write hin] at h
      rcases hostWrite_cases h with ⟨rfl, hissue⟩ | ⟨rfl, rfl⟩ | ⟨rfl, rfl⟩ | ⟨i, hi, rfl, rfl⟩ | ⟨i, hi, rfl, rfl⟩ | rfl
      · rcases issue_in_fault hissue herr with rfl | ⟨rfl, hclear⟩
        · exact .inr ⟨rfl, by simp⟩
        · exact .inl ⟨rest, .inl rfl, hclear⟩
      · exact .inr ⟨rfl, by simp⟩
      · exact .inr ⟨rfl, by simp⟩
      · exact .inr ⟨rfl, by simp, by simp, fun _ => ⟨i, v, rest, hi, rfl, fun k => Memory.get?_store_other _ _ _ _⟩, by simp⟩
      · exact .inr ⟨rfl, by simp, by simp, by simp, fun _ => ⟨i, v, rest, hi, rfl, fun k => Memory.get?_store_other _ _ _ _⟩⟩
      · exact .inr ⟨rfl, by simp⟩

end Sys2Proof.Machine

/-! ## The reset event (70_reset_and_hazards.md) -/

namespace Sys2Proof.Machine

/-- Settles O7: the step that takes the event ends in `State.afterReset`, the state after reset with the transactions still to come
and the draw count kept. -/
theorem resetEvent : Obligations.ResetEvent := by
  intro s rest hin
  calc step s = .next (State.afterReset { s with inbox := rest }) := step_reset hin
    _ = .next { State.resetIn s.cfg with inbox := rest, draws := s.draws } := by rw [State.afterReset]

end Sys2Proof.Machine
